-- ==== Sys2Proof/Word.lean ====
section
/-! DEFINITION. The words, binary32 values, complex values and GF(2^6) elements of the block
(00_scope R11, R12, R13, R15). -/

namespace Sys2Proof

/-- A word of the command stream, the event stream or a register: 32 bits (00_scope R11). -/
abbrev Word := BitVec 32

/-- An element of GF(2^6), its bits the coefficients of the polynomial in `a` (00_scope R15). -/
abbrev Gf := BitVec 6

/-- A binary32 value (00_scope R12). The spec computes with values, so all NaN patterns are one
value here (log 8); a finite value is its sign, its biased exponent 0..254 and its fraction. -/
inductive F32 where
  | nan
  | inf (neg : Bool)
  | fin (neg : Bool) (exp : Fin 255) (frac : BitVec 23)
  deriving DecidableEq, Repr, Inhabited

/-- A complex value, the "(in-phase, quadrature) float pair" of 00_scope R13. -/
structure Cplx where
  re : F32
  im : F32
  deriving DecidableEq, Repr, Inhabited

/-- A block of `n` bits, bit 0 the first one received (00_scope R10). -/
abbrev Block (n : Nat) := Fin n → Bool

end Sys2Proof
end

