-- ==== Sys2Proof/Syntax.lean ====
section
/-! DEFINITION. The instructions: 16 host commands (30_encoding R115) and 15 state handlers
(30_encoding R130), one constructor per row of spec/opcode_table.json. -/

namespace Sys2Proof

/-- A dibit, "one of 4 variants, each carrying two boolean bit values" (41_slicer R200). -/
inductive Dibit where
  | d00 | d01 | d10 | d11
  deriving DecidableEq, Repr, Inhabited

/-- One of the N_SLOTS = 2 assembler slots (10_state R57). -/
inductive SlotId where
  | s0 | s1
  deriving DecidableEq, Repr, Inhabited

/-- The state of an assembler slot, in the order of its 4-bit codes 0 to 14 (10_state R60). Code 15
is no state. -/
inductive StateCode where
  | nid | hdu | ldu1 | ldu2 | tdu | tdulc | tsbk1 | tsbk2 | tsbk3
  | pdu0 | pdu1 | pdu2 | pdu3 | pduc | unknown
  deriving DecidableEq, Repr, Inhabited

/-- An instruction of the block. A host command carries its operand fields (30_encoding R113) and
payload words; a handler carries the slot it runs on (43_duid R271; log 4). -/
inductive Instr where
  /-- NOP, 46_host_commands R431 -/
  | nop
  /-- SAMPLE, R445: the in-phase and quadrature payload words -/
  | sample (i q : Word)
  /-- DIBIT, R446 -/
  | dibit (d : Dibit)
  /-- DIBIT8, R447: 1 to 8 dibits, in the order they are fed -/
  | dibit8 (ds : List Dibit)
  /-- WRREG, R433 -/
  | wrreg (addr : BitVec 8) (value : Word)
  /-- RDREG, R434 -/
  | rdreg (addr : BitVec 8)
  /-- SCRWR, R435 -/
  | scrwr (idx : BitVec 4) (value : Word)
  /-- SCRRD, R436 -/
  | scrrd (idx : BitVec 4)
  /-- SRESET, R432 -/
  | sreset
  /-- BCH, R437 -/
  | bch
  /-- RS, R438: the capability T, 1 to 31 -/
  | rs (t : BitVec 5)
  /-- TR12, R439 -/
  | tr12
  /-- TR34, R440 -/
  | tr34
  /-- CRC, R441: the range length NB, 17 to 496, and FIX -/
  | crc (nb : BitVec 9) (fix : Bool)
  /-- DEINT, R442 -/
  | deint
  /-- INTLV, R443 -/
  | intlv
  /-- handler NID, 43_duid R272 -/
  | stateNid (k : SlotId)
  /-- handler HDU, R274 -/
  | stateHdu (k : SlotId)
  /-- handler LDU1, R275 -/
  | stateLdu1 (k : SlotId)
  /-- handler LDU2, R276 -/
  | stateLdu2 (k : SlotId)
  /-- handler TDU, R277 -/
  | stateTdu (k : SlotId)
  /-- handler TDULC, R278 -/
  | stateTdulc (k : SlotId)
  /-- handler TSBK1, R285 -/
  | stateTsbk1 (k : SlotId)
  /-- handler TSBK2, R286 -/
  | stateTsbk2 (k : SlotId)
  /-- handler TSBK3, R287 -/
  | stateTsbk3 (k : SlotId)
  /-- handler PDU0, R293 -/
  | statePdu0 (k : SlotId)
  /-- handler PDU1, R294 -/
  | statePdu1 (k : SlotId)
  /-- handler PDU2, R295 -/
  | statePdu2 (k : SlotId)
  /-- handler PDU3, R296 -/
  | statePdu3 (k : SlotId)
  /-- handler PDUC, R300 -/
  | statePduc (k : SlotId)
  /-- handler UNKNOWN, R279 -/
  | stateUnknown (k : SlotId)
  deriving DecidableEq, Repr

end Sys2Proof
end

