-- ==== Sys2Proof/Machine/Bits.lean ====
section
/-! DEFINITION. Bit strings as lists of bits, first bit first (00_scope R10), their reading as
numbers and words, and the small operations on dibits, slots and state codes. -/

namespace Sys2Proof.Machine

/-- `nat(B)`: a bit string read as a number, most significant bit first (00_scope R10). -/
def natOfBits (bs : List Bool) : Nat := bs.foldl (fun acc b => 2 * acc + b.toNat) 0

/-- The `n`-bit string of a number, most significant bit first (00_scope R10). -/
def bitsOfNat : Nat → Nat → List Bool
  | 0, _ => []
  | n + 1, v => v.testBit n :: bitsOfNat n v

/-- The 32-bit string a word carries, bit 31 first (20_memory R83). -/
def bitsOfWord (w : Word) : List Bool := bitsOfNat 32 w.toNat

/-- One payload word of up to 32 record bits, its unused low bits 0 (30_encoding R126). -/
def packWord (bs : List Bool) : Word :=
  BitVec.ofNat 32 (natOfBits bs * 2 ^ (32 - bs.length))

/-- `n` payload words of a bit string, 32 bits a word (30_encoding R126). -/
def packWords : Nat → List Bool → List Word
  | 0, _ => []
  | n + 1, bs => packWord (bs.take 32) :: packWords n (bs.drop 32)

/-- The payload of a record: ceil(LEN/32) words (30_encoding R126). -/
def recordWords (bs : List Bool) : List Word := packWords ((bs.length + 31) / 32) bs

/-- A block of bits as a bit string. -/
def blockBits {n : Nat} (b : Block n) : List Bool := List.ofFn b

/-- The string with the bit at index `p` flipped. -/
def flipBit (bs : List Bool) (p : Nat) : List Bool := bs.modify p (!·)

/-! ## Dibits (41_slicer R200 to R205) -/

/-- The first bit of a dibit, b1. -/
def dibitB1 : Dibit → Bool
  | .d00 => false
  | .d01 => false
  | .d10 => true
  | .d11 => true

/-- The second bit of a dibit, b2. -/
def dibitB2 : Dibit → Bool
  | .d00 => false
  | .d01 => true
  | .d10 => false
  | .d11 => true

/-- LOW(Dxy) = 2x + y, the dibit in command and event fields (41_slicer R202). -/
def dibitLow (d : Dibit) : BitVec 2 :=
  match d with
  | .d00 => 0#2
  | .d01 => 1#2
  | .d10 => 2#2
  | .d11 => 3#2

/-- HIGH(Dxy) = LOW << 2 (41_slicer R202); the block does not use it. -/
def dibitHigh (d : Dibit) : BitVec 4 := (dibitLow d).zeroExtend 4 <<< 2

/-- The dibit of a 2-bit field. -/
def dibitOfLow (v : BitVec 2) : Dibit :=
  match v.getLsbD 1, v.getLsbD 0 with
  | false, false => .d00
  | false, true => .d01
  | true, false => .d10
  | true, true => .d11

/-- INV, the total inverted table (41_slicer R205). -/
def dibitInv : Dibit → Dibit
  | .d00 => .d10
  | .d01 => .d11
  | .d10 => .d00
  | .d11 => .d01

/-! ## Slots and state codes -/

/-- The number of a slot. -/
def slotNum : SlotId → Nat
  | .s0 => 0
  | .s1 => 1

/-- The 4-bit code of a state (10_state R60). -/
def stateNum : StateCode → BitVec 4
  | .nid => 0#4
  | .hdu => 1#4
  | .ldu1 => 2#4
  | .ldu2 => 3#4
  | .tdu => 4#4
  | .tdulc => 5#4
  | .tsbk1 => 6#4
  | .tsbk2 => 7#4
  | .tsbk3 => 8#4
  | .pdu0 => 9#4
  | .pdu1 => 10#4
  | .pdu2 => 11#4
  | .pdu3 => 12#4
  | .pduc => 13#4
  | .unknown => 14#4

/-- The state of a 4-bit code; code 15 is no state (10_state R60). -/
def stateOfNum (c : BitVec 4) : Option StateCode :=
  match c.toNat with
  | 0 => some .nid
  | 1 => some .hdu
  | 2 => some .ldu1
  | 3 => some .ldu2
  | 4 => some .tdu
  | 5 => some .tdulc
  | 6 => some .tsbk1
  | 7 => some .tsbk2
  | 8 => some .tsbk3
  | 9 => some .pdu0
  | 10 => some .pdu1
  | 11 => some .pdu2
  | 12 => some .pdu3
  | 13 => some .pduc
  | 14 => some .unknown
  | _ => none

end Sys2Proof.Machine
end

