-- ==== Sys2Proof/Decode.lean ====
section
/-! DEFINITION. Decoding and encoding: the headers and payload words of the host commands
(30_encoding R110 to R117), the codes of the state handlers (30_encoding R130), the fixed name
`decodeTableWord`, and the pseudo-instructions (30_encoding R136). -/

namespace Sys2Proof

open Machine

/-! ## Opcodes (30_encoding R115) -/

/-- The assigned opcodes (30_encoding R115). -/
inductive Opcode where
  | nop | sample | dibit | dibit8 | wrreg | rdreg | scrwr | scrrd | sreset
  | bch | rs | tr12 | tr34 | crc | deint | intlv
  deriving DecidableEq, Repr

/-- The code of an opcode (30_encoding R115). -/
def opcodeNum : Opcode → BitVec 8
  | .nop => 0x00#8
  | .sample => 0x01#8
  | .dibit => 0x02#8
  | .dibit8 => 0x03#8
  | .wrreg => 0x10#8
  | .rdreg => 0x11#8
  | .scrwr => 0x12#8
  | .scrrd => 0x13#8
  | .sreset => 0x1F#8
  | .bch => 0x20#8
  | .rs => 0x21#8
  | .tr12 => 0x22#8
  | .tr34 => 0x23#8
  | .crc => 0x24#8
  | .deint => 0x25#8
  | .intlv => 0x26#8

/-- The opcode of a code; none when it is unassigned (30_encoding R115, R117). -/
def opcodeOfNum (c : BitVec 8) : Option Opcode :=
  match c.toNat with
  | 0x00 => some .nop
  | 0x01 => some .sample
  | 0x02 => some .dibit
  | 0x03 => some .dibit8
  | 0x10 => some .wrreg
  | 0x11 => some .rdreg
  | 0x12 => some .scrwr
  | 0x13 => some .scrrd
  | 0x1F => some .sreset
  | 0x20 => some .bch
  | 0x21 => some .rs
  | 0x22 => some .tr12
  | 0x23 => some .tr34
  | 0x24 => some .crc
  | 0x25 => some .deint
  | 0x26 => some .intlv
  | _ => none

/-- The payload words of an opcode (30_encoding R112, R113). -/
def payloadWords : Opcode → Nat
  | .sample => 2
  | .wrreg => 1
  | .scrwr => 1
  | .nop => 0
  | .dibit => 0
  | .dibit8 => 0
  | .rdreg => 0
  | .scrrd => 0
  | .sreset => 0
  | .bch => 0
  | .rs => 0
  | .tr12 => 0
  | .tr34 => 0
  | .crc => 0
  | .deint => 0
  | .intlv => 0

/-! ## Decoding -/

/-- Why a header is illegal (30_encoding R116). -/
inductive DecodeError where
  /-- case (a): OPC is not in the table -/
  | unassignedOpcode
  /-- case (b): a reserved OPERAND bit is 1 -/
  | reservedBit
  /-- case (c): an operand value is outside its legal range -/
  | operandRange
  deriving DecidableEq, Repr

/-- What the decoder finds at the front of the command stream. -/
inductive Decoded where
  /-- a legal command, and its length in words -/
  | command (i : Instr) (words : Nat)
  /-- an illegal header with opcode `opc`, and the length to skip (30_encoding R116) -/
  | illegal (why : DecodeError) (opc : BitVec 8) (words : Nat)
  /-- the command's words have not all been presented (46_host_commands R430, 70_reset R522) -/
  | incomplete
  deriving DecidableEq, Repr

/-- OPC, header bits 31:24 (30_encoding R111). -/
def headerOpc (h : Word) : BitVec 8 := h.extractLsb' 24 8

/-- OPERAND, header bits 23:0 (30_encoding R111). -/
def headerOperand (h : Word) : BitVec 24 := h.extractLsb' 0 24

/-- An instruction, provided the reserved bits of its format are 0 (30_encoding R116 (b)). -/
def ifReservedZero (reserved : Bool) (i : Instr) : Except DecodeError Instr :=
  if reserved then .ok i else .error .reservedBit

/-- DIBIT8's dibit k, OPERAND[15−2k : 14−2k] (30_encoding R114). -/
def operandDibit (v : BitVec 24) (k : Nat) : Dibit := dibitOfLow (v.extractLsb' (14 - 2 * k) 2)

/-- DIBIT8's operand: CNT = 1..8 in bits 19:16, unused dibit slots and bits 23:20 zero
(30_encoding R113, R116). -/
def decodeDibit8 (v : BitVec 24) : Except DecodeError Instr :=
  let cnt := (v.extractLsb' 16 4).toNat
  if cnt < 1 ∨ 8 < cnt then .error .operandRange
  else ifReservedZero (decide (v.extractLsb' 20 4 = 0#4) && decide (v.toNat % 2 ^ (16 - 2 * cnt) = 0))
    (.dibit8 ((List.range cnt).map (operandDibit v)))

/-- CRC's operand: NB in bits 8:0, FIX in bit 12 (30_encoding R113, R116). -/
def decodeCrc (v : BitVec 24) : Except DecodeError Instr :=
  let nb := v.extractLsb' 0 9
  if nb.toNat < 17 ∨ 496 < nb.toNat then .error .operandRange
  else ifReservedZero (decide (v.extractLsb' 13 11 = 0#11) && decide (v.extractLsb' 9 3 = 0#3))
    (.crc nb (v.getLsbD 12))

/-- RS's operand: T in bits 4:0, 1..31 (30_encoding R113, R116). -/
def decodeRs (v : BitVec 24) : Except DecodeError Instr :=
  if v.extractLsb' 0 5 = 0#5 then .error .operandRange
  else ifReservedZero (decide (v.extractLsb' 5 19 = 0#19)) (.rs (v.extractLsb' 0 5))

/-- The command of an opcode with its OPERAND `v` and its payload words `p0`, `p1`
(30_encoding R113, R114). -/
def decodeOperand (op : Opcode) (v : BitVec 24) (p0 p1 : Word) : Except DecodeError Instr :=
  match op with
  | .nop => ifReservedZero (decide (v = 0#24)) .nop
  | .sample => ifReservedZero (decide (v = 0#24)) (.sample p0 p1)
  | .dibit => ifReservedZero (decide (v.extractLsb' 2 22 = 0#22)) (.dibit (dibitOfLow (v.extractLsb' 0 2)))
  | .dibit8 => decodeDibit8 v
  | .wrreg => ifReservedZero (decide (v.extractLsb' 8 16 = 0#16)) (.wrreg (v.extractLsb' 0 8) p0)
  | .rdreg => ifReservedZero (decide (v.extractLsb' 8 16 = 0#16)) (.rdreg (v.extractLsb' 0 8))
  | .scrwr => ifReservedZero (decide (v.extractLsb' 4 20 = 0#20)) (.scrwr (v.extractLsb' 0 4) p0)
  | .scrrd => ifReservedZero (decide (v.extractLsb' 4 20 = 0#20)) (.scrrd (v.extractLsb' 0 4))
  | .sreset => ifReservedZero (decide (v = 0#24)) .sreset
  | .bch => ifReservedZero (decide (v = 0#24)) .bch
  | .rs => decodeRs v
  | .tr12 => ifReservedZero (decide (v = 0#24)) .tr12
  | .tr34 => ifReservedZero (decide (v = 0#24)) .tr34
  | .crc => decodeCrc v
  | .deint => ifReservedZero (decide (v = 0#24)) .deint
  | .intlv => ifReservedZero (decide (v = 0#24)) .intlv

/-- Decode the front of the command stream: the length comes from OPC alone, the payload words are
awaited, then legality is checked (46_host_commands R430, 30_encoding R112, R116). -/
def decode : List Word → Decoded
  | [] => .incomplete
  | h :: rest =>
    match opcodeOfNum (headerOpc h) with
    | none => .illegal .unassignedOpcode (headerOpc h) 1
    | some op =>
      if rest.length < payloadWords op then .incomplete
      else match decodeOperand op (headerOperand h) (rest.getD 0 0#32) (rest.getD 1 0#32) with
        | .ok i => .command i (1 + payloadWords op)
        | .error why => .illegal why (headerOpc h) (1 + payloadWords op)

/-- The handler of a state, for slot k (30_encoding R130). -/
def handlerOf (k : SlotId) : StateCode → Instr
  | .nid => .stateNid k
  | .hdu => .stateHdu k
  | .ldu1 => .stateLdu1 k
  | .ldu2 => .stateLdu2 k
  | .tdu => .stateTdu k
  | .tdulc => .stateTdulc k
  | .tsbk1 => .stateTsbk1 k
  | .tsbk2 => .stateTsbk2 k
  | .tsbk3 => .stateTsbk3 k
  | .pdu0 => .statePdu0 k
  | .pdu1 => .statePdu1 k
  | .pdu2 => .statePdu2 k
  | .pdu3 => .statePdu3 k
  | .pduc => .statePduc k
  | .unknown => .stateUnknown k

/-- Decode the 4-bit state code of slot k to its handler; code 15 has none (30_encoding R130). -/
def decodeState (k : SlotId) (c : BitVec 4) : Option Instr := (stateOfNum c).map (handlerOf k)

/-! ## Encoding -/

/-- The two encodings of the block: a host command's words, and the state code that stands in a slot
(30_encoding R111, R130). -/
inductive Code where
  | words (ws : List Word)
  | state (k : SlotId) (c : BitVec 4)
  deriving DecidableEq, Repr

/-- A header word of an opcode and an operand (30_encoding R111). -/
def headerWord (op : Opcode) (v : BitVec 24) : Word := opcodeNum op ++ v

/-- DIBIT8's dibits in OPERAND[15:0], dibit k at bits 15−2k : 14−2k, from position `k` on
(30_encoding R113). -/
def encodeDibits : Nat → List Dibit → BitVec 24
  | _, [] => 0#24
  | k, d :: ds => ((dibitLow d).zeroExtend 24 <<< (14 - 2 * k)) ||| encodeDibits (k + 1) ds

/-- The code of an instruction (30_encoding R113, R115, R130). -/
def encode : Instr → Code
  | .nop => .words [headerWord .nop 0#24]
  | .sample i q => .words [headerWord .sample 0#24, i, q]
  | .dibit d => .words [headerWord .dibit ((dibitLow d).zeroExtend 24)]
  | .dibit8 ds =>
    .words [headerWord .dibit8 ((BitVec.ofNat 24 ds.length <<< 16) ||| encodeDibits 0 ds)]
  | .wrreg a v => .words [headerWord .wrreg (a.zeroExtend 24), v]
  | .rdreg a => .words [headerWord .rdreg (a.zeroExtend 24)]
  | .scrwr i v => .words [headerWord .scrwr (i.zeroExtend 24), v]
  | .scrrd i => .words [headerWord .scrrd (i.zeroExtend 24)]
  | .sreset => .words [headerWord .sreset 0#24]
  | .bch => .words [headerWord .bch 0#24]
  | .rs t => .words [headerWord .rs (t.zeroExtend 24)]
  | .tr12 => .words [headerWord .tr12 0#24]
  | .tr34 => .words [headerWord .tr34 0#24]
  | .crc nb fix =>
    .words [headerWord .crc (nb.zeroExtend 24 ||| (BitVec.ofNat 24 fix.toNat <<< 12))]
  | .deint => .words [headerWord .deint 0#24]
  | .intlv => .words [headerWord .intlv 0#24]
  | .stateNid k => .state k (stateNum .nid)
  | .stateHdu k => .state k (stateNum .hdu)
  | .stateLdu1 k => .state k (stateNum .ldu1)
  | .stateLdu2 k => .state k (stateNum .ldu2)
  | .stateTdu k => .state k (stateNum .tdu)
  | .stateTdulc k => .state k (stateNum .tdulc)
  | .stateTsbk1 k => .state k (stateNum .tsbk1)
  | .stateTsbk2 k => .state k (stateNum .tsbk2)
  | .stateTsbk3 k => .state k (stateNum .tsbk3)
  | .statePdu0 k => .state k (stateNum .pdu0)
  | .statePdu1 k => .state k (stateNum .pdu1)
  | .statePdu2 k => .state k (stateNum .pdu2)
  | .statePdu3 k => .state k (stateNum .pdu3)
  | .statePduc k => .state k (stateNum .pduc)
  | .stateUnknown k => .state k (stateNum .unknown)

/-- The instruction a command decodes to; none when it is illegal or incomplete. -/
def decodedInstr : Decoded → Option Instr
  | .command i _ => some i
  | .illegal _ _ _ => none
  | .incomplete => none

/-- Decode either kind of code. -/
def decodeCode : Code → Option Instr
  | .words ws => decodedInstr (decode ws)
  | .state k c => decodeState k c

/-! ## The opcode table's numbering -/

/-- The three words an instruction of the table occupies, the first in bits 31:0 of `w`. -/
def tableWords (w : Nat) : List Word :=
  [BitVec.ofNat 32 w, BitVec.ofNat 32 (w >>> 32), BitVec.ofNat 32 (w >>> 64)]

/-- The instruction the decoder reads from an instruction of spec/opcode_table.json whose bits are `w`.
A row of one byte is a state handler, whose 4 bits stand in a slot's state field; it is read for slot 0
(log 4). A longer row is a host command. -/
def decodeTableWord (nbits w : Nat) : Option Instr :=
  if nbits ≤ 8 then (if w < 16 then decodeState .s0 (BitVec.ofNat 4 w) else none)
  else decodedInstr (decode (tableWords w))

/-! ## Pseudo-instructions (30_encoding R136) -/

/-- DIBITS: ceil(n/8) DIBIT8 commands of eight dibits, the last carrying the rest; `n` is at least the
number of commands. -/
def pseudoDibits : Nat → List Dibit → List Instr
  | 0, _ => []
  | n + 1, ds =>
    match ds with
    | [] => []
    | d :: rest => .dibit8 ((d :: rest).take 8) :: pseudoDibits n ((d :: rest).drop 8)

/-- ZEROS n: DIBITS of n dibits of value 0. -/
def pseudoZeros (n : Nat) : List Instr := pseudoDibits n (List.replicate n .d00)

/-- SYNC: the low SYNC_LEN bits of the pattern, first bit first, for an even length. -/
def pseudoSync (pat : BitVec 64) (len : Nat) : List Instr :=
  pseudoDibits len ((List.range (len / 2)).map fun k => dibitOfLow (pat.extractLsb' (len - 2 - 2 * k) 2))

/-- SETDUID c, target, len_bits: WRREG 0x10+c, (len_bits<<16) | target. -/
def pseudoSetDuid (c : BitVec 4) (target : BitVec 4) (lenBits : BitVec 12) : Instr :=
  .wrreg (0x10#8 ||| c.zeroExtend 8) ((lenBits.zeroExtend 32 <<< 16) ||| target.zeroExtend 32)

/-- SETCTRL v: WRREG 0x00, v. -/
def pseudoSetCtrl (v : Word) : Instr := .wrreg 0x00#8 v

end Sys2Proof
end

