-- ==== Sys2Proof/Config.lean ====
section
/-! DEFINITION. The fixed values of the hardware (00_scope R7), the function parameters
(00_scope R8), which are opaque constants here, and the free values the model needs where the spec
gives no value. -/

namespace Sys2Proof.Config

/-! ## Numeric parameters (00_scope R7) -/

/-- NID_LEN, bits of the NID kept at the front of a frame buffer. -/
def nidLen : Nat := 64
/-- BLOCK_BITS, bits of one TSBK or PDU block as received. -/
def blockBits : Nat := 196
/-- T12_OUT, bits out of the rate-1/2 trellis decoder. -/
def t12Out : Nat := 96
/-- T34_OUT, bits out of the rate-3/4 trellis decoder. -/
def t34Out : Nat := 144
/-- BUF_BITS, physical capacity of one slot buffer. -/
def bufBits : Nat := 32768
/-- STATUS_PERIOD, positions of the status-skip counter. -/
def statusPeriod : Nat := 36
/-- SCRATCH_BITS, bits of the scratch buffer. -/
def scratchBits : Nat := 512
/-- DL_LEN, entries of the delay line. -/
def dlLen : Nat := 32
/-- CORR_WIDTH, bits of the correlator window; SYNC_LEN_MAX is the same number. -/
def corrWidth : Nat := 64
/-- BCH_T, the errors the NID code corrects. -/
def bchT : Nat := 11
/-- BCH_GEN, the generator of the BCH(63,16) code; bit k is the coefficient of x^k (44_fec R333). -/
def bchGen : Nat := 0xCD930BDD3B2B
/-- CRC_POLY. -/
def crcPoly : BitVec 16 := 0x1021#16
/-- CRC_INIT. -/
def crcInit : BitVec 16 := 0x0000#16
/-- CRC_XOROUT. -/
def crcXorOut : BitVec 16 := 0xFFFF#16
/-- FMT_CONFIRMED, the PDU header format value of confirmed data. -/
def fmtConfirmed : Nat := 0x16

/-! ## binary32 constants, by their bit patterns (00_scope R7, 40_synchronizer R150) -/

/-- OMEGA_NOM, 10.0. -/
def omegaNom : Word := 0x41200000#32
/-- OMEGA_MIN, 9.95. -/
def omegaMin : Word := 0x411F3333#32
/-- OMEGA_MAX, 10.05. -/
def omegaMax : Word := 0x4120CCCD#32
/-- GAIN_OMEGA. -/
def gainOmega : Word := 0x3BFAE148#32
/-- GAIN_MU. -/
def gainMu : Word := 0x3E333333#32
/-- ALPHA, the Costas phase gain (R151 gives the pattern to use). -/
def alpha : Word := 0x3D613E69#32
/-- BETA, the Costas frequency gain (R151). -/
def beta : Word := 0x3ACBDE0F#32
/-- PI_4. -/
def pi4 : Word := 0x3F490FDB#32
/-- TWO_PI. -/
def twoPi : Word := 0x40C90FDB#32
/-- K_SQRT1_2. -/
def kSqrt12 : Word := 0x3F3504F3#32
/-- 0.5. -/
def half : Word := 0x3F000000#32
/-- 1.0. -/
def one : Word := 0x3F800000#32
/-- 2.0. -/
def two : Word := 0x40000000#32
/-- 6.0. -/
def six : Word := 0x40C00000#32
/-- 8.0, the end of INTERP's domain (40_synchronizer R153). -/
def eight : Word := 0x41000000#32
/-- The reset value of FMAX, π/8 (10_state R39). -/
def fmaxReset : Word := 0x3EC90FDB#32

/-! ## Function parameters (00_scope R8) -/

/-- The function parameters, which "the model takes as arguments": the operations of the FEC bank,
the frame state machine and the synchronizer take a `Params`; `exec` runs with `Config.params`. The
constraint on F_SIN and F_COS is put on in `boundedTrig`. -/
structure Params where
  /-- TRELLIS12 : bits[196] → (ok, bits[96]) (45_fec R381). -/
  trellis12 : Block 196 → Bool × Block 96
  /-- TRELLIS34 : bits[196] → (ok, bits[144]) (45_fec R382). -/
  trellis34 : Block 196 → Bool × Block 144
  /-- PERM196, a bijection on 0..195 (45_fec R385). -/
  perm196 : Equiv.Perm (Fin 196)
  /-- F_SIN. -/
  fSin : F32 → F32
  /-- F_COS. -/
  fCos : F32 → F32

/-- TRELLIS12 of this hardware: any total function of its signature (log 5). -/
opaque trellis12 : Block 196 → Bool × Block 96

/-- TRELLIS34 of this hardware: any total function of its signature (log 5). -/
opaque trellis34 : Block 196 → Bool × Block 144

/-- PERM196 of this hardware: any bijection (log 6). -/
opaque perm196 : Equiv.Perm (Fin 196)

/-- The function F_SIN is made from by `boundedTrig` (log 7). -/
opaque sinRaw : F32 → F32

/-- The function F_COS is made from by `boundedTrig` (log 7). -/
opaque cosRaw : F32 → F32

/-- A value is finite and of magnitude at most 1: exponent below 127, or exactly ±1.0. -/
def inUnitRange : F32 → Bool
  | .nan => false
  | .inf _ => false
  | .fin _ e m => decide (e.val < 127) || (decide (e.val = 127) && decide (m = 0))

/-- A function with the constraint of 00_scope R8 put on it: "finite for finite input,
magnitude ≤ 1". A function that meets the constraint is left as it is (log 7). -/
def boundedTrig (f : F32 → F32) : F32 → F32
  | .nan => f .nan
  | .inf b => f (.inf b)
  | .fin n e m => if inUnitRange (f (.fin n e m)) then f (.fin n e m) else .fin false 0 0

/-- The parameters of this hardware. -/
def params : Params where
  trellis12 := trellis12
  trellis34 := trellis34
  perm196 := perm196
  fSin := boundedTrig sinRaw
  fCos := boundedTrig cosRaw

/-! ## Free values: nothing constrains them -/

/-- The bit pattern a NaN is read as, before `F32.nanPattern` makes it a NaN pattern (log 8). -/
opaque nanBits : Word

/-- WRAP of a value whose loop never ends, before the bound ±TWO_PI is put on (log 9). -/
opaque wrapOpen : F32 → F32

/-- INTERP at a position outside 1 ≤ b < 8, from the position, the delay line and the write index
(log 10). -/
opaque interpOpen : F32 → List Cplx → Nat → Cplx

/-- The bit read at an index at or beyond the write cursor of a buffer (20_memory R86; log 11). -/
opaque bitBeyondCursor : List Bool → Nat → Bool

end Sys2Proof.Config
end

