-- ==== Sys2Proof/Machine/Gf.lean ====
section
/-! DEFINITION. GF(2^6), the Berlekamp-Massey RS/BCH decoder and the BCH(63,16,11) decoder
(44_fec_bch_rs R330 to R341). -/

namespace Sys2Proof.Machine

/-! ## The field (44_fec R330, R331) -/

/-- `a · v`: shift left, and reduce by x^6 + x + 1 when bit 5 falls out (44_fec R330). -/
def gfTimesAlpha (v : Gf) : Gf := (v <<< 1) ^^^ (if v.msb then 0x03#6 else 0x00#6)

/-- Addition: bitwise exclusive or (00_scope R15). -/
def gfAdd (a b : Gf) : Gf := a ^^^ b

/-- Multiplication of polynomials modulo GF_POLY (00_scope R15), by Horner's rule over the bits of
`b`. It equals the table form of 44_fec R331 (Laws/Gf.lean). -/
def gfMul (a b : Gf) : Gf :=
  [5, 4, 3, 2, 1, 0].foldl
    (fun acc k => gfAdd (gfTimesAlpha acc) (if b.getLsbD k then a else 0#6)) 0#6

/-- EXP[i] = α^i for i = 0..62 (44_fec R330). -/
def gfExpTable : List Gf :=
  [0x01, 0x02, 0x04, 0x08, 0x10, 0x20, 0x03, 0x06,
   0x0C, 0x18, 0x30, 0x23, 0x05, 0x0A, 0x14, 0x28,
   0x13, 0x26, 0x0F, 0x1E, 0x3C, 0x3B, 0x35, 0x29,
   0x11, 0x22, 0x07, 0x0E, 0x1C, 0x38, 0x33, 0x25,
   0x09, 0x12, 0x24, 0x0B, 0x16, 0x2C, 0x1B, 0x36,
   0x2F, 0x1D, 0x3A, 0x37, 0x2D, 0x19, 0x32, 0x27,
   0x0D, 0x1A, 0x34, 0x2B, 0x15, 0x2A, 0x17, 0x2E,
   0x1F, 0x3E, 0x3F, 0x3D, 0x39, 0x31, 0x21]

/-- α^k = EXP[k mod 63] (44_fec R331). -/
def gfExp (k : Nat) : Gf := gfExpTable.getD (k % 63) 0#6

/-- LOG, the inverse of EXP on the non-zero elements (44_fec R330). -/
def gfLog (v : Gf) : Nat := gfExpTable.idxOf v

/-- v^-1 = EXP[(63 − LOG v) mod 63] for v ≠ 0 (44_fec R331); no rule inverts 0. -/
def gfInv (v : Gf) : Gf := gfExp (63 - gfLog v)

/-! ## Polynomials, as the list of their coefficients from x^0 up (44_fec R331) -/

/-- P(β) by Horner's rule (44_fec R331). -/
def polyEval (p : List Gf) (x : Gf) : Gf := p.foldr (fun c acc => gfAdd c (gfMul x acc)) 0#6

/-- The coefficient of x^k, 0 beyond the list. -/
def polyCoeff (p : List Gf) (k : Nat) : Gf := p.getD k 0#6

/-- P ⊕ Q. -/
def polyAdd : List Gf → List Gf → List Gf
  | [], q => q
  | p, [] => p
  | a :: p, b :: q => gfAdd a b :: polyAdd p q

/-- c · x^m · P. -/
def polyScaleShift (c : Gf) (m : Nat) (p : List Gf) : List Gf :=
  List.replicate m 0#6 ++ p.map (gfMul c)

/-- deg P, the largest k with a non-zero coefficient; 0 for the zero polynomial (44_fec R331). -/
def polyDeg (p : List Gf) : Nat := (p.reverse.dropWhile (fun c => decide (c = 0#6))).length - 1

/-- The formal derivative: coefficient P_{k+1} at x^k for even k and 0 for odd k (44_fec R331). -/
def polyDeriv (p : List Gf) : List Gf :=
  (List.range (p.length - 1)).map (fun k => if k % 2 = 0 then polyCoeff p (k + 1) else 0#6)

/-- Sum in the field. -/
def gfSum (l : List Gf) : Gf := l.foldl gfAdd 0#6

/-! ## The decoder core (44_fec R335 to R337) -/

/-- The syndromes S_1 .. S_2t, S_j = r(α^j); S_j stands at index j − 1 (44_fec R335 step 1). -/
def rsSyndromes (r : List Gf) (t : Nat) : List Gf :=
  (List.range (2 * t)).map (fun j => polyEval r (gfExp (j + 1)))

/-- The variables of the Berlekamp-Massey recursion (44_fec R336). -/
structure BmState where
  c : List Gf
  b : List Gf
  l : Nat
  m : Nat
  bd : Gf
  deriving DecidableEq, Repr

/-- The discrepancy d at step n: S_{n+1} ⊕ Σ_{i=1}^{L} C_i · S_{n+1−i} (44_fec R336). -/
def bmDiscrepancy (syn : List Gf) (v : BmState) (n : Nat) : Gf :=
  gfAdd (polyCoeff syn n)
    (gfSum ((List.range v.l).map fun i => gfMul (polyCoeff v.c (i + 1)) (polyCoeff syn (n - (i + 1)))))

/-- One step of the recursion (44_fec R336). -/
def bmStep (syn : List Gf) (v : BmState) (n : Nat) : BmState :=
  let d := bmDiscrepancy syn v n
  let c' := polyAdd v.c (polyScaleShift (gfMul d (gfInv v.bd)) v.m v.b)
  if d = 0#6 then { v with m := v.m + 1 }
  else if 2 * v.l ≤ n then { c := c', b := v.c, l := n + 1 - v.l, m := 1, bd := d }
  else { v with c := c', m := v.m + 1 }

/-- The recursion over all syndromes: Λ and L are `c` and `l` of the result (44_fec R336). -/
def berlekampMassey (syn : List Gf) : BmState :=
  (List.range syn.length).foldl (bmStep syn) { c := [1#6], b := [1#6], l := 0, m := 1, bd := 1#6 }

/-- The positions i with Λ(α^(−i)) = 0, ascending: "exhaustive field evaluation" (44_fec R335). -/
def rsRoots (lam : List Gf) : List Nat :=
  (List.range 63).filter (fun i => decide (polyEval lam (gfExp (63 - i)) = 0#6))

/-- The error evaluator Ω = (S · Λ) mod x^(2t) (44_fec R335 step 4). -/
def rsOmega (syn lam : List Gf) : List Gf :=
  (List.range syn.length).map fun k =>
    gfSum ((List.range (k + 1)).map fun i => gfMul (polyCoeff syn i) (polyCoeff lam (k - i)))

/-- The Forney magnitude at position i: Ω(α^(−i)) · Λ'(α^(−i))^-1 (44_fec R337). -/
def forney (om lam : List Gf) (i : Nat) : Gf :=
  gfMul (polyEval om (gfExp (63 - i))) (gfInv (polyEval (polyDeriv lam) (gfExp (63 - i))))

/-- The result (ok, word, nerr) of a decoder of GF(2^6) words. -/
structure RsResult where
  ok : Bool
  word : List Gf
  nerr : Nat
  deriving DecidableEq, Repr

/-- RS_CORE(r, t) (44_fec R335): an irrecoverable word comes back unchanged with ok = 0. -/
def rsCore (r : List Gf) (t : Nat) : RsResult :=
  let syn := rsSyndromes r t
  if syn.all (fun x => decide (x = 0#6)) then ⟨true, r, 0⟩
  else
    let bm := berlekampMassey syn
    let xs := rsRoots bm.c
    if t < bm.l ∨ polyDeg bm.c ≠ bm.l ∨ xs.length ≠ bm.l then ⟨false, r, 0⟩
    else
      let om := rsOmega syn bm.c
      ⟨true, r.mapIdx (fun i ri => if xs.contains i then gfAdd ri (forney om bm.c i) else ri), bm.l⟩

/-! ## BCH(63,16,11) (44_fec R333, R334, R340) -/

/-- The result (ok, word, nerr) of BCH_DECODE. -/
structure BchResult where
  ok : Bool
  word : List Bool
  nerr : Nat
  deriving DecidableEq, Repr

/-- BCH_DECODE of a 63-bit string; bit i is the coefficient of x^(62−i) (44_fec R334, R340). -/
def bchDecode (v : List Bool) : BchResult :=
  let res := rsCore (v.reverse.map (fun b => if b then 1#6 else 0#6)) Config.bchT
  if res.ok && res.word.all (fun c => decide (c = 0#6) || decide (c = 1#6)) then
    ⟨true, res.word.reverse.map (fun c => decide (c = 1#6)), res.nerr⟩
  else ⟨false, v, 0⟩

/-- The remainder of a binary polynomial of degree below 47 + n modulo BCH_GEN. -/
def bchRemainder : Nat → Nat → Nat
  | 0, v => v
  | n + 1, v => bchRemainder n (if v.testBit (47 + n) then v ^^^ (Config.bchGen <<< n) else v)

/-- The systematic codeword of 16 data bits, as a 63-bit number (44_fec R334). The block does not
encode; it is what the code is (R333), for statements and tests. -/
def bchCodeword (data : BitVec 16) : Nat :=
  (data.toNat <<< 47) ^^^ bchRemainder 16 (data.toNat <<< 47)

/-- The RS generator g_t(x) = Π (x + α^i), i = 1..2t (44_fec R332), for statements and tests. -/
def rsGenerator (t : Nat) : List Gf :=
  (List.range (2 * t)).foldl
    (fun g i => polyAdd (polyScaleShift 1#6 1 g) (polyScaleShift (gfExp (i + 1)) 0 g)) [1#6]

end Sys2Proof.Machine
end

