-- ==== Sys2Proof/Machine/Fec.lean ====
section
/-! DEFINITION. The CRC checker, the deinterleaver and the interleaver (45_fec R385 to R393). -/

namespace Sys2Proof.Machine

/-! ## CRC (45_fec R390 to R392) -/

/-- One bit of the CRC register's shift (45_fec R390). -/
def crcShift (reg : BitVec 16) (b : Bool) : BitVec 16 :=
  if reg.msb != b then (reg <<< 1) ^^^ Config.crcPoly else reg <<< 1

/-- CRC16 of a bit string (45_fec R390). -/
def crc16 (d : List Bool) : BitVec 16 := d.foldl crcShift Config.crcInit ^^^ Config.crcXorOut

/-- CRC_CHECK: the last 16 bits of the range are the CRC of the bits before them (45_fec R391). -/
def crcCheck (b : List Bool) : Bool :=
  decide ((crc16 (b.take (b.length - 16))).toNat = natOfBits (b.drop (b.length - 16)))

/-- The outcome of a CRC step (45_fec R392); `failed` is the failure sentinel. -/
inductive CrcOutcome where
  | pass | corrected | failed
  deriving DecidableEq, Repr

/-- CRC_CORRECT: at most one flipped bit, tried in ascending order (45_fec R392). -/
def crcCorrect (b : List Bool) : CrcOutcome × List Bool :=
  if crcCheck b then (.pass, b)
  else match (List.range b.length).find? (fun p => crcCheck (flipBit b p)) with
    | some p => (.corrected, flipBit b p)
    | none => (.failed, b)

/-! ## Deinterleaver and interleaver (45_fec R385, R386) -/

/-- DEINT(x)[i] = x[PERM196(i)] (45_fec R385). -/
def deint (P : Config.Params) (x : Block 196) : Block 196 := fun i => x (P.perm196 i)

/-- INTLV(y)[PERM196(i)] = y[i] (45_fec R386). -/
def intlv (P : Config.Params) (y : Block 196) : Block 196 := fun i => y (P.perm196.symm i)

end Sys2Proof.Machine
end

