-- ==== Sys2Proof/Machine/Float.lean ====
section
/-! DEFINITION. binary32 arithmetic (00_scope R12): exact results over the integers, rounded once to
nearest, ties to even; and the complex operations of R13. The unit of the exact results is 2^-149,
the smallest positive binary32 value: every finite value is an integer number of units. -/

namespace Sys2Proof

/-- The magnitude of a finite value in units of 2^-149. -/
def F32.units (exp : Fin 255) (frac : BitVec 23) : Nat :=
  if exp.val = 0 then frac.toNat else (2 ^ 23 + frac.toNat) * 2 ^ (exp.val - 1)

/-- A finite value in units of 2^-149, with its sign. -/
def F32.signedUnits (neg : Bool) (exp : Fin 255) (frac : BitVec 23) : Int :=
  if neg then -(F32.units exp frac : Int) else (F32.units exp frac : Int)

/-- The value of a magnitude pattern (exponent and fraction fields together); a pattern at or
beyond the exponent 255 is an overflow to infinity. -/
def F32.ofMag (neg : Bool) (b : Nat) : F32 :=
  if h : b / 2 ^ 23 < 255 then .fin neg ⟨b / 2 ^ 23, h⟩ (BitVec.ofNat 23 b) else .inf neg

/-- The binary exponent kept by rounding: how many low bits of a magnitude of `n` units (its integer
part) are rounded off. -/
def F32.roundShift (n : Nat) : Nat := Nat.log2 n - 23

/-- The quotient `num / d` rounded to the nearest integer, ties to even. -/
def F32.nearestEven (num d : Nat) : Nat :=
  if d < 2 * (num % d) ∨ (2 * (num % d) = d ∧ (num / d) % 2 = 1) then num / d + 1 else num / d

/-- The magnitude `num / den` units, rounded to nearest even, with the sign `neg`. A carry out of the
fraction moves into the exponent field, as it must. -/
def F32.round (neg : Bool) (num den : Nat) : F32 :=
  F32.ofMag neg (F32.roundShift (num / den) * 2 ^ 23 +
    F32.nearestEven num (den * 2 ^ F32.roundShift (num / den)))

/-- The binary32 value of a bit pattern (20_memory R83). -/
def F32.ofBits (w : Word) : F32 :=
  if h : (w.toNat / 2 ^ 23) % 256 < 255 then
    .fin w.msb ⟨(w.toNat / 2 ^ 23) % 256, h⟩ (w.truncate 23)
  else if w.truncate 23 = 0#23 then .inf w.msb
  else .nan

/-- The bit pattern of magnitude `m` with the sign `neg`. -/
def F32.patternOf (neg : Bool) (m : Nat) : Word :=
  BitVec.ofNat 32 ((if neg then 2 ^ 31 else 0) + m)

/-- The pattern a NaN is read as: some NaN pattern, left free (log 8). -/
def F32.nanPattern : Word :=
  if F32.ofBits Config.nanBits = .nan then Config.nanBits else 0x7FC00000#32

/-- The bit pattern of a binary32 value. -/
def F32.toBits : F32 → Word
  | .nan => F32.nanPattern
  | .inf neg => F32.patternOf neg (255 * 2 ^ 23)
  | .fin neg e m => F32.patternOf neg (e.val * 2 ^ 23 + m.toNat)

/-- +0.0. -/
def F32.zero : F32 := .fin false 0 0

/-- −x: the sign flipped (exact, 40_synchronizer R153). -/
def F32.neg : F32 → F32
  | .nan => .nan
  | .inf b => .inf (!b)
  | .fin b e m => .fin (!b) e m

/-- abs(x): the sign cleared (00_scope R12). -/
def F32.abs : F32 → F32
  | .nan => .nan
  | .inf _ => .inf false
  | .fin _ e m => .fin false e m

/-- isNaN(x) (00_scope R12). -/
def F32.isNaN : F32 → Bool
  | .nan => true
  | .inf _ => false
  | .fin _ _ _ => false

/-- Neither NaN nor infinite. -/
def F32.isFinite : F32 → Bool
  | .nan => false
  | .inf _ => false
  | .fin _ _ _ => true

/-- A sum of units rounded; an exact zero sum is +0, but −0 for two operands of sign −. -/
def F32.roundSum (bothNeg : Bool) (t : Int) : F32 :=
  if t = 0 then .fin bothNeg 0 0 else F32.round (decide (t < 0)) t.natAbs 1

/-- x + y (00_scope R12). -/
def F32.add : F32 → F32 → F32
  | .nan, _ => .nan
  | _, .nan => .nan
  | .inf a, .inf b => if a = b then .inf a else .nan
  | .inf a, .fin _ _ _ => .inf a
  | .fin _ _ _, .inf b => .inf b
  | .fin a e m, .fin b f n =>
    F32.roundSum (a && b) (F32.signedUnits a e m + F32.signedUnits b f n)

/-- x − y (00_scope R12). -/
def F32.sub (x y : F32) : F32 := F32.add x (F32.neg y)

/-- x × y (00_scope R12). -/
def F32.mul : F32 → F32 → F32
  | .nan, _ => .nan
  | _, .nan => .nan
  | .inf a, .inf b => .inf (a != b)
  | .inf a, .fin b e m => if F32.units e m = 0 then .nan else .inf (a != b)
  | .fin a e m, .inf b => if F32.units e m = 0 then .nan else .inf (a != b)
  | .fin a e m, .fin b f n => F32.round (a != b) (F32.units e m * F32.units f n) (2 ^ 149)

/-- x / y (00_scope R12). -/
def F32.div : F32 → F32 → F32
  | .nan, _ => .nan
  | _, .nan => .nan
  | .inf _, .inf _ => .nan
  | .inf a, .fin b _ _ => .inf (a != b)
  | .fin a _ _, .inf b => .fin (a != b) 0 0
  | .fin a e m, .fin b f n =>
    if F32.units f n = 0 then (if F32.units e m = 0 then .nan else .inf (a != b))
    else F32.round (a != b) (F32.units e m * 2 ^ 149) (F32.units f n)

/-- The integer square root by its bits: the largest number made of `r` and the low `k` bits whose
square is at most `n`. -/
def isqrtBits (n : Nat) : Nat → Nat → Nat
  | 0, r => r
  | k + 1, r => isqrtBits n k (if (r + 2 ^ k) * (r + 2 ^ k) ≤ n then r + 2 ^ k else r)

/-- The integer square root of a number below 2^428. -/
def isqrt (n : Nat) : Nat := isqrtBits n 214 0

/-- The square root of `n` square units, in half units with a sticky last bit, rounded. The root of a
binary32 value is far above 2^24 units, so the sticky half unit lies below every rounding point. -/
def F32.roundRoot (n : Nat) : F32 :=
  F32.round false (2 * isqrt n + (if isqrt n * isqrt n = n then 0 else 1)) 2

/-- sqrt(x) (00_scope R12). -/
def F32.sqrt : F32 → F32
  | .nan => .nan
  | .inf b => if b then .nan else .inf false
  | .fin b e m =>
    if F32.units e m = 0 then .fin b e m
    else if b then .nan
    else F32.roundRoot (F32.units e m * 2 ^ 149)

/-- The order of the values that are no NaN: units, with the infinities beyond every finite value. -/
def F32.ord : F32 → Int
  | .nan => 0
  | .inf b => if b then -(2 ^ 277) else 2 ^ 277
  | .fin b e m => F32.signedUnits b e m

/-- x < y, false when either is NaN (00_scope R12). -/
def F32.lt (x y : F32) : Bool := !x.isNaN && !y.isNaN && decide (x.ord < y.ord)

/-- x ≤ y, false when either is NaN (00_scope R12). -/
def F32.le (x y : F32) : Bool := !x.isNaN && !y.isNaN && decide (x.ord ≤ y.ord)

/-- x > y. -/
def F32.gt (x y : F32) : Bool := F32.lt y x

/-- x ≥ y. -/
def F32.ge (x y : F32) : Bool := F32.le y x

/-- The whole part of a non-negative finite value. -/
def F32.floorNat : F32 → Nat
  | .nan => 0
  | .inf _ => 0
  | .fin _ e m => F32.units e m / 2 ^ 149

/-- The binary32 value of a small natural number. -/
def F32.ofNat (n : Nat) : F32 := F32.round false (n * 2 ^ 149) 1

/-! ## Complex values (00_scope R13) -/

/-- (+0.0, +0.0). -/
def Cplx.zero : Cplx := ⟨F32.zero, F32.zero⟩

/-- conj(c), exact. -/
def Cplx.conj (c : Cplx) : Cplx := ⟨c.re, F32.neg c.im⟩

/-- cmul(a, b): each product rounded, then the sum or difference. -/
def Cplx.cmul (a b : Cplx) : Cplx where
  re := F32.sub (F32.mul a.re b.re) (F32.mul a.im b.im)
  im := F32.add (F32.mul a.re b.im) (F32.mul a.im b.re)

/-- cmulc(a, b) = (a.re×b.re + a.im×b.im, a.im×b.re − a.re×b.im). -/
def Cplx.cmulc (a b : Cplx) : Cplx where
  re := F32.add (F32.mul a.re b.re) (F32.mul a.im b.im)
  im := F32.sub (F32.mul a.im b.re) (F32.mul a.re b.im)

end Sys2Proof
end

