-- ==== Sys2Proof/Machine/State.lean ====
section
/-! DEFINITION. The state of the block (10_state R30), the events it emits (30_encoding R120 to R128),
the reasons a step of the model can stop, and the hard-reset state (70_reset R500). -/

namespace Sys2Proof.Machine

/-- The reasons a step stops with a fault: there are none. The two faults of the spec, BUFFER_FULL
and ILLEGAL_CMD, are events and sticky bits and never stop the block (60_exceptions R472, R473, R476);
they are `FaultCause` below (log 15). -/
inductive Fault where
  deriving DecidableEq, Repr

/-- The reasons an instruction has no meaning in the model. -/
inductive Refusal where
  /-- An arm of `exec` that has no meaning yet, by its mnemonic; raised by `exec` only, and no arm
  raises it now. Safe: the model stops. -/
  | notModelled (mnemonic : String)
  deriving DecidableEq, Repr

/-- The faults of the spec (60_exceptions R470), with the information their action uses. -/
inductive FaultCause where
  /-- code 1: append past the capacity of slot `k` (R471) -/
  | bufferFull (k : SlotId)
  /-- code 2: an illegal command header with opcode `opc` (R473) -/
  | illegalCmd (opc : BitVec 8)
  deriving DecidableEq, Repr

/-- The TARGET values a DUID_MAP entry can hold (10_state R45): an illegal one is stored as 15, so no
other value exists. -/
inductive Target where
  | hdu | ldu1 | ldu2 | tdu | tdulc | tsbk1 | pdu0 | unknown | unrecognized
  deriving DecidableEq, Repr, Inhabited

/-- One DUID_MAP entry (10_state R45): its fields TARGET (bits 3:0) and LEN (bits 27:16). -/
structure DuidEntry where
  target : Target
  len : BitVec 12
  deriving DecidableEq, Repr, Inhabited

/-- One assembler slot (10_state R58); its write cursor `len` is the length of `buf`. -/
structure Slot where
  active : Bool
  complete : Bool
  state : StateCode
  buf : List Bool
  cap : Nat
  ctr : Fin 36
  deriving DecidableEq, Repr

/-- One event of the output sequence (30_encoding R122), before it is laid out in words. -/
inductive Event where
  /-- MSG, a dispatched record (R126) -/
  | msg (kind : StateCode) (crc : BitVec 2) (fecOk : Bool) (slot : SlotId) (bits : List Bool)
  /-- SYNC_DROPPED (R123) -/
  | syncDropped
  /-- FAULT (R124) -/
  | fault (cause : FaultCause)
  /-- REGVAL (R125) -/
  | regVal (addr : BitVec 8) (value : Word)
  /-- SCRVAL (R125) -/
  | scrVal (idx : BitVec 4) (value : Word)
  /-- FECDONE, with the FEC_RESULT it copies (R127) -/
  | fecDone (result : Word)
  /-- DIBIT_OUT (R128) -/
  | dibitOut (d : Dibit)
  deriving DecidableEq, Repr

/-- The state of the block (10_state R30). -/
structure State where
  /-- the command words the host has presented so far (30_encoding R110; log 1) -/
  stream : List Word
  /-- the command cursor (10_state R31) -/
  cc : Nat
  /-- CTRL bits 3:0 (R34) -/
  ctrl : BitVec 4
  /-- STATUS bit 0, sticky (R35) -/
  faultBufferFull : Bool
  /-- STATUS bit 1, sticky (R35) -/
  faultIllegalCmd : Bool
  /-- STATUS bit 12 (R35) -/
  faultSlot : SlotId
  /-- SYNC_PAT_LO (R36) -/
  syncPatLo : Word
  /-- SYNC_PAT_HI (R36) -/
  syncPatHi : Word
  /-- SYNC_LEN bits 6:0 (R37) -/
  syncLen : BitVec 7
  /-- STATUS_INIT bits 5:0, of which only 0..35 can be stored (R38) -/
  statusInit : Fin 36
  /-- FMAX, a binary32 pattern (R39) -/
  fmax : Word
  /-- DROP_CNT (R40) -/
  dropCnt : Word
  /-- FEC_RESULT (R41) -/
  fecResult : Word
  /-- DUID_MAP[0..15] (R45) -/
  duidMap : Vector DuidEntry 16
  /-- Costas phase (R50) -/
  phase : F32
  /-- Costas frequency (R50) -/
  freq : F32
  /-- Gardner samples-per-symbol estimate (R51) -/
  omega : F32
  /-- Gardner fractional counter (R51) -/
  mu : F32
  /-- previous symbol-centre sample (R52) -/
  prev : Cplx
  /-- the delay line DL (R53) -/
  dl : Vector Cplx 32
  /-- the delay line's write index (R53) -/
  wi : Fin 32
  /-- correlator window W (R56) -/
  corrW : BitVec 64
  /-- correlator count CNT (R56) -/
  corrCnt : Nat
  /-- assembler slot 0 (R57) -/
  slot0 : Slot
  /-- assembler slot 1 (R57) -/
  slot1 : Slot
  /-- the scratch buffer; SCR[b] is its bit b counted from the most significant (20_memory R82) -/
  scr : BitVec 512
  /-- the event stream, oldest word first (30_encoding R120) -/
  events : List Word
  deriving DecidableEq, Repr

/-- A slot in NID search, with a given status-skip counter (10_state R58). -/
def idleSlot (ctr : Fin 36) : Slot where
  active := false
  complete := false
  state := .nid
  buf := []
  cap := Config.nidLen
  ctr := ctr

/-- The reset contents of DUID_MAP (10_state R46). -/
def duidMapReset : Vector DuidEntry 16 :=
  #v[⟨.hdu, 648#12⟩, ⟨.unrecognized, 0#12⟩, ⟨.unrecognized, 0#12⟩, ⟨.tdu, 28#12⟩,
     ⟨.unrecognized, 0#12⟩, ⟨.ldu1, 1568#12⟩, ⟨.unrecognized, 0#12⟩, ⟨.tsbk1, 196#12⟩,
     ⟨.unrecognized, 0#12⟩, ⟨.unrecognized, 0#12⟩, ⟨.ldu2, 1568#12⟩, ⟨.unrecognized, 0#12⟩,
     ⟨.pdu0, 196#12⟩, ⟨.unrecognized, 0#12⟩, ⟨.unrecognized, 0#12⟩, ⟨.tdulc, 288#12⟩]

/-- The hard-reset state (70_reset R500). The host has presented no word yet (log 1). -/
def State.reset : State where
  stream := []
  cc := 0
  ctrl := 0x6#4
  faultBufferFull := false
  faultIllegalCmd := false
  faultSlot := .s0
  syncPatLo := 0xF5FF77FF#32
  syncPatHi := 0x00005575#32
  syncLen := 48#7
  statusInit := 24
  fmax := Config.fmaxReset
  dropCnt := 0#32
  fecResult := 0#32
  duidMap := duidMapReset
  phase := F32.zero
  freq := F32.zero
  omega := F32.ofBits Config.omegaNom
  mu := F32.ofBits Config.omegaNom
  prev := Cplx.zero
  dl := Vector.replicate 32 Cplx.zero
  wi := 0
  corrW := 0#64
  corrCnt := 0
  slot0 := idleSlot 24
  slot1 := idleSlot 24
  scr := 0#512
  events := []

end Sys2Proof.Machine
end

