-- ==== Sys2Proof/Machine/Operands.lean ====
section
/-! DEFINITION. What an operand names: the register of an address (10_state R33), the slot of a slot
number, ranges of the scratch buffer (20_memory R82), bits and ranges of a slot buffer (20_memory R84 to
R89), and samples of the delay line (10_state R53). -/

namespace Sys2Proof.Machine

/-! ## Register addresses (10_state R33) -/

/-- The mapped registers (10_state R33). -/
inductive RegName where
  | ctrl | status | syncPatLo | syncPatHi | syncLen | statusInit | fmax | dropCnt | fecResult
  | duidMap (c : BitVec 4)
  | costasPhase | costasFreq | gardnerOmega | gardnerMu
  deriving DecidableEq, Repr

/-- The register at an address; none when it is unmapped (10_state R33). -/
def regOfAddr (a : BitVec 8) : Option RegName :=
  match a.toNat with
  | 0x00 => some .ctrl
  | 0x01 => some .status
  | 0x02 => some .syncPatLo
  | 0x03 => some .syncPatHi
  | 0x04 => some .syncLen
  | 0x05 => some .statusInit
  | 0x06 => some .fmax
  | 0x07 => some .dropCnt
  | 0x08 => some .fecResult
  | 0x20 => some .costasPhase
  | 0x21 => some .costasFreq
  | 0x22 => some .gardnerOmega
  | 0x23 => some .gardnerMu
  | n => if 0x10 ≤ n ∧ n ≤ 0x1F then some (.duidMap (BitVec.ofNat 4 n)) else none

/-- The 4-bit code of a TARGET (10_state R45). -/
def targetNum : Target → BitVec 4
  | .hdu => 1#4
  | .ldu1 => 2#4
  | .ldu2 => 3#4
  | .tdu => 4#4
  | .tdulc => 5#4
  | .tsbk1 => 6#4
  | .pdu0 => 9#4
  | .unknown => 14#4
  | .unrecognized => 15#4

/-- The TARGET stored for a written code: an illegal one is stored as 15 (10_state R45). -/
def targetOfNum (c : BitVec 4) : Target :=
  match c.toNat with
  | 1 => .hdu
  | 2 => .ldu1
  | 3 => .ldu2
  | 4 => .tdu
  | 5 => .tdulc
  | 6 => .tsbk1
  | 9 => .pdu0
  | 14 => .unknown
  | _ => .unrecognized

/-- The state a TARGET selects; none for "unrecognized" (10_state R45, 43_duid R272). -/
def targetState : Target → Option StateCode
  | .hdu => some .hdu
  | .ldu1 => some .ldu1
  | .ldu2 => some .ldu2
  | .tdu => some .tdu
  | .tdulc => some .tdulc
  | .tsbk1 => some .tsbk1
  | .pdu0 => some .pdu0
  | .unknown => some .unknown
  | .unrecognized => none

/-- The entry a DUID_MAP write stores; bits 15:4 and 31:28 are dropped (10_state R45). -/
def duidOfWord (v : Word) : DuidEntry := ⟨targetOfNum (v.extractLsb' 0 4), v.extractLsb' 16 12⟩

/-- A DUID_MAP entry as read (10_state R45). -/
def duidToWord (e : DuidEntry) : Word :=
  (e.len.zeroExtend 32 <<< 16) ||| (targetNum e.target).zeroExtend 32

/-! ## Slots (10_state R57, R58) -/

/-- slot[k]. -/
def State.slot (s : State) (k : SlotId) : Slot :=
  match k with
  | .s0 => s.slot0
  | .s1 => s.slot1

/-- slot[k] <- v. -/
def State.setSlot (s : State) (k : SlotId) (v : Slot) : State :=
  { s with
    slot0 := match k with
      | .s0 => v
      | .s1 => s.slot0
    slot1 := match k with
      | .s0 => s.slot1
      | .s1 => v }

/-- The write cursor `len` (20_memory R84). -/
def Slot.len (v : Slot) : Nat := v.buf.length

/-- FULL: len == cap (20_memory R88). -/
def Slot.full (v : Slot) : Bool := decide (v.len = v.cap)

/-- EMPTY: len == 0 (20_memory R88). -/
def Slot.empty (v : Slot) : Bool := decide (v.len = 0)

/-- RESIZE (20_memory R87): the capacity becomes c, and the buffer is truncated to it. -/
def Slot.resize (v : Slot) (c : Nat) : Slot := { v with cap := c, buf := v.buf.take c }

/-- CLEAR (20_memory R88). -/
def Slot.clear (v : Slot) : Slot := { v with buf := [] }

/-- The string with `c` written at index `i`; bits at or beyond the string's end do not exist and are
not written (20_memory R84, R89; log 11). -/
def overwriteBits (buf : List Bool) (i : Nat) (c : List Bool) : List Bool :=
  (buf.take i ++ c ++ buf.drop (i + c.length)).take buf.length

/-- WRITE (20_memory R89). -/
def Slot.write (v : Slot) (i : Nat) (c : List Bool) : Slot := { v with buf := overwriteBits v.buf i c }

/-- GETBIT (20_memory R86). No rule reads at or beyond the cursor; such a bit is free (log 11). -/
def bufBit (buf : List Bool) (i : Nat) : Bool := (buf[i]?).getD (Config.bitBeyondCursor buf i)

/-- buf[i .. i+n). -/
def bufRange (buf : List Bool) (i n : Nat) : List Bool :=
  (List.range n).map (fun j => bufBit buf (i + j))

/-- The block of `n` bits from index `i`. -/
def bufBlock (buf : List Bool) (i n : Nat) : Block n := fun j => bufBit buf (i + j.val)

/-- GETINT over an index list, first index most significant (20_memory R86). -/
def bufInt (buf : List Bool) (idx : List Nat) : Nat := natOfBits (idx.map (bufBit buf))

/-! ## The scratch buffer (20_memory R82) -/

/-- SCR[b]. -/
def scrBit (scr : BitVec 512) (b : Nat) : Bool := scr.getMsbD b

/-- MemRead(SCR, b, n) (20_memory R82). -/
def scrRead (scr : BitVec 512) (b n : Nat) : List Bool := (List.range n).map (fun i => scrBit scr (b + i))

/-- A number whose bits are 1 at the SCR positions b .. b+n−1. -/
def scrMask (b n : Nat) : BitVec 512 := BitVec.ofNat 512 (2 ^ n - 1) <<< (512 - (b + n))

/-- MemWrite(SCR, b, n, v), n the length of v (20_memory R82). -/
def scrWrite (scr : BitVec 512) (b : Nat) (v : List Bool) : BitVec 512 :=
  (scr &&& ~~~(scrMask b v.length)) |||
    (BitVec.ofNat 512 (natOfBits v) <<< (512 - (b + v.length)))

/-- The block SCR[0..n). -/
def scrBlock (scr : BitVec 512) (n : Nat) : Block n := fun i => scrBit scr i.val

/-- The RS word of the scratch buffer: symbol i is nat(SCR[6i..6i+6)) (44_fec R350). -/
def scrSymbols (scr : BitVec 512) : List Gf :=
  (List.range 63).map (fun i => BitVec.ofNat 6 (natOfBits (scrRead scr (6 * i) 6)))

/-- The 378 bits of an RS word, symbol by symbol (44_fec R350). -/
def symbolBits (r : List Gf) : List Bool := r.flatMap (fun c => bitsOfNat 6 c.toNat)

/-! ## The delay line (10_state R53) -/

/-- Y(k) = DL[(wi − 1 − k) mod DL_LEN]. -/
def State.tap (s : State) (k : Nat) : Cplx := s.dl.get (s.wi - 1 - Fin.ofNat 32 k)

end Sys2Proof.Machine
end

