-- ==== Sys2Proof/Machine/Flags.lean ====
section
/-! DEFINITION. The flag-like outcomes of the block (10_state R62): the STATUS word, the CRC status,
the FEC_RESULT word, and the fields of CTRL. There is no condition-code register. -/

namespace Sys2Proof.Machine

/-- A bit as a word field at position `p`. -/
def flagAt (b : Bool) (p : Nat) : Word := BitVec.ofNat 32 b.toNat <<< p

/-- A 4-bit code as a word field at position `p`. -/
def codeAt (c : BitVec 4) (p : Nat) : Word := c.zeroExtend 32 <<< p

/-! ## CTRL (10_state R34) -/

/-- CTRL.INVERT, bit 0. -/
def State.invert (s : State) : Bool := s.ctrl.getLsbD 0

/-- CTRL.LISTENER_EN, bit 1. -/
def State.listenerEn (s : State) : Bool := s.ctrl.getLsbD 1

/-- CTRL.TSBK_CRCFIX, bit 2. -/
def State.tsbkCrcFix (s : State) : Bool := s.ctrl.getLsbD 2

/-- CTRL.TAP_EN, bit 3. -/
def State.tapEn (s : State) : Bool := s.ctrl.getLsbD 3

/-! ## STATUS (10_state R35) -/

/-- The STATUS register as read: the sticky faults and the live slot copies (10_state R35, R44). -/
def State.statusWord (s : State) : Word :=
  flagAt s.faultBufferFull 0 ||| flagAt s.faultIllegalCmd 1 |||
  flagAt s.slot0.active 2 ||| flagAt s.slot1.active 3 |||
  codeAt (stateNum s.slot0.state) 4 ||| codeAt (stateNum s.slot1.state) 8 |||
  flagAt (decide (s.faultSlot = .s1)) 12

/-! ## FEC outcomes (10_state R41, R62) -/

/-- FEC_RESULT.CRCSTAT of a CRC outcome: 1 pass, 2 corrected, 3 failed (10_state R41). -/
def crcStat : CrcOutcome → Nat
  | .pass => 1
  | .corrected => 2
  | .failed => 3

/-- FEC_RESULT.OK of a CRC outcome (46_host_commands R441). -/
def crcOk : CrcOutcome → Bool
  | .pass => true
  | .corrected => true
  | .failed => false

/-- The CRC outcome of the plain check (45_fec R391). -/
def crcPlain (b : List Bool) : CrcOutcome := if crcCheck b then .pass else .failed

/-- The number of bits a CRC outcome flipped (46_host_commands R441). -/
def crcFlips : CrcOutcome → Nat
  | .pass => 0
  | .corrected => 1
  | .failed => 0

/-- The record CRC field of a TSBK whose CRC did not fail: 1 pass, 2 corrected (30_encoding R126). -/
def recordCrc : CrcOutcome → BitVec 2
  | .pass => 1#2
  | .corrected => 2#2
  | .failed => 0#2

/-- FEC_RESULT of a host FEC command: (opc << 16) | (crcstat << 8) | (nerr << 1) | ok
(46_host_commands R444). -/
def fecResultWord (opc : BitVec 8) (ok : Bool) (nerr crcstat : Nat) : Word :=
  (opc.zeroExtend 32 <<< 16) ||| (BitVec.ofNat 32 crcstat <<< 8) |||
  (BitVec.ofNat 32 nerr <<< 1) ||| flagAt ok 0

end Sys2Proof.Machine
end

