-- ==== Sys2Proof/Machine/Ops.lean ====
section
/-! DEFINITION. The shared operations: emitting an event, raising a fault of the spec (the block's only
kind of exception; there is no trap entry and no return, 60_exceptions R476), the buffer primitives on a
slot of the state, slot activation and reset, dispatch, register access, and the end of a host FEC
command. -/

namespace Sys2Proof.Machine

/-! ## Events (30_encoding R120 to R128) -/

/-- The FAULT event's word (30_encoding R124). -/
def faultWord : FaultCause → Word
  | .bufferFull k => 0x03000001#32 ||| (BitVec.ofNat 32 (slotNum k) <<< 8)
  | .illegalCmd opc => 0x03000002#32 ||| (opc.zeroExtend 32 <<< 16)

/-- The MSG header word (30_encoding R126). LEN is the field's 16 bits. -/
def msgHeader (kind : StateCode) (crc : BitVec 2) (fecOk : Bool) (k : SlotId) (len : Nat) : Word :=
  0x01000000#32 ||| ((stateNum kind).zeroExtend 32 <<< 20) ||| (crc.zeroExtend 32 <<< 18) |||
  flagAt fecOk 17 ||| (BitVec.ofNat 32 (slotNum k) <<< 16) ||| (BitVec.ofNat 16 len).zeroExtend 32

/-- The words of an event: its header and payload (30_encoding R121 to R128). -/
def eventWords : Event → List Word
  | .msg kind crc fecOk k bits => msgHeader kind crc fecOk k bits.length :: recordWords bits
  | .syncDropped => [0x02000000#32]
  | .fault c => [faultWord c]
  | .regVal a v => [0x04000000#32 ||| a.zeroExtend 32, v]
  | .scrVal i v => [0x05000000#32 ||| i.zeroExtend 32, v]
  | .fecDone r => [0x06000000#32 ||| (r.extractLsb' 0 24).zeroExtend 32]
  | .dibitOut d => [0x07000000#32 ||| (dibitLow d).zeroExtend 32]

/-- emit E: append one event to the event stream (30_encoding R120). -/
def emit (e : Event) (s : State) : State := { s with events := s.events ++ eventWords e }

/-! ## Slots: reset, activation (42_sync R231, R232) -/

/-- RESET_SLOT(k): inactive, NID search, empty, capacity NID_LEN; `ctr` is left as it is
(42_sync R231). -/
def resetSlot (k : SlotId) (s : State) : State := s.setSlot k (idleSlot (s.slot k).ctr)

/-- ACTIVATE(k): STATUS_INIT is read now (42_sync R232). -/
def activate (k : SlotId) (s : State) : State :=
  s.setSlot k { idleSlot s.statusInit with active := true }

/-! ## Taking a fault (60_exceptions R470 to R473) -/

/-- The sticky STATUS bits a fault sets (60_exceptions R472, R473). -/
def setSticky (c : FaultCause) (s : State) : State :=
  match c with
  | .bufferFull k => { s with faultBufferFull := true, faultSlot := k }
  | .illegalCmd _ => { s with faultIllegalCmd := true }

/-- raise Fault: the sticky bits, the FAULT event, and for BUFFER_FULL the reset of the slot
(60_exceptions R472, R473). -/
def raiseFault (c : FaultCause) (s : State) : State :=
  match c with
  | .bufferFull k => resetSlot k (emit (.fault c) (setSticky c s))
  | .illegalCmd _ => emit (.fault c) (setSticky c s)

/-! ## Buffer primitives on slot k (20_memory R85 to R90) -/

/-- APPEND(k, b): the new state, and whether the bit was stored; at capacity BUFFER_FULL is raised
(20_memory R85). -/
def append (k : SlotId) (b : Bool) (s : State) : State × Bool :=
  if (s.slot k).len = (s.slot k).cap then (raiseFault (.bufferFull k) s, false)
  else (s.setSlot k { s.slot k with buf := (s.slot k).buf ++ [b] }, true)

/-- RESIZE(k, c) (20_memory R87). -/
def resize (k : SlotId) (c : Nat) (s : State) : State := s.setSlot k ((s.slot k).resize c)

/-- WRITE(k, i, C) (20_memory R89). -/
def writeBuf (k : SlotId) (i : Nat) (c : List Bool) (s : State) : State :=
  s.setSlot k ((s.slot k).write i c)

/-- slot[k].state <- code. -/
def enterState (k : SlotId) (c : StateCode) (s : State) : State :=
  s.setSlot k { s.slot k with state := c }

/-- COMPLETE(k) (43_duid R270). -/
def complete (k : SlotId) (s : State) : State := s.setSlot k { s.slot k with complete := true }

/-- DISPATCH(k, crc, fec_ok): the record is a copy of the buffer; with no listener it is discarded
(42_sync R262). -/
def dispatch (k : SlotId) (crc : BitVec 2) (fecOk : Bool) (s : State) : State :=
  if s.listenerEn then emit (.msg (s.slot k).state crc fecOk k (s.slot k).buf) s else s

/-! ## Registers (10_state R33 to R46) -/

/-- reg[A] of a mapped register (10_state R34 to R45). -/
def readReg (r : RegName) (s : State) : Word :=
  match r with
  | .ctrl => s.ctrl.zeroExtend 32
  | .status => s.statusWord
  | .syncPatLo => s.syncPatLo
  | .syncPatHi => s.syncPatHi
  | .syncLen => s.syncLen.zeroExtend 32
  | .statusInit => BitVec.ofNat 32 s.statusInit.val
  | .fmax => s.fmax
  | .dropCnt => s.dropCnt
  | .fecResult => s.fecResult
  | .duidMap c => duidToWord (s.duidMap.get c.toFin)
  | .costasPhase => s.phase.toBits
  | .costasFreq => s.freq.toBits
  | .gardnerOmega => s.omega.toBits
  | .gardnerMu => s.mu.toBits

/-- reg[A]: an unmapped address reads 0 (10_state R33). -/
def readAddr (a : BitVec 8) (s : State) : Word :=
  match regOfAddr a with
  | some r => readReg r s
  | none => 0#32

/-- A value FMAX stores: sign bit 0 and finite (10_state R39). -/
def fmaxLegal (v : Word) : Bool := !v.msb && decide (v.extractLsb' 23 8 ≠ 0xFF#8)

/-- reg[A] <- V of a mapped register: write-any-read-legal fields keep their value on an illegal one,
read-only registers ignore the write (46_host_commands R433). -/
def writeReg (r : RegName) (v : Word) (s : State) : State :=
  match r with
  | .ctrl => { s with ctrl := v.extractLsb' 0 4 }
  | .syncPatLo => { s with syncPatLo := v }
  | .syncPatHi => { s with syncPatHi := v }
  | .syncLen =>
    if 1 ≤ (v.extractLsb' 0 7).toNat ∧ (v.extractLsb' 0 7).toNat ≤ 64 then
      { s with syncLen := v.extractLsb' 0 7 }
    else s
  | .statusInit =>
    if h : (v.extractLsb' 0 6).toNat < 36 then { s with statusInit := ⟨(v.extractLsb' 0 6).toNat, h⟩ }
    else s
  | .fmax => if fmaxLegal v then { s with fmax := v } else s
  | .duidMap c => { s with duidMap := s.duidMap.set c.toNat (duidOfWord v) c.isLt }
  | .status => s
  | .dropCnt => s
  | .fecResult => s
  | .costasPhase => s
  | .costasFreq => s
  | .gardnerOmega => s
  | .gardnerMu => s

/-- reg[A] <- V: a write to an unmapped address changes nothing (10_state R33). -/
def writeAddr (a : BitVec 8) (v : Word) (s : State) : State :=
  match regOfAddr a with
  | some r => writeReg r v s
  | none => s

/-! ## Scratch buffer and the end of a FEC command (20_memory R82, 46_host_commands R444) -/

/-- MemWrite(SCR, b, |v|, v). -/
def memWrite (b : Nat) (v : List Bool) (s : State) : State := { s with scr := scrWrite s.scr b v }

/-- Scratch word w (20_memory R82). -/
def scrWord (scr : BitVec 512) (w : Nat) : Word := BitVec.ofNat 32 (natOfBits (scrRead scr (32 * w) 32))

/-- FEC_DONE(opc, ok, nerr, crcstat) (46_host_commands R444). -/
def fecDone (opc : BitVec 8) (ok : Bool) (nerr crcstat : Nat) (s : State) : State :=
  emit (.fecDone (fecResultWord opc ok nerr crcstat))
    { s with fecResult := fecResultWord opc ok nerr crcstat }

/-! ## Soft reset (70_reset R500, R502) -/

/-- The soft-reset column of 70_reset R500: synchronizer, correlator, slots and DROP_CNT; everything
else is kept. -/
def softReset (s : State) : State :=
  { s with
    dropCnt := 0#32
    phase := F32.zero
    freq := F32.zero
    omega := F32.ofBits Config.omegaNom
    mu := F32.ofBits Config.omegaNom
    prev := Cplx.zero
    dl := Vector.replicate 32 Cplx.zero
    wi := 0
    corrW := 0#64
    corrCnt := 0
    slot0 := idleSlot s.statusInit
    slot1 := idleSlot s.statusInit }

/-! ## The host interface (30_encoding R110) -/

/-- The host presents more words of its command stream. -/
def State.present (s : State) (ws : List Word) : State := { s with stream := s.stream ++ ws }

end Sys2Proof.Machine
end

