-- ==== Sys2Proof/Machine/Handlers.lean ====
section
/-! DEFINITION. The data-unit decode state machine: the 15 state handlers
(43_duid_state_machine R270 to R300). A handler works on slot `k`; it runs when the slot's buffer is full
(42_sync R231). Each takes the function parameters of 00_scope R8. -/

namespace Sys2Proof.Machine

open Config (Params)

/-! ## NID (43_duid R272, R273) -/

/-- NEWCAP(e) (43_duid R273). -/
def newCap (e : DuidEntry) : Nat :=
  match e.target with
  | .tsbk1 => Config.nidLen + Config.blockBits
  | .pdu0 => Config.nidLen + Config.blockBits
  | _ => Config.nidLen + e.len.toNat

/-- The DUID_MAP entry a corrected NID selects: the DUID is its bits 12 to 15 (43_duid R272). -/
def duidEntry (k : SlotId) (s : State) : DuidEntry :=
  s.duidMap.get (Fin.ofNat 16 (bufInt (s.slot k).buf [12, 13, 14, 15]))

/-- The NID handler after a successful BCH decode: enter the DUID's state, or complete when the DUID is
unrecognized (43_duid R272). -/
def nidContinue (k : SlotId) (s : State) : State :=
  match targetState (duidEntry k s).target with
  | none => complete k s
  | some c => resize k (newCap (duidEntry k s)) (enterState k c s)

/-- Handler NID (43_duid R272). -/
def handleNid (k : SlotId) (s : State) : State :=
  let dec := bchDecode (bufRange (s.slot k).buf 0 63)
  if dec.ok then nidContinue k (writeBuf k 0 dec.word s) else complete k s

/-! ## Raw-bit data units (43_duid R274 to R279) -/

/-- Dispatch the whole buffer with no CRC checked, and complete (43_duid R274). -/
def dispatchRaw (k : SlotId) (fecOk : Bool) (s : State) : State := complete k (dispatch k 0#2 fecOk s)

/-! ## Block decoding (43_duid R284) -/

/-- The deinterleaved block of BLOCK_DEC (43_duid R284). -/
def blockOf (P : Params) (k : SlotId) (start : Nat) (s : State) : Block 196 :=
  deint P (bufBlock (s.slot k).buf start 196)

/-- BLOCK_DEC's effect on the buffer: the block is deinterleaved in place (43_duid R284). -/
def blockDeint (P : Params) (k : SlotId) (start : Nat) (s : State) : State :=
  writeBuf k start (blockBits (blockOf P k start s)) s

/-! ## TSBK chain (43_duid R283, R288, R291) -/

/-- TSBK_CRC: the outcome over buffer bits 64..159, and the state with the corrected range written
(43_duid R291). -/
def tsbkCrc (k : SlotId) (s : State) : CrcOutcome × State :=
  let range := bufRange (s.slot k).buf 64 96
  if s.tsbkCrcFix then
    let res := crcCorrect range
    (res.1, if res.1 = .corrected then writeBuf k 64 res.2 s else s)
  else (crcPlain range, s)

/-- The end of a TSBK stage whose CRC did not fail: dispatch, then complete on the last block or in
TSBK3 (`next` none), else make room for the next block (43_duid R283). -/
def tsbkDispatch (k : SlotId) (next : Option StateCode) (crc : CrcOutcome) (s : State) : State :=
  let t := dispatch k (recordCrc crc) true (resize k 160 s)
  match next with
  | none => complete k t
  | some c =>
    if bufBit (t.slot k).buf 64 then complete k t
    else enterState k c (resize k 260 (resize k 64 t))

/-- TSBK_STAGE (43_duid R283); `next` is the state of the next stage, none for TSBK3. -/
def tsbkStage (P : Params) (k : SlotId) (next : Option StateCode) (s : State) : State :=
  let dec := P.trellis12 (blockOf P k 64 s)
  let s1 := blockDeint P k 64 s
  if dec.1 then
    let crc := tsbkCrc k (writeBuf k 64 (blockBits dec.2) s1)
    if crc.1 = .failed then complete k crc.2 else tsbkDispatch k next crc.1 crc.2
  else complete k s1

/-! ## PDU chain (43_duid R292 to R296) -/

/-- FMT, header bits 67..71 (43_duid R292). -/
def pduFmt (k : SlotId) (s : State) : Nat := bufInt (s.slot k).buf [67, 68, 69, 70, 71]

/-- BTF, header bits 113..119 (43_duid R292). -/
def pduBtf (k : SlotId) (s : State) : Nat :=
  bufInt (s.slot k).buf [113, 114, 115, 116, 117, 118, 119]

/-- One data block of an unconfirmed PDU, received at `start`: the last block when `btf ≤ n`, else the
frame goes on in state `next` (43_duid R294, R295). -/
def pduStage (P : Params) (k : SlotId) (start n : Nat) (next : StateCode) (s : State) : State :=
  let dec := P.trellis12 (blockOf P k start s)
  let s1 := blockDeint P k start s
  if dec.1 then
    let s2 := resize k (start + 96) (writeBuf k start (blockBits dec.2) s1)
    if pduBtf k s2 ≤ n then dispatchRaw k true s2
    else resize k (start + 96 + 196) (enterState k next s2)
  else complete k s1

/-- Handler PDU0, the header block (43_duid R293). -/
def handlePdu0 (P : Params) (k : SlotId) (s : State) : State :=
  let dec := P.trellis12 (blockOf P k 64 s)
  let s1 := blockDeint P k 64 s
  if dec.1 then
    let s2 := resize k 160 (writeBuf k 64 (blockBits dec.2) s1)
    if pduBtf k s2 = 0 then dispatchRaw k true s2
    else
      resize k (160 + 196)
        (enterState k (if pduFmt k s2 = Config.fmtConfirmed then .pduc else .pdu1) s2)
  else complete k s1

/-- Handler PDU3, the final stage, which dispatches whatever the decoder returned (43_duid R296). -/
def handlePdu3 (P : Params) (k : SlotId) (s : State) : State :=
  let dec := P.trellis12 (blockOf P k 352 s)
  dispatchRaw k dec.1 (resize k 448 (writeBuf k 352 (blockBits dec.2) (blockDeint P k 352 s)))

/-! ## Confirmed PDU (43_duid R300) -/

/-- Handler PDUC, one rate-3/4 block of a confirmed PDU (43_duid R300). -/
def handlePduc (P : Params) (k : SlotId) (s : State) : State :=
  let start := (s.slot k).cap - 196
  let j := (start - 160) / 144
  let dec := P.trellis34 (blockOf P k start s)
  let s1 := blockDeint P k start s
  if dec.1 then
    let s2 := resize k (start + 144) (writeBuf k start (blockBits dec.2) s1)
    if pduBtf k s2 ≤ j + 1 then dispatchRaw k true s2
    else resize k (start + 144 + 196) s2
  else dispatchRaw k false (resize k start s1)

/-! ## The handler table (30_encoding R130, 43_duid R271) -/

/-- SM_STEP(k): the handler selected by the slot's state runs (43_duid R271). -/
def smStep (P : Params) (k : SlotId) (s : State) : State :=
  match (s.slot k).state with
  | .nid => handleNid k s
  | .hdu => dispatchRaw k true s
  | .ldu1 => dispatchRaw k true s
  | .ldu2 => dispatchRaw k true s
  | .tdu => dispatchRaw k true s
  | .tdulc => dispatchRaw k true s
  | .tsbk1 => tsbkStage P k (some .tsbk2) s
  | .tsbk2 => tsbkStage P k (some .tsbk3) s
  | .tsbk3 => tsbkStage P k none s
  | .pdu0 => handlePdu0 P k s
  | .pdu1 => pduStage P k 160 1 .pdu2 s
  | .pdu2 => pduStage P k 256 2 .pdu3 s
  | .pdu3 => handlePdu3 P k s
  | .pduc => handlePduc P k s
  | .unknown => dispatchRaw k true s

/-! ## The handlers as instructions -/

/-- STATE.NID (43_duid R272). -/
def execStateNid (k : SlotId) (s : State) : Host.Outcome State Fault Refusal := .next (handleNid k s)

/-- STATE.HDU (43_duid R274). -/
def execStateHdu (k : SlotId) (s : State) : Host.Outcome State Fault Refusal :=
  .next (dispatchRaw k true s)

/-- STATE.LDU1 (43_duid R275). -/
def execStateLdu1 (k : SlotId) (s : State) : Host.Outcome State Fault Refusal :=
  .next (dispatchRaw k true s)

/-- STATE.LDU2 (43_duid R276). -/
def execStateLdu2 (k : SlotId) (s : State) : Host.Outcome State Fault Refusal :=
  .next (dispatchRaw k true s)

/-- STATE.TDU (43_duid R277). -/
def execStateTdu (k : SlotId) (s : State) : Host.Outcome State Fault Refusal :=
  .next (dispatchRaw k true s)

/-- STATE.TDULC (43_duid R278). -/
def execStateTdulc (k : SlotId) (s : State) : Host.Outcome State Fault Refusal :=
  .next (dispatchRaw k true s)

/-- STATE.TSBK1 (43_duid R285). -/
def execStateTsbk1 (k : SlotId) (s : State) : Host.Outcome State Fault Refusal :=
  .next (tsbkStage Config.params k (some .tsbk2) s)

/-- STATE.TSBK2 (43_duid R286). -/
def execStateTsbk2 (k : SlotId) (s : State) : Host.Outcome State Fault Refusal :=
  .next (tsbkStage Config.params k (some .tsbk3) s)

/-- STATE.TSBK3 (43_duid R287). -/
def execStateTsbk3 (k : SlotId) (s : State) : Host.Outcome State Fault Refusal :=
  .next (tsbkStage Config.params k none s)

/-- STATE.PDU0 (43_duid R293). -/
def execStatePdu0 (k : SlotId) (s : State) : Host.Outcome State Fault Refusal :=
  .next (handlePdu0 Config.params k s)

/-- STATE.PDU1 (43_duid R294). -/
def execStatePdu1 (k : SlotId) (s : State) : Host.Outcome State Fault Refusal :=
  .next (pduStage Config.params k 160 1 .pdu2 s)

/-- STATE.PDU2 (43_duid R295). -/
def execStatePdu2 (k : SlotId) (s : State) : Host.Outcome State Fault Refusal :=
  .next (pduStage Config.params k 256 2 .pdu3 s)

/-- STATE.PDU3 (43_duid R296). -/
def execStatePdu3 (k : SlotId) (s : State) : Host.Outcome State Fault Refusal :=
  .next (handlePdu3 Config.params k s)

/-- STATE.PDUC (43_duid R300). -/
def execStatePduc (k : SlotId) (s : State) : Host.Outcome State Fault Refusal :=
  .next (handlePduc Config.params k s)

/-- STATE.UNKNOWN (43_duid R279). -/
def execStateUnknown (k : SlotId) (s : State) : Host.Outcome State Fault Refusal :=
  .next (dispatchRaw k true s)

end Sys2Proof.Machine
end

