-- ==== Sys2Proof/Machine/DibitPath.lean ====
section
/-! DEFINITION. The dibit path: the sync correlator, the assembler slots receiving dibits, detection and
dropping (42_sync_and_assembly R220 to R240). -/

namespace Sys2Proof.Machine

open Config (Params)

/-! ## Sync correlator (42_sync R221, R222) -/

/-- CORR_SHIFT: the window and the saturating count (42_sync R221). -/
def corrShift (b : Bool) (s : State) : State :=
  { s with
    corrW := (s.corrW <<< 1) ||| BitVec.ofNat 64 b.toNat
    corrCnt := min (s.corrCnt + 1) Config.corrWidth }

/-- PAT = SYNC_PAT_HI ++ SYNC_PAT_LO (10_state R36). -/
def State.syncPat (s : State) : BitVec 64 := s.syncPatHi ++ s.syncPatLo

/-- MATCH: CNT ≥ P and the low P bits of W and PAT agree (42_sync R222). -/
def State.syncMatch (s : State) : Bool :=
  decide (s.syncLen.toNat ≤ s.corrCnt) &&
    decide (s.corrW.toNat % 2 ^ s.syncLen.toNat = s.syncPat.toNat % 2 ^ s.syncLen.toNat)

/-- DROP: count the detection and emit the diagnostic (42_sync R233). -/
def dropSync (s : State) : State := emit .syncDropped { s with dropCnt := s.dropCnt + 1 }

/-- DETECT: activate the lowest-numbered inactive slot, else drop (42_sync R234). -/
def detect (s : State) : State :=
  if s.slot0.active = false then activate .s0 s
  else if s.slot1.active = false then activate .s1 s
  else dropSync s

/-- One bit into the correlator, with its detection (42_sync R240). -/
def corrBit (b : Bool) (s : State) : State :=
  if (corrShift b s).syncMatch then detect (corrShift b s) else corrShift b s

/-! ## Assembler slots (42_sync R230, R231) -/

/-- slot[k].ctr <- c. -/
def setCtr (k : SlotId) (c : Fin 36) (s : State) : State := s.setSlot k { s.slot k with ctr := c }

/-- Both bits of a dibit appended; the second only when the first did not fault (42_sync R230). -/
def appendDibit (k : SlotId) (d : Dibit) (s : State) : State × Bool :=
  if (append k (dibitB1 d) s).2 then append k (dibitB2 d) (append k (dibitB1 d) s).1
  else append k (dibitB1 d) s

/-- ASM_RECEIVE(k, dib): the new state, and whether no fault was raised; at ctr = 35 the status dibit
is skipped (42_sync R230). -/
def asmReceive (k : SlotId) (d : Dibit) (s : State) : State × Bool :=
  if (s.slot k).ctr = 35 then (setCtr k 0 s, true)
  else appendDibit k d (setCtr k ((s.slot k).ctr + 1) s)

/-- The full check of slot k (42_sync R231): while the buffer is full its handler runs; a completed slot
is reset. `n` bounds the handler runs; two always suffice (log 12). -/
def fullCheck (P : Params) (k : SlotId) : Nat → State → State
  | 0, s => s
  | n + 1, s =>
    if (s.slot k).full then
      if ((smStep P k s).slot k).complete then resetSlot k (smStep P k s)
      else fullCheck P k n (smStep P k s)
    else s

/-- One dibit for slot k, when it is active: receive, then the full check unless it faulted
(42_sync R240). -/
def asmSlot (P : Params) (k : SlotId) (d : Dibit) (s : State) : State :=
  if (s.slot k).active then
    if (asmReceive k d s).2 then fullCheck P k 3 (asmReceive k d s).1 else (asmReceive k d s).1
  else s

/-- DIBIT_STEP(dib): slot 0, slot 1, then the correlator on b1 and on b2 (42_sync R240). -/
def dibitStep (P : Params) (d : Dibit) (s : State) : State :=
  corrBit (dibitB2 d) (corrBit (dibitB1 d) (asmSlot P .s1 d (asmSlot P .s0 d s)))

/-- A sequence of dibits, each with its whole step before the next (46_host_commands R447). -/
def dibitsStep (P : Params) (ds : List Dibit) (s : State) : State :=
  ds.foldl (fun t d => dibitStep P d t) s

end Sys2Proof.Machine
end

