-- ==== Sys2Proof/Machine/Synchronizer.lean ====
section
/-! DEFINITION. The carrier and symbol synchronizer (40_synchronizer R150 to R162) and the symbol slicer
(41_slicer R203 to R206). Arithmetic is binary32 in the order the rules write it (00_scope R12). -/

namespace Sys2Proof.Machine

open Config (Params)

/-! ## WRAP (40_synchronizer R152) -/

/-- "while p: x <- f(x)" on one binary32 variable, for at most `n` turns. None where the loop does not
end within them, as when a turn gives back the x it started from. -/
def repeatWhile (p : F32 → Bool) (f : F32 → F32) : Nat → F32 → Option F32
  | 0, _ => none
  | n + 1, x => if p x then (if f x = x then none else repeatWhile p f n (f x)) else some x

/-- The bound WRAP puts on a loop. A loop that ends meets no value twice, so it takes fewer turns than
there are binary32 values: no loop that ends reaches the bound (log 9). -/
def loopBound : Nat := 2 ^ 32

/-- The first loop of WRAP: subtract TWO_PI while x > TWO_PI. -/
def wrapDown : F32 → Option F32 :=
  repeatWhile (fun x => F32.gt x (F32.ofBits Config.twoPi)) (fun x => F32.sub x (F32.ofBits Config.twoPi))
    loopBound

/-- The second loop of WRAP: add TWO_PI while x < −TWO_PI. -/
def wrapUp : F32 → Option F32 :=
  repeatWhile (fun x => F32.lt x (F32.neg (F32.ofBits Config.twoPi)))
    (fun x => F32.add x (F32.ofBits Config.twoPi)) loopBound

/-- x lies in [−TWO_PI, TWO_PI]. -/
def inTwoPi (x : F32) : Bool :=
  F32.le (F32.neg (F32.ofBits Config.twoPi)) x && F32.le x (F32.ofBits Config.twoPi)

/-- The free value of WRAP where its loop does not end, kept to the bound "wrapped to ±2π" (log 9). -/
def wrapFree (x : F32) : F32 := if inTwoPi (Config.wrapOpen x) then Config.wrapOpen x else F32.zero

/-- WRAP(x) (40_synchronizer R152). -/
def wrap (x : F32) : F32 :=
  match wrapDown x with
  | none => wrapFree x
  | some y =>
    match wrapUp y with
    | none => wrapFree x
    | some z => z

/-! ## INTERP (40_synchronizer R153) -/

/-- The four Lagrange weights at the fraction `fr` (40_synchronizer R153). -/
def interpWeights (fr : F32) : F32 × F32 × F32 × F32 :=
  let fm1 := F32.sub fr (F32.ofBits Config.one)
  let fm2 := F32.sub fr (F32.ofBits Config.two)
  let fp1 := F32.add fr (F32.ofBits Config.one)
  let six := F32.ofBits Config.six
  let two := F32.ofBits Config.two
  (F32.neg (F32.div (F32.mul (F32.mul fr fm1) fm2) six),
   F32.div (F32.mul (F32.mul fp1 fm1) fm2) two,
   F32.neg (F32.div (F32.mul (F32.mul fp1 fr) fm2) two),
   F32.div (F32.mul (F32.mul fp1 fr) fm1) six)

/-- The weighted sum of four taps (40_synchronizer R153). -/
def interpSum (h : F32 × F32 × F32 × F32) (y0 y1 y2 y3 : F32) : F32 :=
  F32.add (F32.add (F32.add (F32.mul h.1 y0) (F32.mul h.2.1 y1)) (F32.mul h.2.2.1 y2))
    (F32.mul h.2.2.2 y3)

/-- INTERP(b) for 1 ≤ b < 8; outside that range no rule gives a value, and it is free (log 10). -/
def interp (b : F32) (s : State) : Cplx :=
  if F32.le (F32.ofBits Config.one) b && F32.lt b (F32.ofBits Config.eight) then
    let i := b.floorNat
    let h := interpWeights (F32.sub b (F32.ofNat i))
    let y0 := s.tap (i - 1)
    let y1 := s.tap i
    let y2 := s.tap (i + 1)
    let y3 := s.tap (i + 2)
    ⟨interpSum h y0.re y1.re y2.re y3.re, interpSum h y0.im y1.im y2.im y3.im⟩
  else Config.interpOpen b s.dl.toList s.wi.val

/-! ## COSTAS_ERR (40_synchronizer R154) -/

/-- The signed difference of the normalised components, NaN taken to +0.0 (40_synchronizer R154). -/
def costasDiff (a b : F32) : F32 :=
  let e :=
    if F32.ge a F32.zero = F32.ge b F32.zero then F32.sub b.abs a.abs else F32.sub a.abs b.abs
  if e.isNaN then F32.zero else e

/-- COSTAS_ERR(d) (40_synchronizer R154). -/
def costasErr (d : Cplx) : F32 :=
  let m := F32.sqrt (F32.add (F32.mul d.re d.re) (F32.mul d.im d.im))
  if F32.gt m F32.zero && F32.lt m (.inf false) then costasDiff (F32.div d.re m) (F32.div d.im m)
  else F32.zero

/-! ## The slicer (41_slicer R203, R206) -/

/-- SLICE(s) (41_slicer R203). -/
def slice (c : Cplx) : Dibit :=
  if F32.gt c.re.abs c.im.abs then (if F32.gt c.re F32.zero then .d00 else .d11)
  else (if F32.gt c.im F32.zero then .d01 else .d10)

/-- The dibit after the optional inversion (41_slicer R206). -/
def sliceOut (d : Dibit) (s : State) : Dibit := if s.invert then dibitInv d else d

/-- DIBIT_IN(dib): inversion, the tap, then the dibit path (41_slicer R206). -/
def dibitIn (P : Params) (d : Dibit) (s : State) : State :=
  dibitStep P (sliceOut d s) (if s.tapEn then emit (.dibitOut (sliceOut d s)) s else s)

/-! ## SYMBOL_STEP (40_synchronizer R157 to R162) -/

/-- x clamped to [lo, hi] by the two comparisons, the low one first. -/
def clampLow (lo hi x : F32) : F32 :=
  let y := if F32.lt x lo then lo else x
  if F32.gt y hi then hi else y

/-- x clamped to [lo, hi] by the two comparisons, the high one first. -/
def clampHigh (lo hi x : F32) : F32 :=
  let y := if F32.gt x hi then hi else x
  if F32.lt y lo then lo else y

/-- The Gardner timing error, NaN taken to +0.0 and clamped to [−1, 1] (40_synchronizer R157). -/
def timingError (prev cur mid : Cplx) : F32 :=
  let et := F32.add (F32.mul (F32.sub prev.re cur.re) mid.re) (F32.mul (F32.sub prev.im cur.im) mid.im)
  clampHigh (F32.neg (F32.ofBits Config.one)) (F32.ofBits Config.one)
    (if et.isNaN then F32.zero else et)

/-- The centre position b = 2 − mu of a symbol (40_synchronizer R157). -/
def centrePos (s : State) : F32 := F32.sub (F32.ofBits Config.two) s.mu

/-- The current symbol centre (40_synchronizer R157). -/
def symbolCentre (s : State) : Cplx := interp (centrePos s) s

/-- The point half a symbol earlier (40_synchronizer R157). -/
def symbolMid (s : State) : Cplx :=
  interp (F32.add (centrePos s) (F32.mul s.omega (F32.ofBits Config.half))) s

/-- ω after a timing error, clamped to its band (40_synchronizer R157). -/
def omegaNext (omega et : F32) : F32 :=
  clampLow (F32.ofBits Config.omegaMin) (F32.ofBits Config.omegaMax)
    (F32.add omega (F32.mul (F32.ofBits Config.gainOmega) et))

/-- Part 1, Gardner timing (40_synchronizer R157): ω, then μ with the updated ω. -/
def gardner (s : State) : State :=
  let et := timingError s.prev (symbolCentre s) (symbolMid s)
  { s with
    omega := omegaNext s.omega et
    mu := F32.add (F32.add s.mu (omegaNext s.omega et)) (F32.mul (F32.ofBits Config.gainMu) et) }

/-- Part 3, the Costas update by the error e: the phase uses `freq` before the clamp
(40_synchronizer R160). -/
def costasUpdate (e : F32) (s : State) : State :=
  let f := F32.add s.freq (F32.mul (F32.ofBits Config.beta) e)
  { s with
    phase := wrap (F32.add s.phase (F32.add f (F32.mul (F32.ofBits Config.alpha) e)))
    freq := clampHigh (F32.neg (F32.ofBits s.fmax)) (F32.ofBits s.fmax) f }

/-- The differential symbol rotated by −π/4 (40_synchronizer R161). -/
def rotateSymbol (d : Cplx) : Cplx :=
  ⟨F32.mul (F32.ofBits Config.kSqrt12) (F32.add d.re d.im),
   F32.mul (F32.ofBits Config.kSqrt12) (F32.sub d.im d.re)⟩

/-- The differential symbol d = cur · conj(prev) (40_synchronizer R159). -/
def diffSymbol (s : State) : Cplx := Cplx.cmulc (symbolCentre s) s.prev

/-- The loops after a symbol: parts 1 to 3 of SYMBOL_STEP (40_synchronizer R157, R159, R160). -/
def symbolLoops (s : State) : State :=
  costasUpdate (costasErr (diffSymbol s)) { gardner s with prev := symbolCentre s }

/-- SYMBOL_STEP: the loops, then the decision into the dibit path (40_synchronizer R161, R162). -/
def symbolStep (P : Params) (s : State) : State :=
  dibitIn P (slice (rotateSymbol (diffSymbol s))) (symbolLoops s)

/-! ## SAMPLE_STEP (40_synchronizer R155, R156) -/

/-- The mixed sample y = x · conj(v), v the rotation vector at phase + π/4 (40_synchronizer R155). -/
def mixSample (P : Params) (phase : F32) (x : Cplx) : Cplx :=
  let psi := F32.add phase (F32.ofBits Config.pi4)
  Cplx.cmulc x ⟨P.fCos psi, P.fSin psi⟩

/-- The per-sample part of SAMPLE_STEP: phase, mixer, delay line and μ (40_synchronizer R155, R156). -/
def sampleFront (P : Params) (x : Cplx) (s : State) : State :=
  { s with
    phase := wrap (F32.add s.phase s.freq)
    dl := s.dl.set s.wi.val (mixSample P (wrap (F32.add s.phase s.freq)) x) s.wi.isLt
    wi := s.wi + 1
    mu := F32.sub s.mu (F32.ofBits Config.one) }

/-- SAMPLE_STEP(x) (40_synchronizer R155). -/
def sampleStep (P : Params) (x : Cplx) (s : State) : State :=
  if F32.le (sampleFront P x s).mu (F32.ofBits Config.one) then symbolStep P (sampleFront P x s)
  else sampleFront P x s

end Sys2Proof.Machine
end

