-- ==== Sys2Proof/Machine/Commands.lean ====
section
/-! DEFINITION. The host commands as instructions: control, stream input, scratch access
(46_host_commands R431 to R436, R445 to R447). -/

namespace Sys2Proof.Machine

/-- NOP does nothing (46_host_commands R431). -/
def execNop (s : State) : Host.Outcome State Fault Refusal := .next s

/-- SAMPLE: one complex baseband sample (46_host_commands R445). -/
def execSample (i q : Word) (s : State) : Host.Outcome State Fault Refusal :=
  .next (sampleStep Config.params ⟨F32.ofBits i, F32.ofBits q⟩ s)

/-- DIBIT: one dibit into the dibit path, past the slicer (46_host_commands R446). -/
def execDibit (d : Dibit) (s : State) : Host.Outcome State Fault Refusal :=
  .next (dibitStep Config.params d s)

/-- DIBIT8: 1 to 8 dibits, each with its whole step (46_host_commands R447). -/
def execDibit8 (ds : List Dibit) (s : State) : Host.Outcome State Fault Refusal :=
  .next (dibitsStep Config.params ds s)

/-- WRREG: write a register (46_host_commands R433). -/
def execWrreg (addr : BitVec 8) (value : Word) (s : State) : Host.Outcome State Fault Refusal :=
  .next (writeAddr addr value s)

/-- RDREG: emit the register's value (46_host_commands R434). -/
def execRdreg (addr : BitVec 8) (s : State) : Host.Outcome State Fault Refusal :=
  .next (emit (.regVal addr (readAddr addr s)) s)

/-- SCRWR: write a scratch word (46_host_commands R435). -/
def execScrwr (idx : BitVec 4) (value : Word) (s : State) : Host.Outcome State Fault Refusal :=
  .next (memWrite (32 * idx.toNat) (bitsOfWord value) s)

/-- SCRRD: emit a scratch word (46_host_commands R436). -/
def execScrrd (idx : BitVec 4) (s : State) : Host.Outcome State Fault Refusal :=
  .next (emit (.scrVal idx (scrWord s.scr idx.toNat)) s)

/-- SRESET: the soft reset (46_host_commands R432). -/
def execSreset (s : State) : Host.Outcome State Fault Refusal := .next (softReset s)

end Sys2Proof.Machine
end

