-- ==== Sys2Proof/Machine/FecCommands.lean ====
section
/-! DEFINITION. The host FEC commands on the scratch buffer (46_host_commands R437 to R444). None touches
the slots. -/

namespace Sys2Proof.Machine

open Config (Params)

/-- The BCH command's operation (46_host_commands R437). -/
def bchCommand (s : State) : State :=
  let dec := bchDecode (scrRead s.scr 0 63)
  fecDone 0x20#8 dec.ok dec.nerr 0 (if dec.ok then memWrite 0 dec.word s else s)

/-- RS_DECODE(t) and the end of the RS command (44_fec R352, 46_host_commands R438). -/
def rsCommand (t : Nat) (s : State) : State :=
  let dec := rsCore (scrSymbols s.scr) t
  fecDone 0x21#8 dec.ok dec.nerr 0 (if dec.ok then memWrite 0 (symbolBits dec.word) s else s)

/-- The TR12 command's operation: `out` is written whether or not ok (46_host_commands R439). -/
def tr12Command (P : Params) (s : State) : State :=
  let dec := P.trellis12 (scrBlock s.scr 196)
  fecDone 0x22#8 dec.1 0 0 (memWrite 0 (blockBits dec.2) s)

/-- The TR34 command's operation (46_host_commands R440). -/
def tr34Command (P : Params) (s : State) : State :=
  let dec := P.trellis34 (scrBlock s.scr 196)
  fecDone 0x23#8 dec.1 0 0 (memWrite 0 (blockBits dec.2) s)

/-- The CRC command's operation (46_host_commands R441). -/
def crcCommand (nb : Nat) (fix : Bool) (s : State) : State :=
  if fix then
    let res := crcCorrect (scrRead s.scr 0 nb)
    fecDone 0x24#8 (crcOk res.1) (crcFlips res.1) (crcStat res.1)
      (if res.1 = .corrected then memWrite 0 res.2 s else s)
  else
    let res := crcPlain (scrRead s.scr 0 nb)
    fecDone 0x24#8 (crcOk res) 0 (crcStat res) s

/-- The DEINT command's operation (46_host_commands R442). -/
def deintCommand (P : Params) (s : State) : State :=
  fecDone 0x25#8 true 0 0 (memWrite 0 (blockBits (deint P (scrBlock s.scr 196))) s)

/-- The INTLV command's operation (46_host_commands R443). -/
def intlvCommand (P : Params) (s : State) : State :=
  fecDone 0x26#8 true 0 0 (memWrite 0 (blockBits (intlv P (scrBlock s.scr 196))) s)

/-- BCH (46_host_commands R437). -/
def execBch (s : State) : Host.Outcome State Fault Refusal := .next (bchCommand s)

/-- RS (46_host_commands R438). -/
def execRs (t : BitVec 5) (s : State) : Host.Outcome State Fault Refusal := .next (rsCommand t.toNat s)

/-- TR12 (46_host_commands R439). -/
def execTr12 (s : State) : Host.Outcome State Fault Refusal := .next (tr12Command Config.params s)

/-- TR34 (46_host_commands R440). -/
def execTr34 (s : State) : Host.Outcome State Fault Refusal := .next (tr34Command Config.params s)

/-- CRC (46_host_commands R441). -/
def execCrc (nb : BitVec 9) (fix : Bool) (s : State) : Host.Outcome State Fault Refusal :=
  .next (crcCommand nb.toNat fix s)

/-- DEINT (46_host_commands R442). -/
def execDeint (s : State) : Host.Outcome State Fault Refusal := .next (deintCommand Config.params s)

/-- INTLV (46_host_commands R443). -/
def execIntlv (s : State) : Host.Outcome State Fault Refusal := .next (intlvCommand Config.params s)

end Sys2Proof.Machine
end

