-- ==== Sys2Proof/Machine/Dispatch.lean ====
section
/-! DEFINITION. The dispatch of an instruction to its meaning, one arm per constructor. -/

namespace Sys2Proof.Machine

def exec (i : Instr) (s : State) : Host.Outcome State Fault Refusal :=
  match i with
  | .nop => Sys2Proof.Machine.execNop s
  | .sample x y => Sys2Proof.Machine.execSample x y s
  | .dibit d => Sys2Proof.Machine.execDibit d s
  | .dibit8 ds => Sys2Proof.Machine.execDibit8 ds s
  | .wrreg addr value => Sys2Proof.Machine.execWrreg addr value s
  | .rdreg addr => Sys2Proof.Machine.execRdreg addr s
  | .scrwr idx value => Sys2Proof.Machine.execScrwr idx value s
  | .scrrd idx => Sys2Proof.Machine.execScrrd idx s
  | .sreset => Sys2Proof.Machine.execSreset s
  | .bch => Sys2Proof.Machine.execBch s
  | .rs t => Sys2Proof.Machine.execRs t s
  | .tr12 => Sys2Proof.Machine.execTr12 s
  | .tr34 => Sys2Proof.Machine.execTr34 s
  | .crc nb fix => Sys2Proof.Machine.execCrc nb fix s
  | .deint => Sys2Proof.Machine.execDeint s
  | .intlv => Sys2Proof.Machine.execIntlv s
  | .stateNid k => Sys2Proof.Machine.execStateNid k s
  | .stateHdu k => Sys2Proof.Machine.execStateHdu k s
  | .stateLdu1 k => Sys2Proof.Machine.execStateLdu1 k s
  | .stateLdu2 k => Sys2Proof.Machine.execStateLdu2 k s
  | .stateTdu k => Sys2Proof.Machine.execStateTdu k s
  | .stateTdulc k => Sys2Proof.Machine.execStateTdulc k s
  | .stateTsbk1 k => Sys2Proof.Machine.execStateTsbk1 k s
  | .stateTsbk2 k => Sys2Proof.Machine.execStateTsbk2 k s
  | .stateTsbk3 k => Sys2Proof.Machine.execStateTsbk3 k s
  | .statePdu0 k => Sys2Proof.Machine.execStatePdu0 k s
  | .statePdu1 k => Sys2Proof.Machine.execStatePdu1 k s
  | .statePdu2 k => Sys2Proof.Machine.execStatePdu2 k s
  | .statePdu3 k => Sys2Proof.Machine.execStatePdu3 k s
  | .statePduc k => Sys2Proof.Machine.execStatePduc k s
  | .stateUnknown k => Sys2Proof.Machine.execStateUnknown k s

end Sys2Proof.Machine
end

