-- ==== Sys2Proof/Machine/Fetch.lean ====
section
/-! DEFINITION. Fetching: what the block runs next, and what surrounds the running of it: the command
cursor, the skipping of an illegal command, the reset of a completed slot; and the slot and words in which
an instruction is placed to be fetched. -/

namespace Sys2Proof.Machine

/-- What the block runs next. -/
inductive Fetched where
  /-- the handler of slot k, whose buffer is full (42_sync R231) -/
  | handler (k : SlotId) (i : Option Instr)
  /-- the front of the command stream (46_host_commands R430) -/
  | command (d : Decoded)
  deriving DecidableEq, Repr

/-- An active slot whose buffer is full has its handler run before anything else (42_sync R231); the
lower-numbered slot comes first (42_sync R240). -/
def slotDue (v : Slot) : Bool := v.active && v.full

/-- Fetch and decode: the state code of a due slot, or the words at the command cursor
(10_state R31; log 3). -/
def fetch (s : State) : Fetched :=
  if slotDue s.slot0 then .handler .s0 (decodeState .s0 (stateNum s.slot0.state))
  else if slotDue s.slot1 then .handler .s1 (decodeState .s1 (stateNum s.slot1.state))
  else .command (decode (s.stream.drop s.cc))

/-- cc <- cc + n (10_state R31). -/
def advance (n : Nat) (s : State) : State := { s with cc := s.cc + n }

/-- After a handler, a completed slot is reset (42_sync R231). -/
def finishHandler (k : SlotId) (s : State) : State :=
  if (s.slot k).complete then resetSlot k s else s

/-- An illegal command raises ILLEGAL_CMD and is skipped (60_exceptions R473). -/
def skipIllegal (opc : BitVec 8) (n : Nat) (s : State) : State :=
  advance n (raiseFault (.illegalCmd opc) s)

/-! ## Placing an instruction to be fetched -/

/-- A capacity at which the handler of a state runs (43_duid R302); the raw-bit frames take their reset
lengths, PDUC its first block. -/
def entryCap : StateCode → Nat
  | .nid => 64
  | .hdu => 712
  | .ldu1 => 1632
  | .ldu2 => 1632
  | .tdu => 92
  | .tdulc => 352
  | .tsbk1 => 260
  | .tsbk2 => 260
  | .tsbk3 => 260
  | .pdu0 => 260
  | .pdu1 => 356
  | .pdu2 => 452
  | .pdu3 => 548
  | .pduc => 356
  | .unknown => 64

/-- A slot whose handler is due: active, in state c, its buffer full of zero bits. -/
def dueSlot (c : StateCode) (ctr : Fin 36) : Slot where
  active := true
  complete := false
  state := c
  buf := List.replicate (entryCap c) false
  cap := entryCap c
  ctr := ctr

/-- A slot that is not due: a due one is idled. -/
def undue (v : Slot) : Slot := if slotDue v then idleSlot v.ctr else v

/-- Words placed at the command cursor: the words before it are kept, the words after it replaced. -/
def placeWords (ws : List Word) (s : State) : State :=
  { s with
    stream := s.stream.take s.cc ++ List.replicate (s.cc - s.stream.length) 0#32 ++ ws
    slot0 := undue s.slot0
    slot1 := undue s.slot1 }

/-- A handler's code placed in slot 0, made due. -/
def placeState (c : BitVec 4) (s : State) : State :=
  match stateOfNum c with
  | some c => { s with slot0 := dueSlot c s.slot0.ctr }
  | none => s

end Sys2Proof.Machine
end

