-- ==== Sys2Proof/Machine/Step.lean ====
section
/-! DEFINITION. One step of the block: a due handler if a slot is full (43_duid R271), else the next
command of the stream (46_host_commands R430). -/

namespace Sys2Proof.Machine

/-- What the step adds to the next state an instruction answers with. -/
def afterExec (f : State → State) : Host.Outcome State Fault Refusal → Host.Outcome State Fault Refusal
  | .next t => .next (f t)
  | .fault r => .fault r
  | .refused r => .refused r

/-- One step. While the words of a command are awaited the block holds its state (70_reset R522;
log 2). -/
def step (s : State) : Host.Outcome State Fault Refusal :=
  match fetch s with
  | .handler k (some i) => afterExec (finishHandler k) (exec i s)
  | .handler _ none => .next s
  | .command (.command i n) => afterExec (advance n) (exec i s)
  | .command (.illegal _ opc n) => .next (skipIllegal opc n s)
  | .command .incomplete => .next s

/-- The state with an instruction of spec/opcode_table.json placed where the next step fetches: a command's
words at the command cursor, a handler's code in slot 0, made due (log 1, 3, 4). -/
def State.withFetchWord (s : State) (nbits w : Nat) : State :=
  if nbits ≤ 8 then placeState (BitVec.ofNat 4 w) s else placeWords (tableWords w) s

end Sys2Proof.Machine
end

