-- ==== Sys2Proof/Safety.lean ====
section
/-! DEFINITION. What counts as a safe state and a safe run: the invariants the spec states, and the
relations "unchanged" the statements use. -/

namespace Sys2Proof.Machine

/-! ## Slots (10_state R59, 43_duid R301, R302) -/

/-- The capacities a frame can have in each state (43_duid R273, R302): PDUC receives block j at
capacity 356 + 144·j, j = 0..126 (R301). -/
def legalCap : StateCode → Nat → Bool
  | .nid, c => decide (c = 64)
  | .hdu, c => decide (64 ≤ c) && decide (c ≤ 64 + 4095)
  | .ldu1, c => decide (64 ≤ c) && decide (c ≤ 64 + 4095)
  | .ldu2, c => decide (64 ≤ c) && decide (c ≤ 64 + 4095)
  | .tdu, c => decide (64 ≤ c) && decide (c ≤ 64 + 4095)
  | .tdulc, c => decide (64 ≤ c) && decide (c ≤ 64 + 4095)
  | .unknown, c => decide (64 ≤ c) && decide (c ≤ 64 + 4095)
  | .tsbk1, c => decide (c = 260)
  | .tsbk2, c => decide (c = 260)
  | .tsbk3, c => decide (c = 260)
  | .pdu0, c => decide (c = 260)
  | .pdu1, c => decide (c = 356)
  | .pdu2, c => decide (c = 452)
  | .pdu3, c => decide (c = 548)
  | .pduc, c => decide (356 ≤ c) && decide (c ≤ 18500) && decide ((c - 356) % 144 = 0)

/-- An idle slot is in NID search with an empty buffer (10_state R59). -/
def slotIdle (v : Slot) : Bool :=
  !v.active && decide (v.state = .nid) && decide (v.len = 0) && decide (v.cap = 64)

/-- An active slot's buffer is not full, and its capacity is one its state allows (10_state R59). -/
def slotBusy (v : Slot) : Bool := v.active && decide (v.len < v.cap) && legalCap v.state v.cap

/-- The slot invariant between commands: complete is 0, and the slot is idle or busy (10_state R58,
R59). -/
def slotSafe (v : Slot) : Bool := !v.complete && (slotIdle v || slotBusy v)

/-- Both slots are safe. -/
def slotsSafe (s : State) : Bool := slotSafe s.slot0 && slotSafe s.slot1

/-- The length and the capacity of an active slot are even (10_state R59, "while every DUID_MAP LEN is
even"). -/
def slotEven (v : Slot) : Bool := !v.active || (decide (v.len % 2 = 0) && decide (v.cap % 2 = 0))

/-- Both slots are even. -/
def slotsEven (s : State) : Bool := slotEven s.slot0 && slotEven s.slot1

/-- Every DUID_MAP LEN is even (10_state R45, R59). -/
def mapEven (s : State) : Bool := s.duidMap.toList.all (fun e => decide (e.len.toNat % 2 = 0))

/-! ## Registers and correlator -/

/-- The write-any-read-legal registers hold legal values (10_state R37, R39), and CNT is at most 64
(10_state R56). STATUS_INIT, DUID_MAP.TARGET, ctr and wi are legal by their types. -/
def regsLegal (s : State) : Bool :=
  decide (1 ≤ s.syncLen.toNat) && decide (s.syncLen.toNat ≤ 64) && fmaxLegal s.fmax &&
    decide (s.corrCnt ≤ 64)

/-! ## Synchronizer (40_synchronizer R152, R158, R160) -/

/-- ω lies in [OMEGA_MIN, OMEGA_MAX] (40_synchronizer R158). -/
def omegaInBand (x : F32) : Bool :=
  F32.le (F32.ofBits Config.omegaMin) x && F32.le x (F32.ofBits Config.omegaMax)

/-- 11.225 rounded up: a bound of μ after a symbol (40_synchronizer R158). -/
def muMax : Word := 0x41340000#32

/-- Between commands μ is above 1 and at most 11.25 (40_synchronizer R158). -/
def muWaiting (x : F32) : Bool := F32.lt (F32.ofBits Config.one) x && F32.le x (F32.ofBits muMax)

/-- The loop state between commands: the phase is wrapped, the frequency is finite, ω is in its band and
μ counts down to the next symbol. -/
def syncSafe (s : State) : Bool :=
  inTwoPi s.phase && s.freq.isFinite && omegaInBand s.omega && muWaiting s.mu

/-! ## binary32 values (00_scope R12) -/

/-- The number a finite binary32 value stands for. -/
def f32Value (x : F32) : ℚ :=
  match x with
  | .nan => 0
  | .inf _ => 0
  | .fin b e m => (F32.signedUnits b e m : ℚ) / 2 ^ 149

/-- The sign bit; a NaN's is not modelled (log 8) and counts as 0. -/
def f32Neg (x : F32) : Bool :=
  match x with
  | .nan => false
  | .inf b => b
  | .fin b _ _ => b

/-- Half way between the largest finite value and 2^128: from here on a magnitude rounds to ∞. -/
def overflowPoint : ℚ := (2 ^ 25 - 1) * 2 ^ 103

/-- `r` is the number `q` rounded to nearest, ties to even (00_scope R12). -/
def roundsTo (q : ℚ) (r : F32) : Prop :=
  match r with
  | .nan => False
  | .inf b => overflowPoint ≤ (if b then -q else q)
  | .fin b e m => |q| < overflowPoint ∧ ∀ c : F32, c.isFinite = true →
      |q - f32Value (.fin b e m)| ≤ |q - f32Value c| ∧
      (|q - f32Value (.fin b e m)| = |q - f32Value c| → f32Value c ≠ f32Value (.fin b e m) →
        m.getLsbD 0 = false)

/-! ## Codes (44_fec R332, R333) -/

/-- The Hamming distance of two words: at how many of the first's places they differ. -/
def distance {α : Type} [DecidableEq α] (z : α) (a b : List α) : Nat :=
  ((List.range a.length).filter fun i => decide (a.getD i z ≠ b.getD i z)).length

/-- A codeword of RS(63, 63 − 2t): 63 symbols with r(α^j) = 0 for j = 1..2t (44_fec R332). -/
def isRsCodeword (t : Nat) (c : List Gf) : Prop :=
  c.length = 63 ∧ ∀ j, 1 ≤ j → j ≤ 2 * t → polyEval c (gfExp j) = 0#6

/-! ## Safe states and runs -/

/-- A safe state. -/
def stateSafe (s : State) : Bool := slotsSafe s && regsLegal s && syncSafe s

/-- A state that some run of the block from hard reset reaches, the host presenting words between
steps (30_encoding R110). -/
inductive Reachable : State → Prop
  | reset : Reachable State.reset
  | present (s : State) (ws : List Word) : Reachable s → Reachable (s.present ws)
  | step (s t : State) : Reachable s → step s = .next t → Reachable t

/-! ## Legal headers (30_encoding R111 to R116) -/

/-- The fixed bits of each command: mask and match of spec/opcode_table.json (30_encoding R113, R115). -/
def headerRows : List (Word × Word) :=
  [(0xFFFFFFFF#32, 0x00000000#32), (0xFFFFFFFF#32, 0x01000000#32), (0xFFFFFFFC#32, 0x02000000#32),
   (0xFFF00000#32, 0x03000000#32), (0xFFFFFF00#32, 0x10000000#32), (0xFFFFFF00#32, 0x11000000#32),
   (0xFFFFFFF0#32, 0x12000000#32), (0xFFFFFFF0#32, 0x13000000#32), (0xFFFFFFFF#32, 0x1F000000#32),
   (0xFFFFFFFF#32, 0x20000000#32), (0xFFFFFFE0#32, 0x21000000#32), (0xFFFFFFFF#32, 0x22000000#32),
   (0xFFFFFFFF#32, 0x23000000#32), (0xFFFFEE00#32, 0x24000000#32), (0xFFFFFFFF#32, 0x25000000#32),
   (0xFFFFFFFF#32, 0x26000000#32)]

/-- OPC of a header as a number. -/
def opcOf (h : Word) : Nat := h.toNat / 2 ^ 24

/-- The operand ranges of 30_encoding R116 (c), and the reserved dibit slots of DIBIT8 (R113). -/
def operandLegal (h : Word) : Bool :=
  if opcOf h = 0x03 then
    let cnt := h.toNat / 2 ^ 16 % 16
    decide (1 ≤ cnt) && decide (cnt ≤ 8) && decide (h.toNat % 2 ^ (16 - 2 * cnt) = 0)
  else if opcOf h = 0x21 then decide (h.toNat % 32 ≠ 0)
  else if opcOf h = 0x24 then decide (17 ≤ h.toNat % 512) && decide (h.toNat % 512 ≤ 496)
  else true

/-- A legal header: one of the table's, its reserved bits 0, its operand in range (30_encoding R116). -/
def headerLegal (h : Word) : Bool :=
  headerRows.any (fun r => decide (h &&& r.1 = r.2)) && operandLegal h

/-- The length of a command in words, from OPC alone (30_encoding R112). -/
def headerLength (h : Word) : Nat :=
  if opcOf h = 0x01 then 3 else if opcOf h = 0x10 ∨ opcOf h = 0x12 then 2 else 1

/-! ## Records (30_encoding R126) -/

/-- `ws` are the words of the MSG event of a record: the header fields KIND, CRC, FEC_OK, SLOT and LEN,
then ceil(LEN/32) words in which record bit 32w + j is bit 31 − j of payload word w and the unused low
bits are 0 (30_encoding R126). -/
def isRecord (kind crc : Nat) (fecOk : Bool) (k : SlotId) (bits : List Bool) (ws : List Word) : Prop :=
  ws.length = 1 + (bits.length + 31) / 32 ∧
  ws.getD 0 0#32 = BitVec.ofNat 32 (0x01 * 2 ^ 24 + kind * 2 ^ 20 + crc * 2 ^ 18 + fecOk.toNat * 2 ^ 17 +
    slotNum k * 2 ^ 16 + bits.length) ∧
  ∀ w j, w < (bits.length + 31) / 32 → j < 32 →
    (ws.getD (w + 1) 0#32).getMsbD j = bits.getD (32 * w + j) false

/-! ## Unchanged parts of the state -/

/-- The command stream, the cursor and the configuration registers are the same (10_state R34 to R39,
R45). -/
def sameConfig (s t : State) : Prop :=
  t.stream = s.stream ∧ t.cc = s.cc ∧ t.ctrl = s.ctrl ∧ t.syncPatLo = s.syncPatLo ∧
  t.syncPatHi = s.syncPatHi ∧ t.syncLen = s.syncLen ∧ t.statusInit = s.statusInit ∧
  t.fmax = s.fmax ∧ t.duidMap = s.duidMap

/-- The synchronizer's state is the same (10_state R50 to R53). -/
def sameSync (s t : State) : Prop :=
  t.phase = s.phase ∧ t.freq = s.freq ∧ t.omega = s.omega ∧ t.mu = s.mu ∧ t.prev = s.prev ∧
  t.dl = s.dl ∧ t.wi = s.wi

/-- The correlator's state is the same (10_state R56). -/
def sameCorr (s t : State) : Prop := t.corrW = s.corrW ∧ t.corrCnt = s.corrCnt

/-- The sticky fault bits are the same (10_state R35). -/
def sameFaults (s t : State) : Prop :=
  t.faultBufferFull = s.faultBufferFull ∧ t.faultIllegalCmd = s.faultIllegalCmd ∧
  t.faultSlot = s.faultSlot

/-- FEC_RESULT and the scratch buffer are the same (10_state R41, 20_memory R82). -/
def sameFec (s t : State) : Prop := t.fecResult = s.fecResult ∧ t.scr = s.scr

/-- The slots are the same (10_state R58). -/
def sameSlots (s t : State) : Prop := t.slot0 = s.slot0 ∧ t.slot1 = s.slot1

/-- From `s` to `t` only slot `k` may change, and events may be appended: all a state handler does
(43_duid, "reads and writes only its own slot (and the event stream, through DISPATCH)"). -/
def touchesSlot (k : SlotId) (s t : State) : Prop :=
  ∃ v ev, t = { s.setSlot k v with events := s.events ++ ev }

/-- From `s` to `t` only the correlator, the slots, DROP_CNT and the BUFFER_FULL fault bits may change,
and events may be appended: all a dibit does (42_sync R240). -/
def touchesDibitPath (s t : State) : Prop :=
  ∃ bf fs dc w n a b ev, t = { s with
    faultBufferFull := bf, faultSlot := fs, dropCnt := dc, corrW := w, corrCnt := n,
    slot0 := a, slot1 := b, events := s.events ++ ev }

end Sys2Proof.Machine
end

