-- ==== Sys2Proof/WellFormed.lean ====
section
/-! DEFINITION. Which instruction terms some encoding stands for: the operand ranges of
30_encoding R116 (c). -/

namespace Sys2Proof

/-- DIBIT8 carries CNT = 1..8 dibits (30_encoding R113, R116). -/
def wfDibitCount (ds : List Dibit) : Bool := decide (1 ≤ ds.length) && decide (ds.length ≤ 8)

/-- RS takes a capability T in 1..31 (30_encoding R113, R116). -/
def wfCapability (t : BitVec 5) : Bool := decide (t ≠ 0)

/-- CRC takes a range of 17 to 496 bits (30_encoding R113, R116). -/
def wfCrcRange (nb : BitVec 9) : Bool := decide (17 ≤ nb.toNat) && decide (nb.toNat ≤ 496)

/-- An instruction whose operands are in their legal ranges (30_encoding R116). -/
def Instr.wellFormed : Instr → Bool
  | .nop => true
  | .sample _ _ => true
  | .dibit _ => true
  | .dibit8 ds => wfDibitCount ds
  | .wrreg _ _ => true
  | .rdreg _ => true
  | .scrwr _ _ => true
  | .scrrd _ => true
  | .sreset => true
  | .bch => true
  | .rs t => wfCapability t
  | .tr12 => true
  | .tr34 => true
  | .crc nb _ => wfCrcRange nb
  | .deint => true
  | .intlv => true
  | .stateNid _ => true
  | .stateHdu _ => true
  | .stateLdu1 _ => true
  | .stateLdu2 _ => true
  | .stateTdu _ => true
  | .stateTdulc _ => true
  | .stateTsbk1 _ => true
  | .stateTsbk2 _ => true
  | .stateTsbk3 _ => true
  | .statePdu0 _ => true
  | .statePdu1 _ => true
  | .statePdu2 _ => true
  | .statePdu3 _ => true
  | .statePduc _ => true
  | .stateUnknown _ => true

end Sys2Proof
end

