-- ==== Sys2Proof/Certificates/Slice0/Obligations.lean ====
section
/-! DEFINITION. The statements for the provers. A meaning's statement is written from the rule it cites;
`exec` runs with the parameters of Config, of which nothing is assumed (00_scope R8). -/

open Sys2Proof Sys2Proof.Machine

/-! ## Encoding (30_encoding) -/

/-- Decoding the encoding of a well-formed instruction gives it back, for every instruction and every
operand its encoding admits; and a command's words decode to it, with their length, whatever words follow
them in the stream (30_encoding R110 to R116, R130). -/
def Obligations.DecodeOfEncodeIsTheInstruction : Prop :=
  ∀ i : Instr, i.wellFormed = true → decodeCode (encode i) = some i ∧
    ∀ ws rest : List Word, encode i = .words ws → decode (ws ++ rest) = .command i ws.length

/-- Words that decode to a command are its encoding: no reserved bit and no operand value is ignored, so
every legal command has one spelling (30_encoding R111 to R116). -/
def Obligations.DecodedCommandReencodesToItsWords : Prop :=
  ∀ (ws : List Word) (i : Instr) (n : Nat), decode ws = .command i n →
    i.wellFormed = true ∧ n ≤ ws.length ∧ encode i = .words (ws.take n)

/-- A header whose command's words have all arrived is a command exactly when it is legal: a row of the
opcode table, reserved bits 0, operand in range. Its length comes from OPC alone (30_encoding R112,
R113, R115, R116). -/
def Obligations.LegalHeadersAreTheTableRows : Prop :=
  ∀ (h : Word) (rest : List Word), headerLength h ≤ 1 + rest.length →
    (headerLegal h = true → ∃ i, decode (h :: rest) = .command i (headerLength h)) ∧
    (headerLegal h = false → ∃ why, decode (h :: rest) =
      .illegal why (BitVec.ofNat 8 (opcOf h)) (headerLength h))

/-- Words of the opcode table, written out from 30_encoding R113, R115 and R130, decode to the
instructions they stand for, and the fifteen state codes of 10_state R60 select their handlers, for both
slots, with no handler for code 15. That a table word of one byte, which names no slot, is read for slot 0
is the model's choice (log 4). -/
def Obligations.TableWordsDecodeToTheirInstructions : Prop :=
  decodeTableWord 32 0x02000003 = some (.dibit .d11) ∧
  decodeTableWord 32 0x03085575 =
    some (.dibit8 [.d01, .d01, .d01, .d01, .d01, .d11, .d01, .d01]) ∧
  decodeTableWord 32 0x1F000000 = some .sreset ∧
  decodeTableWord 64 0x0000001010000004 = some (.wrreg 0x04#8 0x00000010#32) ∧
  decodeTableWord 96 0x000000003F80000001000000 = some (.sample 0x3F800000#32 0x00000000#32) ∧
  decodeTableWord 32 0x2100001F = some (.rs 31#5) ∧
  decodeTableWord 32 0x24001060 = some (.crc 96#9 true) ∧
  decodeTableWord 32 0x7F000000 = none ∧
  (∀ k : SlotId,
    decodeState k 0#4 = some (.stateNid k) ∧ decodeState k 1#4 = some (.stateHdu k) ∧
    decodeState k 2#4 = some (.stateLdu1 k) ∧ decodeState k 3#4 = some (.stateLdu2 k) ∧
    decodeState k 4#4 = some (.stateTdu k) ∧ decodeState k 5#4 = some (.stateTdulc k) ∧
    decodeState k 6#4 = some (.stateTsbk1 k) ∧ decodeState k 7#4 = some (.stateTsbk2 k) ∧
    decodeState k 8#4 = some (.stateTsbk3 k) ∧ decodeState k 9#4 = some (.statePdu0 k) ∧
    decodeState k 10#4 = some (.statePdu1 k) ∧ decodeState k 11#4 = some (.statePdu2 k) ∧
    decodeState k 12#4 = some (.statePdu3 k) ∧ decodeState k 13#4 = some (.statePduc k) ∧
    decodeState k 14#4 = some (.stateUnknown k) ∧ decodeState k 15#4 = none) ∧
  (∀ (c : StateCode) (k : SlotId), decodeState k (stateNum c) = some (handlerOf k c)) ∧
  [StateCode.nid, .hdu, .ldu1, .ldu2, .tdu, .tdulc, .tsbk1, .tsbk2, .tsbk3, .pdu0, .pdu1, .pdu2, .pdu3,
    .pduc, .unknown].map (fun c => (stateNum c).toNat) = List.range 15 ∧
  (∀ n, n < 16 → decodeTableWord 8 n = decodeState .s0 (BitVec.ofNat 4 n))

/-! ## The step (46_host_commands R430, 42_sync R231) -/

/-- With no slot due, the step performs the command at the cursor and moves the cursor past it
(46_host_commands R430, 10_state R31). -/
def Obligations.StepRunsTheDecodedCommand : Prop :=
  ∀ (s : State) (i : Instr) (n : Nat), slotDue s.slot0 = false → slotDue s.slot1 = false →
    decode (s.stream.drop s.cc) = .command i n →
    ∃ t, exec i s = .next t ∧ t.cc = s.cc ∧ step s = .next { t with cc := s.cc + n }

/-- When a slot is active and its buffer full, the step runs the handler its state selects, and resets
the slot if the handler completed it (43_duid R271, 42_sync R231). That a step may be one handler, and
that slot 0 goes first, is the model's choice (log 3); between commands no slot is due. -/
def Obligations.StepRunsTheHandlerOfAFullSlot : Prop :=
  ∀ (s : State) (k : SlotId), slotDue (s.slot k) = true → (k = .s1 → slotDue s.slot0 = false) →
    ∃ t, exec (handlerOf k (s.slot k).state) s = .next t ∧
      step s = .next (if (t.slot k).complete then t.setSlot k (idleSlot (t.slot k).ctr) else t)

/-- While words of the command at the cursor have not arrived, the step changes nothing
(46_host_commands R430, 70_reset R522, 60_exceptions R484). That waiting is a step is the model's
choice (log 2). -/
def Obligations.StepAwaitsAbsentWords : Prop :=
  ∀ s : State, slotDue s.slot0 = false → slotDue s.slot1 = false →
    (s.stream.drop s.cc = [] ∨
      ∃ h rest, s.stream.drop s.cc = h :: rest ∧ 1 + rest.length < headerLength h) →
    step s = .next s

/-- An illegal header sets the sticky bit and emits the FAULT event with its opcode; the cursor moves
past the command, and nothing else changes (60_exceptions R473, 30_encoding R116, R124). -/
def Obligations.IllegalHeaderOnlyRaisesIllegalCmd : Prop :=
  ∀ (s : State) (h : Word) (rest : List Word),
    slotDue s.slot0 = false → slotDue s.slot1 = false → s.stream.drop s.cc = h :: rest →
    headerLength h ≤ 1 + rest.length → headerLegal h = false →
    step s = .next { s with
      cc := s.cc + headerLength h
      faultIllegalCmd := true
      events := s.events ++ [BitVec.ofNat 32 (0x03 * 2 ^ 24 + opcOf h * 2 ^ 16 + 2)] }

/-- Every step answers a next state: the block never halts. The cursor never moves back, the host's
words are not changed, and events are only appended (70_reset R522, 10_state R31, 30_encoding R120). That
waiting for words is a step is the model's choice (log 2). -/
def Obligations.EveryStepGoesOn : Prop :=
  ∀ s : State, ∃ t ev, step s = .next t ∧ s.cc ≤ t.cc ∧ t.stream = s.stream ∧
    t.events = s.events ++ ev

/-- No instruction but WRREG changes a configuration register (10_state R33, 70_reset R512), and none
changes the presented words or moves the cursor by itself: the step moves it past the command after the
instruction is performed (10_state R31, 46_host_commands R430). -/
def Obligations.OnlyWrregChangesConfiguration : Prop :=
  ∀ (i : Instr) (s t : State), exec i s = .next t →
    t.stream = s.stream ∧ t.cc = s.cc ∧ ((∀ a v, i ≠ .wrreg a v) → sameConfig s t)

/-- The sticky fault bits are never cleared by a step, and no legal instruction sets
FAULT_ILLEGAL_CMD (10_state R35). -/
def Obligations.StickyFaultBitsStaySet : Prop :=
  (∀ s t : State, step s = .next t →
    (s.faultBufferFull = true → t.faultBufferFull = true) ∧
    (s.faultIllegalCmd = true → t.faultIllegalCmd = true)) ∧
  ∀ (i : Instr) (s t : State), exec i s = .next t → t.faultIllegalCmd = s.faultIllegalCmd

/-! ## Reset (70_reset R500 to R502) -/

/-- The hard-reset state holds every value of 70_reset R500, the map of 10_state R46 among them. -/
def Obligations.HardResetHoldsItsValues : Prop :=
  let s := State.reset
  s.cc = 0 ∧ s.ctrl = 0x6#4 ∧ s.faultBufferFull = false ∧ s.faultIllegalCmd = false ∧
  s.faultSlot = .s0 ∧ s.syncPatHi = 0x00005575#32 ∧ s.syncPatLo = 0xF5FF77FF#32 ∧
  s.syncLen = 48#7 ∧ s.statusInit = 24 ∧ s.fmax = 0x3EC90FDB#32 ∧ s.dropCnt = 0#32 ∧
  s.fecResult = 0#32 ∧
  s.duidMap.toList = [⟨.hdu, 648#12⟩, ⟨.unrecognized, 0#12⟩, ⟨.unrecognized, 0#12⟩, ⟨.tdu, 28#12⟩,
    ⟨.unrecognized, 0#12⟩, ⟨.ldu1, 1568#12⟩, ⟨.unrecognized, 0#12⟩, ⟨.tsbk1, 196#12⟩,
    ⟨.unrecognized, 0#12⟩, ⟨.unrecognized, 0#12⟩, ⟨.ldu2, 1568#12⟩, ⟨.unrecognized, 0#12⟩,
    ⟨.pdu0, 196#12⟩, ⟨.unrecognized, 0#12⟩, ⟨.unrecognized, 0#12⟩, ⟨.tdulc, 288#12⟩] ∧
  s.phase.toBits = 0#32 ∧ s.freq.toBits = 0#32 ∧
  s.omega.toBits = 0x41200000#32 ∧ s.mu.toBits = 0x41200000#32 ∧
  s.prev.re.toBits = 0#32 ∧ s.prev.im.toBits = 0#32 ∧
  (∀ i : Fin 32, (s.dl.get i).re.toBits = 0#32 ∧ (s.dl.get i).im.toBits = 0#32) ∧ s.wi = 0 ∧
  s.corrW = 0#64 ∧ s.corrCnt = 0 ∧ s.scr = 0#512 ∧ s.events = [] ∧
  ∀ k, (s.slot k).active = false ∧ (s.slot k).complete = false ∧ (s.slot k).state = .nid ∧
    (s.slot k).buf = [] ∧ (s.slot k).cap = 64 ∧ (s.slot k).ctr = 24

/-- After hard reset every register address reads the reset value of 10_state R33 and R46, and every
unmapped one reads 0. -/
def Obligations.ResetRegistersReadTheirResetValues : Prop :=
  ∀ a : BitVec 8, readAddr a State.reset = match a.toNat with
    | 0x00 => 0x00000006#32 | 0x02 => 0xF5FF77FF#32 | 0x03 => 0x00005575#32
    | 0x04 => 0x00000030#32 | 0x05 => 0x00000018#32 | 0x06 => 0x3EC90FDB#32
    | 0x10 => 0x02880001#32 | 0x13 => 0x001C0004#32 | 0x15 => 0x06200002#32
    | 0x17 => 0x00C40006#32 | 0x1A => 0x06200003#32 | 0x1C => 0x00C40009#32
    | 0x1F => 0x01200005#32 | 0x11 => 0x0000000F#32 | 0x12 => 0x0000000F#32
    | 0x14 => 0x0000000F#32 | 0x16 => 0x0000000F#32 | 0x18 => 0x0000000F#32
    | 0x19 => 0x0000000F#32 | 0x1B => 0x0000000F#32 | 0x1D => 0x0000000F#32
    | 0x1E => 0x0000000F#32 | 0x22 => 0x41200000#32 | 0x23 => 0x41200000#32
    | _ => 0x00000000#32

/-- SRESET sets the soft-reset column of 70_reset R500 and keeps the rest: the configuration, the sticky
faults, FEC_RESULT, the scratch buffer, the cursor and the events already emitted (70_reset R502). -/
def Obligations.SresetRestartsTheDatapath : Prop :=
  ∀ s : State, exec .sreset s = .next { s with
    dropCnt := 0#32
    phase := F32.ofBits 0x00000000#32
    freq := F32.ofBits 0x00000000#32
    omega := F32.ofBits 0x41200000#32
    mu := F32.ofBits 0x41200000#32
    prev := ⟨F32.ofBits 0x00000000#32, F32.ofBits 0x00000000#32⟩
    dl := Vector.replicate 32 ⟨F32.ofBits 0x00000000#32, F32.ofBits 0x00000000#32⟩
    wi := 0
    corrW := 0#64
    corrCnt := 0
    slot0 := ⟨false, false, .nid, [], 64, s.statusInit⟩
    slot1 := ⟨false, false, .nid, [], 64, s.statusInit⟩ }

/-! ## Registers (10_state R33 to R45) -/

/-- NOP changes nothing and emits nothing; RDREG emits REGVAL with the address and the register's value,
and changes nothing else; and every register but STATUS reads the live field it names, its reserved bits
0: the read-only ones DROP_CNT, FEC_RESULT and the bit patterns of the loop state are no copies
(46_host_commands R431, R434, 30_encoding R125, 10_state R34 to R45). STATUS has a statement of its own. -/
def Obligations.NopIsSilentAndRdregOnlyReports : Prop :=
  (∀ s : State, exec .nop s = .next s) ∧
  (∀ (a : BitVec 8) (s : State), exec (.rdreg a) s = .next { s with
    events := s.events ++ [BitVec.ofNat 32 (0x04 * 2 ^ 24 + a.toNat), readAddr a s] }) ∧
  ∀ s : State,
    readAddr 0x00#8 s = BitVec.ofNat 32 s.ctrl.toNat ∧ readAddr 0x02#8 s = s.syncPatLo ∧
    readAddr 0x03#8 s = s.syncPatHi ∧ readAddr 0x04#8 s = BitVec.ofNat 32 s.syncLen.toNat ∧
    readAddr 0x05#8 s = BitVec.ofNat 32 s.statusInit.val ∧ readAddr 0x06#8 s = s.fmax ∧
    readAddr 0x07#8 s = s.dropCnt ∧ readAddr 0x08#8 s = s.fecResult ∧
    readAddr 0x20#8 s = s.phase.toBits ∧ readAddr 0x21#8 s = s.freq.toBits ∧
    readAddr 0x22#8 s = s.omega.toBits ∧ readAddr 0x23#8 s = s.mu.toBits ∧
    ∀ c : Fin 16, readAddr (BitVec.ofNat 8 (0x10 + c.val)) s =
      BitVec.ofNat 32 ((s.duidMap.get c).len.toNat * 2 ^ 16 + (targetNum (s.duidMap.get c).target).toNat)

/-- An unmapped address reads 0 and ignores writes; a read-only register ignores writes
(10_state R33). -/
def Obligations.UnmappedAndReadOnlyRegistersIgnoreWrites : Prop :=
  ∀ (a : BitVec 8) (v : Word) (s : State),
    ((0x08 < a.toNat ∧ a.toNat < 0x10) ∨ 0x23 < a.toNat →
      readAddr a s = 0#32 ∧ exec (.wrreg a v) s = .next s) ∧
    (a.toNat = 0x01 ∨ a.toNat = 0x07 ∨ a.toNat = 0x08 ∨ (0x20 ≤ a.toNat ∧ a.toNat ≤ 0x23) →
      exec (.wrreg a v) s = .next s)

/-- STATUS reads the sticky faults and the live slot fields, its reserved bits 0 (10_state R35, R44,
R60). -/
def Obligations.StatusShowsFaultsAndSlots : Prop :=
  ∀ s : State, let w := readAddr 0x01#8 s
    w.getLsbD 0 = s.faultBufferFull ∧ w.getLsbD 1 = s.faultIllegalCmd ∧
    w.getLsbD 2 = s.slot0.active ∧ w.getLsbD 3 = s.slot1.active ∧
    w.extractLsb' 4 4 = stateNum s.slot0.state ∧ w.extractLsb' 8 4 = stateNum s.slot1.state ∧
    w.getLsbD 12 = decide (s.faultSlot = .s1) ∧ w.extractLsb' 13 19 = 0#19

/-- WRREG stores the legal fields of each register: an illegal value of a write-any-read-legal field
leaves it unchanged (SYNC_LEN, STATUS_INIT, FMAX) or stores 15 (DUID_MAP.TARGET). Nothing else changes
(46_host_commands R433, 10_state R34 to R39, R45). -/
def Obligations.WrregStoresLegalFields : Prop :=
  ∀ (v : Word) (s : State),
    exec (.wrreg 0x00#8 v) s = .next { s with ctrl := v.extractLsb' 0 4 } ∧
    exec (.wrreg 0x02#8 v) s = .next { s with syncPatLo := v } ∧
    exec (.wrreg 0x03#8 v) s = .next { s with syncPatHi := v } ∧
    exec (.wrreg 0x04#8 v) s = .next
      (if 1 ≤ v.toNat % 128 ∧ v.toNat % 128 ≤ 64 then { s with syncLen := BitVec.ofNat 7 v.toNat }
       else s) ∧
    exec (.wrreg 0x05#8 v) s = .next
      (if v.toNat % 64 ≤ 35 then { s with statusInit := Fin.ofNat 36 (v.toNat % 64) } else s) ∧
    exec (.wrreg 0x06#8 v) s = .next
      (if v.getLsbD 31 = false ∧ v.toNat / 2 ^ 23 % 256 ≠ 0xFF then { s with fmax := v } else s) ∧
    ∀ c : Fin 16, ∃ e : DuidEntry,
      exec (.wrreg (BitVec.ofNat 8 (0x10 + c.val)) v) s =
        .next { s with duidMap := s.duidMap.set c.val e } ∧
      e.len = v.extractLsb' 16 12 ∧
      targetNum e.target =
        if v.toNat % 16 ∈ [1, 2, 3, 4, 5, 6, 9, 14, 15] then v.extractLsb' 0 4 else 15#4

/-- A register reads back what WRREG stored, its reserved bits 0, and no other register of the map reads
differently (10_state R33 to R45). -/
def Obligations.RegistersReadBackWhatWasWritten : Prop :=
  ∀ (a : BitVec 8) (v : Word) (s : State), ∃ t, exec (.wrreg a v) s = .next t ∧
    (∀ b, b ≠ a → readAddr b t = readAddr b s) ∧
    (a.toNat = 0x00 → readAddr a t = v &&& 0x0000000F#32) ∧
    (a.toNat = 0x02 ∨ a.toNat = 0x03 → readAddr a t = v) ∧
    (a.toNat = 0x04 → 1 ≤ v.toNat % 128 → v.toNat % 128 ≤ 64 →
      readAddr a t = v &&& 0x0000007F#32) ∧
    (a.toNat = 0x05 → v.toNat % 64 ≤ 35 → readAddr a t = v &&& 0x0000003F#32) ∧
    (a.toNat = 0x06 → v.toNat < 0x7F800000 → readAddr a t = v) ∧
    (0x10 ≤ a.toNat ∧ a.toNat ≤ 0x1F →
      readAddr a t = if v.toNat % 16 ∈ [1, 2, 3, 4, 5, 6, 9, 14, 15] then v &&& 0x0FFF000F#32
        else (v &&& 0x0FFF0000#32) ||| 0x0000000F#32)

/-- A binary32 pattern has the IEEE layout: bit 31 the sign, bits 30:23 the exponent, bits 22:0 the
fraction, exponent 255 the infinities and NaN; a pattern that is no NaN is what its value reads as, and a
NaN reads as a NaN pattern. The comparisons order the values by their numbers, with the infinities at the
ends, and are false on a NaN; `−` flips the sign bit and abs clears it (00_scope R12, 20_memory R83,
30_encoding R114). Which pattern a NaN reads as is a free value (log 8). -/
def Obligations.FloatPatternsReadBack : Prop :=
  (∀ w : Word, let e : Nat := w.toNat / 2 ^ 23 % 2 ^ 8
    let m : Nat := w.toNat % 2 ^ 23
    (F32.ofBits w ≠ .nan → (F32.ofBits w).toBits = w) ∧
    F32.ofBits (F32.ofBits w).toBits = F32.ofBits w ∧
    (e < 255 → (F32.ofBits w).isFinite = true ∧ f32Value (F32.ofBits w) =
      (if w.msb then -1 else 1) *
        (if e = 0 then (m : ℚ) / 2 ^ 149 else (2 ^ 23 + m : ℚ) * 2 ^ e / 2 ^ 150)) ∧
    (e = 255 → F32.ofBits w = if m = 0 then .inf w.msb else .nan) ∧
    f32Neg (F32.ofBits w) = (w.msb && decide (F32.ofBits w ≠ .nan)) ∧
    F32.neg (F32.ofBits w) = F32.ofBits (w ^^^ 0x80000000#32) ∧
    F32.abs (F32.ofBits w) = F32.ofBits (w &&& 0x7FFFFFFF#32)) ∧
  (∀ x y : F32, (F32.gt x y = F32.lt y x) ∧ (F32.ge x y = F32.le y x) ∧
    (x.isFinite = true → y.isFinite = true →
      (F32.lt x y = true ↔ f32Value x < f32Value y) ∧ (F32.le x y = true ↔ f32Value x ≤ f32Value y)) ∧
    (x.isFinite = true → ∀ b : Bool, F32.lt x (.inf b) = !b ∧ F32.le x (.inf b) = !b ∧
      F32.lt (.inf b) x = b ∧ F32.le (.inf b) x = b) ∧
    (x = .nan ∨ y = .nan → F32.lt x y = false ∧ F32.le x y = false)) ∧
  ∀ a b : Bool, F32.lt (.inf a) (.inf b) = (a && !b) ∧ F32.le (.inf a) (.inf b) = (a || !b)

/-! ## Scratch buffer (20_memory R82) -/

/-- SCRWR sets the 32 scratch bits of word IDX, bit 31 of the value first, and changes nothing else
(46_host_commands R435, 20_memory R82). -/
def Obligations.ScrwrSetsOneScratchWord : Prop :=
  ∀ (i : BitVec 4) (v : Word) (s : State), ∃ r, exec (.scrwr i v) s = .next { s with scr := r } ∧
    ∀ b, b < 512 → scrBit r b =
      if b / 32 = i.toNat then v.getMsbD (b % 32) else scrBit s.scr b

/-- SCRRD emits SCRVAL with the index and the 32 scratch bits of word IDX, the first in bit 31, and
changes nothing else (46_host_commands R436, 30_encoding R125, 20_memory R82). -/
def Obligations.ScrrdReportsAScratchWord : Prop :=
  ∀ (i : BitVec 4) (s : State), ∃ w : Word, exec (.scrrd i) s = .next { s with
      events := s.events ++ [BitVec.ofNat 32 (0x05 * 2 ^ 24 + i.toNat), w] } ∧
    ∀ j, j < 32 → w.getMsbD j = scrBit s.scr (32 * i.toNat + j)

/-! ## Host FEC commands (46_host_commands R437 to R444) -/

/-- BCH decodes SCR[0..63): on success the corrected word replaces it, on failure the buffer is kept.
FEC_RESULT and the FECDONE event report opcode 0x20, OK and NERR; nothing else changes
(46_host_commands R437, R444, 30_encoding R127). -/
def Obligations.BchCommandCorrectsScratch : Prop :=
  ∀ s : State, let dec := bchDecode (scrRead s.scr 0 63)
    let r := BitVec.ofNat 32 (0x20 * 2 ^ 16 + 2 * dec.nerr + dec.ok.toNat)
    ∃ m, exec .bch s = .next { s with scr := m, fecResult := r, events := s.events ++ [BitVec.ofNat 32 (0x06 * 2 ^ 24 + r.toNat % 2 ^ 24)] } ∧
      dec.nerr ≤ 11 ∧
      ∀ b, b < 512 → scrBit m b =
        if dec.ok = true ∧ b < 63 then dec.word.getD b false else scrBit s.scr b

/-- RS decodes the 63 hexbits of SCR[0..378) with capability T: on success the corrected symbols replace
them, on failure the buffer is kept. FEC_RESULT and FECDONE report opcode 0x21, OK and NERR; nothing
else changes (46_host_commands R438, R444, 44_fec R350, R352). It holds for T = 0 too, a term that no
encoding stands for: what exec answers there is the model's choice (log 18). -/
def Obligations.RsCommandCorrectsScratch : Prop :=
  ∀ (c : BitVec 5) (s : State),
    let r := (List.range 63).map fun i => BitVec.ofNat 6 (natOfBits (scrRead s.scr (6 * i) 6))
    let dec := rsCore r c.toNat
    let f := BitVec.ofNat 32 (0x21 * 2 ^ 16 + 2 * dec.nerr + dec.ok.toNat)
    ∃ m, exec (.rs c) s = .next { s with scr := m, fecResult := f, events := s.events ++ [BitVec.ofNat 32 (0x06 * 2 ^ 24 + f.toNat % 2 ^ 24)] } ∧
      dec.nerr ≤ 31 ∧
      ∀ b, b < 512 → scrBit m b =
        if dec.ok = true ∧ b < 378 then (dec.word.getD (b / 6) 0#6).getMsbD (b % 6)
        else scrBit s.scr b

/-- TR12 and TR34 run the trellis decoders on SCR[0..196) and write their output, of 96 and 144 bits,
whether or not they succeed; FEC_RESULT and FECDONE report the opcode and OK; nothing else changes
(46_host_commands R439, R440, R444). -/
def Obligations.TrellisCommandsWriteTheirOutput : Prop :=
  ∀ s : State, let blk : Block 196 := fun i => scrBit s.scr i.val
    (let dec := Config.trellis12 blk
     let r := BitVec.ofNat 32 (0x22 * 2 ^ 16 + dec.1.toNat)
     ∃ m, exec .tr12 s = .next { s with scr := m, fecResult := r, events := s.events ++ [BitVec.ofNat 32 (0x06 * 2 ^ 24 + r.toNat)] } ∧
       ∀ b, b < 512 → scrBit m b = if h : b < 96 then dec.2 ⟨b, h⟩ else scrBit s.scr b) ∧
    (let dec := Config.trellis34 blk
     let r := BitVec.ofNat 32 (0x23 * 2 ^ 16 + dec.1.toNat)
     ∃ m, exec .tr34 s = .next { s with scr := m, fecResult := r, events := s.events ++ [BitVec.ofNat 32 (0x06 * 2 ^ 24 + r.toNat)] } ∧
       ∀ b, b < 512 → scrBit m b = if h : b < 144 then dec.2 ⟨b, h⟩ else scrBit s.scr b)

/-- CRC checks SCR[0..NB), or corrects one flipped bit when FIX = 1, writing the range only when it was
corrected. FEC_RESULT and FECDONE report opcode 0x24, OK, NERR (1 when corrected) and CRCSTAT (1 pass,
2 corrected, 3 failed); nothing else changes (46_host_commands R441, R444). It holds for NB outside
17..496 too, terms that no encoding stands for: what exec answers there is the model's choice (log 18). -/
def Obligations.CrcCommandChecksOrCorrects : Prop :=
  ∀ (nb : BitVec 9) (fix : Bool) (s : State),
    let range := scrRead s.scr 0 nb.toNat
    let res : CrcOutcome × List Bool :=
      if fix then crcCorrect range else (if crcCheck range then .pass else .failed, range)
    let r := BitVec.ofNat 32 (0x24 * 2 ^ 16 + match res.1 with
      | .pass => 0x101
      | .corrected => 0x203
      | .failed => 0x300)
    ∃ m, exec (.crc nb fix) s = .next { s with scr := m, fecResult := r, events := s.events ++ [BitVec.ofNat 32 (0x06 * 2 ^ 24 + r.toNat)] } ∧
      ∀ b, b < 512 → scrBit m b =
        if res.1 = .corrected ∧ b < nb.toNat then res.2.getD b false else scrBit s.scr b

/-- DEINT moves bit PERM196(i) of SCR[0..196) to bit i, INTLV moves bit i to bit PERM196(i); both report
OK; nothing else changes (46_host_commands R442, R443, R444, 45_fec R385, R386). -/
def Obligations.DeintAndIntlvPermuteScratch : Prop :=
  ∀ s : State,
    (∃ m, exec .deint s = .next { s with scr := m, fecResult := 0x00250001#32, events := s.events ++ [0x06250001#32] } ∧
      (∀ i : Fin 196, scrBit m i.val = scrBit s.scr (Config.perm196 i).val) ∧
      ∀ b, 196 ≤ b → b < 512 → scrBit m b = scrBit s.scr b) ∧
    (∃ m, exec .intlv s = .next { s with scr := m, fecResult := 0x00260001#32, events := s.events ++ [0x06260001#32] } ∧
      (∀ i : Fin 196, scrBit m (Config.perm196 i).val = scrBit s.scr i.val) ∧
      ∀ b, 196 ≤ b → b < 512 → scrBit m b = scrBit s.scr b)

/-- Deinterleaving and interleaving undo each other, for every bijection PERM196; so INTLV then DEINT,
and DEINT then INTLV, restore the whole scratch buffer (45_fec R387). -/
def Obligations.InterleaverAndDeinterleaverAreInverse : Prop :=
  (∀ (P : Config.Params) (x : Block 196),
    deint P (intlv P x) = x ∧ intlv P (deint P x) = x) ∧
  ∀ s t u : State,
    (exec .intlv s = .next t → exec .deint t = .next u → u.scr = s.scr) ∧
    (exec .deint s = .next t → exec .intlv t = .next u → u.scr = s.scr)

/-- BCH_DECODE is the bounded-distance decoder of the BCH(63,16) code: a word within 11 bits of a codeword
is decoded to that codeword, with nerr their distance, so a codeword passes unchanged; a word that passes
gives a codeword at distance nerr ≤ 11; and a word that fails comes back unchanged with nerr 0
(44_fec R333, R334, R340, R341). -/
def Obligations.BchAcceptsEveryCodeword : Prop :=
  (∀ data : BitVec 16,
    bchDecode (bitsOfNat 63 (bchCodeword data)) = ⟨true, bitsOfNat 63 (bchCodeword data), 0⟩) ∧
  (∀ (v : List Bool) (data : BitVec 16), v.length = 63 →
    distance false v (bitsOfNat 63 (bchCodeword data)) ≤ 11 →
    bchDecode v = ⟨true, bitsOfNat 63 (bchCodeword data),
      distance false v (bitsOfNat 63 (bchCodeword data))⟩) ∧
  ∀ v : List Bool, v.length = 63 → let dec := bchDecode v
    (dec.ok = true → (∃ data : BitVec 16, dec.word = bitsOfNat 63 (bchCodeword data)) ∧
      dec.nerr = distance false v dec.word ∧ dec.nerr ≤ 11) ∧
    (dec.ok = false → dec.word = v ∧ dec.nerr = 0)

/-- RS_CORE is the exact bounded-distance decoder of RS(63, 63 − 2t), t = 1..31: a word within t symbols of
a codeword is decoded to that codeword, with nerr their distance; a decoded word is a codeword (its 2t
syndromes are zero) at distance nerr ≤ t. For every word and t, an irrecoverable word comes back unchanged
with nerr 0, and a decoded one differs in at most nerr ≤ t symbols (44_fec R332, R335 to R338, R353). -/
def Obligations.RsCoreCorrectsAtMostItsCapability : Prop :=
  (∀ (r c : List Gf) (t : Nat), 1 ≤ t → t ≤ 31 → r.length = 63 → isRsCodeword t c →
    distance 0#6 r c ≤ t → rsCore r t = ⟨true, c, distance 0#6 r c⟩) ∧
  (∀ (r : List Gf) (t : Nat), 1 ≤ t → t ≤ 31 → r.length = 63 → (rsCore r t).ok = true →
    isRsCodeword t (rsCore r t).word ∧ (rsCore r t).nerr = distance 0#6 r (rsCore r t).word) ∧
  ∀ (r : List Gf) (t : Nat), let res := rsCore r t
    (res.ok = false → res.word = r ∧ res.nerr = 0) ∧
    (res.ok = true → res.word.length = r.length ∧ res.nerr ≤ t ∧
      distance 0#6 r res.word ≤ res.nerr)

/-- CRC16 is the complement of a 16-bit register that starts at 0 and, for each bit in order, shifts left
and takes in 0x1021 when its top bit and the bit differ; a string followed by its CRC16 passes CRC_CHECK,
and CRC_CHECK accepts no other 16 check bits (45_fec R390, R391). -/
def Obligations.CrcCheckAcceptsTheAppendedCrc : Prop :=
  crc16 [] = 0x0000#16 ^^^ 0xFFFF#16 ∧
  (∀ (d : List Bool) (b : Bool), let reg := crc16 d ^^^ 0xFFFF#16
    crc16 (d ++ [b]) =
      ((reg <<< 1) ^^^ (if reg.getLsbD 15 = b then 0x0000#16 else 0x1021#16)) ^^^ 0xFFFF#16) ∧
  ∀ d c : List Bool, c.length = 16 →
    (crcCheck (d ++ c) = true ↔ c = bitsOfNat 16 (crc16 d).toNat)

/-- CRC_CORRECT passes a word that checks; else it flips the first bit that makes the word check; else it
fails and returns the word unchanged (45_fec R392). -/
def Obligations.CrcCorrectTriesOneFlipInOrder : Prop :=
  ∀ b : List Bool, let res := crcCorrect b
    (res.1 = .pass ↔ crcCheck b = true) ∧
    (res.1 = .pass → res.2 = b) ∧
    (res.1 = .corrected → ∃ p, p < b.length ∧ res.2 = flipBit b p ∧ crcCheck res.2 = true ∧
      ∀ q, q < p → crcCheck (flipBit b q) = false) ∧
    (res.1 = .failed → res.2 = b ∧ ∀ p, p < b.length → crcCheck (flipBit b p) = false)

/-- Every single flipped bit of a word of 17 to 496 bits that checks is corrected to that word: no other
position makes the word check (45_fec R393). -/
def Obligations.SingleFlippedBitIsCorrected : Prop :=
  ∀ (b : List Bool) (p : Nat), 17 ≤ b.length → b.length ≤ 496 → crcCheck b = true → p < b.length →
    crcCorrect (flipBit b p) = (.corrected, b)

/-! ## Dibit path (42_sync) -/

/-- One bit into the correlator: the window shifts, the count saturates at 64, and exactly when the low
SYNC_LEN bits of the window are those of the pattern and that many bits have arrived, the lowest free
slot is activated with STATUS_INIT, or, with none free, the detection is counted and reported
(42_sync R221, R222, R232, R233, R234). -/
def Obligations.CorrelatorBitDetectsTheSync : Prop :=
  ∀ (b : Bool) (s : State),
    let w := s.corrW <<< 1 ||| BitVec.ofNat 64 b.toNat
    let u := { s with corrW := w, corrCnt := if s.corrCnt < 64 then s.corrCnt + 1 else 64 }
    let hit := s.syncLen.toNat ≤ u.corrCnt ∧ ∀ i, i < s.syncLen.toNat →
      w.getLsbD i = if i < 32 then s.syncPatLo.getLsbD i else s.syncPatHi.getLsbD (i - 32)
    let fresh : Slot := ⟨true, false, .nid, [], 64, s.statusInit⟩
    (¬ hit → corrBit b s = u) ∧
    (hit → corrBit b s =
      if s.slot0.active = false then { u with slot0 := fresh }
      else if s.slot1.active = false then { u with slot1 := fresh }
      else { u with dropCnt := s.dropCnt + 1, events := s.events ++ [0x02000000#32] })

/-- DIBIT gives the dibit to slot 0, then slot 1, then its two bits to the correlator, first b1. It
changes nothing but the dibit path, and the window and count hold the two new bits (42_sync R240,
46_host_commands R446, 70_reset R513). -/
def Obligations.DibitFeedsSlotsThenCorrelator : Prop :=
  ∀ (d : Dibit) (s : State), ∃ t, exec (.dibit d) s = .next t ∧
    t = corrBit (dibitB2 d) (corrBit (dibitB1 d)
      (asmSlot Config.params .s1 d (asmSlot Config.params .s0 d s))) ∧
    touchesDibitPath s t ∧
    t.corrW = s.corrW <<< 2 ||| (dibitLow d).zeroExtend 64 ∧
    t.corrCnt = if s.corrCnt < 62 then s.corrCnt + 2 else 64

/-- DIBIT8 feeds its dibits in order, each with its whole dibit step before the next, faults and
completions included; it changes nothing but the dibit path (46_host_commands R447). It is stated for
every list: none or more than eight dibits are terms that no encoding stands for, and what exec answers
there is the model's choice (log 18). -/
def Obligations.Dibit8FeedsItsDibitsInOrder : Prop :=
  ∀ (ds : List Dibit) (s : State), ∃ t, exec (.dibit8 ds) s = .next t ∧ touchesDibitPath s t ∧
    (ds = [] → t = s) ∧
    ∀ d rest, ds = d :: rest → ∃ u, exec (.dibit d) s = .next u ∧ exec (.dibit8 rest) u = .next t

/-- A dibit at an active slot with room: at counter 35 it is skipped and the counter wraps to 0; else the
counter advances and b1, b2 are stored in that order. An inactive slot stores nothing; a detection may
activate it (42_sync R230, R232, R240). -/
def Obligations.DibitIsStoredOrSkippedByEachSlot : Prop :=
  ∀ (d : Dibit) (k : SlotId) (s t : State), exec (.dibit d) s = .next t →
    let v := s.slot k
    (v.active = true → v.ctr = 35 → v.len < v.cap → t.slot k = { v with ctr := 0 }) ∧
    (v.active = true → v.ctr ≠ 35 → v.len + 2 < v.cap →
      t.slot k = { v with ctr := v.ctr + 1, buf := v.buf ++ [dibitB1 d, dibitB2 d] }) ∧
    (v.active = false → t.slot k = v ∨ t.slot k = ⟨true, false, .nid, [], 64, s.statusInit⟩)

/-- An append past the capacity raises BUFFER_FULL: the sticky bit and FAULT_SLOT are set, the FAULT event
is emitted, and the slot is reset with its counter kept; no record is dispatched and nothing else changes
(60_exceptions R471, R472, 20_memory R85, 42_sync R230, R231). -/
def Obligations.AppendPastCapacityRaisesBufferFull : Prop :=
  ∀ (P : Config.Params) (k : SlotId) (d : Dibit) (s : State), (s.slot k).active = true →
    (s.slot k).ctr ≠ 35 → ((s.slot k).len = (s.slot k).cap ∨ (s.slot k).len + 1 = (s.slot k).cap) →
    asmSlot P k d s = { s.setSlot k ⟨false, false, .nid, [], 64, (s.slot k).ctr + 1⟩ with
      faultBufferFull := true
      faultSlot := k
      events := s.events ++ [BitVec.ofNat 32 (0x03 * 2 ^ 24 + slotNum k * 2 ^ 8 + 1)] }

/-- The dibit that fills a slot runs the handler of the slot's state, the same that exec runs, in the same
dibit step: when the handler completes, the slot is reset, its counter kept; when it leaves the buffer full
(a map entry of length 0) the handler of the new state runs too; else the slot goes on. In a raw-bit frame
the whole buffer is dispatched as a record; with no listener it is discarded and all else is the same
(42_sync R230, R231, R262, 43_duid R271, R274 to R279). -/
def Obligations.FillingDibitDispatchesTheFrame : Prop :=
  (∀ (k : SlotId) (s : State),
    exec (handlerOf k (s.slot k).state) s = .next (smStep Config.params k s)) ∧
  (∀ (k : SlotId) (d : Dibit) (s : State),
    (s.slot k).active = true → (s.slot k).ctr ≠ 35 → (s.slot k).len + 2 = (s.slot k).cap →
    let v := s.slot k
    let u := s.setSlot k { v with ctr := v.ctr + 1, buf := v.buf ++ [dibitB1 d, dibitB2 d] }
    ∃ t, exec (handlerOf k v.state) u = .next t ∧
      ((t.slot k).complete = true →
        asmSlot Config.params k d s = t.setSlot k ⟨false, false, .nid, [], 64, v.ctr + 1⟩) ∧
      ((t.slot k).complete = false → (t.slot k).len ≠ (t.slot k).cap →
        asmSlot Config.params k d s = t) ∧
      ((t.slot k).complete = false → (t.slot k).len = (t.slot k).cap →
        ∃ t', exec (handlerOf k (t.slot k).state) t = .next t' ∧
          ((t'.slot k).complete = true →
            asmSlot Config.params k d s = t'.setSlot k ⟨false, false, .nid, [], 64, v.ctr + 1⟩) ∧
          (v.state = .nid → v.cap = 64 → (t'.slot k).complete = true))) ∧
  ∀ (P : Config.Params) (k : SlotId) (d : Dibit) (s : State) (c : StateCode),
    c ∈ [StateCode.hdu, .ldu1, .ldu2, .tdu, .tdulc, .unknown] → (s.slot k).state = c →
    (s.slot k).active = true → (s.slot k).ctr ≠ 35 → (s.slot k).len + 2 = (s.slot k).cap →
    (s.slot k).cap ≤ 32768 →
    ∃ ws, isRecord (stateNum c).toNat 0 true k ((s.slot k).buf ++ [dibitB1 d, dibitB2 d]) ws ∧
      asmSlot P k d s = { s.setSlot k ⟨false, false, .nid, [], 64, (s.slot k).ctr + 1⟩ with
        events := s.events ++ if s.ctrl.getLsbD 1 then ws else [] }

/-! ## State handlers (43_duid) -/

/-- Every handler writes its own slot and the event stream only, leaves the slot's active flag and counter
as they are, and reads nothing but its slot, CTRL and DUID_MAP: in two states that agree on these it makes
the same slot and appends the same events (43_duid "reads and writes only its own slot (and the event
stream, through DISPATCH)", with the two configuration reads of R272, R291 and 42_sync R262). -/
def Obligations.HandlersTouchOnlyTheirSlot : Prop :=
  ∀ (k : SlotId) (c : StateCode) (s : State), ∃ t, exec (handlerOf k c) s = .next t ∧
    touchesSlot k s t ∧ (t.slot k).active = (s.slot k).active ∧ (t.slot k).ctr = (s.slot k).ctr ∧
    ∀ s' : State, s'.slot k = s.slot k → s'.ctrl = s.ctrl → s'.duidMap = s.duidMap →
      ∃ ev, t.events = s.events ++ ev ∧
        exec (handlerOf k c) s' = .next { s'.setSlot k (t.slot k) with events := s'.events ++ ev }

/-- The raw-bit handlers HDU, LDU1, LDU2, TDU, TDULC and UNKNOWN dispatch the whole buffer as a record of
their kind, no CRC checked, and complete the slot (43_duid R274 to R279, 42_sync R262, 30_encoding
R126). -/
def Obligations.RawHandlersDispatchTheBuffer : Prop :=
  ∀ (k : SlotId) (c : StateCode) (s : State),
    c ∈ [StateCode.hdu, .ldu1, .ldu2, .tdu, .tdulc, .unknown] → (s.slot k).state = c →
    (s.slot k).len ≤ 32768 →
    ∃ ws, isRecord (stateNum c).toNat 0 true k (s.slot k).buf ws ∧
      exec (handlerOf k c) s = .next { s.setSlot k { s.slot k with complete := true } with
        events := s.events ++ if s.ctrl.getLsbD 1 then ws else [] }

/-- NID corrects its first 63 bits by BCH_DECODE and keeps bit 63. A failure, or a DUID whose map entry is
unrecognized, completes the slot with no event; else the slot enters the entry's state with the capacity
NEWCAP (43_duid R272, R273). -/
def Obligations.NidEntersTheStateOfItsDuid : Prop :=
  ∀ (k : SlotId) (s : State), (s.slot k).state = .nid → (s.slot k).len = 64 → (s.slot k).cap = 64 →
    let v := s.slot k
    let dec := bchDecode (v.buf.take 63)
    let nid := dec.word ++ v.buf.drop 63
    let e := s.duidMap.get (Fin.ofNat 16 (natOfBits ((nid.drop 12).take 4)))
    exec (.stateNid k) s = .next (s.setSlot k (
      if dec.ok = false then { v with complete := true }
      else match targetState e.target with
        | none => { v with buf := nid, complete := true }
        | some c => { v with
            buf := nid
            state := c
            cap := if c = .tsbk1 ∨ c = .pdu0 then 260 else 64 + e.len.toNat }))

/-- A TSBK stage deinterleaves and decodes its block of 196 bits at bit 64. A trellis or CRC failure
completes the slot with no event. Else the NID and the 96 decoded bits (corrected under TSBK_CRCFIX) are
dispatched as a record with CRC 1 (pass) or 2 (corrected), and the slot completes when the first decoded
bit is 1 or the stage is the third, or keeps the NID and goes on to the next stage at capacity 260
(43_duid R283, R285 to R288, R291). -/
def Obligations.TsbkStagesCheckAndDispatch : Prop :=
  ∀ (k : SlotId) (s : State) (c : StateCode) (next : Option StateCode),
    (c, next) ∈ [(StateCode.tsbk1, some StateCode.tsbk2), (.tsbk2, some .tsbk3), (.tsbk3, none)] →
    (s.slot k).state = c → (s.slot k).len = 260 → (s.slot k).cap = 260 →
    let v := s.slot k
    let blk : Block 196 := fun i => v.buf.getD (64 + (Config.perm196 i).val) false
    let dec := Config.trellis12 blk
    let nid := v.buf.take 64
    let tsbk := blockBits dec.2
    let crc : CrcOutcome × List Bool :=
      if s.ctrl.getLsbD 2 then crcCorrect tsbk else (if crcCheck tsbk then .pass else .failed, tsbk)
    if dec.1 = false then
      exec (handlerOf k c) s = .next (s.setSlot k { v with buf := nid ++ blockBits blk, complete := true })
    else if crc.1 = .failed then
      exec (handlerOf k c) s = .next (s.setSlot k
        { v with buf := nid ++ tsbk ++ (blockBits blk).drop 96, complete := true })
    else ∃ ws, isRecord (stateNum c).toNat (if crc.1 = .pass then 1 else 2) true k (nid ++ crc.2) ws ∧
      exec (handlerOf k c) s = .next { s.setSlot k (
        match next with
        | none => { v with buf := nid ++ crc.2, cap := 160, complete := true }
        | some n =>
          if crc.2.getD 0 false then { v with buf := nid ++ crc.2, cap := 160, complete := true }
          else { v with state := n, buf := nid, cap := 260 }) with
        events := s.events ++ if s.ctrl.getLsbD 1 then ws else [] }

/-- PDU0 decodes the header block at bit 64. A trellis failure completes the slot with no event. BTF = 0
dispatches the NID and the header; else the slot goes on at capacity 356, in PDUC when FMT is 0x16 and in
PDU1 otherwise (43_duid R292, R293). -/
def Obligations.Pdu0ReadsTheHeader : Prop :=
  ∀ (k : SlotId) (s : State), (s.slot k).state = .pdu0 → (s.slot k).len = 260 →
    (s.slot k).cap = 260 →
    let v := s.slot k
    let blk : Block 196 := fun i => v.buf.getD (64 + (Config.perm196 i).val) false
    let dec := Config.trellis12 blk
    let hdr := v.buf.take 64 ++ blockBits dec.2
    if dec.1 = false then
      exec (.statePdu0 k) s = .next (s.setSlot k
        { v with buf := v.buf.take 64 ++ blockBits blk, complete := true })
    else if natOfBits ((hdr.drop 113).take 7) = 0 then
      ∃ ws, isRecord 9 0 true k hdr ws ∧
        exec (.statePdu0 k) s = .next { s.setSlot k { v with buf := hdr, cap := 160, complete := true } with
          events := s.events ++ if s.ctrl.getLsbD 1 then ws else [] }
    else exec (.statePdu0 k) s = .next (s.setSlot k { v with
      buf := hdr
      cap := 356
      state := if natOfBits ((hdr.drop 67).take 5) = 0x16 then .pduc else .pdu1 })

/-- PDU1 and PDU2 decode data block n (n = 1, 2) after the header. A trellis failure completes the slot
with no event. BTF ≤ n dispatches the record so far; else the slot goes on to the next stage with room
for one more block (43_duid R294, R295). -/
def Obligations.Pdu1AndPdu2ReceiveDataBlocks : Prop :=
  ∀ (k : SlotId) (s : State) (c next : StateCode) (start n : Nat),
    (c, next, start, n) ∈ [(StateCode.pdu1, StateCode.pdu2, 160, 1), (.pdu2, .pdu3, 256, 2)] →
    (s.slot k).state = c → (s.slot k).len = start + 196 → (s.slot k).cap = start + 196 →
    let v := s.slot k
    let blk : Block 196 := fun i => v.buf.getD (start + (Config.perm196 i).val) false
    let dec := Config.trellis12 blk
    let rec96 := v.buf.take start ++ blockBits dec.2
    if dec.1 = false then
      exec (handlerOf k c) s = .next (s.setSlot k
        { v with buf := v.buf.take start ++ blockBits blk, complete := true })
    else if natOfBits ((v.buf.drop 113).take 7) ≤ n then
      ∃ ws, isRecord (stateNum c).toNat 0 true k rec96 ws ∧
        exec (handlerOf k c) s = .next { s.setSlot k
            { v with buf := rec96, cap := start + 96, complete := true } with
          events := s.events ++ if s.ctrl.getLsbD 1 then ws else [] }
    else exec (handlerOf k c) s = .next (s.setSlot k
      { v with buf := rec96, cap := start + 292, state := next })

/-- PDU3 dispatches its record of 448 bits whatever the trellis decoder reports, FEC_OK carrying the
outcome, and completes (43_duid R296, R297). -/
def Obligations.Pdu3DispatchesUnconditionally : Prop :=
  ∀ (k : SlotId) (s : State), (s.slot k).state = .pdu3 → (s.slot k).len = 548 →
    (s.slot k).cap = 548 →
    let v := s.slot k
    let blk : Block 196 := fun i => v.buf.getD (352 + (Config.perm196 i).val) false
    let dec := Config.trellis12 blk
    let bits := v.buf.take 352 ++ blockBits dec.2
    ∃ ws, isRecord 12 0 dec.1 k bits ws ∧
      exec (.statePdu3 k) s = .next { s.setSlot k { v with buf := bits, cap := 448, complete := true } with
        events := s.events ++ if s.ctrl.getLsbD 1 then ws else [] }

/-- PDUC decodes block j, received at start = 160 + 144·j. A trellis failure dispatches the blocks before
it with FEC_OK 0 and completes; the last block (j + 1 ≥ BTF) dispatches the record and completes; else
the slot makes room for the next block (43_duid R300, R301). -/
def Obligations.PducReceivesConfirmedBlocks : Prop :=
  ∀ (k : SlotId) (s : State) (j : Nat), (s.slot k).state = .pduc → j ≤ 126 →
    (s.slot k).len = 356 + 144 * j → (s.slot k).cap = 356 + 144 * j →
    let v := s.slot k
    let start := 160 + 144 * j
    let blk : Block 196 := fun i => v.buf.getD (start + (Config.perm196 i).val) false
    let dec := Config.trellis34 blk
    let bits := v.buf.take start ++ blockBits dec.2
    if dec.1 = false then
      ∃ ws, isRecord 13 0 false k (v.buf.take start) ws ∧
        exec (.statePduc k) s = .next { s.setSlot k
            { v with buf := v.buf.take start, cap := start, complete := true } with
          events := s.events ++ if s.ctrl.getLsbD 1 then ws else [] }
    else if natOfBits ((v.buf.drop 113).take 7) ≤ j + 1 then
      ∃ ws, isRecord 13 0 true k bits ws ∧
        exec (.statePduc k) s = .next { s.setSlot k
            { v with buf := bits, cap := start + 144, complete := true } with
          events := s.events ++ if s.ctrl.getLsbD 1 then ws else [] }
    else exec (.statePduc k) s = .next (s.setSlot k { v with buf := bits, cap := start + 340 })

/-! ## Synchronizer and slicer (40_synchronizer, 41_slicer) -/

/-- A SAMPLE that leaves μ above 1 advances the phase, stores the mixed sample in the delay line and
counts μ down; nothing else changes, and the dibit path is untouched (40_synchronizer R155, R156,
70_reset R513). -/
def Obligations.SampleBetweenSymbols : Prop :=
  ∀ (x y : Word) (s : State), F32.le (F32.sub s.mu (F32.ofBits 0x3F800000#32)) (F32.ofBits 0x3F800000#32) = false →
    let ph := wrap (F32.add s.phase s.freq)
    let psi := F32.add ph (F32.ofBits 0x3F490FDB#32)
    let c := Config.params.fCos psi
    let n := Config.params.fSin psi
    let i := F32.ofBits x
    let q := F32.ofBits y
    exec (.sample x y) s = .next { s with
      phase := ph
      dl := s.dl.set s.wi.val
        ⟨F32.add (F32.mul i c) (F32.mul q n), F32.sub (F32.mul q c) (F32.mul i n)⟩
      wi := s.wi + 1
      mu := F32.sub s.mu (F32.ofBits 0x3F800000#32) }

/-- A SAMPLE that brings μ to 1 or below runs the symbol step: the two interpolated points give the timing
error, ω and μ; the differential symbol gives the phase error, the frequency (clamped after the phase
used it) and the phase; the rotated symbol is sliced, inverted under INVERT, tapped under TAP_EN, and fed
to the dibit path as DIBIT feeds it. INTERP is the cubic over the taps Y(i−1) to Y(i+2), i the whole part of
the position, and COSTAS_ERR the signed difference of the normalised components, its sign by quadrant, 0
for a zero, NaN or overflowed magnitude (10_state R53, 40_synchronizer R153, R154, R155, R157, R159 to R162,
41_slicer R206). -/
def Obligations.SampleAtASymbol : Prop :=
  (∀ (x y : Word) (s : State), F32.le (F32.sub s.mu (F32.ofBits 0x3F800000#32)) (F32.ofBits 0x3F800000#32) = true →
    let f := sampleFront Config.params ⟨F32.ofBits x, F32.ofBits y⟩ s
    let b := F32.sub (F32.ofBits 0x40000000#32) f.mu
    let cur := interp b f
    let mid := interp (F32.add b (F32.mul f.omega (F32.ofBits 0x3F000000#32))) f
    let e0 := F32.add (F32.mul (F32.sub s.prev.re cur.re) mid.re) (F32.mul (F32.sub s.prev.im cur.im) mid.im)
    let e1 := if e0.isNaN then F32.ofBits 0x00000000#32 else e0
    let e2 := if F32.gt e1 (F32.ofBits 0x3F800000#32) then F32.ofBits 0x3F800000#32 else e1
    let et := if F32.lt e2 (F32.ofBits 0xBF800000#32) then F32.ofBits 0xBF800000#32 else e2
    let o1 := F32.add s.omega (F32.mul (F32.ofBits 0x3BFAE148#32) et)
    let o2 := if F32.lt o1 (F32.ofBits 0x411F3333#32) then F32.ofBits 0x411F3333#32 else o1
    let om := if F32.gt o2 (F32.ofBits 0x4120CCCD#32) then F32.ofBits 0x4120CCCD#32 else o2
    let d := Cplx.cmulc cur s.prev
    let e := costasErr d
    let f1 := F32.add s.freq (F32.mul (F32.ofBits 0x3ACBDE0F#32) e)
    let f2 := if F32.gt f1 (F32.ofBits s.fmax) then F32.ofBits s.fmax else f1
    let rot : Cplx := ⟨F32.mul (F32.ofBits 0x3F3504F3#32) (F32.add d.re d.im),
      F32.mul (F32.ofBits 0x3F3504F3#32) (F32.sub d.im d.re)⟩
    let dib := if s.ctrl.getLsbD 0 then dibitInv (slice rot) else slice rot
    ∃ t, exec (.sample x y) s = .next t ∧ exec (.dibit dib) { f with
      omega := om
      mu := F32.add (F32.add f.mu om) (F32.mul (F32.ofBits 0x3E333333#32) et)
      prev := cur
      phase := wrap (F32.add f.phase (F32.add f1 (F32.mul (F32.ofBits 0x3D613E69#32) e)))
      freq := if F32.lt f2 (F32.neg (F32.ofBits s.fmax)) then F32.neg (F32.ofBits s.fmax) else f2
      events := s.events ++ if s.ctrl.getLsbD 3
        then [BitVec.ofNat 32 (0x07 * 2 ^ 24 + (dibitLow dib).toNat)] else [] } = .next t) ∧
  (∀ (b : F32) (s : State) (i : Nat), 1 ≤ i → i ≤ 7 → b.isFinite = true → (i : ℚ) ≤ f32Value b →
    f32Value b < i + 1 →
    let one := F32.ofBits 0x3F800000#32
    let two := F32.ofBits 0x40000000#32
    let six := F32.ofBits 0x40C00000#32
    let whole := F32.ofBits ([0x3F800000#32, 0x40000000#32, 0x40400000#32, 0x40800000#32, 0x40A00000#32,
      0x40C00000#32, 0x40E00000#32].getD (i - 1) 0#32)
    let fr := F32.sub b whole
    let fm1 := F32.sub fr one
    let fm2 := F32.sub fr two
    let fp1 := F32.add fr one
    let h0 := F32.neg (F32.div (F32.mul (F32.mul fr fm1) fm2) six)
    let h1 := F32.div (F32.mul (F32.mul fp1 fm1) fm2) two
    let h2 := F32.neg (F32.div (F32.mul (F32.mul fp1 fr) fm2) two)
    let h3 := F32.div (F32.mul (F32.mul fp1 fr) fm1) six
    let y := fun k : Nat => s.dl.get (Fin.ofNat 32 (s.wi.val + 31 - k))
    interp b s =
      ⟨F32.add (F32.add (F32.add (F32.mul h0 (y (i - 1)).re) (F32.mul h1 (y i).re))
        (F32.mul h2 (y (i + 1)).re)) (F32.mul h3 (y (i + 2)).re),
       F32.add (F32.add (F32.add (F32.mul h0 (y (i - 1)).im) (F32.mul h1 (y i).im))
        (F32.mul h2 (y (i + 1)).im)) (F32.mul h3 (y (i + 2)).im)⟩) ∧
  ∀ d : Cplx,
    let zero := F32.ofBits 0x00000000#32
    let m := F32.sqrt (F32.add (F32.mul d.re d.re) (F32.mul d.im d.im))
    let a := F32.div d.re m
    let b := F32.div d.im m
    let e := if (F32.ge a zero = true ↔ F32.ge b zero = true) then F32.sub (F32.abs b) (F32.abs a)
      else F32.sub (F32.abs a) (F32.abs b)
    costasErr d = if F32.gt m zero = true ∧ F32.lt m (F32.ofBits 0x7F800000#32) = true then
      (if e.isNaN then zero else e) else zero

/-- Whatever the sample, SAMPLE completes and leaves the configuration, FEC_RESULT, the scratch buffer and
FAULT_ILLEGAL_CMD as they are; the delay line gains one entry at its write index (40_synchronizer R155,
R156, 46_host_commands R445). -/
def Obligations.SampleKeepsConfigurationAndScratch : Prop :=
  ∀ (x y : Word) (s : State), ∃ t, exec (.sample x y) s = .next t ∧ sameConfig s t ∧ sameFec s t ∧
    t.faultIllegalCmd = s.faultIllegalCmd ∧ t.wi = s.wi + 1 ∧
    ∃ e, t.dl = s.dl.set s.wi.val e

/-- SLICE decides by the sign of the component of larger magnitude; ties, zeros and NaN go to the imaginary
branch, where anything not above 0 gives D10. INV flips the first bit, keeps the second, and is its own
inverse (41_slicer R203, R204, R205). -/
def Obligations.SlicerAndInversionDecideTheCorners : Prop :=
  (∀ d : Dibit, dibitInv (dibitInv d) = d ∧ dibitB1 (dibitInv d) = !dibitB1 d ∧
    dibitB2 (dibitInv d) = dibitB2 d) ∧
  ∀ c : Cplx,
    (slice c = .d00 ↔ F32.gt c.re.abs c.im.abs = true ∧ F32.gt c.re F32.zero = true) ∧
    (slice c = .d11 ↔ F32.gt c.re.abs c.im.abs = true ∧ F32.gt c.re F32.zero = false) ∧
    (slice c = .d01 ↔ F32.gt c.re.abs c.im.abs = false ∧ F32.gt c.im F32.zero = true) ∧
    (slice c = .d10 ↔ F32.gt c.re.abs c.im.abs = false ∧ F32.gt c.im F32.zero = false) ∧
    (c.re.abs = c.im.abs → slice c = if F32.gt c.im F32.zero then .d01 else .d10) ∧
    (c.re = .nan → slice c = if F32.gt c.im F32.zero then .d01 else .d10) ∧
    (c.im = .nan → slice c = .d10) ∧
    (f32Value c.im = 0 → c.im.isFinite = true → F32.gt c.re.abs c.im.abs = false → slice c = .d10)

/-- WRAP is the two loops of R152: where the first ends after m subtractions of TWO_PI and the second
after n additions, it returns the value they leave, whatever m and n (0 and 0 for a value of
[−TWO_PI, TWO_PI]; one subtraction up to 2·TWO_PI; one addition down to −2·TWO_PI); a NaN is unchanged, and
every finite value comes into [−TWO_PI, TWO_PI] (40_synchronizer R152). That it does so where a loop never
ends is the model's choice (log 9). -/
def Obligations.WrapStaysWithinTwoPi : Prop :=
  let twoPi := F32.ofBits 0x40C90FDB#32
  let down := fun y => F32.sub y twoPi
  let up := fun y => F32.add y twoPi
  (∀ x : F32, x.isFinite = true → inTwoPi (wrap x) = true) ∧
  (∀ x : F32, inTwoPi x = true → wrap x = x) ∧ wrap .nan = .nan ∧
  (∀ x : F32, F32.gt x twoPi = true → F32.le x (F32.ofBits 0x41490FDB#32) = true →
    wrap x = F32.sub x twoPi) ∧
  (∀ x : F32, F32.lt x (F32.neg twoPi) = true → F32.le (F32.ofBits 0xC1490FDB#32) x = true →
    wrap x = F32.add x twoPi) ∧
  ∀ (x : F32) (m n : Nat),
    (∀ j < m, F32.gt (down^[j] x) twoPi = true) → F32.gt (down^[m] x) twoPi = false →
    (∀ j < n, F32.lt (up^[j] (down^[m] x)) (F32.neg twoPi) = true) →
    F32.lt (up^[n] (down^[m] x)) (F32.neg twoPi) = false →
    wrap x = up^[n] (down^[m] x)

/-- When a symbol is due, the centre position lies in [1, 2) and the position half a symbol earlier in
[1, 7.1): INTERP is always used inside its domain (40_synchronizer R153, R158). -/
def Obligations.InterpolatorStaysInItsDomain : Prop :=
  ∀ s : State, omegaInBand s.omega = true → muWaiting s.mu = true →
    let mu := F32.sub s.mu (F32.ofBits 0x3F800000#32)
    let b := F32.sub (F32.ofBits 0x40000000#32) mu
    let h := F32.add b (F32.mul s.omega (F32.ofBits 0x3F000000#32))
    F32.le mu (F32.ofBits 0x3F800000#32) = true →
    F32.le (F32.ofBits 0x3F800000#32) b = true ∧ F32.lt b (F32.ofBits 0x40000000#32) = true ∧
    F32.le (F32.ofBits 0x3F800000#32) h = true ∧ F32.lt h (F32.ofBits 0x40E33333#32) = true

/-- After a SAMPLE that decides a symbol the frequency lies within ±FMAX, from any finite frequency
(40_synchronizer R160). -/
def Obligations.FrequencyStaysWithinFmax : Prop :=
  ∀ (x y : Word) (s t : State), s.freq.isFinite = true → fmaxLegal s.fmax = true →
    F32.le (F32.sub s.mu (F32.ofBits 0x3F800000#32)) (F32.ofBits 0x3F800000#32) = true →
    exec (.sample x y) s = .next t →
    F32.le (F32.neg (F32.ofBits s.fmax)) t.freq = true ∧ F32.le t.freq (F32.ofBits s.fmax) = true

/-- Sum, difference, product and quotient of finite values are the exact results rounded to nearest, ties
to even, and the square root is nearest to the exact root; and NaN, infinite and zero operands, division by
zero and the signs of zero results are those of IEEE-754 binary32 (00_scope R12). -/
def Obligations.FloatOperationsRoundToNearest : Prop :=
  (∀ x y : F32, x.isFinite = true → y.isFinite = true →
    roundsTo (f32Value x + f32Value y) (F32.add x y) ∧
    roundsTo (f32Value x - f32Value y) (F32.sub x y) ∧
    roundsTo (f32Value x * f32Value y) (F32.mul x y) ∧
    (f32Value y ≠ 0 → roundsTo (f32Value x / f32Value y) (F32.div x y)) ∧
    (0 ≤ f32Value x → (F32.sqrt x).isFinite = true ∧ 0 ≤ f32Value (F32.sqrt x) ∧
      ∀ c : F32, c.isFinite = true → 0 ≤ f32Value c →
        (f32Value (F32.sqrt x) < f32Value c → 4 * f32Value x ≤ (f32Value (F32.sqrt x) + f32Value c) ^ 2) ∧
        (f32Value c < f32Value (F32.sqrt x) → (f32Value c + f32Value (F32.sqrt x)) ^ 2 ≤ 4 * f32Value x))) ∧
  (∀ x : F32, F32.add .nan x = .nan ∧ F32.add x .nan = .nan ∧ F32.mul .nan x = .nan ∧
    F32.mul x .nan = .nan ∧ F32.div .nan x = .nan ∧ F32.div x .nan = .nan ∧ F32.sqrt .nan = .nan) ∧
  (∀ x y : F32, F32.sub x y = F32.add x (F32.neg y)) ∧
  (∀ x y : F32, x.isFinite = true → y.isFinite = true →
    (f32Value x + f32Value y = 0 → F32.add x y = .fin (f32Neg x && f32Neg y) 0 0) ∧
    f32Neg (F32.mul x y) = (f32Neg x != f32Neg y) ∧
    (f32Value y ≠ 0 → f32Neg (F32.div x y) = (f32Neg x != f32Neg y)) ∧
    (f32Value y = 0 → F32.div x y = if f32Value x = 0 then .nan else .inf (f32Neg x != f32Neg y)) ∧
    (f32Value x = 0 → F32.sqrt x = x) ∧ (f32Value x < 0 → F32.sqrt x = .nan)) ∧
  (∀ (x : F32) (a : Bool), x.isFinite = true →
    F32.add (.inf a) x = .inf a ∧ F32.add x (.inf a) = .inf a ∧
    F32.mul (.inf a) x = (if f32Value x = 0 then .nan else .inf (a != f32Neg x)) ∧
    F32.mul x (.inf a) = (if f32Value x = 0 then .nan else .inf (f32Neg x != a)) ∧
    F32.div (.inf a) x = .inf (a != f32Neg x) ∧ F32.div x (.inf a) = .fin (f32Neg x != a) 0 0) ∧
  ∀ a b : Bool, F32.add (.inf a) (.inf b) = (if a = b then .inf a else .nan) ∧
    F32.mul (.inf a) (.inf b) = .inf (a != b) ∧ F32.div (.inf a) (.inf b) = .nan ∧
    F32.sqrt (.inf a) = if a then .nan else .inf false

/-! ## Invariants of every step -/

/-- The hard-reset state is safe: its slots, registers, loop state and map hold every invariant below. -/
def Obligations.HardResetStateIsSafe : Prop :=
  stateSafe State.reset = true ∧ slotsEven State.reset = true ∧ mapEven State.reset = true

/-- Every step keeps the slot invariant: complete is 0, an idle slot is in NID search and empty, a busy
one is not full and has a capacity its state allows, at most 18500 bits (10_state R58, R59, 43_duid
R301, R302). -/
def Obligations.StepKeepsTheSlotInvariant : Prop :=
  ∀ s t : State, slotsSafe s = true → step s = .next t → slotsSafe t = true

/-- Every step keeps the registers legal: SYNC_LEN in 1..64, FMAX finite and not negative, the correlator
count at most 64 (10_state R37, R39, R56). -/
def Obligations.StepKeepsTheRegistersLegal : Prop :=
  ∀ s t : State, regsLegal s = true → step s = .next t → regsLegal t = true

/-- Every step keeps the loop state sound: the phase within ±TWO_PI, the frequency finite, ω in its band,
and μ above 1 and at most 11.25 between commands (40_synchronizer R152, R158, R160). In states no run
reaches, where WRAP's loop would not end, the phase clause is the model's choice (log 9). -/
def Obligations.StepKeepsTheLoopStateInRange : Prop :=
  ∀ s t : State, fmaxLegal s.fmax = true → syncSafe s = true → step s = .next t → syncSafe t = true

/-- While every DUID_MAP LEN is even, active slots have even length and capacity, and no step raises
BUFFER_FULL: the sticky bit and FAULT_SLOT stay as they are, and no slot's receiving of a dibit faults, in
any order of dibits, since each dibit keeps the premises (10_state R59, R45, 60_exceptions R471, 42_sync
R230). -/
def Obligations.EvenLengthsNeverRaiseBufferFull : Prop :=
  (∀ s t : State, slotsSafe s = true → slotsEven s = true → mapEven s = true → step s = .next t →
    slotsEven t = true ∧ t.faultBufferFull = s.faultBufferFull ∧ t.faultSlot = s.faultSlot) ∧
  ∀ (s : State) (d : Dibit), slotsSafe s = true → slotsEven s = true → mapEven s = true →
    (asmReceive .s0 d s).2 = true ∧ (asmReceive .s1 d (asmSlot Config.params .s0 d s)).2 = true ∧
    ∃ t, exec (.dibit d) s = .next t ∧ slotsSafe t = true ∧ slotsEven t = true ∧ mapEven t = true ∧
      t.faultBufferFull = s.faultBufferFull ∧ t.faultSlot = s.faultSlot
end

