-- ==== Sys2Proof/Laws/Gf.lean ====
section
/-! SUPPORT. The field's table form (44_fec R330, R331), and the shape of the decoders' results. -/

namespace Sys2Proof.Machine

-- one check at a time: the finite facts are evaluated by the kernel
set_option Elab.async false

/-- EXP is generated by its recurrence: EXP[0] = 1, EXP[i+1] = α · EXP[i] (44_fec R330). -/
theorem gfExpTable_recurrence : gfExpTable.getD 0 0#6 = 1#6 ∧ gfExpTable.length = 63 ∧
    ∀ i, i < 62 → gfExpTable.getD (i + 1) 0#6 = gfTimesAlpha (gfExpTable.getD i 0#6) := by
  decide +kernel

/-- LOG inverts EXP on the non-zero elements (44_fec R330). -/
theorem gfExp_gfLog : ∀ v : Gf, v ≠ 0#6 → gfExp (gfLog v) = v ∧ gfLog v < 63 := by decide +kernel

/-- α · is linear. -/
theorem gfTimesAlpha_xor (a b : Gf) : gfTimesAlpha (a ^^^ b) = gfTimesAlpha a ^^^ gfTimesAlpha b := by
  unfold gfTimesAlpha
  rw [BitVec.shiftLeft_xor_distrib, BitVec.msb_xor]
  cases a.msb <;> cases b.msb <;> simp only [Bool.xor_false, Bool.xor_true, Bool.not_false, Bool.not_true,
    if_true, if_false, Bool.false_eq_true] <;> ext i <;> simp <;> grind

/-- Multiplication is linear in its first factor. -/
theorem gfMul_xor_left (a b c : Gf) : gfMul (a ^^^ b) c = gfMul a c ^^^ gfMul b c := by
  have hi : ∀ p : Bool, (if p then a ^^^ b else 0#6) = (if p then a else 0#6) ^^^ (if p then b else 0#6) := by
    intro p
    cases p <;> simp
  simp only [gfMul, gfAdd, List.foldl_cons, List.foldl_nil, hi, gfTimesAlpha_xor]
  ac_rfl

theorem gfTimesAlpha_iterate_xor (n : Nat) (a b : Gf) :
    gfTimesAlpha^[n] (a ^^^ b) = gfTimesAlpha^[n] a ^^^ gfTimesAlpha^[n] b := by
  induction n generalizing a b with
  | zero => rfl
  | succ n ih => rw [Function.iterate_succ_apply, gfTimesAlpha_xor, ih]; rfl

/-- Multiplication by α^j is j multiplications by α. -/
theorem gfMul_gfExp (a : Gf) (j : Nat) (hj : j < 63) : gfMul a (gfExp j) = gfTimesAlpha^[j] a := by
  have basis : ∀ j : Fin 63, gfMul 0#6 (gfExp j.val) = gfTimesAlpha^[j.val] 0#6 ∧
      ∀ k : Fin 6, gfMul (1#6 <<< k.val) (gfExp j.val) = gfTimesAlpha^[j.val] (1#6 <<< k.val) := by
    decide +kernel
  have split : ∀ a : Gf, a = (if a.getLsbD 0 then 1#6 <<< 0 else 0#6) ^^^
      (if a.getLsbD 1 then 1#6 <<< 1 else 0#6) ^^^ (if a.getLsbD 2 then 1#6 <<< 2 else 0#6) ^^^
      (if a.getLsbD 3 then 1#6 <<< 3 else 0#6) ^^^ (if a.getLsbD 4 then 1#6 <<< 4 else 0#6) ^^^
      (if a.getLsbD 5 then 1#6 <<< 5 else 0#6) := by decide +kernel
  obtain ⟨h0, hk⟩ := basis ⟨j, hj⟩
  have one : ∀ (p : Bool) (k : Fin 6), gfMul (if p then 1#6 <<< k.val else 0#6) (gfExp j) =
      gfTimesAlpha^[j] (if p then 1#6 <<< k.val else 0#6) := by
    intro p k
    cases p
    · exact h0
    · exact hk k
  rw [split a]
  simp only [gfMul_xor_left, gfTimesAlpha_iterate_xor]
  have e0 := one (a.getLsbD 0) 0
  have e1 := one (a.getLsbD 1) 1
  have e2 := one (a.getLsbD 2) 2
  have e3 := one (a.getLsbD 3) 3
  have e4 := one (a.getLsbD 4) 4
  have e5 := one (a.getLsbD 5) 5
  simp only [Fin.isValue, Fin.val_zero, Fin.val_one, Fin.val_two] at e0 e1 e2
  rw [e0, e1, e2]
  exact congrArg₂ _ (congrArg₂ _ (congrArg₂ _ rfl e3) e4) e5

theorem gfExp_succ (k : Nat) : gfExp (k + 1) = gfTimesAlpha (gfExp k) := by
  have h : ∀ r : Fin 63, gfExp (r.val + 1) = gfTimesAlpha (gfExp r.val) := by decide +kernel
  have h1 : gfExp (k + 1) = gfExp (k % 63 + 1) := by
    unfold gfExp
    congr 1
    omega
  have h2 : gfExp k = gfExp (k % 63) := by
    unfold gfExp
    rw [Nat.mod_mod]
  rw [h1, h2]
  exact h ⟨k % 63, Nat.mod_lt _ (by decide)⟩

theorem gfExp_add (i j : Nat) : gfExp (i + j) = gfTimesAlpha^[j] (gfExp i) := by
  induction j with
  | zero => rfl
  | succ j ih => rw [Function.iterate_succ_apply', ← ih, ← gfExp_succ]; rfl

/-- Multiplication is the table form of 44_fec R331. -/
theorem gfMul_table (a b : Gf) : gfMul a b =
    if a = 0#6 ∨ b = 0#6 then 0#6 else gfExp (gfLog a + gfLog b) := by
  have z : ∀ b : Gf, gfMul 0#6 b = 0#6 ∧ gfMul b 0#6 = 0#6 := by decide +kernel
  by_cases ha : a = 0#6
  · simp [ha, (z b).1]
  · by_cases hb : b = 0#6
    · simp [hb, (z a).2]
    · rw [if_neg (by simp [ha, hb]), gfExp_add, (gfExp_gfLog a ha).1, ← gfMul_gfExp _ _ (gfExp_gfLog b hb).2,
        (gfExp_gfLog b hb).1]

theorem gfMul_gfInv : ∀ v : Gf, v ≠ 0#6 → gfMul v (gfInv v) = 1#6 := by decide +kernel

/-! ## The decoders' results (44_fec R335, R340) -/

@[simp] theorem rsCore_length (r : List Gf) (t : Nat) : (rsCore r t).word.length = r.length := by
  unfold rsCore
  dsimp only
  split
  · rfl
  · split <;> simp

theorem rsCore_nerr_le (r : List Gf) (t : Nat) : (rsCore r t).nerr ≤ t := by
  unfold rsCore
  dsimp only
  split
  · exact Nat.zero_le _
  · split
    · exact Nat.zero_le _
    · rename_i h
      push Not at h
      exact h.1

@[simp] theorem bchDecode_length (v : List Bool) : (bchDecode v).word.length = v.length := by
  unfold bchDecode
  dsimp only
  split <;> simp

theorem bchDecode_nerr_le (v : List Bool) : (bchDecode v).nerr ≤ 11 := by
  unfold bchDecode
  dsimp only
  split
  · exact rsCore_nerr_le _ _
  · simp

/-- An irrecoverable word comes back unchanged, with no error counted (44_fec R340). -/
theorem bchDecode_failed (v : List Bool) (h : (bchDecode v).ok = false) :
    (bchDecode v).word = v ∧ (bchDecode v).nerr = 0 := by
  revert h
  unfold bchDecode
  dsimp only
  split <;> simp

end Sys2Proof.Machine
end

