-- ==== Sys2Proof/Laws/GfField.lean ====
section
/-! SUPPORT. GF(2^6) as a field, and the coefficient lists of 44_fec R331 as polynomials over it: an
embedding of the 6-bit values into a field, under which every list operation of Machine/Gf.lean is the
polynomial operation it stands for. -/

namespace Sys2Proof.Machine

open Polynomial

set_option Elab.async false

/-- LOG of a power of α (44_fec R330). -/
theorem gfLog_gfExp (k : Nat) : gfLog (gfExp k) = k % 63 := by
  have h : ∀ r : Fin 63, gfLog (gfExp r.val) = r.val := by decide +kernel
  have e : gfExp k = gfExp (k % 63) := by
    unfold gfExp
    rw [Nat.mod_mod]
  rw [e]
  exact h ⟨k % 63, Nat.mod_lt _ (by decide)⟩

theorem gfExp_ne_zero (k : Nat) : gfExp k ≠ 0#6 := by
  have h : ∀ r : Fin 63, gfExp r.val ≠ 0#6 := by decide +kernel
  have e : gfExp k = gfExp (k % 63) := by
    unfold gfExp
    rw [Nat.mod_mod]
  rw [e]
  exact h ⟨k % 63, Nat.mod_lt _ (by decide)⟩

theorem gfExp_mod (k : Nat) : gfExp (k % 63) = gfExp k := by
  unfold gfExp
  rw [Nat.mod_mod]

theorem gfMul_gfExp_gfExp (i j : Nat) : gfMul (gfExp i) (gfExp j) = gfExp (i + j) := by
  rw [gfMul_table, if_neg (by simp [gfExp_ne_zero]), gfLog_gfExp, gfLog_gfExp, ← gfExp_mod (i + j),
    ← gfExp_mod (i % 63 + j % 63)]
  congr 1
  omega

theorem gfMul_comm (a b : Gf) : gfMul a b = gfMul b a := by
  rw [gfMul_table, gfMul_table b a, Nat.add_comm]
  simp only [or_comm]

@[simp] theorem gfMul_zero_right (a : Gf) : gfMul a 0#6 = 0#6 := by rw [gfMul_table]; simp

@[simp] theorem gfMul_zero_left (a : Gf) : gfMul 0#6 a = 0#6 := by rw [gfMul_comm]; simp

theorem gfMul_one_right : ∀ a : Gf, gfMul a 1#6 = a := by decide +kernel

theorem gfMul_assoc (a b c : Gf) : gfMul (gfMul a b) c = gfMul a (gfMul b c) := by
  by_cases ha : a = 0#6
  · subst ha; simp
  by_cases hb : b = 0#6
  · subst hb; simp
  by_cases hc : c = 0#6
  · subst hc; simp
  rw [← (gfExp_gfLog a ha).1, ← (gfExp_gfLog b hb).1, ← (gfExp_gfLog c hc).1]
  simp only [gfMul_gfExp_gfExp, Nat.add_assoc]

/-- The elements of GF(2^6) as a type of its own: on the 6-bit values themselves `*` is the product of
numbers. -/
structure GfElem where
  /-- the element's 6 bits -/
  val : Gf

theorem GfElem.ext_val {x y : GfElem} (h : x.val = y.val) : x = y := by
  cases x
  cases y
  exact congrArg _ h

/-- The field GF(2^6) (00_scope R15, 44_fec R331). -/
noncomputable abbrev gfField : Field GfElem :=
  @Field.ofMinimalAxioms GfElem ⟨fun x y => ⟨gfAdd x.val y.val⟩⟩ ⟨fun x y => ⟨gfMul x.val y.val⟩⟩ ⟨fun x => x⟩
    ⟨fun x => ⟨if x.val = 0#6 then 0#6 else gfInv x.val⟩⟩ ⟨⟨0#6⟩⟩ ⟨⟨1#6⟩⟩
    (fun _ _ _ => GfElem.ext_val (BitVec.xor_assoc _ _ _))
    (fun _ => GfElem.ext_val BitVec.zero_xor)
    (fun _ => GfElem.ext_val BitVec.xor_self)
    (fun _ _ _ => GfElem.ext_val (gfMul_assoc _ _ _))
    (fun _ _ => GfElem.ext_val (gfMul_comm _ _))
    (fun x => GfElem.ext_val ((gfMul_comm 1#6 x.val).trans (gfMul_one_right x.val)))
    (fun x hx => GfElem.ext_val (by
      have hv : x.val ≠ 0#6 := fun h => hx (GfElem.ext_val h)
      show gfMul x.val (if x.val = 0#6 then 0#6 else gfInv x.val) = 1#6
      rw [if_neg hv]
      exact gfMul_gfInv _ hv))
    (show (⟨if (0#6 : Gf) = 0#6 then 0#6 else gfInv 0#6⟩ : GfElem) = ⟨0#6⟩ from rfl)
    (fun x y z => GfElem.ext_val (by
      show gfMul x.val (y.val ^^^ z.val) = gfMul x.val y.val ^^^ gfMul x.val z.val
      rw [gfMul_comm, gfMul_xor_left, gfMul_comm y.val, gfMul_comm z.val]))
    ⟨⟨0#6⟩, ⟨1#6⟩, fun h => absurd (congrArg GfElem.val h) (by decide)⟩

/-- φ carries the operations of Machine/Gf.lean to those of the field K. -/
structure GfEmb {K : Type} [Field K] (φ : Gf → K) : Prop where
  add : ∀ a b, φ (gfAdd a b) = φ a + φ b
  mul : ∀ a b, φ (gfMul a b) = φ a * φ b
  zero : φ 0#6 = 0
  one : φ 1#6 = 1
  inj : ∀ a b, φ a = φ b → a = b

/-- The 6-bit values are a field. -/
theorem exists_gfEmb : ∃ (K : Type) (_ : Field K) (φ : Gf → K), GfEmb φ :=
  ⟨GfElem, gfField, GfElem.mk,
    @GfEmb.mk GfElem gfField _ (fun _ _ => rfl) (fun _ _ => rfl) rfl rfl (fun _ _ h => congrArg GfElem.val h)⟩

variable {K : Type} [Field K] {φ : Gf → K}

theorem GfEmb.eq_zero (h : GfEmb φ) (a : Gf) : φ a = 0 ↔ a = 0#6 :=
  ⟨fun e => h.inj _ _ (e.trans h.zero.symm), fun e => e ▸ h.zero⟩

theorem GfEmb.two (h : GfEmb φ) (x : K) : x + x = 0 := by
  have e : (1 : K) + 1 = 0 := by
    rw [← h.one, ← h.add, ← h.zero]
    congr 1
  rw [← mul_one x, ← mul_add, e, mul_zero]

theorem GfEmb.neg (h : GfEmb φ) (x : K) : -x = x := neg_eq_of_add_eq_zero_left (h.two x)

theorem GfEmb.sub (h : GfEmb φ) (x y : K) : x - y = x + y := by rw [sub_eq_add_neg, h.neg]

theorem GfEmb.inv (h : GfEmb φ) (a : Gf) (ha : a ≠ 0#6) : φ (gfInv a) = (φ a)⁻¹ := by
  rw [← one_div, eq_div_iff (fun e => ha ((h.eq_zero a).1 e)), ← h.mul, gfMul_comm, gfMul_gfInv a ha, h.one]

theorem GfEmb.exp (h : GfEmb φ) (k : Nat) : φ (gfExp k) = φ (gfExp 1) ^ k := by
  induction k with
  | zero => rw [pow_zero]; exact h.one
  | succ k ih => rw [pow_succ, ← ih, ← h.mul, gfMul_gfExp_gfExp]

theorem GfEmb.exp_ne (h : GfEmb φ) (k : Nat) : φ (gfExp k) ≠ 0 := fun e => gfExp_ne_zero k ((h.eq_zero _).1 e)

theorem GfEmb.exp_inv (h : GfEmb φ) (i : Nat) (hi : i ≤ 63) : φ (gfExp (63 - i)) = (φ (gfExp i))⁻¹ := by
  rw [← one_div, eq_div_iff (h.exp_ne i), ← h.mul, gfMul_gfExp_gfExp, Nat.sub_add_cancel hi]
  exact h.one

theorem GfEmb.exp_inj (h : GfEmb φ) (i j : Nat) (hi : i < 63) (hj : j < 63)
    (e : φ (gfExp i) = φ (gfExp j)) : i = j := by
  have := congrArg gfLog (h.inj _ _ e)
  rwa [gfLog_gfExp, gfLog_gfExp, Nat.mod_eq_of_lt hi, Nat.mod_eq_of_lt hj] at this

/-! ## Coefficient lists as polynomials -/

/-- The polynomial of a coefficient list (44_fec R331). -/
noncomputable def toPoly (φ : Gf → K) : List Gf → K[X]
  | [] => 0
  | c :: p => C (φ c) + X * toPoly φ p

theorem coeff_toPoly (h : GfEmb φ) (p : List Gf) (k : Nat) : (toPoly φ p).coeff k = φ (polyCoeff p k) := by
  induction p generalizing k with
  | nil => simp [toPoly, polyCoeff, h.zero]
  | cons c p ih =>
    cases k with
    | zero => simp [toPoly, polyCoeff]
    | succ k =>
      have := ih k
      simp only [polyCoeff] at this
      simp [toPoly, polyCoeff, coeff_X_mul, coeff_C_succ, this]

theorem eval_toPoly (h : GfEmb φ) (p : List Gf) (x : Gf) :
    (toPoly φ p).eval (φ x) = φ (polyEval p x) := by
  induction p with
  | nil => simp [toPoly, polyEval, h.zero]
  | cons c p ih =>
    simp only [polyEval] at ih
    simp [toPoly, polyEval, h.add, h.mul, ih]

theorem toPoly_add (h : GfEmb φ) (p q : List Gf) : toPoly φ (polyAdd p q) = toPoly φ p + toPoly φ q := by
  induction p generalizing q with
  | nil => cases q <;> simp [polyAdd, toPoly]
  | cons a p ih =>
    cases q with
    | nil => simp [polyAdd, toPoly]
    | cons b q =>
      simp only [polyAdd, toPoly, h.add, ih, map_add]
      ring

theorem toPoly_scaleShift (h : GfEmb φ) (c : Gf) (m : Nat) (p : List Gf) :
    toPoly φ (polyScaleShift c m p) = C (φ c) * (X ^ m * toPoly φ p) := by
  unfold polyScaleShift
  induction m with
  | zero =>
    rw [List.replicate_zero, List.nil_append, pow_zero, one_mul]
    induction p with
    | nil => simp [toPoly]
    | cons a p ih =>
      simp only [List.map_cons, toPoly, ih, h.mul, map_mul]
      ring
  | succ m ih =>
    rw [List.replicate_succ, List.cons_append]
    simp only [toPoly, ih, h.zero, map_zero, zero_add]
    ring

theorem natDegree_toPoly_lt (φ : Gf → K) (p : List Gf) (hp : p ≠ []) : (toPoly φ p).natDegree < p.length := by
  induction p with
  | nil => exact absurd rfl hp
  | cons c p ih =>
    rw [List.length_cons, Nat.lt_succ_iff]
    simp only [toPoly]
    refine (natDegree_add_le _ _).trans ?_
    rw [natDegree_C, max_eq_right (Nat.zero_le _)]
    by_cases hp : p = []
    · subst hp; simp [toPoly]
    · refine (natDegree_mul_le).trans ?_
      rw [natDegree_X]
      have := ih hp
      omega

/-- deg P (44_fec R331) is the degree. -/
theorem natDegree_toPoly (h : GfEmb φ) (p : List Gf) : (toPoly φ p).natDegree = polyDeg p := by
  induction p using List.reverseRecOn with
  | nil => simp [toPoly, polyDeg]
  | append_singleton p c ih =>
    have happ : toPoly φ (p ++ [c]) = toPoly φ p + C (φ c) * X ^ p.length := by
      clear ih
      induction p with
      | nil => simp [toPoly]
      | cons a p ih =>
        simp only [List.cons_append, toPoly, ih, List.length_cons]
        ring
    by_cases hc : c = 0#6
    · subst hc
      rw [happ, h.zero, map_zero, zero_mul, add_zero, ih]
      simp [polyDeg]
    · have hd : polyDeg (p ++ [c]) = p.length := by
        simp [polyDeg, hc]
      have hc' : φ c ≠ 0 := fun e => hc ((h.eq_zero c).1 e)
      rw [happ, hd]
      by_cases hp : p = []
      · subst hp; simp [toPoly]
      · rw [natDegree_add_eq_right_of_natDegree_lt]
        · exact natDegree_C_mul_X_pow _ _ hc'
        · rw [natDegree_C_mul_X_pow _ _ hc']
          exact natDegree_toPoly_lt φ p hp

theorem toPoly_deriv (h : GfEmb φ) (p : List Gf) : toPoly φ (polyDeriv p) = derivative (toPoly φ p) := by
  ext k
  rw [coeff_toPoly h, coeff_derivative, coeff_toPoly h]
  have hpar : ((k : K) + 1) = if k % 2 = 0 then 1 else 0 := by
    have two : (2 : K) = 0 := by rw [← one_add_one_eq_two]; exact h.two 1
    rcases Nat.even_or_odd' k with ⟨j, rfl | rfl⟩
    · simp [two]
    · push_cast
      rw [two]
      have : (2 * j + 1) % 2 ≠ 0 := by omega
      rw [if_neg this, zero_mul, zero_add]
      exact h.two 1
  rw [hpar]
  by_cases hk : k < p.length - 1
  · simp [polyDeriv, polyCoeff, List.getD_eq_getElem?_getD, hk]
    split <;> simp [h.zero]
  · have h1 : polyCoeff (polyDeriv p) k = 0#6 := by
      unfold polyCoeff polyDeriv
      rw [List.getD_eq_default]
      simpa using hk
    have h2 : polyCoeff p (k + 1) = 0#6 := by
      unfold polyCoeff
      rw [List.getD_eq_default]
      omega
    rw [h1, h2, h.zero, zero_mul]

theorem gfSum_range (h : GfEmb φ) (n : Nat) (f : Nat → Gf) :
    φ (gfSum ((List.range n).map f)) = ∑ i ∈ Finset.range n, φ (f i) := by
  induction n with
  | zero => simpa [gfSum] using h.zero
  | succ n ih =>
    rw [List.range_succ, List.map_append, Finset.sum_range_succ, ← ih, ← h.add]
    simp [gfSum]

end Sys2Proof.Machine
end

