-- ==== Sys2Proof/Laws/BerlekampMassey.lean ====
section
/-! SUPPORT. The Berlekamp-Massey recursion of 44_fec R336 finds a shortest recurrence of the syndromes. -/

namespace Sys2Proof.Machine

open Polynomial

variable {K : Type} [Field K] {φ : Gf → K}

/-- The discrepancy of the recurrence P at step n: the coefficient of x^n in P · S, S the sequence
(44_fec R336). -/
noncomputable def disc (s : ℕ → K) (P : K[X]) (n : Nat) : K :=
  ∑ k ∈ Finset.range (n + 1), P.coeff k * s (n - k)

theorem disc_eq_coeff (s : ℕ → K) (P : K[X]) (n : Nat) :
    disc s P n = PowerSeries.coeff n ((P : PowerSeries K) * PowerSeries.mk s) := by
  rw [PowerSeries.coeff_mul, Finset.Nat.sum_antidiagonal_eq_sum_range_succ_mk]
  simp [disc]

theorem disc_add (s : ℕ → K) (P Q : K[X]) (n : Nat) : disc s (P + Q) n = disc s P n + disc s Q n := by
  simp [disc, add_mul, Finset.sum_add_distrib]

theorem disc_C_mul (s : ℕ → K) (c : K) (P : K[X]) (n : Nat) : disc s (C c * P) n = c * disc s P n := by
  simp [disc, Finset.mul_sum, mul_assoc]

theorem disc_X_mul (s : ℕ → K) (P : K[X]) (n : Nat) : disc s (X * P) (n + 1) = disc s P n := by
  rw [disc_eq_coeff, disc_eq_coeff, Polynomial.coe_mul, Polynomial.coe_X, mul_assoc, PowerSeries.coeff_succ_X_mul]

theorem disc_X_mul_zero (s : ℕ → K) (P : K[X]) : disc s (X * P) 0 = 0 := by simp [disc]

theorem disc_one (s : ℕ → K) (n : Nat) : disc s 1 n = s n := by
  rw [disc, Finset.sum_eq_single 0]
  · simp
  · intro k _ hk
    rw [coeff_one, if_neg hk, zero_mul]
  · simp

theorem disc_X_pow (s : ℕ → K) (n : Nat) (i : Nat) (hi : i < n) : disc s (X ^ n) i = 0 := by
  refine Finset.sum_eq_zero fun k hk => ?_
  rw [coeff_X_pow, if_neg, zero_mul]
  have := Finset.mem_range.1 hk
  omega

/-- In a product of a polynomial P of degree at most l with a series that vanishes on [n − l, n), only the
lowest coefficient of P counts. -/
theorem disc_mul (s : ℕ → K) (P Q : K[X]) (l n : Nat) (hd : P.natDegree ≤ l)
    (hz : ∀ i, i < n → n ≤ i + l → disc s Q i = 0) : disc s (P * Q) n = P.coeff 0 * disc s Q n := by
  rw [disc_eq_coeff, Polynomial.coe_mul, mul_assoc, PowerSeries.coeff_mul,
    Finset.Nat.sum_antidiagonal_eq_sum_range_succ_mk, Finset.sum_eq_single 0]
  · rw [← disc_eq_coeff]
    simp
  · intro k hk h0
    have hk := Finset.mem_range.1 hk
    by_cases hl : k ≤ l
    · rw [← disc_eq_coeff, hz (n - k) (by omega) (by omega), mul_zero]
    · rw [Polynomial.coeff_coe, coeff_eq_zero_of_natDegree_lt (by omega), zero_mul]
  · simp

/-- Two recurrences that hold up to step n, the first of which fails at n and the second does not, have
lengths that add up to more than n. -/
theorem massey (s : ℕ → K) (P Q : K[X]) (l m n : Nat) (hQ : Q.coeff 0 = 1)
    (dP : P.natDegree ≤ l) (dQ : Q.natDegree ≤ m) (zP : ∀ i, l ≤ i → i < n → disc s P i = 0)
    (zQ : ∀ i, m ≤ i → i < n + 1 → disc s Q i = 0) (hne : disc s P n ≠ 0) : n + 1 ≤ l + m := by
  by_contra hlt
  have h1 := disc_mul s Q P m n dQ fun i hi h => zP i (by omega) hi
  have h2 := disc_mul s P Q l n dP fun i hi h => zQ i (by omega) (by omega)
  rw [mul_comm, h2, zQ n (by omega) (by omega), hQ, mul_zero, one_mul] at h1
  exact hne h1.symm

/-- The value of a recurrence on a sum of powers: for s_j = Σ a_i X_i^(j+1) it is the recurrence's
polynomial at the inverses (44_fec R337, R338). -/
theorem disc_powers {ι : Type} (E : Finset ι) (a x : ι → K) (hx : ∀ i ∈ E, x i ≠ 0) (s : ℕ → K) (N n : Nat)
    (hn : n < N) (hs : ∀ j, j < N → s j = ∑ i ∈ E, a i * x i ^ (j + 1)) (P : K[X]) (hd : P.natDegree ≤ n) :
    disc s P n = ∑ i ∈ E, a i * x i ^ (n + 1) * P.eval (x i)⁻¹ := by
  have h1 : ∀ k ∈ Finset.range (n + 1), P.coeff k * s (n - k) =
      ∑ i ∈ E, a i * x i ^ (n + 1) * (P.coeff k * (x i)⁻¹ ^ k) := by
    intro k hk
    have hk := Finset.mem_range.1 hk
    rw [hs (n - k) (by omega), Finset.mul_sum]
    refine Finset.sum_congr rfl fun i hi => ?_
    have e : x i ^ (n + 1) = x i ^ (n - k + 1) * x i ^ k := by
      rw [← pow_add]
      congr 1
      omega
    have hk0 : x i ^ k ≠ 0 := pow_ne_zero _ (hx i hi)
    rw [e, inv_pow]
    field_simp
  rw [disc, Finset.sum_congr rfl h1, Finset.sum_comm]
  refine Finset.sum_congr rfl fun i _ => ?_
  rw [← Finset.mul_sum, eval_eq_sum_range' (Nat.lt_succ_of_le hd)]

/-! ## The invariant of the recursion -/

/-- The syndrome sequence in K. -/
def synSeq (φ : Gf → K) (syn : List Gf) (n : Nat) : K := φ (polyCoeff syn n)

/-- After n syndromes: Λ is a shortest recurrence of the first n, of length L; and B, kept from the last
change of length, is the recurrence whose discrepancy b repairs a failure at step n (44_fec R336). -/
structure BmInv (φ : Gf → K) (syn : List Gf) (n : Nat) (v : BmState) : Prop where
  one : (toPoly φ v.c).coeff 0 = 1
  deg : (toPoly φ v.c).natDegree ≤ v.l
  le : v.l ≤ n
  zero : ∀ i, v.l ≤ i → i < n → disc (synSeq φ syn) (toPoly φ v.c) i = 0
  least : ∀ (P : K[X]) (l : Nat), P.coeff 0 = 1 → P.natDegree ≤ l →
    (∀ i, l ≤ i → i < n → disc (synSeq φ syn) P i = 0) → v.l ≤ l
  repair : (v.l = 0 ∧ toPoly φ v.b = 1 ∧ v.m = n + 1 ∧ v.bd = 1#6) ∨
    (v.bd ≠ 0#6 ∧ 1 ≤ v.m ∧ v.m + (toPoly φ v.b).natDegree + v.l ≤ n + 1 ∧
      disc (synSeq φ syn) (X ^ v.m * toPoly φ v.b) n = φ v.bd ∧
      ∀ i, n + 1 ≤ i + v.l → i < n → disc (synSeq φ syn) (X ^ v.m * toPoly φ v.b) i = 0)

/-- The model's discrepancy is that of Λ. -/
theorem bmDiscrepancy_eq (h : GfEmb φ) (syn : List Gf) (n : Nat) (v : BmState) (hv : BmInv φ syn n v) :
    φ (bmDiscrepancy syn v n) = disc (synSeq φ syn) (toPoly φ v.c) n := by
  unfold bmDiscrepancy
  rw [h.add, gfSum_range h, disc, Finset.sum_range_succ', hv.one, one_mul, add_comm]
  congr 1
  have hsub : Finset.range v.l ⊆ Finset.range n := Finset.range_mono hv.le
  rw [← Finset.sum_subset hsub]
  · refine Finset.sum_congr rfl fun i _ => ?_
    rw [h.mul, coeff_toPoly h]
    rfl
  · intro i _ hi
    have hi : v.l ≤ i := by simpa using hi
    rw [coeff_eq_zero_of_natDegree_lt (lt_of_le_of_lt hv.deg (by omega)), zero_mul]

theorem bmInv_init (h : GfEmb φ) (syn : List Gf) :
    BmInv φ syn 0 { c := [1#6], b := [1#6], l := 0, m := 1, bd := 1#6 } := by
  have e : toPoly φ [1#6] = 1 := by simp [toPoly, h.one]
  refine ⟨?_, ?_, le_rfl, fun i _ hi => absurd hi (by omega), fun _ _ _ _ _ => Nat.zero_le _, .inl ⟨rfl, e, rfl, rfl⟩⟩
  · rw [e]; simp
  · rw [e]; simp

theorem bmInv_step (h : GfEmb φ) (syn : List Gf) (n : Nat) (v : BmState) (hv : BmInv φ syn n v) :
    BmInv φ syn (n + 1) (bmStep syn v n) := by
  have hd := bmDiscrepancy_eq h syn n v hv
  unfold bmStep
  dsimp only
  generalize bmDiscrepancy syn v n = d at hd ⊢
  -- the step keeps what the recurrences of n + 1 syndromes have in common
  have weaken : ∀ (P : K[X]) (l : Nat), (∀ i, l ≤ i → i < n + 1 → disc (synSeq φ syn) P i = 0) →
      ∀ i, l ≤ i → i < n → disc (synSeq φ syn) P i = 0 := fun P l hP i h1 h2 => hP i h1 (by omega)
  have shift : ∀ P : K[X], X ^ (v.m + 1) * P = X * (X ^ v.m * P) := fun P => by ring
  have shiftDisc : (v.bd ≠ 0#6 ∧ 1 ≤ v.m ∧ v.m + (toPoly φ v.b).natDegree + v.l ≤ n + 1 ∧
      disc (synSeq φ syn) (X ^ v.m * toPoly φ v.b) n = φ v.bd ∧
      ∀ i, n + 1 ≤ i + v.l → i < n → disc (synSeq φ syn) (X ^ v.m * toPoly φ v.b) i = 0) →
      (v.bd ≠ 0#6 ∧ 1 ≤ v.m + 1 ∧ (v.m + 1) + (toPoly φ v.b).natDegree + v.l ≤ n + 1 + 1 ∧
      disc (synSeq φ syn) (X ^ (v.m + 1) * toPoly φ v.b) (n + 1) = φ v.bd ∧
      ∀ i, n + 1 + 1 ≤ i + v.l → i < n + 1 →
        disc (synSeq φ syn) (X ^ (v.m + 1) * toPoly φ v.b) i = 0) := by
    rintro ⟨h1, h2, h3, h4, h5⟩
    refine ⟨h1, by omega, by omega, ?_, ?_⟩
    · rw [shift, disc_X_mul, h4]
    · intro i hi1 hi2
      rw [shift]
      cases i with
      | zero => exact disc_X_mul_zero _ _
      | succ i => rw [disc_X_mul]; exact h5 i (by omega) (by omega)
  by_cases h0 : d = 0#6
  · -- no discrepancy
    rw [if_pos h0]
    have hd0 : disc (synSeq φ syn) (toPoly φ v.c) n = 0 := by rw [← hd, h0, h.zero]
    refine ⟨hv.one, hv.deg, hv.le.trans (Nat.le_succ n), ?_, fun P l h1 h2 h3 => hv.least P l h1 h2 (weaken P l h3), ?_⟩
    · intro i h1 h2
      by_cases hin : i = n
      · rw [hin]; exact hd0
      · exact hv.zero i h1 (by omega)
    · rcases hv.repair with ⟨h1, h2, h3, h4⟩ | h1
      · exact .inl ⟨h1, h2, by simp [h3], h4⟩
      · exact .inr (shiftDisc h1)
  · rw [if_neg h0]
    have hdne : disc (synSeq φ syn) (toPoly φ v.c) n ≠ 0 := by
      rw [← hd]
      exact fun e => h0 ((h.eq_zero d).1 e)
    -- the new recurrence
    have hpoly : toPoly φ (polyAdd v.c (polyScaleShift (gfMul d (gfInv v.bd)) v.m v.b)) =
        toPoly φ v.c + C (φ (gfMul d (gfInv v.bd))) * (X ^ v.m * toPoly φ v.b) := by
      rw [toPoly_add h, toPoly_scaleShift h]
    have hm1 : 1 ≤ v.m := by
      rcases hv.repair with ⟨_, _, h3, _⟩ | ⟨_, h2, _⟩
      · omega
      · exact h2
    have hX0 : (X ^ v.m * toPoly φ v.b).coeff 0 = 0 := by
      rw [coeff_zero_eq_eval_zero]
      simp [Nat.one_le_iff_ne_zero.1 hm1]
    have hone : (toPoly φ v.c + C (φ (gfMul d (gfInv v.bd))) * (X ^ v.m * toPoly φ v.b)).coeff 0 = 1 := by
      rw [coeff_add, coeff_C_mul, hX0, hv.one, mul_zero, add_zero]
    -- it is repaired at n, and its degree is bounded
    have hfix : v.bd ≠ 0#6 → disc (synSeq φ syn) (X ^ v.m * toPoly φ v.b) n = φ v.bd →
        disc (synSeq φ syn) (toPoly φ v.c + C (φ (gfMul d (gfInv v.bd))) * (X ^ v.m * toPoly φ v.b)) n = 0 := by
      intro hb e
      have hb' : φ v.bd ≠ 0 := fun e => hb ((h.eq_zero _).1 e)
      rw [disc_add, disc_C_mul, e, h.mul, h.inv _ hb, mul_assoc, inv_mul_cancel₀ hb', mul_one, ← hd]
      exact h.two _
    have hdegree : ∀ l, v.l ≤ l → v.m + (toPoly φ v.b).natDegree ≤ l →
        (toPoly φ v.c + C (φ (gfMul d (gfInv v.bd))) * (X ^ v.m * toPoly φ v.b)).natDegree ≤ l := by
      intro l h1 h2
      refine (natDegree_add_le _ _).trans (max_le (hv.deg.trans h1) ?_)
      refine (natDegree_C_mul_le _ _).trans ((natDegree_mul_le).trans ?_)
      rw [natDegree_X_pow]
      exact h2
    by_cases hl : 2 * v.l ≤ n
    · rw [if_pos hl]
      have hleast : ∀ (P : K[X]) (l : Nat), P.coeff 0 = 1 → P.natDegree ≤ l →
          (∀ i, l ≤ i → i < n + 1 → disc (synSeq φ syn) P i = 0) → n + 1 - v.l ≤ l := by
        intro P l h1 h2 h3
        have := massey (synSeq φ syn) (toPoly φ v.c) P v.l l n h1 hv.deg h2 hv.zero h3 hdne
        omega
      refine ⟨hpoly ▸ hone, ?_, by dsimp only; omega, ?_, hleast, .inr ⟨h0, le_rfl, ?_, ?_, ?_⟩⟩
      · rw [hpoly]
        dsimp only
        rcases hv.repair with ⟨h1, h2, h3, h4⟩ | ⟨h1, h2, h3, h4, h5⟩
        · refine hdegree _ (by omega) ?_
          rw [h2, natDegree_one]
          omega
        · exact hdegree _ (by omega) (by omega)
      · intro i hi1 hi2
        dsimp only at hi1
        rw [hpoly]
        rcases hv.repair with ⟨h1, h2, h3, h4⟩ | ⟨h1, h2, h3, h4, h5⟩
        · omega
        · by_cases hin : i = n
          · rw [hin]; exact hfix h1 h4
          · rw [disc_add, disc_C_mul, hv.zero i (by omega) (by omega), h5 i (by omega) (by omega), mul_zero,
              add_zero]
      · dsimp only
        have := hv.deg
        omega
      · rw [pow_one, disc_X_mul, hd]
      · intro i hi1 hi2
        dsimp only at hi1
        rw [pow_one]
        cases i with
        | zero => exact disc_X_mul_zero _ _
        | succ i => rw [disc_X_mul]; exact hv.zero i (by omega) (by omega)
    · rw [if_neg hl]
      rcases hv.repair with ⟨h1, h2, h3, h4⟩ | hr
      · omega
      · obtain ⟨h1, h2, h3, h4, h5⟩ := hr
        refine ⟨hpoly ▸ hone, ?_, hv.le.trans (Nat.le_succ n), ?_,
          fun P l p1 p2 p3 => hv.least P l p1 p2 (weaken P l p3), .inr (shiftDisc ⟨h1, h2, h3, h4, h5⟩)⟩
        · rw [hpoly]
          exact hdegree v.l le_rfl (by omega)
        · intro i hi1 hi2
          dsimp only at hi1
          rw [hpoly]
          by_cases hin : i = n
          · rw [hin]; exact hfix h1 h4
          · rw [disc_add, disc_C_mul, hv.zero i (by omega) (by omega), h5 i (by omega) (by omega), mul_zero,
              add_zero]

/-- Λ of the whole recursion is a shortest recurrence of all the syndromes (44_fec R336). -/
theorem bmInv (h : GfEmb φ) (syn : List Gf) : BmInv φ syn syn.length (berlekampMassey syn) := by
  have : ∀ n, BmInv φ syn n ((List.range n).foldl (bmStep syn)
      { c := [1#6], b := [1#6], l := 0, m := 1, bd := 1#6 }) := by
    intro n
    induction n with
    | zero => exact bmInv_init h syn
    | succ n ih =>
      rw [List.range_succ, List.foldl_append]
      exact bmInv_step h syn n _ ih
  exact this _

end Sys2Proof.Machine
end

