-- ==== Sys2Proof/Laws/Bits.lean ====
section
/-! SUPPORT. Bit strings: their numbers, their ranges, and the scratch buffer read bit by bit. -/

namespace Sys2Proof.Machine

theorem natOfBits_foldl (bs : List Bool) (a : Nat) :
    bs.foldl (fun acc b => 2 * acc + b.toNat) a = a * 2 ^ bs.length + natOfBits bs := by
  induction bs generalizing a with
  | nil => simp [natOfBits]
  | cons b bs ih =>
    have h : natOfBits (b :: bs) = b.toNat * 2 ^ bs.length + natOfBits bs := by
      simpa [natOfBits] using ih b.toNat
    rw [List.foldl_cons, ih, h, List.length_cons, pow_succ]
    ring

@[simp] theorem natOfBits_nil : natOfBits [] = 0 := rfl

theorem natOfBits_cons (b : Bool) (bs : List Bool) :
    natOfBits (b :: bs) = b.toNat * 2 ^ bs.length + natOfBits bs := by
  simpa [natOfBits] using natOfBits_foldl bs b.toNat

theorem natOfBits_append (as bs : List Bool) :
    natOfBits (as ++ bs) = natOfBits as * 2 ^ bs.length + natOfBits bs := by
  unfold natOfBits
  rw [List.foldl_append]
  exact natOfBits_foldl bs _

theorem natOfBits_lt (bs : List Bool) : natOfBits bs < 2 ^ bs.length := by
  induction bs with
  | nil => simp
  | cons b bs ih =>
    rw [natOfBits_cons, List.length_cons, pow_succ]
    cases b <;> simp <;> omega

theorem natOfBits_testBit (bs : List Bool) (j : Nat) :
    (natOfBits bs).testBit j = (decide (j < bs.length) && bs.getD (bs.length - 1 - j) false) := by
  induction bs with
  | nil => simp
  | cons b bs ih =>
    have hlt := natOfBits_lt bs
    rw [natOfBits_cons, Nat.mul_comm, Nat.testBit_two_pow_mul_add _ hlt]
    by_cases hj : j < bs.length
    · have e : bs.length - j = bs.length - 1 - j + 1 := by omega
      simp only [hj, if_true, ih, List.length_cons, Nat.add_sub_cancel, e, List.getD_cons_succ,
        decide_true, Bool.true_and, Nat.lt_succ_of_lt hj]
    · by_cases he : j = bs.length
      · subst he
        cases b <;> simp
      · have e : j - bs.length ≠ 0 := by omega
        have e2 : ¬ j < bs.length + 1 := by omega
        cases b
        · simp [hj, e2]
        · have h1 : Nat.testBit 1 (j - bs.length) = false :=
            Nat.testBit_lt_two_pow (Nat.one_lt_two_pow e)
          simp [hj, e2, h1]

@[simp] theorem bitsOfNat_length (n v : Nat) : (bitsOfNat n v).length = n := by
  induction n with
  | zero => rfl
  | succ n ih => simp [bitsOfNat, ih]

theorem bitsOfNat_getD (n v j : Nat) (h : j < n) :
    (bitsOfNat n v).getD j false = v.testBit (n - 1 - j) := by
  induction n generalizing j with
  | zero => omega
  | succ n ih =>
    cases j with
    | zero => simp [bitsOfNat]
    | succ j =>
      rw [bitsOfNat, List.getD_cons_succ, ih j (by omega)]
      congr 1
      omega

theorem natOfBits_bitsOfNat (n v : Nat) : natOfBits (bitsOfNat n v) = v % 2 ^ n := by
  apply Nat.eq_of_testBit_eq
  intro j
  rw [natOfBits_testBit, Nat.testBit_mod_two_pow, bitsOfNat_length]
  by_cases h : j < n
  · rw [bitsOfNat_getD n v _ (by omega)]
    congr 2
    omega
  · simp [h]

@[simp] theorem bitsOfWord_length (w : Word) : (bitsOfWord w).length = 32 := bitsOfNat_length _ _

theorem bitsOfWord_getD (w : Word) (j : Nat) (h : j < 32) :
    (bitsOfWord w).getD j false = w.getMsbD j := by
  rw [bitsOfWord, bitsOfNat_getD 32 _ j h]
  simp [BitVec.getMsbD, h, BitVec.getLsbD]

@[simp] theorem packWords_length (n : Nat) (bs : List Bool) : (packWords n bs).length = n := by
  induction n generalizing bs with
  | zero => rfl
  | succ n ih => simp [packWords, ih]

@[simp] theorem recordWords_length (bs : List Bool) :
    (recordWords bs).length = (bs.length + 31) / 32 := packWords_length _ _

@[simp] theorem blockBits_length {n : Nat} (b : Block n) : (blockBits b).length = n := by
  simp [blockBits]

@[simp] theorem flipBit_length (bs : List Bool) (p : Nat) : (flipBit bs p).length = bs.length := by
  simp [flipBit]

/-! ## Dibits and codes -/

@[simp] theorem dibitOfLow_dibitLow (d : Dibit) : dibitOfLow (dibitLow d) = d := by
  cases d <;> decide

@[simp] theorem stateOfNum_stateNum (c : StateCode) : stateOfNum (stateNum c) = some c := by
  cases c <;> decide

/-! ## Ranges of a slot buffer -/

@[simp] theorem bufRange_length (buf : List Bool) (i n : Nat) : (bufRange buf i n).length = n := by
  simp [bufRange]

theorem bufBit_eq (buf : List Bool) (i : Nat) (h : i < buf.length) : bufBit buf i = buf[i] := by
  simp [bufBit, h]

/-- Within the cursor a range reads the stored bits: no free bit is read (20_memory R86). -/
theorem bufRange_eq (buf : List Bool) (i n : Nat) (h : i + n ≤ buf.length) :
    bufRange buf i n = (buf.drop i).take n := by
  apply List.ext_getElem
  · simp; omega
  · intro j h1 h2
    have hj : j < n := by simpa using h1
    have hi : i + j < buf.length := by omega
    simp [bufRange, bufBit_eq _ _ hi]

@[simp] theorem overwriteBits_length (buf : List Bool) (i : Nat) (c : List Bool) :
    (overwriteBits buf i c).length = buf.length := by
  simp [overwriteBits]
  omega

/-- A write within the cursor replaces exactly its range (20_memory R89). -/
theorem overwriteBits_get (buf : List Bool) (i : Nat) (c : List Bool)
    (h : i + c.length ≤ buf.length) (j : Nat) :
    (overwriteBits buf i c)[j]? =
      if i ≤ j ∧ j < i + c.length then getElem? c (j - i) else getElem? buf j := by
  have hi : i ≤ buf.length := by omega
  by_cases hj : j < buf.length
  · rw [overwriteBits, List.getElem?_take_of_lt hj, List.append_assoc]
    by_cases h1 : j < i
    · rw [List.getElem?_append_left (by simp; omega), List.getElem?_take_of_lt h1,
        if_neg (by omega)]
    · rw [List.getElem?_append_right (by simp; omega)]
      simp only [List.length_take, Nat.min_eq_left hi]
      by_cases h2 : j < i + c.length
      · rw [List.getElem?_append_left (by omega), if_pos ⟨by omega, h2⟩]
      · rw [List.getElem?_append_right (by omega), List.getElem?_drop, if_neg (by omega)]
        congr 1
        omega
  · rw [List.getElem?_eq_none (by simp; omega), if_neg (by omega),
      List.getElem?_eq_none (by omega)]

/-! ## The scratch buffer, bit by bit -/

@[simp] theorem scrRead_length (scr : BitVec 512) (b n : Nat) : (scrRead scr b n).length = n := by
  simp [scrRead]

theorem scrRead_getElem (scr : BitVec 512) (b n i : Nat) (h : i < (scrRead scr b n).length) :
    (scrRead scr b n)[i] = scrBit scr (b + i) := by
  simp [scrRead]

/-- What a write to the scratch buffer does, said bit by bit (20_memory R82). -/
theorem scrBit_scrWrite (scr : BitVec 512) (b : Nat) (v : List Bool) (hb : b + v.length ≤ 512)
    (i : Nat) (hi : i < 512) :
    scrBit (scrWrite scr b v) i =
      if b ≤ i ∧ i < b + v.length then v.getD (i - b) false else scrBit scr i := by
  have hn : natOfBits v < 2 ^ 512 :=
    lt_of_lt_of_le (natOfBits_lt v) (Nat.pow_le_pow_right (by norm_num) (by omega))
  have hm : 2 ^ v.length - 1 < 2 ^ 512 :=
    lt_of_lt_of_le (Nat.sub_lt (Nat.two_pow_pos _) Nat.one_pos)
      (Nat.pow_le_pow_right (by norm_num) (by omega))
  simp only [scrBit, scrWrite, scrMask, BitVec.getMsbD, hi, decide_true, Bool.true_and,
    BitVec.getLsbD_or, BitVec.getLsbD_and, BitVec.getLsbD_not, BitVec.getLsbD_shiftLeft,
    BitVec.getLsbD_ofNat, Nat.testBit_two_pow_sub_one, natOfBits_testBit]
  have h1 : 512 - 1 - i < 512 := by omega
  by_cases hlo : b ≤ i
  · by_cases hhi : i < b + v.length
    · have a1 : ¬ 512 - 1 - i < 512 - (b + v.length) := by omega
      have a2 : 512 - 1 - i - (512 - (b + v.length)) < v.length := by omega
      have a3 : v.length - 1 - (512 - 1 - i - (512 - (b + v.length))) = i - b := by omega
      have a4 : 512 - 1 - i - (512 - (b + v.length)) < 512 := by omega
      simp [hlo, hhi, h1, a1, a2, a3, a4]
    · have a1 : 512 - 1 - i < 512 - (b + v.length) := by omega
      simp [hlo, hhi, h1, a1]
  · have a1 : ¬ 512 - 1 - i < 512 - (b + v.length) := by omega
    have a2 : ¬ 512 - 1 - i - (512 - (b + v.length)) < v.length := by omega
    simp [hlo, h1, a1, a2]

/-- Two scratch buffers with the same bits are the same. -/
theorem scr_ext (x y : BitVec 512) (h : ∀ i, i < 512 → scrBit x i = scrBit y i) : x = y := by
  apply BitVec.eq_of_getMsbD_eq
  intro i hi
  exact h i hi

end Sys2Proof.Machine
end

