-- ==== Sys2Proof/Laws/State.lean ====
section
/-! SUPPORT. One lemma per field per update of the state, true by rfl, so that no later proof unfolds a
record update. -/

namespace Sys2Proof.Machine

variable (s : State)

/-! ## setSlot -/

@[simp] theorem setSlot_stream (k : SlotId) (v : Slot) : (s.setSlot k v).stream = s.stream := rfl
@[simp] theorem setSlot_cc (k : SlotId) (v : Slot) : (s.setSlot k v).cc = s.cc := rfl
@[simp] theorem setSlot_ctrl (k : SlotId) (v : Slot) : (s.setSlot k v).ctrl = s.ctrl := rfl
@[simp] theorem setSlot_faultBufferFull (k : SlotId) (v : Slot) : (s.setSlot k v).faultBufferFull = s.faultBufferFull := rfl
@[simp] theorem setSlot_faultIllegalCmd (k : SlotId) (v : Slot) : (s.setSlot k v).faultIllegalCmd = s.faultIllegalCmd := rfl
@[simp] theorem setSlot_faultSlot (k : SlotId) (v : Slot) : (s.setSlot k v).faultSlot = s.faultSlot := rfl
@[simp] theorem setSlot_syncPatLo (k : SlotId) (v : Slot) : (s.setSlot k v).syncPatLo = s.syncPatLo := rfl
@[simp] theorem setSlot_syncPatHi (k : SlotId) (v : Slot) : (s.setSlot k v).syncPatHi = s.syncPatHi := rfl
@[simp] theorem setSlot_syncLen (k : SlotId) (v : Slot) : (s.setSlot k v).syncLen = s.syncLen := rfl
@[simp] theorem setSlot_statusInit (k : SlotId) (v : Slot) : (s.setSlot k v).statusInit = s.statusInit := rfl
@[simp] theorem setSlot_fmax (k : SlotId) (v : Slot) : (s.setSlot k v).fmax = s.fmax := rfl
@[simp] theorem setSlot_dropCnt (k : SlotId) (v : Slot) : (s.setSlot k v).dropCnt = s.dropCnt := rfl
@[simp] theorem setSlot_fecResult (k : SlotId) (v : Slot) : (s.setSlot k v).fecResult = s.fecResult := rfl
@[simp] theorem setSlot_duidMap (k : SlotId) (v : Slot) : (s.setSlot k v).duidMap = s.duidMap := rfl
@[simp] theorem setSlot_phase (k : SlotId) (v : Slot) : (s.setSlot k v).phase = s.phase := rfl
@[simp] theorem setSlot_freq (k : SlotId) (v : Slot) : (s.setSlot k v).freq = s.freq := rfl
@[simp] theorem setSlot_omega (k : SlotId) (v : Slot) : (s.setSlot k v).omega = s.omega := rfl
@[simp] theorem setSlot_mu (k : SlotId) (v : Slot) : (s.setSlot k v).mu = s.mu := rfl
@[simp] theorem setSlot_prev (k : SlotId) (v : Slot) : (s.setSlot k v).prev = s.prev := rfl
@[simp] theorem setSlot_dl (k : SlotId) (v : Slot) : (s.setSlot k v).dl = s.dl := rfl
@[simp] theorem setSlot_wi (k : SlotId) (v : Slot) : (s.setSlot k v).wi = s.wi := rfl
@[simp] theorem setSlot_corrW (k : SlotId) (v : Slot) : (s.setSlot k v).corrW = s.corrW := rfl
@[simp] theorem setSlot_corrCnt (k : SlotId) (v : Slot) : (s.setSlot k v).corrCnt = s.corrCnt := rfl
@[simp] theorem setSlot_scr (k : SlotId) (v : Slot) : (s.setSlot k v).scr = s.scr := rfl
@[simp] theorem setSlot_events (k : SlotId) (v : Slot) : (s.setSlot k v).events = s.events := rfl

@[simp] theorem setSlot_s0_slot0 (v : Slot) : (s.setSlot .s0 v).slot0 = v := rfl
@[simp] theorem setSlot_s0_slot1 (v : Slot) : (s.setSlot .s0 v).slot1 = s.slot1 := rfl
@[simp] theorem setSlot_s1_slot0 (v : Slot) : (s.setSlot .s1 v).slot0 = s.slot0 := rfl
@[simp] theorem setSlot_s1_slot1 (v : Slot) : (s.setSlot .s1 v).slot1 = v := rfl

/-! ## emit -/

@[simp] theorem emit_stream (e : Event) : (emit e s).stream = s.stream := rfl
@[simp] theorem emit_cc (e : Event) : (emit e s).cc = s.cc := rfl
@[simp] theorem emit_ctrl (e : Event) : (emit e s).ctrl = s.ctrl := rfl
@[simp] theorem emit_faultBufferFull (e : Event) : (emit e s).faultBufferFull = s.faultBufferFull := rfl
@[simp] theorem emit_faultIllegalCmd (e : Event) : (emit e s).faultIllegalCmd = s.faultIllegalCmd := rfl
@[simp] theorem emit_faultSlot (e : Event) : (emit e s).faultSlot = s.faultSlot := rfl
@[simp] theorem emit_syncPatLo (e : Event) : (emit e s).syncPatLo = s.syncPatLo := rfl
@[simp] theorem emit_syncPatHi (e : Event) : (emit e s).syncPatHi = s.syncPatHi := rfl
@[simp] theorem emit_syncLen (e : Event) : (emit e s).syncLen = s.syncLen := rfl
@[simp] theorem emit_statusInit (e : Event) : (emit e s).statusInit = s.statusInit := rfl
@[simp] theorem emit_fmax (e : Event) : (emit e s).fmax = s.fmax := rfl
@[simp] theorem emit_dropCnt (e : Event) : (emit e s).dropCnt = s.dropCnt := rfl
@[simp] theorem emit_fecResult (e : Event) : (emit e s).fecResult = s.fecResult := rfl
@[simp] theorem emit_duidMap (e : Event) : (emit e s).duidMap = s.duidMap := rfl
@[simp] theorem emit_phase (e : Event) : (emit e s).phase = s.phase := rfl
@[simp] theorem emit_freq (e : Event) : (emit e s).freq = s.freq := rfl
@[simp] theorem emit_omega (e : Event) : (emit e s).omega = s.omega := rfl
@[simp] theorem emit_mu (e : Event) : (emit e s).mu = s.mu := rfl
@[simp] theorem emit_prev (e : Event) : (emit e s).prev = s.prev := rfl
@[simp] theorem emit_dl (e : Event) : (emit e s).dl = s.dl := rfl
@[simp] theorem emit_wi (e : Event) : (emit e s).wi = s.wi := rfl
@[simp] theorem emit_corrW (e : Event) : (emit e s).corrW = s.corrW := rfl
@[simp] theorem emit_corrCnt (e : Event) : (emit e s).corrCnt = s.corrCnt := rfl
@[simp] theorem emit_slot0 (e : Event) : (emit e s).slot0 = s.slot0 := rfl
@[simp] theorem emit_slot1 (e : Event) : (emit e s).slot1 = s.slot1 := rfl
@[simp] theorem emit_scr (e : Event) : (emit e s).scr = s.scr := rfl
@[simp] theorem emit_events (e : Event) : (emit e s).events = s.events ++ eventWords e := rfl

/-! ## memWrite -/

@[simp] theorem memWrite_stream (b : Nat) (v : List Bool) : (memWrite b v s).stream = s.stream := rfl
@[simp] theorem memWrite_cc (b : Nat) (v : List Bool) : (memWrite b v s).cc = s.cc := rfl
@[simp] theorem memWrite_ctrl (b : Nat) (v : List Bool) : (memWrite b v s).ctrl = s.ctrl := rfl
@[simp] theorem memWrite_faultBufferFull (b : Nat) (v : List Bool) : (memWrite b v s).faultBufferFull = s.faultBufferFull := rfl
@[simp] theorem memWrite_faultIllegalCmd (b : Nat) (v : List Bool) : (memWrite b v s).faultIllegalCmd = s.faultIllegalCmd := rfl
@[simp] theorem memWrite_faultSlot (b : Nat) (v : List Bool) : (memWrite b v s).faultSlot = s.faultSlot := rfl
@[simp] theorem memWrite_syncPatLo (b : Nat) (v : List Bool) : (memWrite b v s).syncPatLo = s.syncPatLo := rfl
@[simp] theorem memWrite_syncPatHi (b : Nat) (v : List Bool) : (memWrite b v s).syncPatHi = s.syncPatHi := rfl
@[simp] theorem memWrite_syncLen (b : Nat) (v : List Bool) : (memWrite b v s).syncLen = s.syncLen := rfl
@[simp] theorem memWrite_statusInit (b : Nat) (v : List Bool) : (memWrite b v s).statusInit = s.statusInit := rfl
@[simp] theorem memWrite_fmax (b : Nat) (v : List Bool) : (memWrite b v s).fmax = s.fmax := rfl
@[simp] theorem memWrite_dropCnt (b : Nat) (v : List Bool) : (memWrite b v s).dropCnt = s.dropCnt := rfl
@[simp] theorem memWrite_fecResult (b : Nat) (v : List Bool) : (memWrite b v s).fecResult = s.fecResult := rfl
@[simp] theorem memWrite_duidMap (b : Nat) (v : List Bool) : (memWrite b v s).duidMap = s.duidMap := rfl
@[simp] theorem memWrite_phase (b : Nat) (v : List Bool) : (memWrite b v s).phase = s.phase := rfl
@[simp] theorem memWrite_freq (b : Nat) (v : List Bool) : (memWrite b v s).freq = s.freq := rfl
@[simp] theorem memWrite_omega (b : Nat) (v : List Bool) : (memWrite b v s).omega = s.omega := rfl
@[simp] theorem memWrite_mu (b : Nat) (v : List Bool) : (memWrite b v s).mu = s.mu := rfl
@[simp] theorem memWrite_prev (b : Nat) (v : List Bool) : (memWrite b v s).prev = s.prev := rfl
@[simp] theorem memWrite_dl (b : Nat) (v : List Bool) : (memWrite b v s).dl = s.dl := rfl
@[simp] theorem memWrite_wi (b : Nat) (v : List Bool) : (memWrite b v s).wi = s.wi := rfl
@[simp] theorem memWrite_corrW (b : Nat) (v : List Bool) : (memWrite b v s).corrW = s.corrW := rfl
@[simp] theorem memWrite_corrCnt (b : Nat) (v : List Bool) : (memWrite b v s).corrCnt = s.corrCnt := rfl
@[simp] theorem memWrite_slot0 (b : Nat) (v : List Bool) : (memWrite b v s).slot0 = s.slot0 := rfl
@[simp] theorem memWrite_slot1 (b : Nat) (v : List Bool) : (memWrite b v s).slot1 = s.slot1 := rfl
@[simp] theorem memWrite_scr (b : Nat) (v : List Bool) : (memWrite b v s).scr = scrWrite s.scr b v := rfl
@[simp] theorem memWrite_events (b : Nat) (v : List Bool) : (memWrite b v s).events = s.events := rfl

/-! ## advance -/

@[simp] theorem advance_stream (n : Nat) : (advance n s).stream = s.stream := rfl
@[simp] theorem advance_cc (n : Nat) : (advance n s).cc = s.cc + n := rfl
@[simp] theorem advance_ctrl (n : Nat) : (advance n s).ctrl = s.ctrl := rfl
@[simp] theorem advance_faultBufferFull (n : Nat) : (advance n s).faultBufferFull = s.faultBufferFull := rfl
@[simp] theorem advance_faultIllegalCmd (n : Nat) : (advance n s).faultIllegalCmd = s.faultIllegalCmd := rfl
@[simp] theorem advance_faultSlot (n : Nat) : (advance n s).faultSlot = s.faultSlot := rfl
@[simp] theorem advance_syncPatLo (n : Nat) : (advance n s).syncPatLo = s.syncPatLo := rfl
@[simp] theorem advance_syncPatHi (n : Nat) : (advance n s).syncPatHi = s.syncPatHi := rfl
@[simp] theorem advance_syncLen (n : Nat) : (advance n s).syncLen = s.syncLen := rfl
@[simp] theorem advance_statusInit (n : Nat) : (advance n s).statusInit = s.statusInit := rfl
@[simp] theorem advance_fmax (n : Nat) : (advance n s).fmax = s.fmax := rfl
@[simp] theorem advance_dropCnt (n : Nat) : (advance n s).dropCnt = s.dropCnt := rfl
@[simp] theorem advance_fecResult (n : Nat) : (advance n s).fecResult = s.fecResult := rfl
@[simp] theorem advance_duidMap (n : Nat) : (advance n s).duidMap = s.duidMap := rfl
@[simp] theorem advance_phase (n : Nat) : (advance n s).phase = s.phase := rfl
@[simp] theorem advance_freq (n : Nat) : (advance n s).freq = s.freq := rfl
@[simp] theorem advance_omega (n : Nat) : (advance n s).omega = s.omega := rfl
@[simp] theorem advance_mu (n : Nat) : (advance n s).mu = s.mu := rfl
@[simp] theorem advance_prev (n : Nat) : (advance n s).prev = s.prev := rfl
@[simp] theorem advance_dl (n : Nat) : (advance n s).dl = s.dl := rfl
@[simp] theorem advance_wi (n : Nat) : (advance n s).wi = s.wi := rfl
@[simp] theorem advance_corrW (n : Nat) : (advance n s).corrW = s.corrW := rfl
@[simp] theorem advance_corrCnt (n : Nat) : (advance n s).corrCnt = s.corrCnt := rfl
@[simp] theorem advance_slot0 (n : Nat) : (advance n s).slot0 = s.slot0 := rfl
@[simp] theorem advance_slot1 (n : Nat) : (advance n s).slot1 = s.slot1 := rfl
@[simp] theorem advance_scr (n : Nat) : (advance n s).scr = s.scr := rfl
@[simp] theorem advance_events (n : Nat) : (advance n s).events = s.events := rfl

/-! ## corrShift -/

@[simp] theorem corrShift_stream (b : Bool) : (corrShift b s).stream = s.stream := rfl
@[simp] theorem corrShift_cc (b : Bool) : (corrShift b s).cc = s.cc := rfl
@[simp] theorem corrShift_ctrl (b : Bool) : (corrShift b s).ctrl = s.ctrl := rfl
@[simp] theorem corrShift_faultBufferFull (b : Bool) : (corrShift b s).faultBufferFull = s.faultBufferFull := rfl
@[simp] theorem corrShift_faultIllegalCmd (b : Bool) : (corrShift b s).faultIllegalCmd = s.faultIllegalCmd := rfl
@[simp] theorem corrShift_faultSlot (b : Bool) : (corrShift b s).faultSlot = s.faultSlot := rfl
@[simp] theorem corrShift_syncPatLo (b : Bool) : (corrShift b s).syncPatLo = s.syncPatLo := rfl
@[simp] theorem corrShift_syncPatHi (b : Bool) : (corrShift b s).syncPatHi = s.syncPatHi := rfl
@[simp] theorem corrShift_syncLen (b : Bool) : (corrShift b s).syncLen = s.syncLen := rfl
@[simp] theorem corrShift_statusInit (b : Bool) : (corrShift b s).statusInit = s.statusInit := rfl
@[simp] theorem corrShift_fmax (b : Bool) : (corrShift b s).fmax = s.fmax := rfl
@[simp] theorem corrShift_dropCnt (b : Bool) : (corrShift b s).dropCnt = s.dropCnt := rfl
@[simp] theorem corrShift_fecResult (b : Bool) : (corrShift b s).fecResult = s.fecResult := rfl
@[simp] theorem corrShift_duidMap (b : Bool) : (corrShift b s).duidMap = s.duidMap := rfl
@[simp] theorem corrShift_phase (b : Bool) : (corrShift b s).phase = s.phase := rfl
@[simp] theorem corrShift_freq (b : Bool) : (corrShift b s).freq = s.freq := rfl
@[simp] theorem corrShift_omega (b : Bool) : (corrShift b s).omega = s.omega := rfl
@[simp] theorem corrShift_mu (b : Bool) : (corrShift b s).mu = s.mu := rfl
@[simp] theorem corrShift_prev (b : Bool) : (corrShift b s).prev = s.prev := rfl
@[simp] theorem corrShift_dl (b : Bool) : (corrShift b s).dl = s.dl := rfl
@[simp] theorem corrShift_wi (b : Bool) : (corrShift b s).wi = s.wi := rfl
@[simp] theorem corrShift_corrW (b : Bool) : (corrShift b s).corrW = (s.corrW <<< 1) ||| BitVec.ofNat 64 b.toNat := rfl
@[simp] theorem corrShift_corrCnt (b : Bool) : (corrShift b s).corrCnt = min (s.corrCnt + 1) Config.corrWidth := rfl
@[simp] theorem corrShift_slot0 (b : Bool) : (corrShift b s).slot0 = s.slot0 := rfl
@[simp] theorem corrShift_slot1 (b : Bool) : (corrShift b s).slot1 = s.slot1 := rfl
@[simp] theorem corrShift_scr (b : Bool) : (corrShift b s).scr = s.scr := rfl
@[simp] theorem corrShift_events (b : Bool) : (corrShift b s).events = s.events := rfl

/-! ## softReset -/

@[simp] theorem softReset_stream : (softReset s).stream = s.stream := rfl
@[simp] theorem softReset_cc : (softReset s).cc = s.cc := rfl
@[simp] theorem softReset_ctrl : (softReset s).ctrl = s.ctrl := rfl
@[simp] theorem softReset_faultBufferFull : (softReset s).faultBufferFull = s.faultBufferFull := rfl
@[simp] theorem softReset_faultIllegalCmd : (softReset s).faultIllegalCmd = s.faultIllegalCmd := rfl
@[simp] theorem softReset_faultSlot : (softReset s).faultSlot = s.faultSlot := rfl
@[simp] theorem softReset_syncPatLo : (softReset s).syncPatLo = s.syncPatLo := rfl
@[simp] theorem softReset_syncPatHi : (softReset s).syncPatHi = s.syncPatHi := rfl
@[simp] theorem softReset_syncLen : (softReset s).syncLen = s.syncLen := rfl
@[simp] theorem softReset_statusInit : (softReset s).statusInit = s.statusInit := rfl
@[simp] theorem softReset_fmax : (softReset s).fmax = s.fmax := rfl
@[simp] theorem softReset_dropCnt : (softReset s).dropCnt = 0#32 := rfl
@[simp] theorem softReset_fecResult : (softReset s).fecResult = s.fecResult := rfl
@[simp] theorem softReset_duidMap : (softReset s).duidMap = s.duidMap := rfl
@[simp] theorem softReset_phase : (softReset s).phase = F32.zero := rfl
@[simp] theorem softReset_freq : (softReset s).freq = F32.zero := rfl
@[simp] theorem softReset_omega : (softReset s).omega = F32.ofBits Config.omegaNom := rfl
@[simp] theorem softReset_mu : (softReset s).mu = F32.ofBits Config.omegaNom := rfl
@[simp] theorem softReset_prev : (softReset s).prev = Cplx.zero := rfl
@[simp] theorem softReset_dl : (softReset s).dl = Vector.replicate 32 Cplx.zero := rfl
@[simp] theorem softReset_wi : (softReset s).wi = 0 := rfl
@[simp] theorem softReset_corrW : (softReset s).corrW = 0#64 := rfl
@[simp] theorem softReset_corrCnt : (softReset s).corrCnt = 0 := rfl
@[simp] theorem softReset_slot0 : (softReset s).slot0 = idleSlot s.statusInit := rfl
@[simp] theorem softReset_slot1 : (softReset s).slot1 = idleSlot s.statusInit := rfl
@[simp] theorem softReset_scr : (softReset s).scr = s.scr := rfl
@[simp] theorem softReset_events : (softReset s).events = s.events := rfl

/-! ## setSticky for ILLEGAL_CMD -/

@[simp] theorem setSticky_illegalCmd_stream (opc : BitVec 8) : (setSticky (.illegalCmd opc) s).stream = s.stream := rfl
@[simp] theorem setSticky_illegalCmd_cc (opc : BitVec 8) : (setSticky (.illegalCmd opc) s).cc = s.cc := rfl
@[simp] theorem setSticky_illegalCmd_ctrl (opc : BitVec 8) : (setSticky (.illegalCmd opc) s).ctrl = s.ctrl := rfl
@[simp] theorem setSticky_illegalCmd_faultBufferFull (opc : BitVec 8) : (setSticky (.illegalCmd opc) s).faultBufferFull = s.faultBufferFull := rfl
@[simp] theorem setSticky_illegalCmd_faultIllegalCmd (opc : BitVec 8) : (setSticky (.illegalCmd opc) s).faultIllegalCmd = true := rfl
@[simp] theorem setSticky_illegalCmd_faultSlot (opc : BitVec 8) : (setSticky (.illegalCmd opc) s).faultSlot = s.faultSlot := rfl
@[simp] theorem setSticky_illegalCmd_syncPatLo (opc : BitVec 8) : (setSticky (.illegalCmd opc) s).syncPatLo = s.syncPatLo := rfl
@[simp] theorem setSticky_illegalCmd_syncPatHi (opc : BitVec 8) : (setSticky (.illegalCmd opc) s).syncPatHi = s.syncPatHi := rfl
@[simp] theorem setSticky_illegalCmd_syncLen (opc : BitVec 8) : (setSticky (.illegalCmd opc) s).syncLen = s.syncLen := rfl
@[simp] theorem setSticky_illegalCmd_statusInit (opc : BitVec 8) : (setSticky (.illegalCmd opc) s).statusInit = s.statusInit := rfl
@[simp] theorem setSticky_illegalCmd_fmax (opc : BitVec 8) : (setSticky (.illegalCmd opc) s).fmax = s.fmax := rfl
@[simp] theorem setSticky_illegalCmd_dropCnt (opc : BitVec 8) : (setSticky (.illegalCmd opc) s).dropCnt = s.dropCnt := rfl
@[simp] theorem setSticky_illegalCmd_fecResult (opc : BitVec 8) : (setSticky (.illegalCmd opc) s).fecResult = s.fecResult := rfl
@[simp] theorem setSticky_illegalCmd_duidMap (opc : BitVec 8) : (setSticky (.illegalCmd opc) s).duidMap = s.duidMap := rfl
@[simp] theorem setSticky_illegalCmd_phase (opc : BitVec 8) : (setSticky (.illegalCmd opc) s).phase = s.phase := rfl
@[simp] theorem setSticky_illegalCmd_freq (opc : BitVec 8) : (setSticky (.illegalCmd opc) s).freq = s.freq := rfl
@[simp] theorem setSticky_illegalCmd_omega (opc : BitVec 8) : (setSticky (.illegalCmd opc) s).omega = s.omega := rfl
@[simp] theorem setSticky_illegalCmd_mu (opc : BitVec 8) : (setSticky (.illegalCmd opc) s).mu = s.mu := rfl
@[simp] theorem setSticky_illegalCmd_prev (opc : BitVec 8) : (setSticky (.illegalCmd opc) s).prev = s.prev := rfl
@[simp] theorem setSticky_illegalCmd_dl (opc : BitVec 8) : (setSticky (.illegalCmd opc) s).dl = s.dl := rfl
@[simp] theorem setSticky_illegalCmd_wi (opc : BitVec 8) : (setSticky (.illegalCmd opc) s).wi = s.wi := rfl
@[simp] theorem setSticky_illegalCmd_corrW (opc : BitVec 8) : (setSticky (.illegalCmd opc) s).corrW = s.corrW := rfl
@[simp] theorem setSticky_illegalCmd_corrCnt (opc : BitVec 8) : (setSticky (.illegalCmd opc) s).corrCnt = s.corrCnt := rfl
@[simp] theorem setSticky_illegalCmd_slot0 (opc : BitVec 8) : (setSticky (.illegalCmd opc) s).slot0 = s.slot0 := rfl
@[simp] theorem setSticky_illegalCmd_slot1 (opc : BitVec 8) : (setSticky (.illegalCmd opc) s).slot1 = s.slot1 := rfl
@[simp] theorem setSticky_illegalCmd_scr (opc : BitVec 8) : (setSticky (.illegalCmd opc) s).scr = s.scr := rfl
@[simp] theorem setSticky_illegalCmd_events (opc : BitVec 8) : (setSticky (.illegalCmd opc) s).events = s.events := rfl

/-! ## setSticky for BUFFER_FULL -/

@[simp] theorem setSticky_bufferFull_stream (k : SlotId) : (setSticky (.bufferFull k) s).stream = s.stream := rfl
@[simp] theorem setSticky_bufferFull_cc (k : SlotId) : (setSticky (.bufferFull k) s).cc = s.cc := rfl
@[simp] theorem setSticky_bufferFull_ctrl (k : SlotId) : (setSticky (.bufferFull k) s).ctrl = s.ctrl := rfl
@[simp] theorem setSticky_bufferFull_faultBufferFull (k : SlotId) : (setSticky (.bufferFull k) s).faultBufferFull = true := rfl
@[simp] theorem setSticky_bufferFull_faultIllegalCmd (k : SlotId) : (setSticky (.bufferFull k) s).faultIllegalCmd = s.faultIllegalCmd := rfl
@[simp] theorem setSticky_bufferFull_faultSlot (k : SlotId) : (setSticky (.bufferFull k) s).faultSlot = k := rfl
@[simp] theorem setSticky_bufferFull_syncPatLo (k : SlotId) : (setSticky (.bufferFull k) s).syncPatLo = s.syncPatLo := rfl
@[simp] theorem setSticky_bufferFull_syncPatHi (k : SlotId) : (setSticky (.bufferFull k) s).syncPatHi = s.syncPatHi := rfl
@[simp] theorem setSticky_bufferFull_syncLen (k : SlotId) : (setSticky (.bufferFull k) s).syncLen = s.syncLen := rfl
@[simp] theorem setSticky_bufferFull_statusInit (k : SlotId) : (setSticky (.bufferFull k) s).statusInit = s.statusInit := rfl
@[simp] theorem setSticky_bufferFull_fmax (k : SlotId) : (setSticky (.bufferFull k) s).fmax = s.fmax := rfl
@[simp] theorem setSticky_bufferFull_dropCnt (k : SlotId) : (setSticky (.bufferFull k) s).dropCnt = s.dropCnt := rfl
@[simp] theorem setSticky_bufferFull_fecResult (k : SlotId) : (setSticky (.bufferFull k) s).fecResult = s.fecResult := rfl
@[simp] theorem setSticky_bufferFull_duidMap (k : SlotId) : (setSticky (.bufferFull k) s).duidMap = s.duidMap := rfl
@[simp] theorem setSticky_bufferFull_phase (k : SlotId) : (setSticky (.bufferFull k) s).phase = s.phase := rfl
@[simp] theorem setSticky_bufferFull_freq (k : SlotId) : (setSticky (.bufferFull k) s).freq = s.freq := rfl
@[simp] theorem setSticky_bufferFull_omega (k : SlotId) : (setSticky (.bufferFull k) s).omega = s.omega := rfl
@[simp] theorem setSticky_bufferFull_mu (k : SlotId) : (setSticky (.bufferFull k) s).mu = s.mu := rfl
@[simp] theorem setSticky_bufferFull_prev (k : SlotId) : (setSticky (.bufferFull k) s).prev = s.prev := rfl
@[simp] theorem setSticky_bufferFull_dl (k : SlotId) : (setSticky (.bufferFull k) s).dl = s.dl := rfl
@[simp] theorem setSticky_bufferFull_wi (k : SlotId) : (setSticky (.bufferFull k) s).wi = s.wi := rfl
@[simp] theorem setSticky_bufferFull_corrW (k : SlotId) : (setSticky (.bufferFull k) s).corrW = s.corrW := rfl
@[simp] theorem setSticky_bufferFull_corrCnt (k : SlotId) : (setSticky (.bufferFull k) s).corrCnt = s.corrCnt := rfl
@[simp] theorem setSticky_bufferFull_slot0 (k : SlotId) : (setSticky (.bufferFull k) s).slot0 = s.slot0 := rfl
@[simp] theorem setSticky_bufferFull_slot1 (k : SlotId) : (setSticky (.bufferFull k) s).slot1 = s.slot1 := rfl
@[simp] theorem setSticky_bufferFull_scr (k : SlotId) : (setSticky (.bufferFull k) s).scr = s.scr := rfl
@[simp] theorem setSticky_bufferFull_events (k : SlotId) : (setSticky (.bufferFull k) s).events = s.events := rfl

/-! ## fecDone -/

@[simp] theorem fecDone_stream (opc : BitVec 8) (ok : Bool) (nerr st : Nat) : (fecDone opc ok nerr st s).stream = s.stream := rfl
@[simp] theorem fecDone_cc (opc : BitVec 8) (ok : Bool) (nerr st : Nat) : (fecDone opc ok nerr st s).cc = s.cc := rfl
@[simp] theorem fecDone_ctrl (opc : BitVec 8) (ok : Bool) (nerr st : Nat) : (fecDone opc ok nerr st s).ctrl = s.ctrl := rfl
@[simp] theorem fecDone_faultBufferFull (opc : BitVec 8) (ok : Bool) (nerr st : Nat) : (fecDone opc ok nerr st s).faultBufferFull = s.faultBufferFull := rfl
@[simp] theorem fecDone_faultIllegalCmd (opc : BitVec 8) (ok : Bool) (nerr st : Nat) : (fecDone opc ok nerr st s).faultIllegalCmd = s.faultIllegalCmd := rfl
@[simp] theorem fecDone_faultSlot (opc : BitVec 8) (ok : Bool) (nerr st : Nat) : (fecDone opc ok nerr st s).faultSlot = s.faultSlot := rfl
@[simp] theorem fecDone_syncPatLo (opc : BitVec 8) (ok : Bool) (nerr st : Nat) : (fecDone opc ok nerr st s).syncPatLo = s.syncPatLo := rfl
@[simp] theorem fecDone_syncPatHi (opc : BitVec 8) (ok : Bool) (nerr st : Nat) : (fecDone opc ok nerr st s).syncPatHi = s.syncPatHi := rfl
@[simp] theorem fecDone_syncLen (opc : BitVec 8) (ok : Bool) (nerr st : Nat) : (fecDone opc ok nerr st s).syncLen = s.syncLen := rfl
@[simp] theorem fecDone_statusInit (opc : BitVec 8) (ok : Bool) (nerr st : Nat) : (fecDone opc ok nerr st s).statusInit = s.statusInit := rfl
@[simp] theorem fecDone_fmax (opc : BitVec 8) (ok : Bool) (nerr st : Nat) : (fecDone opc ok nerr st s).fmax = s.fmax := rfl
@[simp] theorem fecDone_dropCnt (opc : BitVec 8) (ok : Bool) (nerr st : Nat) : (fecDone opc ok nerr st s).dropCnt = s.dropCnt := rfl
@[simp] theorem fecDone_fecResult (opc : BitVec 8) (ok : Bool) (nerr st : Nat) : (fecDone opc ok nerr st s).fecResult = fecResultWord opc ok nerr st := rfl
@[simp] theorem fecDone_duidMap (opc : BitVec 8) (ok : Bool) (nerr st : Nat) : (fecDone opc ok nerr st s).duidMap = s.duidMap := rfl
@[simp] theorem fecDone_phase (opc : BitVec 8) (ok : Bool) (nerr st : Nat) : (fecDone opc ok nerr st s).phase = s.phase := rfl
@[simp] theorem fecDone_freq (opc : BitVec 8) (ok : Bool) (nerr st : Nat) : (fecDone opc ok nerr st s).freq = s.freq := rfl
@[simp] theorem fecDone_omega (opc : BitVec 8) (ok : Bool) (nerr st : Nat) : (fecDone opc ok nerr st s).omega = s.omega := rfl
@[simp] theorem fecDone_mu (opc : BitVec 8) (ok : Bool) (nerr st : Nat) : (fecDone opc ok nerr st s).mu = s.mu := rfl
@[simp] theorem fecDone_prev (opc : BitVec 8) (ok : Bool) (nerr st : Nat) : (fecDone opc ok nerr st s).prev = s.prev := rfl
@[simp] theorem fecDone_dl (opc : BitVec 8) (ok : Bool) (nerr st : Nat) : (fecDone opc ok nerr st s).dl = s.dl := rfl
@[simp] theorem fecDone_wi (opc : BitVec 8) (ok : Bool) (nerr st : Nat) : (fecDone opc ok nerr st s).wi = s.wi := rfl
@[simp] theorem fecDone_corrW (opc : BitVec 8) (ok : Bool) (nerr st : Nat) : (fecDone opc ok nerr st s).corrW = s.corrW := rfl
@[simp] theorem fecDone_corrCnt (opc : BitVec 8) (ok : Bool) (nerr st : Nat) : (fecDone opc ok nerr st s).corrCnt = s.corrCnt := rfl
@[simp] theorem fecDone_slot0 (opc : BitVec 8) (ok : Bool) (nerr st : Nat) : (fecDone opc ok nerr st s).slot0 = s.slot0 := rfl
@[simp] theorem fecDone_slot1 (opc : BitVec 8) (ok : Bool) (nerr st : Nat) : (fecDone opc ok nerr st s).slot1 = s.slot1 := rfl
@[simp] theorem fecDone_scr (opc : BitVec 8) (ok : Bool) (nerr st : Nat) : (fecDone opc ok nerr st s).scr = s.scr := rfl
@[simp] theorem fecDone_events (opc : BitVec 8) (ok : Bool) (nerr st : Nat) : (fecDone opc ok nerr st s).events = s.events ++ eventWords (.fecDone (fecResultWord opc ok nerr st)) := rfl

/-! ## sampleFront -/

@[simp] theorem sampleFront_stream (P : Config.Params) (x : Cplx) : (sampleFront P x s).stream = s.stream := rfl
@[simp] theorem sampleFront_cc (P : Config.Params) (x : Cplx) : (sampleFront P x s).cc = s.cc := rfl
@[simp] theorem sampleFront_ctrl (P : Config.Params) (x : Cplx) : (sampleFront P x s).ctrl = s.ctrl := rfl
@[simp] theorem sampleFront_faultBufferFull (P : Config.Params) (x : Cplx) : (sampleFront P x s).faultBufferFull = s.faultBufferFull := rfl
@[simp] theorem sampleFront_faultIllegalCmd (P : Config.Params) (x : Cplx) : (sampleFront P x s).faultIllegalCmd = s.faultIllegalCmd := rfl
@[simp] theorem sampleFront_faultSlot (P : Config.Params) (x : Cplx) : (sampleFront P x s).faultSlot = s.faultSlot := rfl
@[simp] theorem sampleFront_syncPatLo (P : Config.Params) (x : Cplx) : (sampleFront P x s).syncPatLo = s.syncPatLo := rfl
@[simp] theorem sampleFront_syncPatHi (P : Config.Params) (x : Cplx) : (sampleFront P x s).syncPatHi = s.syncPatHi := rfl
@[simp] theorem sampleFront_syncLen (P : Config.Params) (x : Cplx) : (sampleFront P x s).syncLen = s.syncLen := rfl
@[simp] theorem sampleFront_statusInit (P : Config.Params) (x : Cplx) : (sampleFront P x s).statusInit = s.statusInit := rfl
@[simp] theorem sampleFront_fmax (P : Config.Params) (x : Cplx) : (sampleFront P x s).fmax = s.fmax := rfl
@[simp] theorem sampleFront_dropCnt (P : Config.Params) (x : Cplx) : (sampleFront P x s).dropCnt = s.dropCnt := rfl
@[simp] theorem sampleFront_fecResult (P : Config.Params) (x : Cplx) : (sampleFront P x s).fecResult = s.fecResult := rfl
@[simp] theorem sampleFront_duidMap (P : Config.Params) (x : Cplx) : (sampleFront P x s).duidMap = s.duidMap := rfl
@[simp] theorem sampleFront_phase (P : Config.Params) (x : Cplx) : (sampleFront P x s).phase = wrap (F32.add s.phase s.freq) := rfl
@[simp] theorem sampleFront_freq (P : Config.Params) (x : Cplx) : (sampleFront P x s).freq = s.freq := rfl
@[simp] theorem sampleFront_omega (P : Config.Params) (x : Cplx) : (sampleFront P x s).omega = s.omega := rfl
@[simp] theorem sampleFront_mu (P : Config.Params) (x : Cplx) : (sampleFront P x s).mu = F32.sub s.mu (F32.ofBits Config.one) := rfl
@[simp] theorem sampleFront_prev (P : Config.Params) (x : Cplx) : (sampleFront P x s).prev = s.prev := rfl
@[simp] theorem sampleFront_dl (P : Config.Params) (x : Cplx) : (sampleFront P x s).dl = s.dl.set s.wi.val (mixSample P (wrap (F32.add s.phase s.freq)) x) s.wi.isLt := rfl
@[simp] theorem sampleFront_wi (P : Config.Params) (x : Cplx) : (sampleFront P x s).wi = s.wi + 1 := rfl
@[simp] theorem sampleFront_corrW (P : Config.Params) (x : Cplx) : (sampleFront P x s).corrW = s.corrW := rfl
@[simp] theorem sampleFront_corrCnt (P : Config.Params) (x : Cplx) : (sampleFront P x s).corrCnt = s.corrCnt := rfl
@[simp] theorem sampleFront_slot0 (P : Config.Params) (x : Cplx) : (sampleFront P x s).slot0 = s.slot0 := rfl
@[simp] theorem sampleFront_slot1 (P : Config.Params) (x : Cplx) : (sampleFront P x s).slot1 = s.slot1 := rfl
@[simp] theorem sampleFront_scr (P : Config.Params) (x : Cplx) : (sampleFront P x s).scr = s.scr := rfl
@[simp] theorem sampleFront_events (P : Config.Params) (x : Cplx) : (sampleFront P x s).events = s.events := rfl

/-! ## present -/

@[simp] theorem present_stream (ws : List Word) : (s.present ws).stream = s.stream ++ ws := rfl
@[simp] theorem present_cc (ws : List Word) : (s.present ws).cc = s.cc := rfl
@[simp] theorem present_ctrl (ws : List Word) : (s.present ws).ctrl = s.ctrl := rfl
@[simp] theorem present_faultBufferFull (ws : List Word) : (s.present ws).faultBufferFull = s.faultBufferFull := rfl
@[simp] theorem present_faultIllegalCmd (ws : List Word) : (s.present ws).faultIllegalCmd = s.faultIllegalCmd := rfl
@[simp] theorem present_faultSlot (ws : List Word) : (s.present ws).faultSlot = s.faultSlot := rfl
@[simp] theorem present_syncPatLo (ws : List Word) : (s.present ws).syncPatLo = s.syncPatLo := rfl
@[simp] theorem present_syncPatHi (ws : List Word) : (s.present ws).syncPatHi = s.syncPatHi := rfl
@[simp] theorem present_syncLen (ws : List Word) : (s.present ws).syncLen = s.syncLen := rfl
@[simp] theorem present_statusInit (ws : List Word) : (s.present ws).statusInit = s.statusInit := rfl
@[simp] theorem present_fmax (ws : List Word) : (s.present ws).fmax = s.fmax := rfl
@[simp] theorem present_dropCnt (ws : List Word) : (s.present ws).dropCnt = s.dropCnt := rfl
@[simp] theorem present_fecResult (ws : List Word) : (s.present ws).fecResult = s.fecResult := rfl
@[simp] theorem present_duidMap (ws : List Word) : (s.present ws).duidMap = s.duidMap := rfl
@[simp] theorem present_phase (ws : List Word) : (s.present ws).phase = s.phase := rfl
@[simp] theorem present_freq (ws : List Word) : (s.present ws).freq = s.freq := rfl
@[simp] theorem present_omega (ws : List Word) : (s.present ws).omega = s.omega := rfl
@[simp] theorem present_mu (ws : List Word) : (s.present ws).mu = s.mu := rfl
@[simp] theorem present_prev (ws : List Word) : (s.present ws).prev = s.prev := rfl
@[simp] theorem present_dl (ws : List Word) : (s.present ws).dl = s.dl := rfl
@[simp] theorem present_wi (ws : List Word) : (s.present ws).wi = s.wi := rfl
@[simp] theorem present_corrW (ws : List Word) : (s.present ws).corrW = s.corrW := rfl
@[simp] theorem present_corrCnt (ws : List Word) : (s.present ws).corrCnt = s.corrCnt := rfl
@[simp] theorem present_slot0 (ws : List Word) : (s.present ws).slot0 = s.slot0 := rfl
@[simp] theorem present_slot1 (ws : List Word) : (s.present ws).slot1 = s.slot1 := rfl
@[simp] theorem present_scr (ws : List Word) : (s.present ws).scr = s.scr := rfl
@[simp] theorem present_events (ws : List Word) : (s.present ws).events = s.events := rfl

end Sys2Proof.Machine
end

