-- ==== Sys2Proof/Laws/Ops.lean ====
section
/-! SUPPORT. The shared operations, each said once: the slots read back, and what an operation can
touch. -/

namespace Sys2Proof.Machine

/-! ## Reading slots back -/

@[simp] theorem slot_setSlot_same (k : SlotId) (v : Slot) (s : State) : (s.setSlot k v).slot k = v := by
  cases k <;> rfl

theorem slot_setSlot_other (j k : SlotId) (v : Slot) (s : State) (h : j ≠ k) :
    (s.setSlot k v).slot j = s.slot j := by
  cases j <;> cases k <;> first | rfl | exact absurd rfl h

@[simp] theorem setSlot_setSlot (k : SlotId) (v w : Slot) (s : State) :
    (s.setSlot k v).setSlot k w = s.setSlot k w := by
  cases k <;> rfl

@[simp] theorem setSlot_slot (k : SlotId) (s : State) : s.setSlot k (s.slot k) = s := by
  cases k <;> rfl

@[simp] theorem slot_emit (k : SlotId) (e : Event) (s : State) : (emit e s).slot k = s.slot k := by
  cases k <;> rfl

@[simp] theorem slot_s0 (s : State) : s.slot .s0 = s.slot0 := rfl
@[simp] theorem slot_s1 (s : State) : s.slot .s1 = s.slot1 := rfl

/-! ## The buffer primitives on a slot (20_memory R84 to R89) -/

@[simp] theorem resize_slot (k : SlotId) (c : Nat) (s : State) :
    (resize k c s).slot k = (s.slot k).resize c := slot_setSlot_same _ _ _

@[simp] theorem writeBuf_slot (k : SlotId) (i : Nat) (c : List Bool) (s : State) :
    (writeBuf k i c s).slot k = (s.slot k).write i c := slot_setSlot_same _ _ _

@[simp] theorem enterState_slot (k : SlotId) (c : StateCode) (s : State) :
    (enterState k c s).slot k = { s.slot k with state := c } := slot_setSlot_same _ _ _

@[simp] theorem complete_slot (k : SlotId) (s : State) :
    (complete k s).slot k = { s.slot k with complete := true } := slot_setSlot_same _ _ _

@[simp] theorem resetSlot_slot (k : SlotId) (s : State) :
    (resetSlot k s).slot k = idleSlot (s.slot k).ctr := slot_setSlot_same _ _ _

@[simp] theorem activate_slot (k : SlotId) (s : State) :
    (activate k s).slot k = { idleSlot s.statusInit with active := true } := slot_setSlot_same _ _ _

@[simp] theorem dispatch_slot (k j : SlotId) (crc : BitVec 2) (f : Bool) (s : State) :
    (dispatch k crc f s).slot j = s.slot j := by
  unfold dispatch
  split <;> simp

@[simp] theorem resize_len (v : Slot) (c : Nat) : (v.resize c).buf.length = min c v.buf.length := by
  simp [Slot.resize]

/-! ## touchesSlot: refl, trans, and the operations -/

theorem touchesSlot_refl (k : SlotId) (s : State) : touchesSlot k s s :=
  ⟨s.slot k, [], by cases k <;> simp [State.setSlot]⟩

theorem touchesSlot_trans {k : SlotId} {s t u : State} (h1 : touchesSlot k s t)
    (h2 : touchesSlot k t u) : touchesSlot k s u := by
  obtain ⟨v, ev, rfl⟩ := h1
  obtain ⟨w, ev', rfl⟩ := h2
  exact ⟨w, ev ++ ev', by cases k <;> simp [State.setSlot]⟩

theorem touchesSlot_setSlot {k : SlotId} {s t : State} (v : Slot) (h : touchesSlot k s t) :
    touchesSlot k s (t.setSlot k v) :=
  touchesSlot_trans h ⟨v, [], by cases k <;> simp [State.setSlot]⟩

theorem touchesSlot_emit {k : SlotId} {s t : State} (e : Event) (h : touchesSlot k s t) :
    touchesSlot k s (emit e t) :=
  touchesSlot_trans h ⟨t.slot k, eventWords e, by cases k <;> simp [State.setSlot, emit]⟩

theorem touchesSlot_resetSlot {k : SlotId} {s t : State} (h : touchesSlot k s t) :
    touchesSlot k s (resetSlot k t) := touchesSlot_setSlot _ h

theorem touchesSlot_resize {k : SlotId} {s t : State} (c : Nat) (h : touchesSlot k s t) :
    touchesSlot k s (resize k c t) := touchesSlot_setSlot _ h

theorem touchesSlot_writeBuf {k : SlotId} {s t : State} (i : Nat) (c : List Bool)
    (h : touchesSlot k s t) : touchesSlot k s (writeBuf k i c t) := touchesSlot_setSlot _ h

theorem touchesSlot_enterState {k : SlotId} {s t : State} (c : StateCode) (h : touchesSlot k s t) :
    touchesSlot k s (enterState k c t) := touchesSlot_setSlot _ h

theorem touchesSlot_complete {k : SlotId} {s t : State} (h : touchesSlot k s t) :
    touchesSlot k s (complete k t) := touchesSlot_setSlot _ h

theorem touchesSlot_dispatch {k : SlotId} {s t : State} (crc : BitVec 2) (f : Bool)
    (h : touchesSlot k s t) : touchesSlot k s (dispatch k crc f t) := by
  unfold dispatch
  split
  · exact touchesSlot_emit _ h
  · exact h

/-! ## touchesDibitPath: refl, trans, and the operations -/

theorem touchesDibitPath_refl (s : State) : touchesDibitPath s s :=
  ⟨s.faultBufferFull, s.faultSlot, s.dropCnt, s.corrW, s.corrCnt, s.slot0, s.slot1, [], by simp⟩

theorem touchesDibitPath_trans {s t u : State} (h1 : touchesDibitPath s t)
    (h2 : touchesDibitPath t u) : touchesDibitPath s u := by
  obtain ⟨bf, fs, dc, w, n, a, b, ev, rfl⟩ := h1
  obtain ⟨bf', fs', dc', w', n', a', b', ev', rfl⟩ := h2
  exact ⟨bf', fs', dc', w', n', a', b', ev ++ ev', by simp⟩

theorem touchesDibitPath_of_slot {k : SlotId} {s t : State} (h : touchesSlot k s t) :
    touchesDibitPath s t := by
  obtain ⟨v, ev, rfl⟩ := h
  exact ⟨_, _, _, _, _, _, _, ev, rfl⟩

theorem touchesDibitPath_bufferFull (k : SlotId) (s : State) :
    touchesDibitPath s (raiseFault (.bufferFull k) s) :=
  ⟨_, _, _, _, _, _, _, _, rfl⟩

/-! ## Registers -/

/-- What a register write can do: store one of the configuration registers, or nothing
(46_host_commands R433). -/
theorem writeReg_cases (r : RegName) (v : Word) (s : State) :
    writeReg r v s = s ∨ (∃ c, writeReg r v s = { s with ctrl := c }) ∨
    (∃ p, writeReg r v s = { s with syncPatLo := p }) ∨
    (∃ p, writeReg r v s = { s with syncPatHi := p }) ∨
    (∃ p, 1 ≤ p.toNat ∧ p.toNat ≤ 64 ∧ writeReg r v s = { s with syncLen := p }) ∨
    (∃ p, writeReg r v s = { s with statusInit := p }) ∨
    (∃ p, fmaxLegal p = true ∧ writeReg r v s = { s with fmax := p }) ∨
    (∃ m, writeReg r v s = { s with duidMap := m }) := by
  unfold writeReg
  split
  · exact .inr (.inl ⟨_, rfl⟩)
  · exact .inr (.inr (.inl ⟨_, rfl⟩))
  · exact .inr (.inr (.inr (.inl ⟨_, rfl⟩)))
  · split
    · next h => exact .inr (.inr (.inr (.inr (.inl ⟨_, h.1, h.2, rfl⟩))))
    · exact .inl rfl
  · split
    · exact .inr (.inr (.inr (.inr (.inr (.inl ⟨_, rfl⟩)))))
    · exact .inl rfl
  · split
    · next h => exact .inr (.inr (.inr (.inr (.inr (.inr (.inl ⟨_, h, rfl⟩))))))
    · exact .inl rfl
  · exact .inr (.inr (.inr (.inr (.inr (.inr (.inr ⟨_, rfl⟩))))))
  all_goals exact .inl rfl

end Sys2Proof.Machine
end

