-- ==== Sys2Proof/Laws/Handlers.lean ====
section
/-! SUPPORT. What a state handler can touch: its own slot and the event stream. -/

namespace Sys2Proof.Machine

open Config (Params)

theorem touchesSlot_dispatchRaw {k : SlotId} {s t : State} (f : Bool) (h : touchesSlot k s t) :
    touchesSlot k s (dispatchRaw k f t) :=
  touchesSlot_complete (touchesSlot_dispatch 0#2 f h)

theorem touchesSlot_blockDeint {k : SlotId} {s t : State} (P : Params) (start : Nat)
    (h : touchesSlot k s t) : touchesSlot k s (blockDeint P k start t) :=
  touchesSlot_writeBuf _ _ h

theorem touchesSlot_nidContinue {k : SlotId} {s t : State} (h : touchesSlot k s t) :
    touchesSlot k s (nidContinue k t) := by
  unfold nidContinue
  split
  · exact touchesSlot_complete h
  · exact touchesSlot_resize _ (touchesSlot_enterState _ h)

theorem touchesSlot_nid (k : SlotId) (s : State) : touchesSlot k s (handleNid k s) := by
  unfold handleNid
  dsimp only
  split
  · exact touchesSlot_nidContinue (touchesSlot_writeBuf _ _ (touchesSlot_refl k s))
  · exact touchesSlot_complete (touchesSlot_refl k s)

theorem touchesSlot_tsbkCrc {k : SlotId} {s t : State} (h : touchesSlot k s t) :
    touchesSlot k s (tsbkCrc k t).2 := by
  unfold tsbkCrc
  dsimp only
  split
  · dsimp only
    split
    · exact touchesSlot_writeBuf _ _ h
    · exact h
  · exact h

theorem touchesSlot_tsbkDispatch {k : SlotId} {s t : State} (next : Option StateCode)
    (crc : CrcOutcome) (h : touchesSlot k s t) :
    touchesSlot k s (tsbkDispatch k next crc t) := by
  unfold tsbkDispatch
  dsimp only
  have hd := touchesSlot_dispatch (recordCrc crc) true (touchesSlot_resize 160 h)
  split
  · exact touchesSlot_complete hd
  · split
    · exact touchesSlot_complete hd
    · exact touchesSlot_enterState _ (touchesSlot_resize _ (touchesSlot_resize _ hd))

theorem touchesSlot_tsbk (P : Params) (k : SlotId) (next : Option StateCode) (s : State) :
    touchesSlot k s (tsbkStage P k next s) := by
  unfold tsbkStage
  dsimp only
  have hb := touchesSlot_blockDeint P 64 (touchesSlot_refl k s)
  split
  · have hc := fun c => touchesSlot_tsbkCrc (touchesSlot_writeBuf 64 c hb)
    split
    · exact touchesSlot_complete (hc _)
    · exact touchesSlot_tsbkDispatch _ _ (hc _)
  · exact touchesSlot_complete hb

theorem touchesSlot_pdu0 (P : Params) (k : SlotId) (s : State) :
    touchesSlot k s (handlePdu0 P k s) := by
  unfold handlePdu0
  dsimp only
  have hb := touchesSlot_blockDeint P 64 (touchesSlot_refl k s)
  split
  · have hr := fun c => touchesSlot_resize 160 (touchesSlot_writeBuf 64 c hb)
    split
    · exact touchesSlot_dispatchRaw _ (hr _)
    · exact touchesSlot_resize _ (touchesSlot_enterState _ (hr _))
  · exact touchesSlot_complete hb

theorem touchesSlot_pduStage (P : Params) (k : SlotId) (start n : Nat) (next : StateCode) (s : State) :
    touchesSlot k s (pduStage P k start n next s) := by
  unfold pduStage
  dsimp only
  have hb := touchesSlot_blockDeint P start (touchesSlot_refl k s)
  split
  · have hr := fun c => touchesSlot_resize (start + 96) (touchesSlot_writeBuf start c hb)
    split
    · exact touchesSlot_dispatchRaw _ (hr _)
    · exact touchesSlot_resize _ (touchesSlot_enterState _ (hr _))
  · exact touchesSlot_complete hb

theorem touchesSlot_pdu3 (P : Params) (k : SlotId) (s : State) :
    touchesSlot k s (handlePdu3 P k s) :=
  touchesSlot_dispatchRaw _ (touchesSlot_resize 448
    (touchesSlot_writeBuf 352 _ (touchesSlot_blockDeint P 352 (touchesSlot_refl k s))))

theorem touchesSlot_pduc (P : Params) (k : SlotId) (s : State) :
    touchesSlot k s (handlePduc P k s) := by
  unfold handlePduc
  dsimp only
  have hb := touchesSlot_blockDeint P ((s.slot k).cap - 196) (touchesSlot_refl k s)
  split
  · have hr := fun c => touchesSlot_resize ((s.slot k).cap - 196 + 144)
      (touchesSlot_writeBuf ((s.slot k).cap - 196) c hb)
    split
    · exact touchesSlot_dispatchRaw _ (hr _)
    · exact touchesSlot_resize _ (hr _)
  · exact touchesSlot_dispatchRaw _ (touchesSlot_resize _ hb)

/-- SM_STEP(k) touches slot k and the event stream only. -/
theorem touchesSlot_smStep (P : Params) (k : SlotId) (s : State) : touchesSlot k s (smStep P k s) := by
  have hraw := touchesSlot_dispatchRaw true (touchesSlot_refl k s)
  unfold smStep
  split
  · exact touchesSlot_nid k s
  · exact hraw
  · exact hraw
  · exact hraw
  · exact hraw
  · exact hraw
  · exact touchesSlot_tsbk P k _ s
  · exact touchesSlot_tsbk P k _ s
  · exact touchesSlot_tsbk P k _ s
  · exact touchesSlot_pdu0 P k s
  · exact touchesSlot_pduStage P k 160 1 _ s
  · exact touchesSlot_pduStage P k 256 2 _ s
  · exact touchesSlot_pdu3 P k s
  · exact touchesSlot_pduc P k s
  · exact hraw

end Sys2Proof.Machine
end

