-- ==== Sys2Proof/Laws/Records.lean ====
section
/-! SUPPORT. What a dispatch emits (30_encoding R126), and the raw-bit handlers as one record update. -/

namespace Sys2Proof.Machine

open Config (Params)

theorem packWord_getMsbD (bs : List Bool) (h : bs.length ≤ 32) (j : Nat) (hj : j < 32) :
    (packWord bs).getMsbD j = bs.getD j false := by
  have hlt := natOfBits_lt bs
  simp only [packWord, BitVec.getMsbD, hj, decide_true, Bool.true_and, BitVec.getLsbD_ofNat,
    show 32 - 1 - j < 32 by omega]
  rw [Nat.testBit_mul_two_pow]
  by_cases hjl : j < bs.length
  · have hk := natOfBits_testBit bs (bs.length - 1 - j)
    have e : 32 - 1 - j - (32 - bs.length) = bs.length - 1 - j := by omega
    rw [e, hk]
    have e2 : bs.length - 1 - (bs.length - 1 - j) = j := by omega
    have e3 : bs.length - 1 - j < bs.length := by omega
    rw [e2]
    simp [show 32 - bs.length ≤ 31 - j by omega, e3]
  · have : ¬ (32 - bs.length ≤ 32 - 1 - j) := by omega
    simp [this, List.getD_eq_getElem?_getD, List.getElem?_eq_none (show bs.length ≤ j by omega)]

/-- Record bit 32w + j is bit 31 − j of payload word w (30_encoding R126). -/
theorem packWords_getMsbD (n : Nat) (bs : List Bool) (w j : Nat) (hw : w < n) (hj : j < 32) :
    ((packWords n bs).getD w 0#32).getMsbD j = bs.getD (32 * w + j) false := by
  induction n generalizing bs w with
  | zero => omega
  | succ n ih =>
    cases w with
    | zero =>
      simp only [packWords, List.getD_cons_zero]
      rw [packWord_getMsbD _ (by simp) _ hj]
      simp [List.getD_eq_getElem?_getD, hj]
    | succ w =>
      simp only [packWords, List.getD_cons_succ]
      rw [ih _ _ (by omega)]
      simp [List.getD_eq_getElem?_getD, List.getElem?_drop]
      congr 2
      omega

/-- The fields above LEN of a MSG header, as a sum. -/
theorem msgHeader_high (kind : BitVec 4) (c : BitVec 2) (f : Bool) (k : SlotId) :
    (0x01000000#32 ||| (kind.zeroExtend 32 <<< 20) ||| (c.zeroExtend 32 <<< 18) ||| flagAt f 17 |||
      (BitVec.ofNat 32 (slotNum k) <<< 16)).toNat =
    (0x0100 + kind.toNat * 16 + c.toNat * 4 + f.toNat * 2 + slotNum k) <<< 16 := by
  have h : ∀ (kind : Fin 16) (c : Fin 4) (f : Bool),
      (0x01000000#32 ||| (BitVec.ofNat 32 kind.val <<< 20) ||| (BitVec.ofNat 32 c.val <<< 18) |||
        flagAt f 17 ||| (BitVec.ofNat 32 (slotNum k) <<< 16)).toNat =
      (0x0100 + kind.val * 16 + c.val * 4 + f.toNat * 2 + slotNum k) <<< 16 := by
    cases k <;> decide +kernel
  simpa using h kind.toFin c.toFin f

/-- The MSG header word as the sum of its fields (30_encoding R126). -/
theorem msgHeader_eq (kind : StateCode) (crc : BitVec 2) (f : Bool) (k : SlotId) (n : Nat)
    (h : n < 65536) :
    msgHeader kind crc f k n = BitVec.ofNat 32 (0x01 * 2 ^ 24 + (stateNum kind).toNat * 2 ^ 20 +
      crc.toNat * 2 ^ 18 + f.toNat * 2 ^ 17 + slotNum k * 2 ^ 16 + n) := by
  apply BitVec.eq_of_toNat_eq
  unfold msgHeader
  rw [BitVec.toNat_or, msgHeader_high]
  have hn : (BitVec.zeroExtend 32 (BitVec.ofNat 16 n)).toNat = n := by
    rw [BitVec.zeroExtend, BitVec.toNat_setWidth, BitVec.toNat_ofNat]; omega
  rw [hn, ← Nat.shiftLeft_add_eq_or_of_lt (by omega), Nat.shiftLeft_eq, BitVec.toNat_ofNat]
  have h4 := (stateNum kind).isLt
  have h2 := crc.isLt
  have hs : slotNum k < 2 := by cases k <;> decide
  have hf : f.toNat < 2 := by cases f <;> decide
  omega

/-- The words of a MSG event are those of its record (30_encoding R126). -/
theorem eventWords_isRecord (kind : StateCode) (crc : BitVec 2) (f : Bool) (k : SlotId)
    (bits : List Bool) (h : bits.length < 65536) :
    isRecord (stateNum kind).toNat crc.toNat f k bits (eventWords (.msg kind crc f k bits)) := by
  refine ⟨?_, ?_, ?_⟩
  · simp [eventWords, recordWords]
    omega
  · simp only [eventWords, List.getD_cons_zero]
    rw [msgHeader_eq _ _ _ _ _ h]
  · intro w j hw hj
    simp only [eventWords, List.getD_cons_succ, recordWords]
    exact packWords_getMsbD _ _ _ _ hw hj

/-- DISPATCH: the record's words are appended when a listener is enabled (42_sync R262). -/
theorem dispatch_eq (k : SlotId) (crc : BitVec 2) (f : Bool) (s : State) :
    dispatch k crc f s = { s with
      events := s.events ++ if s.ctrl.getLsbD 1
        then eventWords (.msg (s.slot k).state crc f k (s.slot k).buf) else [] } := by
  unfold dispatch State.listenerEn emit
  split <;> simp

/-- All a raw-bit handler does (43_duid R274). -/
theorem dispatchRaw_eq (k : SlotId) (f : Bool) (s : State) :
    dispatchRaw k f s = { s.setSlot k { s.slot k with complete := true } with
      events := s.events ++ if s.ctrl.getLsbD 1
        then eventWords (.msg (s.slot k).state 0#2 f k (s.slot k).buf) else [] } := by
  unfold dispatchRaw complete
  rw [dispatch_slot, dispatch_eq]
  cases k <;> rfl

theorem smStep_raw (P : Params) (k : SlotId) (s : State)
    (h : (s.slot k).state ∈ [StateCode.hdu, .ldu1, .ldu2, .tdu, .tdulc, .unknown]) :
    smStep P k s = dispatchRaw k true s := by
  unfold smStep
  revert h
  cases (s.slot k).state <;> simp

end Sys2Proof.Machine
end

