-- ==== Sys2Proof/Laws/Blocks.lean ====
section
/-! SUPPORT. The buffer primitives on a slot whose buffer holds the range they work on, and what a block
decode leaves in the buffer (20_memory R86 to R89, 43_duid R284). -/

namespace Sys2Proof.Machine

open Config (Params)

theorem overwriteBits_eq (buf : List Bool) (i : Nat) (c : List Bool) (h : i + c.length ≤ buf.length) :
    overwriteBits buf i c = buf.take i ++ c ++ buf.drop (i + c.length) := by
  unfold overwriteBits
  rw [List.take_of_length_le]
  simp
  omega

/-- GETINT over consecutive indices (20_memory R86). -/
theorem bufInt_eq (buf : List Bool) (i n : Nat) (l : List Nat)
    (hl : l = (List.range n).map (i + ·)) (h : i + n ≤ buf.length) :
    bufInt buf l = natOfBits ((buf.drop i).take n) := by
  subst hl
  rw [← bufRange_eq _ _ _ h]
  simp [bufInt, bufRange, Function.comp_def]

/-- The deinterleaved block of a buffer that holds its 196 bits (43_duid R284). -/
theorem blockOf_eq (P : Params) (k : SlotId) (start : Nat) (s : State)
    (h : start + 196 ≤ (s.slot k).buf.length) :
    blockOf P k start s =
      fun i => (s.slot k).buf.getD (start + (P.perm196 i).val) false := by
  funext i
  have hi := (P.perm196 i).isLt
  simp only [blockOf, deint, bufBlock]
  rw [bufBit_eq _ _ (by omega), List.getD_eq_getElem?_getD, List.getElem?_eq_getElem (by omega)]
  rfl

theorem writeBuf_eq (k : SlotId) (i : Nat) (c : List Bool) (s : State)
    (h : i + c.length ≤ (s.slot k).buf.length) :
    writeBuf k i c s = s.setSlot k { s.slot k with
      buf := (s.slot k).buf.take i ++ c ++ (s.slot k).buf.drop (i + c.length) } := by
  simp [writeBuf, Slot.write, overwriteBits_eq _ _ _ h]

theorem resize_eq (k : SlotId) (c : Nat) (s : State) :
    resize k c s = s.setSlot k { s.slot k with cap := c, buf := (s.slot k).buf.take c } := rfl

theorem blockDeint_eq (P : Params) (k : SlotId) (start : Nat) (s : State)
    (h : (s.slot k).buf.length = start + 196) :
    blockDeint P k start s = s.setSlot k { s.slot k with
      buf := (s.slot k).buf.take start ++ blockBits (blockOf P k start s) } := by
  unfold blockDeint
  rw [writeBuf_eq _ _ _ _ (by simp; omega)]
  congr 2
  simp [h]

/-- The buffer after a block was deinterleaved in place and `d` decoded bits were written at its start. -/
theorem writeBuf_blockDeint (P : Params) (k : SlotId) (start : Nat) (s : State) (d : List Bool)
    (hd : d.length ≤ 196) (h : (s.slot k).buf.length = start + 196) :
    writeBuf k start d (blockDeint P k start s) = s.setSlot k { s.slot k with
      buf := (s.slot k).buf.take start ++ d ++ (blockBits (blockOf P k start s)).drop d.length } := by
  rw [blockDeint_eq _ _ _ _ h, writeBuf_eq _ _ _ _ (by simp; omega), setSlot_setSlot,
    slot_setSlot_same]
  congr 2
  simp [List.drop_append, h]

/-- The same, then truncated to the decoded bits. -/
theorem resize_writeBuf_blockDeint (P : Params) (k : SlotId) (start : Nat) (s : State) (d : List Bool)
    (hd : d.length ≤ 196) (h : (s.slot k).buf.length = start + 196) :
    resize k (start + d.length) (writeBuf k start d (blockDeint P k start s)) =
      s.setSlot k { s.slot k with
        cap := start + d.length, buf := (s.slot k).buf.take start ++ d } := by
  rw [writeBuf_blockDeint _ _ _ _ _ hd h, resize_eq, setSlot_setSlot, slot_setSlot_same]
  dsimp only
  rw [List.take_left' (by simp; omega)]

/-- CRC_CORRECT returns a string of the length it got, changed only when it answers "corrected"
(45_fec R392). -/
theorem crcCorrect_length (b : List Bool) : (crcCorrect b).2.length = b.length := by
  unfold crcCorrect
  split
  · rfl
  · split <;> simp

theorem crcCorrect_same (b : List Bool) (h : (crcCorrect b).1 ≠ .corrected) :
    (crcCorrect b).2 = b := by
  revert h
  unfold crcCorrect
  split
  · simp
  · split <;> simp

end Sys2Proof.Machine
end

