-- ==== Sys2Proof/Laws/DibitPath.lean ====
section
/-! SUPPORT. What a dibit can touch: the correlator, the slots, DROP_CNT, the BUFFER_FULL bits and the
event stream. -/

namespace Sys2Proof.Machine

open Config (Params)

theorem touchesDibitPath_setSlot (k : SlotId) (v : Slot) (s : State) :
    touchesDibitPath s (s.setSlot k v) := touchesDibitPath_of_slot (touchesSlot_setSlot v (touchesSlot_refl k s))

theorem touchesDibitPath_append (k : SlotId) (b : Bool) (s : State) :
    touchesDibitPath s (append k b s).1 := by
  unfold append
  split
  · exact touchesDibitPath_bufferFull _ _
  · exact touchesDibitPath_setSlot _ _ _

theorem touchesDibitPath_appendDibit (k : SlotId) (d : Dibit) (s : State) :
    touchesDibitPath s (appendDibit k d s).1 := by
  unfold appendDibit
  split
  · exact touchesDibitPath_trans (touchesDibitPath_append k _ s) (touchesDibitPath_append k _ _)
  · exact touchesDibitPath_append _ _ _

theorem touchesDibitPath_asmReceive (k : SlotId) (d : Dibit) (s : State) :
    touchesDibitPath s (asmReceive k d s).1 := by
  unfold asmReceive
  split
  · exact touchesDibitPath_setSlot _ _ _
  · exact touchesDibitPath_trans (touchesDibitPath_setSlot k _ s) (touchesDibitPath_appendDibit k d _)

theorem touchesSlot_fullCheck (P : Params) (k : SlotId) (n : Nat) (s : State) :
    touchesSlot k s (fullCheck P k n s) := by
  induction n generalizing s with
  | zero => exact touchesSlot_refl _ _
  | succ n ih =>
    unfold fullCheck
    split
    · split
      · exact touchesSlot_resetSlot (touchesSlot_smStep P k s)
      · exact touchesSlot_trans (touchesSlot_smStep P k s) (ih _)
    · exact touchesSlot_refl _ _

theorem touchesDibitPath_asmSlot (P : Params) (k : SlotId) (d : Dibit) (s : State) :
    touchesDibitPath s (asmSlot P k d s) := by
  unfold asmSlot
  split
  · split
    · exact touchesDibitPath_trans (touchesDibitPath_asmReceive k d s)
        (touchesDibitPath_of_slot (touchesSlot_fullCheck P k 3 _))
    · exact touchesDibitPath_asmReceive _ _ _
  · exact touchesDibitPath_refl _

theorem touchesDibitPath_detect (s : State) : touchesDibitPath s (detect s) := by
  unfold detect
  split
  · exact touchesDibitPath_setSlot _ _ _
  · split
    · exact touchesDibitPath_setSlot _ _ _
    · exact ⟨_, _, _, _, _, _, _, _, rfl⟩

theorem touchesDibitPath_corrShift (b : Bool) (s : State) : touchesDibitPath s (corrShift b s) :=
  ⟨s.faultBufferFull, s.faultSlot, s.dropCnt, (corrShift b s).corrW, (corrShift b s).corrCnt,
    s.slot0, s.slot1, [], by simp [corrShift]⟩

theorem touchesDibitPath_corrBit (b : Bool) (s : State) : touchesDibitPath s (corrBit b s) := by
  unfold corrBit
  split
  · exact touchesDibitPath_trans (touchesDibitPath_corrShift b s) (touchesDibitPath_detect _)
  · exact touchesDibitPath_corrShift _ _

/-- DIBIT_STEP touches the dibit path only (42_sync R240). -/
theorem touchesDibitPath_dibitStep (P : Params) (d : Dibit) (s : State) :
    touchesDibitPath s (dibitStep P d s) :=
  touchesDibitPath_trans (touchesDibitPath_asmSlot P .s0 d s)
    (touchesDibitPath_trans (touchesDibitPath_asmSlot P .s1 d _)
      (touchesDibitPath_trans (touchesDibitPath_corrBit _ _) (touchesDibitPath_corrBit _ _)))

theorem touchesDibitPath_dibitsStep (P : Params) (ds : List Dibit) (s : State) :
    touchesDibitPath s (dibitsStep P ds s) := by
  induction ds generalizing s with
  | nil => exact touchesDibitPath_refl _
  | cons d ds ih => exact touchesDibitPath_trans (touchesDibitPath_dibitStep P d s) (ih _)

/-- The slicer's output path touches the dibit path only (41_slicer R206). -/
theorem touchesDibitPath_dibitIn (P : Params) (d : Dibit) (s : State) :
    touchesDibitPath s (dibitIn P d s) := by
  unfold dibitIn
  refine touchesDibitPath_trans ?_ (touchesDibitPath_dibitStep P _ _)
  split
  · exact touchesDibitPath_of_slot (touchesSlot_emit _ (touchesSlot_refl .s0 s))
  · exact touchesDibitPath_refl _

/-! ## The correlator's state after a dibit -/

@[simp] theorem detect_corrW (s : State) : (detect s).corrW = s.corrW := by
  unfold detect
  split
  · rfl
  · split <;> rfl

@[simp] theorem detect_corrCnt (s : State) : (detect s).corrCnt = s.corrCnt := by
  unfold detect
  split
  · rfl
  · split <;> rfl

@[simp] theorem corrBit_corrW (b : Bool) (s : State) : (corrBit b s).corrW = (corrShift b s).corrW := by
  unfold corrBit
  split <;> simp

@[simp] theorem corrBit_corrCnt (b : Bool) (s : State) :
    (corrBit b s).corrCnt = (corrShift b s).corrCnt := by
  unfold corrBit
  split <;> simp

/-! ## What one dibit does to one slot (42_sync R230, R240) -/

/-- The second slot is not touched by the first one's dibit. -/
theorem asmSlot_other (P : Params) (j k : SlotId) (d : Dibit) (s : State) (h : k ≠ j) :
    (asmSlot P j d s).slot k = s.slot k := by
  have hs : ∀ {s t : State}, touchesSlot j s t → t.slot k = s.slot k := by
    rintro s t ⟨v, ev, rfl⟩
    have := slot_setSlot_other k j v s h
    cases k <;> simpa using this
  have happ : ∀ (b : Bool) (s : State), (append j b s).1.slot k = s.slot k := by
    intro b s
    unfold append
    split
    · simp only [raiseFault, resetSlot]
      rw [slot_setSlot_other _ _ _ _ h]
      cases k <;> rfl
    · exact slot_setSlot_other _ _ _ _ h
  have hrec : (asmReceive j d s).1.slot k = s.slot k := by
    unfold asmReceive appendDibit setCtr
    split
    · exact slot_setSlot_other _ _ _ _ h
    · split
      · rw [happ, happ]
        exact slot_setSlot_other _ _ _ _ h
      · rw [happ]
        exact slot_setSlot_other _ _ _ _ h
  unfold asmSlot
  split
  · split
    · rw [hs (touchesSlot_fullCheck _ _ _ _)]
      exact hrec
    · exact hrec
  · rfl

theorem asmReceive_skip (k : SlotId) (d : Dibit) (s : State) (h : (s.slot k).ctr = 35) :
    asmReceive k d s = (s.setSlot k { s.slot k with ctr := 0 }, true) := by
  simp [asmReceive, h, setCtr]

theorem asmReceive_store (k : SlotId) (d : Dibit) (s : State) (h : (s.slot k).ctr ≠ 35)
    (hl : (s.slot k).len + 2 ≤ (s.slot k).cap) :
    asmReceive k d s = (s.setSlot k { s.slot k with
      ctr := (s.slot k).ctr + 1, buf := (s.slot k).buf ++ [dibitB1 d, dibitB2 d] }, true) := by
  simp only [Slot.len] at hl
  have h1 : ¬ (s.slot k).buf.length = (s.slot k).cap := by omega
  have h2 : ¬ (s.slot k).buf.length + 1 = (s.slot k).cap := by omega
  simp only [asmReceive, h, if_false, appendDibit, setCtr, append, slot_setSlot_same, Slot.len]
  simp [h1, h2]

/-- The first bit of the dibit finds the buffer full (60_exceptions R471). -/
theorem asmReceive_full_first (k : SlotId) (d : Dibit) (s : State) (h : (s.slot k).ctr ≠ 35)
    (hl : (s.slot k).len = (s.slot k).cap) :
    asmReceive k d s = (raiseFault (.bufferFull k)
      (s.setSlot k { s.slot k with ctr := (s.slot k).ctr + 1 }), false) := by
  simp only [Slot.len] at hl
  simp [asmReceive, h, appendDibit, setCtr, append, Slot.len, hl]

/-- The second bit of the dibit finds the buffer full (60_exceptions R471). -/
theorem asmReceive_full_second (k : SlotId) (d : Dibit) (s : State) (h : (s.slot k).ctr ≠ 35)
    (hl : (s.slot k).len + 1 = (s.slot k).cap) :
    asmReceive k d s = (raiseFault (.bufferFull k) (s.setSlot k { s.slot k with
      ctr := (s.slot k).ctr + 1, buf := (s.slot k).buf ++ [dibitB1 d] }), false) := by
  simp only [Slot.len] at hl
  have h1 : ¬ (s.slot k).buf.length = (s.slot k).cap := by omega
  simp [asmReceive, h, appendDibit, setCtr, append, Slot.len, h1, hl]

theorem detect_slot (k : SlotId) (s : State) :
    ((s.slot k).active = true → (detect s).slot k = s.slot k) ∧
    ((detect s).slot k = s.slot k ∨
      (detect s).slot k = ⟨true, false, .nid, [], 64, s.statusInit⟩) := by
  unfold detect
  split
  · rename_i h
    cases k
    · exact ⟨fun h' => by simp [h] at h', .inr rfl⟩
    · exact ⟨fun _ => rfl, .inl rfl⟩
  · split
    · rename_i h
      cases k
      · exact ⟨fun _ => rfl, .inl rfl⟩
      · exact ⟨fun h' => by simp [h] at h', .inr rfl⟩
    · cases k <;> exact ⟨fun _ => rfl, .inl rfl⟩

/-- A correlator bit leaves an active slot alone, and can only activate an inactive one
(42_sync R232, R234). -/
theorem corrBit_slot (k : SlotId) (b : Bool) (s : State) :
    ((s.slot k).active = true → (corrBit b s).slot k = s.slot k) ∧
    ((corrBit b s).slot k = s.slot k ∨
      (corrBit b s).slot k = ⟨true, false, .nid, [], 64, s.statusInit⟩) ∧
    (corrBit b s).statusInit = s.statusInit := by
  have hc : ∀ (b : Bool) (s : State), (corrShift b s).slot k = s.slot k := by
    intros
    cases k <;> rfl
  unfold corrBit
  split
  · obtain ⟨h1, h2⟩ := detect_slot k (corrShift b s)
    rw [hc] at h1 h2
    refine ⟨h1, h2, ?_⟩
    unfold detect
    split
    · rfl
    · split <;> rfl
  · exact ⟨fun _ => hc _ _, .inl (hc _ _), rfl⟩

/-! ## MATCH, bit by bit (42_sync R222) -/

theorem mod_two_pow_eq_iff (a b n : Nat) :
    a % 2 ^ n = b % 2 ^ n ↔ ∀ i, i < n → a.testBit i = b.testBit i := by
  constructor
  · intro h i hi
    have := congrArg (fun x => Nat.testBit x i) h
    simpa [Nat.testBit_mod_two_pow, hi] using this
  · intro h
    apply Nat.eq_of_testBit_eq
    intro j
    rw [Nat.testBit_mod_two_pow, Nat.testBit_mod_two_pow]
    by_cases hj : j < n
    · simp [hj, h j hj]
    · simp [hj]

theorem syncMatch_iff (s : State) :
    s.syncMatch = true ↔ s.syncLen.toNat ≤ s.corrCnt ∧ ∀ i, i < s.syncLen.toNat →
      s.corrW.getLsbD i =
        if i < 32 then s.syncPatLo.getLsbD i else s.syncPatHi.getLsbD (i - 32) := by
  have hp : ∀ i, s.syncPat.getLsbD i =
      if i < 32 then s.syncPatLo.getLsbD i else s.syncPatHi.getLsbD (i - 32) := by
    intro i
    rw [State.syncPat]
    exact BitVec.getLsbD_append
  simp only [State.syncMatch, Bool.and_eq_true, decide_eq_true_eq, mod_two_pow_eq_iff, ← hp]
  exact Iff.rfl

end Sys2Proof.Machine
end

