-- ==== Sys2Proof/Laws/Float.lean ====
section
/-! SUPPORT. Order and rounding of binary32 (00_scope R12): rounding is monotone and leaves representable
values as they are, so a sum or product bounded by a representable value stays bounded after rounding. -/

namespace Sys2Proof

/-! ## The rounded quotient -/

theorem F32.nearestEven_mono (a b d : Nat) (h : a ≤ b) : F32.nearestEven a d ≤ F32.nearestEven b d := by
  rcases Nat.eq_zero_or_pos d with rfl | hd
  · simp [F32.nearestEven]
    split <;> split <;> omega
  · have hq : a / d ≤ b / d := Nat.div_le_div_right h
    rcases Nat.lt_or_ge (a / d) (b / d) with hlt | hge
    · unfold F32.nearestEven
      split <;> split <;> omega
    · have he : a / d = b / d := by omega
      have h1 := Nat.div_add_mod a d
      have h2 := Nat.div_add_mod b d
      rw [he] at h1
      have hm : a % d ≤ b % d := by omega
      unfold F32.nearestEven
      rw [he]
      split <;> split <;> omega

theorem F32.nearestEven_scale (a d k : Nat) (hk : 0 < k) :
    F32.nearestEven (a * k) (d * k) = F32.nearestEven a d := by
  unfold F32.nearestEven
  rw [Nat.mul_div_mul_right _ _ hk, Nat.mul_mod_mul_right]
  have e1 : d * k < 2 * (a % d * k) ↔ d < 2 * (a % d) := by
    rw [← Nat.mul_assoc]
    exact Nat.mul_lt_mul_right hk
  have e2 : 2 * (a % d * k) = d * k ↔ 2 * (a % d) = d := by
    rw [← Nat.mul_assoc]
    exact Nat.mul_left_inj (by omega)
  simp only [e1, e2]

/-- An exact quotient is not changed by rounding. -/
theorem F32.nearestEven_exact (q d : Nat) (hd : 0 < d) : F32.nearestEven (q * d) d = q := by
  unfold F32.nearestEven
  rw [Nat.mul_div_cancel _ hd, Nat.mul_mod_left]
  split <;> omega

theorem F32.nearestEven_le (a d n : Nat) (hd : 0 < d) (h : a ≤ n * d) : F32.nearestEven a d ≤ n := by
  have := F32.nearestEven_mono _ _ d h
  rwa [F32.nearestEven_exact _ _ hd] at this

theorem F32.le_nearestEven (a d n : Nat) (hd : 0 < d) (h : n * d ≤ a) : n ≤ F32.nearestEven a d := by
  have := F32.nearestEven_mono _ _ d h
  rwa [F32.nearestEven_exact _ _ hd] at this

/-! ## The pattern of a rounded magnitude -/

/-- The magnitude pattern `F32.round` gives. -/
def F32.roundPattern (num den : Nat) : Nat :=
  F32.roundShift (num / den) * 2 ^ 23 +
    F32.nearestEven num (den * 2 ^ F32.roundShift (num / den))

theorem F32.round_eq (neg : Bool) (num den : Nat) :
    F32.round neg num den = F32.ofMag neg (F32.roundPattern num den) := rfl

theorem F32.roundShift_mono (a b : Nat) (h : a ≤ b) : F32.roundShift a ≤ F32.roundShift b := by
  unfold F32.roundShift
  have : Nat.log2 a ≤ Nat.log2 b := by
    rw [Nat.log2_eq_log_two, Nat.log2_eq_log_two]
    exact Nat.log_mono_right h
  omega

theorem F32.lt_roundShift (n : Nat) : n < 2 ^ (F32.roundShift n + 24) := by
  have h : n < 2 ^ (Nat.log2 n + 1) := Nat.lt_log2_self
  refine Nat.lt_of_lt_of_le h (Nat.pow_le_pow_right (by decide) ?_)
  unfold F32.roundShift
  omega

theorem F32.roundShift_le (n : Nat) (h : 0 < F32.roundShift n) : 2 ^ (F32.roundShift n + 23) ≤ n := by
  unfold F32.roundShift at *
  have hn : n ≠ 0 := by
    rintro rfl
    simp at h
  have := Nat.log2_self_le hn
  rwa [show Nat.log2 n - 23 + 23 = Nat.log2 n by omega]

/-- Rounding is monotone in the magnitude. -/
theorem F32.roundPattern_mono (a b den : Nat) (hd : 0 < den) (h : a ≤ b) :
    F32.roundPattern a den ≤ F32.roundPattern b den := by
  unfold F32.roundPattern
  have hs := F32.roundShift_mono _ _ (Nat.div_le_div_right (c := den) h)
  generalize hsa : F32.roundShift (a / den) = s at *
  generalize hsb : F32.roundShift (b / den) = t at *
  rcases Nat.lt_or_ge s t with hlt | hge
  · have h1 : F32.nearestEven a (den * 2 ^ s) ≤ 2 ^ 24 := by
      apply F32.nearestEven_le _ _ _ (by positivity)
      have h2 := F32.lt_roundShift (a / den)
      rw [hsa] at h2
      have h3 := (Nat.div_lt_iff_lt_mul hd).1 h2
      have h4 : 2 ^ (s + 24) * den = 2 ^ 24 * (den * 2 ^ s) := by ring
      omega
    have h2 : 2 ^ 23 ≤ F32.nearestEven b (den * 2 ^ t) := by
      apply F32.le_nearestEven _ _ _ (by positivity)
      have h2 := F32.roundShift_le (b / den) (by omega)
      rw [hsb] at h2
      have h3 := (Nat.le_div_iff_mul_le hd).1 h2
      have h4 : 2 ^ (t + 23) * den = 2 ^ 23 * (den * 2 ^ t) := by ring
      omega
    have h3 : (s + 1) * 2 ^ 23 ≤ t * 2 ^ 23 := Nat.mul_le_mul_right _ hlt
    omega
  · have : s = t := by omega
    rw [this]
    have := F32.nearestEven_mono a b (den * 2 ^ t) h
    omega

theorem F32.roundPattern_scale (a den k : Nat) (hk : 0 < k) :
    F32.roundPattern (a * k) (den * k) = F32.roundPattern a den := by
  unfold F32.roundPattern
  rw [Nat.mul_div_mul_right _ _ hk, Nat.mul_right_comm, F32.nearestEven_scale _ _ _ hk]

/-- A representable magnitude is its own pattern. -/
theorem F32.roundPattern_units (e : Fin 255) (m : BitVec 23) :
    F32.roundPattern (F32.units e m) 1 = e.val * 2 ^ 23 + m.toNat := by
  have hm := m.isLt
  have hlog : ∀ n k : Nat, 2 ^ k ≤ n → n < 2 ^ (k + 1) → Nat.log2 n = k := by
    intro n k h1 h2
    rw [Nat.log2_eq_log_two]
    have h3 : 1 ≤ 2 ^ k := Nat.one_le_two_pow
    exact (Nat.log_eq_iff (.inr ⟨by decide, by omega⟩)).2 ⟨h1, h2⟩
  unfold F32.roundPattern F32.units
  split
  · rename_i he
    have h0 : F32.roundShift (m.toNat / 1) = 0 := by
      unfold F32.roundShift
      have := F32.lt_roundShift m.toNat
      rw [Nat.div_one]
      by_cases hz : m.toNat = 0
      · simp [hz]
      · have h2 := Nat.log2_self_le hz
        have h3 : Nat.log2 m.toNat < 23 := by
          by_contra h
          have := Nat.pow_le_pow_right (show 0 < 2 by decide) (show 23 ≤ Nat.log2 m.toNat by omega)
          omega
        omega
    rw [h0]
    have := F32.nearestEven_exact m.toNat 1 (by decide)
    simp only [Nat.mul_one] at this
    simp [he, this]
  · rename_i he
    have hl : Nat.log2 ((2 ^ 23 + m.toNat) * 2 ^ (e.val - 1)) = e.val - 1 + 23 := by
      apply hlog
      · rw [Nat.pow_add, Nat.mul_comm]
        exact Nat.mul_le_mul_right _ (by omega)
      · rw [show e.val - 1 + 23 + 1 = 24 + (e.val - 1) by omega, Nat.pow_add]
        exact Nat.mul_lt_mul_of_pos_right (by omega) (by positivity)
    have hs : F32.roundShift ((2 ^ 23 + m.toNat) * 2 ^ (e.val - 1) / 1) = e.val - 1 := by
      unfold F32.roundShift
      rw [Nat.div_one, hl]
      omega
    rw [hs, Nat.one_mul, F32.nearestEven_exact _ _ (by positivity)]
    omega

/-! ## The order of patterns -/

/-- The order of a magnitude pattern: its units, or the mark of an infinity. -/
theorem F32.ord_ofMag_mono (a b : Nat) (h : a ≤ b) :
    (F32.ofMag false a).ord ≤ (F32.ofMag false b).ord := by
  have hu : ∀ (e : Fin 255) (m : BitVec 23), (F32.units e m : Int) < 2 ^ 277 := by
    intro e m
    have hm := m.isLt
    have : F32.units e m < 2 ^ 24 * 2 ^ 253 := by
      unfold F32.units
      split
      · have : (1 : Nat) ≤ 2 ^ 253 := Nat.one_le_two_pow
        omega
      · have h1 : 2 ^ (e.val - 1) ≤ 2 ^ 253 := Nat.pow_le_pow_right (by decide) (by omega)
        calc (2 ^ 23 + m.toNat) * 2 ^ (e.val - 1) ≤ (2 ^ 23 + m.toNat) * 2 ^ 253 :=
              Nat.mul_le_mul_left _ h1
          _ < 2 ^ 24 * 2 ^ 253 := Nat.mul_lt_mul_of_pos_right (by omega) (by positivity)
    rw [← Nat.pow_add] at this
    exact_mod_cast this
  unfold F32.ofMag
  split
  · rename_i ha
    split
    · rename_i hb
      simp only [F32.ord, F32.signedUnits, Bool.false_eq_true, if_false]
      have hq : a / 2 ^ 23 ≤ b / 2 ^ 23 := Nat.div_le_div_right h
      have ha' := Nat.div_add_mod a (2 ^ 23)
      have hb' := Nat.div_add_mod b (2 ^ 23)
      have hma := Nat.mod_lt a (show 0 < 2 ^ 23 by decide)
      have hmb := Nat.mod_lt b (show 0 < 2 ^ 23 by decide)
      have key : F32.units ⟨a / 2 ^ 23, ha⟩ (BitVec.ofNat 23 a) ≤
          F32.units ⟨b / 2 ^ 23, hb⟩ (BitVec.ofNat 23 b) := by
        unfold F32.units
        simp only [BitVec.toNat_ofNat]
        rcases Nat.lt_or_ge (a / 2 ^ 23) (b / 2 ^ 23) with hlt | hge
        · rw [if_neg (show ¬ b / 2 ^ 23 = 0 by omega)]
          have hpos : 1 ≤ 2 ^ (b / 2 ^ 23 - 1) := Nat.one_le_two_pow
          split
          · calc a % 2 ^ 23 ≤ 2 ^ 23 * 1 := by omega
              _ ≤ (2 ^ 23 + b % 2 ^ 23) * 2 ^ (b / 2 ^ 23 - 1) := Nat.mul_le_mul (by omega) hpos
          · have h2 : 2 ^ (a / 2 ^ 23) ≤ 2 ^ (b / 2 ^ 23 - 1) := Nat.pow_le_pow_right (by decide) (by omega)
            have h3 : 2 ^ (a / 2 ^ 23) = 2 ^ (a / 2 ^ 23 - 1) * 2 := by
              rw [← Nat.pow_succ]
              congr 1
              omega
            calc (2 ^ 23 + a % 2 ^ 23) * 2 ^ (a / 2 ^ 23 - 1)
                ≤ (2 ^ 23 * 2) * 2 ^ (a / 2 ^ 23 - 1) := Nat.mul_le_mul_right _ (by omega)
              _ = 2 ^ 23 * 2 ^ (a / 2 ^ 23) := by
                  rw [h3]
                  ring
              _ ≤ (2 ^ 23 + b % 2 ^ 23) * 2 ^ (b / 2 ^ 23 - 1) := Nat.mul_le_mul (by omega) h2
        · have he : a / 2 ^ 23 = b / 2 ^ 23 := by omega
          rw [he] at ha' ⊢
          split
          · omega
          · exact Nat.mul_le_mul_right _ (by omega)
      exact_mod_cast key
    · have := hu ⟨a / 2 ^ 23, ha⟩ (BitVec.ofNat 23 a)
      simp only [F32.ord, F32.signedUnits, Bool.false_eq_true, if_false]
      omega
  · rename_i ha
    have hb : ¬ b / 2 ^ 23 < 255 := by
      have := Nat.div_le_div_right (c := 2 ^ 23) h
      omega
    rw [dif_neg hb]

/-! ## Signs and finiteness -/

theorem F32.ord_fin (b : Bool) (e : Fin 255) (m : BitVec 23) :
    (F32.fin b e m).ord = if b then -(F32.units e m : Int) else F32.units e m := rfl

@[simp] theorem F32.ord_fin_false (e : Fin 255) (m : BitVec 23) :
    (F32.fin false e m).ord = F32.units e m := rfl

@[simp] theorem F32.ord_fin_true (e : Fin 255) (m : BitVec 23) :
    (F32.fin true e m).ord = -(F32.units e m : Int) := rfl

@[simp] theorem F32.ofMag_units (neg : Bool) (e : Fin 255) (m : BitVec 23) :
    F32.ofMag neg (e.val * 2 ^ 23 + m.toNat) = .fin neg e m := by
  have hm := m.isLt
  have he : (e.val * 2 ^ 23 + m.toNat) / 2 ^ 23 = e.val := by omega
  have h : (e.val * 2 ^ 23 + m.toNat) / 2 ^ 23 < 255 := by rw [he]; exact e.isLt
  unfold F32.ofMag
  rw [dif_pos h]
  congr 1
  · exact Fin.ext he
  · apply BitVec.eq_of_toNat_eq
    rw [BitVec.toNat_ofNat]
    omega

@[simp] theorem F32.ord_zero (b : Bool) : (F32.fin b 0 0).ord = 0 := by cases b <;> rfl

@[simp] theorem F32.ord_neg (x : F32) : x.neg.ord = -x.ord := by
  cases x with
  | nan => rfl
  | inf b => cases b <;> simp [F32.neg, F32.ord]
  | fin b e m => cases b <;> simp [F32.neg, F32.ord, F32.signedUnits]

@[simp] theorem F32.isNaN_neg (x : F32) : x.neg.isNaN = x.isNaN := by cases x <;> rfl

@[simp] theorem F32.isFinite_neg (x : F32) : x.neg.isFinite = x.isFinite := by cases x <;> rfl

theorem F32.ofMag_neg (b : Nat) : F32.ofMag true b = (F32.ofMag false b).neg := by
  unfold F32.ofMag
  split <;> rfl

theorem F32.isNaN_ofMag (neg : Bool) (b : Nat) : (F32.ofMag neg b).isNaN = false := by
  unfold F32.ofMag
  split <;> rfl

theorem F32.ord_lt_of_finite (x : F32) (h : x.isFinite = true) : -(2 ^ 277) < x.ord ∧ x.ord < 2 ^ 277 := by
  cases x with
  | nan => simp [F32.isFinite] at h
  | inf b => simp [F32.isFinite] at h
  | fin b e m =>
    have hm := m.isLt
    have hu : F32.units e m < 2 ^ 277 := by
      have : F32.units e m < 2 ^ 24 * 2 ^ 253 := by
        unfold F32.units
        split
        · have : (1 : Nat) ≤ 2 ^ 253 := Nat.one_le_two_pow
          omega
        · have h1 : 2 ^ (e.val - 1) ≤ 2 ^ 253 := Nat.pow_le_pow_right (by decide) (by omega)
          calc (2 ^ 23 + m.toNat) * 2 ^ (e.val - 1) ≤ (2 ^ 23 + m.toNat) * 2 ^ 253 :=
                Nat.mul_le_mul_left _ h1
            _ < 2 ^ 24 * 2 ^ 253 := Nat.mul_lt_mul_of_pos_right (by omega) (by positivity)
      rwa [← Nat.pow_add] at this
    have hu' : (F32.units e m : Int) < 2 ^ 277 := by exact_mod_cast hu
    have h0 : (0 : Int) ≤ F32.units e m := Int.natCast_nonneg _
    simp only [F32.ord, F32.signedUnits]
    split <;> constructor <;> omega

/-- A value that is no NaN and lies strictly between the infinities is finite. -/
theorem F32.isFinite_of_ord (x : F32) (hn : x.isNaN = false) (h1 : -(2 ^ 277) < x.ord)
    (h2 : x.ord < 2 ^ 277) : x.isFinite = true := by
  cases x with
  | nan => simp [F32.isNaN] at hn
  | inf b => cases b <;> simp [F32.ord] at h1 h2
  | fin b e m => rfl

/-! ## Rounding against a representable bound -/

theorem F32.ord_ofMag_nonneg (b : Nat) : 0 ≤ (F32.ofMag false b).ord := by
  unfold F32.ofMag
  split
  · simp [F32.ord, F32.signedUnits]
  · simp [F32.ord]

/-- A magnitude at most a representable one rounds to at most it, and dually. -/
theorem F32.ord_round_le (num den : Nat) (hd : 0 < den) (e : Fin 255) (m : BitVec 23)
    (h : num ≤ F32.units e m * den) : (F32.round false num den).ord ≤ F32.units e m := by
  rw [F32.round_eq]
  have h1 := F32.roundPattern_mono _ _ den hd h
  have h2 := F32.roundPattern_scale (F32.units e m) 1 den hd
  rw [Nat.one_mul, F32.roundPattern_units] at h2
  rw [h2] at h1
  have h3 := F32.ord_ofMag_mono _ _ h1
  rwa [F32.ofMag_units, F32.ord_fin_false] at h3

theorem F32.le_ord_round (num den : Nat) (hd : 0 < den) (e : Fin 255) (m : BitVec 23)
    (h : F32.units e m * den ≤ num) : (F32.units e m : Int) ≤ (F32.round false num den).ord := by
  rw [F32.round_eq]
  have h1 := F32.roundPattern_mono _ _ den hd h
  have h2 := F32.roundPattern_scale (F32.units e m) 1 den hd
  rw [Nat.one_mul, F32.roundPattern_units] at h2
  rw [h2] at h1
  have h3 := F32.ord_ofMag_mono _ _ h1
  rwa [F32.ofMag_units, F32.ord_fin_false] at h3

theorem F32.ord_round_nonneg (num den : Nat) : 0 ≤ (F32.round false num den).ord :=
  F32.ord_ofMag_nonneg _

theorem F32.isNaN_round (neg : Bool) (num den : Nat) : (F32.round neg num den).isNaN = false :=
  F32.isNaN_ofMag _ _

theorem F32.ord_round_true (num den : Nat) :
    (F32.round true num den).ord = -(F32.round false num den).ord := by
  rw [F32.round_eq, F32.round_eq, F32.ofMag_neg, F32.ord_neg]

/-- The signed quotient `t / den` rounded, as sums and products round: it stays on its side of every finite
value c. -/
theorem F32.ord_signedRound_le (t : Int) (den : Nat) (hd : 0 < den) (c : F32) (hc : c.isFinite = true)
    (h : t ≤ c.ord * den) : (F32.round (decide (t < 0)) t.natAbs den).ord ≤ c.ord := by
  cases c with
  | nan => simp [F32.isFinite] at hc
  | inf b => simp [F32.isFinite] at hc
  | fin b e m =>
    rw [F32.ord_fin] at h ⊢
    by_cases ht : t < 0
    · simp only [ht, decide_true, F32.ord_round_true]
      cases b
      · simp only [Bool.false_eq_true, if_false]
        have := F32.ord_round_nonneg t.natAbs den
        omega
      · simp only [if_true] at h ⊢
        have := F32.le_ord_round t.natAbs den hd e m (by
          have : ((F32.units e m * den : Nat) : Int) ≤ (t.natAbs : Int) := by
            push_cast
            rw [abs_of_neg ht]
            linarith [neg_mul (F32.units e m : Int) den]
          exact_mod_cast this)
        omega
    · simp only [ht, decide_false]
      cases b
      · simp only [Bool.false_eq_true, if_false] at h ⊢
        exact F32.ord_round_le t.natAbs den hd e m (by
          have : (t.natAbs : Int) ≤ ((F32.units e m * den : Nat) : Int) := by
            push_cast
            rw [abs_of_nonneg (by omega)]
            exact h
          exact_mod_cast this)
      · simp only [if_true] at h ⊢
        have h0 : (0 : Int) ≤ F32.units e m * den := by positivity
        have ht0 : t = 0 := by
          have : -(F32.units e m : Int) * den = -(F32.units e m * den) := by ring
          omega
        have hu : (F32.units e m : Int) * den = 0 := by
          have : -(F32.units e m : Int) * den = -(F32.units e m * den) := by ring
          omega
        have hu' : F32.units e m = 0 := by
          rcases Int.mul_eq_zero.1 hu with h | h
          · exact_mod_cast h
          · omega
        subst ht0
        have := F32.ord_round_le 0 den hd e m (by simp)
        rw [hu'] at this ⊢
        simpa using this

theorem F32.le_ord_signedRound (t : Int) (den : Nat) (hd : 0 < den) (c : F32) (hc : c.isFinite = true)
    (h : c.ord * den ≤ t) : c.ord ≤ (F32.round (decide (t < 0)) t.natAbs den).ord := by
  by_cases ht : t = 0
  · subst ht
    have h2 : 0 ≤ (F32.round false 0 den).ord := F32.ord_round_nonneg _ _
    have : c.ord ≤ 0 := by
      by_contra hp
      have : 0 < c.ord * den := by
        apply Int.mul_pos <;> omega
      omega
    simp only [lt_self_iff_false, decide_false, Int.natAbs_zero]
    omega
  · have h1 := F32.ord_signedRound_le (-t) den hd c.neg (by simpa using hc) (by
      rw [F32.ord_neg]
      linarith [neg_mul c.ord (den : Int)])
    rw [F32.ord_neg, Int.natAbs_neg] at h1
    by_cases hn : t < 0
    · have : ¬ (-t < 0) := by omega
      simp only [this, decide_false] at h1
      simp only [hn, decide_true, F32.ord_round_true]
      omega
    · have : -t < 0 := by omega
      simp only [this, decide_true, F32.ord_round_true] at h1
      simp only [hn, decide_false]
      omega

/-! ## Sums and products against a representable bound (00_scope R12) -/

theorem F32.add_isNaN (x y : F32) (hx : x.isFinite = true) (hy : y.isFinite = true) :
    (F32.add x y).isNaN = false := by
  cases x <;> cases y <;> simp [F32.isFinite] at hx hy
  simp only [F32.add, F32.roundSum]
  split
  · rfl
  · exact F32.isNaN_round _ _ _

theorem F32.ord_add_le (x y c : F32) (hx : x.isFinite = true) (hy : y.isFinite = true)
    (hc : c.isFinite = true) (h : x.ord + y.ord ≤ c.ord) : (F32.add x y).ord ≤ c.ord := by
  cases x <;> cases y <;> simp [F32.isFinite] at hx hy
  simp only [F32.add, F32.roundSum]
  split
  · rename_i h0
    rw [F32.ord_zero]
    change F32.signedUnits _ _ _ + F32.signedUnits _ _ _ ≤ c.ord at h
    omega
  · exact F32.ord_signedRound_le _ 1 (by decide) c hc (by rw [Nat.cast_one, Int.mul_one]; exact h)

theorem F32.le_ord_add (x y c : F32) (hx : x.isFinite = true) (hy : y.isFinite = true)
    (hc : c.isFinite = true) (h : c.ord ≤ x.ord + y.ord) : c.ord ≤ (F32.add x y).ord := by
  cases x <;> cases y <;> simp [F32.isFinite] at hx hy
  simp only [F32.add, F32.roundSum]
  split
  · rename_i h0
    rw [F32.ord_zero]
    change c.ord ≤ F32.signedUnits _ _ _ + F32.signedUnits _ _ _ at h
    omega
  · exact F32.le_ord_signedRound _ 1 (by decide) c hc (by rw [Nat.cast_one, Int.mul_one]; exact h)

theorem F32.mul_isNaN (x y : F32) (hx : x.isFinite = true) (hy : y.isFinite = true) :
    (F32.mul x y).isNaN = false := by
  cases x <;> cases y <;> simp [F32.isFinite] at hx hy
  exact F32.isNaN_round _ _ _

theorem F32.ord_mul_le (x y c : F32) (hx : x.isFinite = true) (hy : y.isFinite = true)
    (hc : c.isFinite = true) (h : x.ord * y.ord ≤ c.ord * 2 ^ 149) : (F32.mul x y).ord ≤ c.ord := by
  cases x with
  | nan => simp [F32.isFinite] at hx
  | inf a => simp [F32.isFinite] at hx
  | fin a e m =>
  cases y with
  | nan => simp [F32.isFinite] at hy
  | inf a => simp [F32.isFinite] at hy
  | fin b f n =>
  rw [F32.ord_fin, F32.ord_fin] at h
  rw [F32.mul]
  rcases Nat.eq_zero_or_pos (F32.units e m * F32.units f n) with h0 | h0
  · have hz : ∀ s : Bool, (F32.round s 0 (2 ^ 149)).ord = 0 := by decide +kernel
    have hz' : (if a then -(F32.units e m : Int) else F32.units e m) *
        (if b then -(F32.units f n : Int) else F32.units f n) = 0 := by
      have : (F32.units e m : Int) * F32.units f n = 0 := by exact_mod_cast h0
      cases a <;> cases b <;> simp [this]
    rw [hz'] at h
    have h3 : 0 ≤ c.ord := by
      by_contra hc
      have : c.ord * 2 ^ 149 < 0 := Int.mul_neg_of_neg_of_pos (by omega) (by positivity)
      omega
    rw [h0, hz]
    exact h3
  · have ht : ∃ t : Int, t = (if a then -(F32.units e m : Int) else F32.units e m) *
        (if b then -(F32.units f n : Int) else F32.units f n) ∧
        t.natAbs = F32.units e m * F32.units f n ∧ decide (t < 0) = (a != b) := by
      have hpos : (0 : Int) < F32.units e m * F32.units f n := by exact_mod_cast h0
      refine ⟨_, rfl, ?_, ?_⟩
      · cases a <;> cases b <;> simp [Int.natAbs_mul]
      · cases a <;> cases b <;> simp <;> nlinarith
    obtain ⟨t, h1, h2, h3⟩ := ht
    rw [← h2, ← h3]
    rw [← h1] at h
    exact F32.ord_signedRound_le t (2 ^ 149) (by positivity) c hc (by exact_mod_cast h)

/-- Dual of `F32.ord_mul_le`. -/
theorem F32.le_ord_mul (x y c : F32) (hx : x.isFinite = true) (hy : y.isFinite = true)
    (hc : c.isFinite = true) (h : c.ord * 2 ^ 149 ≤ x.ord * y.ord) : c.ord ≤ (F32.mul x y).ord := by
  have h1 := F32.ord_mul_le x.neg y c.neg (by simpa using hx) hy (by simpa using hc) (by
    rw [F32.ord_neg, F32.ord_neg, Int.neg_mul, Int.neg_mul]
    omega)
  have h2 : (F32.mul x.neg y).ord = -(F32.mul x y).ord := by
    cases x with
    | nan => simp [F32.isFinite] at hx
    | inf a => simp [F32.isFinite] at hx
    | fin a e m =>
    cases y with
    | nan => simp [F32.isFinite] at hy
    | inf a => simp [F32.isFinite] at hy
    | fin b f n =>
    simp only [F32.neg, F32.mul]
    have hr := F32.ord_round_true (F32.units e m * F32.units f n) (2 ^ 149)
    cases a <;> cases b <;> simp only [Bool.not_false, Bool.not_true, bne_self_eq_false, Bool.false_bne,
      Bool.true_bne, Bool.not_false] <;> omega
  rw [h2, F32.ord_neg] at h1
  omega

/-! ## The square root -/

theorem isqrtBits_spec (n k r : Nat) (h1 : r * r ≤ n) (h2 : n < (r + 2 ^ k) * (r + 2 ^ k)) :
    isqrtBits n k r * isqrtBits n k r ≤ n ∧
      n < (isqrtBits n k r + 1) * (isqrtBits n k r + 1) := by
  induction k generalizing r with
  | zero => exact ⟨h1, by simpa [isqrtBits] using h2⟩
  | succ k ih =>
    unfold isqrtBits
    split
    · rename_i h
      exact ih _ h (by rwa [Nat.add_assoc, ← Nat.two_mul, ← Nat.pow_succ'])
    · rename_i h
      exact ih _ h1 (by omega)

/-- isqrt is the integer square root (00_scope R12). -/
theorem isqrt_spec (n : Nat) (h : n < 2 ^ 428) :
    isqrt n * isqrt n ≤ n ∧ n < (isqrt n + 1) * (isqrt n + 1) := by
  apply isqrtBits_spec
  · simp
  · rwa [Nat.zero_add, ← Nat.pow_add]

theorem F32.units_lt (e : Fin 255) (m : BitVec 23) : F32.units e m < 2 ^ 277 := by
  have := (F32.ord_lt_of_finite (.fin false e m) rfl).2
  rw [F32.ord_fin_false] at this
  exact_mod_cast this

/-- A representable value whose square is at most x is at most the rounded root of x. -/
theorem F32.le_ord_sqrt (e : Fin 255) (m : BitVec 23) (f : Fin 255) (n : BitVec 23)
    (hx : 0 < F32.units e m) (h : F32.units f n * F32.units f n ≤ F32.units e m * 2 ^ 149) :
    (F32.units f n : Int) ≤ (F32.sqrt (.fin false e m)).ord := by
  have hu := F32.units_lt e m
  have hN : F32.units e m * 2 ^ 149 < 2 ^ 428 := by
    calc F32.units e m * 2 ^ 149 < 2 ^ 277 * 2 ^ 149 := Nat.mul_lt_mul_of_pos_right hu (by positivity)
      _ ≤ 2 ^ 428 := by rw [← Nat.pow_add]; exact Nat.pow_le_pow_right (by decide) (by decide)
  obtain ⟨h1, h2⟩ := isqrt_spec _ hN
  have h3 : F32.units f n ≤ isqrt (F32.units e m * 2 ^ 149) := by
    by_contra hc
    have : isqrt (F32.units e m * 2 ^ 149) + 1 ≤ F32.units f n := by omega
    have := Nat.mul_le_mul this this
    omega
  unfold F32.sqrt
  dsimp only
  rw [if_neg (by omega), if_neg (by decide)]
  unfold F32.roundRoot
  exact F32.le_ord_round _ 2 (by decide) f n (by omega)

end Sys2Proof
end

