-- ==== Sys2Proof/Laws/Locator.lean ====
section
/-! SUPPORT. From a shortest recurrence of the syndromes to the errors: its roots are the positions, and
the evaluator gives the values (44_fec R335, R337, R338). -/

namespace Sys2Proof.Machine

open Polynomial

variable {K : Type} [Field K] {ι : Type}

/-- The first |E| power sums of distinct points determine their weights. -/
theorem powers_independent (E : Finset ι) (x a : ι → K) (hinj : ∀ i ∈ E, ∀ j ∈ E, x i = x j → i = j)
    (h : ∀ k, k < E.card → ∑ i ∈ E, a i * x i ^ k = 0) : ∀ i ∈ E, a i = 0 := by
  classical
  intro f hf
  let p : K[X] := ∏ i ∈ E.erase f, (X - C (x i))
  have hdeg : p.natDegree < E.card := by
    rw [natDegree_prod_of_monic _ _ fun i _ => monic_X_sub_C _]
    simp [Finset.card_erase_of_mem hf]
    exact ⟨f, hf⟩
  have hsum : ∑ i ∈ E, a i * p.eval (x i) = 0 := by
    have : ∀ i ∈ E, a i * p.eval (x i) = ∑ k ∈ Finset.range E.card, p.coeff k * (a i * x i ^ k) := by
      intro i _
      rw [eval_eq_sum_range' hdeg, Finset.mul_sum]
      exact Finset.sum_congr rfl fun k _ => by ring
    rw [Finset.sum_congr rfl this, Finset.sum_comm]
    refine Finset.sum_eq_zero fun k hk => ?_
    rw [← Finset.mul_sum, h k (Finset.mem_range.1 hk), mul_zero]
  rw [Finset.sum_eq_single_of_mem f hf] at hsum
  · refine (mul_eq_zero.1 hsum).resolve_right ?_
    rw [eval_prod]
    refine Finset.prod_ne_zero_iff.2 fun i hi e => ?_
    rw [eval_sub, eval_X, eval_C, sub_eq_zero] at e
    exact (Finset.mem_erase.1 hi).1 (hinj i (Finset.mem_of_mem_erase hi) f hf e.symm)
  · intro i hi hne
    have : p.eval (x i) = 0 := by
      rw [eval_prod]
      exact Finset.prod_eq_zero (Finset.mem_erase.2 ⟨hne, hi⟩) (by simp)
    rw [this, mul_zero]

/-- A root x⁻¹ of P divides 1 − x·X out of it. -/
theorem root_factor (P : K[X]) (x : K) (hx : x ≠ 0) (h : P.eval x⁻¹ = 0) :
    ∃ Q, P = Q - C x * (X * Q) := by
  obtain ⟨R, hR⟩ := dvd_iff_isRoot.2 h
  refine ⟨-(C x⁻¹ * R), ?_⟩
  have e : C x * C x⁻¹ = (1 : K[X]) := by rw [← C_mul, mul_inv_cancel₀ hx, C_1]
  rw [hR]
  linear_combination -(X * R) * e

/-- The series Q / (1 − x·X), cleared of its denominator. -/
theorem disc_geometric (x : K) (Q : K[X]) (k : Nat) :
    disc (fun j => x ^ j) (Q - C x * (X * Q)) k = Q.coeff k := by
  have step : ∀ n, disc (fun j => x ^ j) Q (n + 1) = x * disc (fun j => x ^ j) Q n + Q.coeff (n + 1) := by
    intro n
    rw [disc, Finset.sum_range_succ, disc, Finset.mul_sum]
    congr 1
    · refine Finset.sum_congr rfl fun i hi => ?_
      have := Finset.mem_range.1 hi
      rw [show n + 1 - i = (n - i) + 1 by omega, pow_succ]
      ring
    · simp
  rw [sub_eq_add_neg, ← neg_mul, ← C_neg, disc_add, disc_C_mul]
  cases k with
  | zero => rw [disc_X_mul_zero]; simp [disc]
  | succ n => rw [disc_X_mul, step]; ring

/-- The evaluator Ω = (S · P) mod x^N (44_fec R335 step 4). -/
noncomputable def omegaPoly (s : ℕ → K) (P : K[X]) (N : Nat) : K[X] :=
  ∑ k ∈ Finset.range N, C (disc s P k) * X ^ k

theorem coeff_omegaPoly (s : ℕ → K) (P : K[X]) (N k : Nat) :
    (omegaPoly s P N).coeff k = if k < N then disc s P k else 0 := by
  simp only [omegaPoly, finsetSum_coeff, coeff_C_mul, coeff_X_pow]
  split
  · rename_i h
    rw [Finset.sum_eq_single_of_mem k (Finset.mem_range.2 h)]
    · simp
    · intro j _ hj
      rw [if_neg (Ne.symm hj), mul_zero]
  · rename_i h
    refine Finset.sum_eq_zero fun j hj => ?_
    have := Finset.mem_range.1 hj
    rw [if_neg (by omega), mul_zero]

/-- The setting of the decoder: N syndromes, the sums of powers of the locators x_i with the values a_i. -/
structure IsPowers (E : Finset ι) (a x : ι → K) (s : ℕ → K) (N : Nat) : Prop where
  ne : ∀ i ∈ E, x i ≠ 0
  inj : ∀ i ∈ E, ∀ j ∈ E, x i = x j → i = j
  sum : ∀ j, j < N → s j = ∑ i ∈ E, a i * x i ^ (j + 1)

/-- Forney's formula: at a locator the evaluator is the error value times the derivative
(44_fec R337). -/
theorem forney_value (E : Finset ι) (a x : ι → K) (s : ℕ → K) (N : Nat) (hE : IsPowers E a x s N) (P : K[X])
    (hroot : ∀ i ∈ E, P.eval (x i)⁻¹ = 0) (hdeg : P.natDegree ≤ N) (f : ι) (hf : f ∈ E) :
    (omegaPoly s P N).eval (x f)⁻¹ = -(a f * (derivative P).eval (x f)⁻¹) := by
  classical
  have hQ : ∀ i, ∃ Q, i ∈ E → P = Q - C (x i) * (X * Q) := by
    intro i
    by_cases hi : i ∈ E
    · obtain ⟨Q, h⟩ := root_factor P (x i) (hE.ne i hi) (hroot i hi)
      exact ⟨Q, fun _ => h⟩
    · exact ⟨0, fun h => absurd h hi⟩
  choose Q hQ using hQ
  have hT : omegaPoly s P N = ∑ i ∈ E, C (a i * x i) * Q i := by
    have hcoeff : ∀ k, k < N → disc s P k = ∑ i ∈ E, a i * x i * (Q i).coeff k := by
      intro k hk
      have h1 : ∀ i ∈ E, a i * x i * (Q i).coeff k = ∑ j ∈ Finset.range (k + 1), P.coeff j * (a i * x i ^ (k - j + 1)) := by
        intro i hi
        rw [← disc_geometric (x i), ← hQ i hi, disc, Finset.mul_sum]
        exact Finset.sum_congr rfl fun j _ => by ring
      rw [Finset.sum_congr rfl h1, Finset.sum_comm, disc]
      refine Finset.sum_congr rfl fun j hj => ?_
      rw [← Finset.mul_sum, hE.sum _ (by omega)]
    have hhigh : ∀ i ∈ E, ∀ k, N ≤ k → (Q i).coeff k = 0 := by
      intro i hi k hk
      by_contra hne
      have hd : (Q i).natDegree < P.natDegree := by
        have hq0 : Q i ≠ 0 := fun e => hne (by rw [e, coeff_zero])
        have e : P = (1 - C (x i) * X) * Q i := by rw [hQ i hi]; ring
        have h1 : (1 - C (x i) * X : K[X]).natDegree = 1 := by
          rw [show (1 - C (x i) * X : K[X]) = C (-x i) * X + C 1 by simp; ring]
          exact natDegree_linear (neg_ne_zero.2 (hE.ne i hi))
        have h0 : (1 - C (x i) * X : K[X]) ≠ 0 := fun e => by rw [e, natDegree_zero] at h1; omega
        rw [e, natDegree_mul h0 hq0, h1]
        omega
      exact hne (coeff_eq_zero_of_natDegree_lt (by omega))
    ext k
    rw [coeff_omegaPoly, finsetSum_coeff]
    simp only [coeff_C_mul]
    split
    · rename_i hk
      exact hcoeff k hk
    · rename_i hk
      refine (Finset.sum_eq_zero fun i hi => ?_).symm
      rw [hhigh i hi k (by omega), mul_zero]
  rw [hT, eval_finsetSum, Finset.sum_eq_single_of_mem f hf]
  · have hd : (derivative P).eval (x f)⁻¹ = -(x f * (Q f).eval (x f)⁻¹) := by
      have hx := hE.ne f hf
      conv_lhs => rw [hQ f hf]
      simp only [derivative_sub, derivative_mul, derivative_C, derivative_X, eval_sub, eval_add, eval_mul, eval_C,
        eval_X, eval_zero, eval_one]
      field_simp
      ring
    rw [hd, eval_mul, eval_C]
    ring
  · intro i hi hne
    have h0 := hroot f hf
    rw [hQ i hi, eval_sub, eval_mul, eval_mul, eval_C, eval_X] at h0
    have h1 : (1 - x i * (x f)⁻¹) * (Q i).eval (x f)⁻¹ = 0 := by linear_combination h0
    rcases mul_eq_zero.1 h1 with h2 | h2
    · exfalso
      have hx := hE.ne f hf
      have : x i = x f := by
        field_simp at h2
        linear_combination -h2
      exact hne (hE.inj i hi f hf this)
    · rw [eval_mul, h2, mul_zero]

/-- A shortest recurrence of the syndromes of at most N/2 errors has their number as its length and degree,
and their inverse locators as its roots, and no others (44_fec R338). -/
theorem locator_of_powers (E : Finset ι) (a x : ι → K) (s : ℕ → K) (N L : Nat) (hE : IsPowers E a x s N)
    (ha : ∀ i ∈ E, a i ≠ 0) (hcard : 2 * E.card ≤ N) (P : K[X]) (hone : P.coeff 0 = 1) (hdeg : P.natDegree ≤ L)
    (hzero : ∀ i, L ≤ i → i < N → disc s P i = 0)
    (hleast : ∀ (Q : K[X]) (l : Nat), Q.coeff 0 = 1 → Q.natDegree ≤ l →
      (∀ i, l ≤ i → i < N → disc s Q i = 0) → L ≤ l) :
    L = E.card ∧ P.natDegree = E.card ∧ (∀ i ∈ E, P.eval (x i)⁻¹ = 0) ∧
      ∀ y, P.eval y = 0 → ∃ i ∈ E, y = (x i)⁻¹ := by
  classical
  have hP0 : P ≠ 0 := fun e => by rw [e, coeff_zero] at hone; exact zero_ne_one hone
  have hL : L ≤ E.card := by
    refine hleast (∏ i ∈ E, (1 - C (x i) * X)) E.card ?_ ?_ ?_
    · rw [coeff_zero_eq_eval_zero, eval_prod]
      simp
    · refine (natDegree_prod_le _ _).trans ?_
      refine (Finset.sum_le_card_nsmul _ _ 1 fun i _ => ?_).trans (by simp)
      refine (natDegree_sub_le _ _).trans (max_le (by simp) ?_)
      exact (natDegree_C_mul_le _ _).trans natDegree_X_le
    · intro n h1 h2
      rw [disc_powers E a x hE.ne s N n h2 hE.sum]
      · refine Finset.sum_eq_zero fun i hi => ?_
        rw [eval_prod, Finset.prod_eq_zero hi, mul_zero]
        simp [hE.ne i hi]
      · refine (natDegree_prod_le _ _).trans ?_
        refine (Finset.sum_le_card_nsmul _ _ 1 fun i _ => ?_).trans (by simpa using h1)
        refine (natDegree_sub_le _ _).trans (max_le (by simp) ?_)
        exact (natDegree_C_mul_le _ _).trans natDegree_X_le
  have hroot : ∀ i ∈ E, P.eval (x i)⁻¹ = 0 := by
    intro i hi
    have := powers_independent E x (fun i => a i * x i ^ (L + 1) * P.eval (x i)⁻¹) hE.inj (fun k hk => by
      rw [← hzero (L + k) (by omega) (by omega),
        disc_powers E a x hE.ne s N (L + k) (by omega) hE.sum P (by omega)]
      refine Finset.sum_congr rfl fun i _ => ?_
      ring) i hi
    exact (mul_eq_zero.1 this).resolve_left (mul_ne_zero (ha i hi) (pow_ne_zero _ (hE.ne i hi)))
  have himg : (E.image fun i => (x i)⁻¹).card = E.card :=
    Finset.card_image_of_injOn fun i hi j hj e => hE.inj i hi j hj (inv_injective e)
  have hsub : (E.image fun i => (x i)⁻¹) ⊆ P.roots.toFinset := by
    intro y hy
    obtain ⟨i, hi, rfl⟩ := Finset.mem_image.1 hy
    rw [Multiset.mem_toFinset, mem_roots hP0]
    exact hroot i hi
  have hle : P.roots.toFinset.card ≤ P.natDegree := (Multiset.toFinset_card_le _).trans (card_roots' P)
  have hc := Finset.card_le_card hsub
  refine ⟨by omega, by omega, hroot, fun y hy => ?_⟩
  have heq := Finset.eq_of_subset_of_card_le hsub (by omega)
  have : y ∈ P.roots.toFinset := by
    rw [Multiset.mem_toFinset, mem_roots hP0]
    exact hy
  rw [← heq] at this
  obtain ⟨i, hi, e⟩ := Finset.mem_image.1 this
  exact ⟨i, hi, e.symm⟩

/-- A polynomial with as many distinct inverse roots as its degree has simple ones (44_fec R335). -/
theorem derivative_ne_zero_at_root (E : Finset ι) (x : ι → K)
    (hinj : ∀ i ∈ E, ∀ j ∈ E, x i = x j → i = j) (P : K[X]) (hP : P ≠ 0) (hdeg : P.natDegree = E.card)
    (hroot : ∀ i ∈ E, P.eval (x i)⁻¹ = 0) (f : ι) (hf : f ∈ E) : (derivative P).eval (x f)⁻¹ ≠ 0 := by
  classical
  intro h0
  have hr : P.IsRoot (x f)⁻¹ := hroot f hf
  have hsub : (E.image fun i => (x i)⁻¹) ⊆ P.roots.toFinset := by
    intro y hy
    obtain ⟨i, hi, rfl⟩ := Finset.mem_image.1 hy
    rw [Multiset.mem_toFinset, mem_roots hP]
    exact hroot i hi
  have himg : (E.image fun i => (x i)⁻¹).card = E.card :=
    Finset.card_image_of_injOn fun i hi j hj e => hinj i hi j hj (inv_injective e)
  have hmult : 1 < P.rootMultiplicity (x f)⁻¹ :=
    (one_lt_rootMultiplicity_iff_isRoot hP).2 ⟨hr, h0⟩
  have hlt : P.roots.toFinset.card < P.roots.card := by
    refine lt_of_le_of_ne (Multiset.toFinset_card_le _) fun e => ?_
    have hnd := Multiset.toFinset_card_eq_card_iff_nodup.1 e
    have := Multiset.nodup_iff_count_le_one.1 hnd (x f)⁻¹
    rw [count_roots] at this
    omega
  have h1 := Finset.card_le_card hsub
  have h2 := card_roots' P
  omega

/-- A recurrence of the syndromes with as many distinct roots as its length turns them into a sum of powers
with the values of Forney's formula (44_fec R338). -/
theorem powers_of_locator (E : Finset ι) (x : ι → K) (s : ℕ → K) (N : Nat) (hne : ∀ i ∈ E, x i ≠ 0)
    (hinj : ∀ i ∈ E, ∀ j ∈ E, x i = x j → i = j) (P : K[X]) (hone : P.coeff 0 = 1)
    (hdeg : P.natDegree = E.card) (hN : E.card ≤ N) (hroot : ∀ i ∈ E, P.eval (x i)⁻¹ = 0)
    (hzero : ∀ i, E.card ≤ i → i < N → disc s P i = 0) :
    IsPowers E (fun i => -((omegaPoly s P N).eval (x i)⁻¹ / (derivative P).eval (x i)⁻¹)) x s N := by
  classical
  refine ⟨hne, hinj, ?_⟩
  have hP0 : P ≠ 0 := fun e => by rw [e, coeff_zero] at hone; exact zero_ne_one hone
  obtain ⟨a, ha⟩ : ∃ a : ι → K, ∀ i, -((omegaPoly s P N).eval (x i)⁻¹ / (derivative P).eval (x i)⁻¹) = a i :=
    ⟨_, fun _ => rfl⟩
  simp only [ha]
  let s' : ℕ → K := fun j => ∑ i ∈ E, a i * x i ^ (j + 1)
  have hE : IsPowers E a x s' N := ⟨hne, hinj, fun j _ => rfl⟩
  have hlow : ∀ (s : ℕ → K), (∀ i, E.card ≤ i → i < N → disc s P i = 0) → (omegaPoly s P N).degree < E.card := by
    intro s hs
    rw [degree_lt_iff_coeff_zero]
    intro k hk
    rw [coeff_omegaPoly]
    split
    · rename_i hkN
      exact hs k hk hkN
    · rfl
  have hzero' : ∀ i, E.card ≤ i → i < N → disc s' P i = 0 := by
    intro n h1 h2
    rw [disc_powers E a x hne s' N n h2 hE.sum P (by omega)]
    exact Finset.sum_eq_zero fun i hi => by rw [hroot i hi, mul_zero]
  have himg : (E.image fun i => (x i)⁻¹).card = E.card :=
    Finset.card_image_of_injOn fun i hi j hj e => hinj i hi j hj (inv_injective e)
  have hom : omegaPoly s P N = omegaPoly s' P N := by
    refine eq_of_degrees_lt_of_eval_finset_eq (E.image fun i => (x i)⁻¹) ?_ ?_ ?_
    · rw [himg]; exact hlow s hzero
    · rw [himg]; exact hlow s' hzero'
    · intro y hy
      obtain ⟨f, hf, rfl⟩ := Finset.mem_image.1 hy
      rw [forney_value E a x s' N hE P hroot (by omega) f hf, ← ha, neg_mul, neg_neg,
        div_mul_cancel₀ _ (derivative_ne_zero_at_root E x hinj P hP0 hdeg hroot f hf)]
  have hdisc : ∀ k, k < N → disc s P k = disc s' P k := by
    intro k hk
    have := congrArg (fun p => coeff p k) hom
    simpa [coeff_omegaPoly, hk] using this
  intro j
  induction j using Nat.strongRecOn with
  | _ j ih =>
    intro hj
    have := hdisc j hj
    rw [disc, disc, Finset.sum_range_succ', Finset.sum_range_succ', hone, one_mul, one_mul] at this
    have hrest : ∑ k ∈ Finset.range j, P.coeff (k + 1) * s (j - (k + 1)) =
        ∑ k ∈ Finset.range j, P.coeff (k + 1) * s' (j - (k + 1)) := by
      refine Finset.sum_congr rfl fun k hk => ?_
      have := Finset.mem_range.1 hk
      rw [ih (j - (k + 1)) (by omega) (by omega)]
    rw [hrest] at this
    exact add_left_cancel this

end Sys2Proof.Machine
end

