-- ==== Sys2Proof/Laws/PerInstr.lean ====
section
/-! SUPPORT. The family CodeShape: what the code of an instruction looks like, one lemma per
constructor (30_encoding R112, R113, R130). -/

namespace Sys2Proof.Laws

/-- A command's code is its header and the payload words its opcode has; a handler's code is a state code,
never 15 (30_encoding R111, R112, R130). -/
def CodeShape.Statement (i : Instr) : Prop :=
  match encode i with
  | .words ws => ∃ op v ps, ws = headerWord op v :: ps ∧ ps.length = payloadWords op
  | .state _ c => c ≠ 15#4

theorem CodeShape.nop : CodeShape.Statement .nop := ⟨.nop, _, _, rfl, rfl⟩
theorem CodeShape.sample (i q : Word) : CodeShape.Statement (.sample i q) := ⟨.sample, _, _, rfl, rfl⟩
theorem CodeShape.dibit (d : Dibit) : CodeShape.Statement (.dibit d) := ⟨.dibit, _, _, rfl, rfl⟩
theorem CodeShape.dibit8 (ds : List Dibit) : CodeShape.Statement (.dibit8 ds) := ⟨.dibit8, _, _, rfl, rfl⟩
theorem CodeShape.wrreg (a : BitVec 8) (v : Word) : CodeShape.Statement (.wrreg a v) := ⟨.wrreg, _, _, rfl, rfl⟩
theorem CodeShape.rdreg (a : BitVec 8) : CodeShape.Statement (.rdreg a) := ⟨.rdreg, _, _, rfl, rfl⟩
theorem CodeShape.scrwr (i : BitVec 4) (v : Word) : CodeShape.Statement (.scrwr i v) := ⟨.scrwr, _, _, rfl, rfl⟩
theorem CodeShape.scrrd (i : BitVec 4) : CodeShape.Statement (.scrrd i) := ⟨.scrrd, _, _, rfl, rfl⟩
theorem CodeShape.sreset : CodeShape.Statement .sreset := ⟨.sreset, _, _, rfl, rfl⟩
theorem CodeShape.bch : CodeShape.Statement .bch := ⟨.bch, _, _, rfl, rfl⟩
theorem CodeShape.rs (t : BitVec 5) : CodeShape.Statement (.rs t) := ⟨.rs, _, _, rfl, rfl⟩
theorem CodeShape.tr12 : CodeShape.Statement .tr12 := ⟨.tr12, _, _, rfl, rfl⟩
theorem CodeShape.tr34 : CodeShape.Statement .tr34 := ⟨.tr34, _, _, rfl, rfl⟩
theorem CodeShape.crc (nb : BitVec 9) (fix : Bool) : CodeShape.Statement (.crc nb fix) := ⟨.crc, _, _, rfl, rfl⟩
theorem CodeShape.deint : CodeShape.Statement .deint := ⟨.deint, _, _, rfl, rfl⟩
theorem CodeShape.intlv : CodeShape.Statement .intlv := ⟨.intlv, _, _, rfl, rfl⟩
theorem CodeShape.stateNid (k : SlotId) : CodeShape.Statement (.stateNid k) := (by decide : Machine.stateNum .nid ≠ 15#4)
theorem CodeShape.stateHdu (k : SlotId) : CodeShape.Statement (.stateHdu k) := (by decide : Machine.stateNum .hdu ≠ 15#4)
theorem CodeShape.stateLdu1 (k : SlotId) : CodeShape.Statement (.stateLdu1 k) := (by decide : Machine.stateNum .ldu1 ≠ 15#4)
theorem CodeShape.stateLdu2 (k : SlotId) : CodeShape.Statement (.stateLdu2 k) := (by decide : Machine.stateNum .ldu2 ≠ 15#4)
theorem CodeShape.stateTdu (k : SlotId) : CodeShape.Statement (.stateTdu k) := (by decide : Machine.stateNum .tdu ≠ 15#4)
theorem CodeShape.stateTdulc (k : SlotId) : CodeShape.Statement (.stateTdulc k) := (by decide : Machine.stateNum .tdulc ≠ 15#4)
theorem CodeShape.stateTsbk1 (k : SlotId) : CodeShape.Statement (.stateTsbk1 k) := (by decide : Machine.stateNum .tsbk1 ≠ 15#4)
theorem CodeShape.stateTsbk2 (k : SlotId) : CodeShape.Statement (.stateTsbk2 k) := (by decide : Machine.stateNum .tsbk2 ≠ 15#4)
theorem CodeShape.stateTsbk3 (k : SlotId) : CodeShape.Statement (.stateTsbk3 k) := (by decide : Machine.stateNum .tsbk3 ≠ 15#4)
theorem CodeShape.statePdu0 (k : SlotId) : CodeShape.Statement (.statePdu0 k) := (by decide : Machine.stateNum .pdu0 ≠ 15#4)
theorem CodeShape.statePdu1 (k : SlotId) : CodeShape.Statement (.statePdu1 k) := (by decide : Machine.stateNum .pdu1 ≠ 15#4)
theorem CodeShape.statePdu2 (k : SlotId) : CodeShape.Statement (.statePdu2 k) := (by decide : Machine.stateNum .pdu2 ≠ 15#4)
theorem CodeShape.statePdu3 (k : SlotId) : CodeShape.Statement (.statePdu3 k) := (by decide : Machine.stateNum .pdu3 ≠ 15#4)
theorem CodeShape.statePduc (k : SlotId) : CodeShape.Statement (.statePduc k) := (by decide : Machine.stateNum .pduc ≠ 15#4)
theorem CodeShape.stateUnknown (k : SlotId) : CodeShape.Statement (.stateUnknown k) := (by decide : Machine.stateNum .unknown ≠ 15#4)

end Sys2Proof.Laws
end

