-- ==== Sys2Proof/Laws/RsCore.lean ====
section
/-! SUPPORT. RS_CORE in terms of the errors (44_fec R335, R338): the syndromes of a word are the sums of
powers of its errors, and the decoder finds them. -/

namespace Sys2Proof.Machine

open Polynomial

variable {K : Type} [Field K] {φ : Gf → K}

/-- P(β) as a sum over the coefficients. -/
theorem polyEval_sum (h : GfEmb φ) (p : List Gf) (x : Gf) :
    φ (polyEval p x) = ∑ k ∈ Finset.range p.length, φ (polyCoeff p k) * φ x ^ k := by
  rw [← eval_toPoly h]
  by_cases hp : p = []
  · subst hp; simp [toPoly]
  · rw [eval_eq_sum_range' (natDegree_toPoly_lt φ p hp)]
    exact Finset.sum_congr rfl fun k _ => by rw [coeff_toPoly h]

/-- The word with the value e(i) added at each position i of a set. -/
def addErrors (E : Finset Nat) (e : Nat → Gf) (r : List Gf) : List Gf :=
  r.mapIdx (fun i ri => if i ∈ E then gfAdd ri (e i) else ri)

@[simp] theorem addErrors_length (E : Finset Nat) (e : Nat → Gf) (r : List Gf) :
    (addErrors E e r).length = r.length := by simp [addErrors]

@[simp] theorem addErrors_empty (e : Nat → Gf) (r : List Gf) : addErrors ∅ e r = r := by
  refine List.ext_getElem (addErrors_length _ _ _) fun i h1 h2 => ?_
  simp [addErrors]

theorem addErrors_getD (E : Finset Nat) (e : Nat → Gf) (r : List Gf) (i : Nat) (hi : i < r.length) :
    (addErrors E e r).getD i 0#6 = if i ∈ E then gfAdd (r.getD i 0#6) (e i) else r.getD i 0#6 := by
  simp [addErrors, List.getD_eq_getElem?_getD, hi]

theorem polyEval_addErrors (h : GfEmb φ) (E : Finset Nat) (e : Nat → Gf) (r : List Gf)
    (hE : ∀ i ∈ E, i < r.length) (x : Gf) :
    φ (polyEval (addErrors E e r) x) = φ (polyEval r x) + ∑ i ∈ E, φ (e i) * φ x ^ i := by
  have hsub : E ⊆ Finset.range r.length := fun i hi => Finset.mem_range.2 (hE i hi)
  rw [polyEval_sum h, polyEval_sum h, addErrors_length]
  have hs : ∑ i ∈ E, φ (e i) * φ x ^ i =
      ∑ i ∈ Finset.range r.length, if i ∈ E then φ (e i) * φ x ^ i else 0 := by
    rw [Finset.sum_ite_mem, Finset.inter_eq_right.2 hsub]
  rw [hs, ← Finset.sum_add_distrib]
  refine Finset.sum_congr rfl fun i hi => ?_
  unfold polyCoeff
  rw [addErrors_getD E e r i (Finset.mem_range.1 hi)]
  split
  · rw [h.add, add_mul]
  · rw [add_zero]

theorem rsSyndromes_length (r : List Gf) (t : Nat) : (rsSyndromes r t).length = 2 * t := by simp [rsSyndromes]

omit [Field K] in
theorem synSeq_rsSyndromes (φ : Gf → K) (r : List Gf) (t j : Nat) (hj : j < 2 * t) :
    synSeq φ (rsSyndromes r t) j = φ (polyEval r (gfExp (j + 1))) := by
  simp [synSeq, polyCoeff, rsSyndromes, List.getD_eq_getElem?_getD, hj]

theorem rsSyndromes_all_zero (r : List Gf) (t : Nat) :
    (rsSyndromes r t).all (fun x => decide (x = 0#6)) = true ↔
      ∀ j, 1 ≤ j → j ≤ 2 * t → polyEval r (gfExp j) = 0#6 := by
  simp only [rsSyndromes, List.all_map, List.all_eq_true, List.mem_range, Function.comp_apply, decide_eq_true_eq]
  constructor
  · intro h j h1 h2
    have := h (j - 1) (by omega)
    rwa [Nat.sub_add_cancel h1] at this
  · intro h j hj
    exact h (j + 1) (by omega) (by omega)

/-- The powers of α at position i: x_i^j = α^(i·j). -/
theorem locator_pow (h : GfEmb φ) (i j : Nat) : φ (gfExp i) ^ j = φ (gfExp j) ^ i := by
  rw [h.exp i, h.exp j, ← pow_mul, ← pow_mul, Nat.mul_comm]

/-- The evaluator's list is the evaluator. -/
theorem toPoly_rsOmega (h : GfEmb φ) (syn lam : List Gf) :
    toPoly φ (rsOmega syn lam) = omegaPoly (synSeq φ syn) (toPoly φ lam) syn.length := by
  ext k
  rw [coeff_toPoly h, coeff_omegaPoly]
  split
  · rename_i hk
    have e : polyCoeff (rsOmega syn lam) k =
        gfSum ((List.range (k + 1)).map fun i => gfMul (polyCoeff syn i) (polyCoeff lam (k - i))) := by
      simp [polyCoeff, rsOmega, List.getD_eq_getElem?_getD, hk]
    rw [e, gfSum_range h, disc, ← Finset.sum_range_reflect]
    refine Finset.sum_congr rfl fun i hi => ?_
    have := Finset.mem_range.1 hi
    rw [h.mul, coeff_toPoly h, mul_comm, show k - (k + 1 - 1 - i) = i by omega]
    rfl
  · rename_i hk
    have e : polyCoeff (rsOmega syn lam) k = 0#6 := by
      unfold polyCoeff rsOmega
      rw [List.getD_eq_default]
      simpa using hk
    rw [e, h.zero]

theorem forney_eq (h : GfEmb φ) (om lam : List Gf) (i : Nat) (hi : i < 63)
    (hne : (derivative (toPoly φ lam)).eval (φ (gfExp i))⁻¹ ≠ 0) :
    φ (forney om lam i) = (toPoly φ om).eval (φ (gfExp i))⁻¹ / (derivative (toPoly φ lam)).eval (φ (gfExp i))⁻¹ := by
  have hd : φ (polyEval (polyDeriv lam) (gfExp (63 - i))) = (derivative (toPoly φ lam)).eval (φ (gfExp i))⁻¹ := by
    rw [← eval_toPoly h, toPoly_deriv h, h.exp_inv i (by omega)]
  have h0 : polyEval (polyDeriv lam) (gfExp (63 - i)) ≠ 0#6 := fun e => hne (by rw [← hd, e, h.zero])
  unfold forney
  rw [h.mul, h.inv _ h0, hd, ← eval_toPoly h, h.exp_inv i (by omega), div_eq_mul_inv]

theorem mem_rsRoots (h : GfEmb φ) (lam : List Gf) (i : Nat) :
    i ∈ rsRoots lam ↔ i < 63 ∧ (toPoly φ lam).eval (φ (gfExp i))⁻¹ = 0 := by
  simp only [rsRoots, List.mem_filter, List.mem_range, decide_eq_true_eq]
  refine and_congr_right fun hi => ?_
  rw [← h.exp_inv i (by omega), eval_toPoly h, h.eq_zero]

theorem rsRoots_nodup (lam : List Gf) : (rsRoots lam).Nodup := List.nodup_range.filter _

/-- A word whose syndromes are those of at most t errors is decoded by adding these errors
(44_fec R338). -/
theorem rsCore_of_errors (h : GfEmb φ) (r : List Gf) (t : Nat) (E : Finset Nat) (e : Nat → Gf)
    (hE : ∀ i ∈ E, i < 63) (he : ∀ i ∈ E, e i ≠ 0#6) (hcard : E.card ≤ t)
    (hsyn : ∀ j, 1 ≤ j → j ≤ 2 * t → φ (polyEval r (gfExp j)) = ∑ i ∈ E, φ (e i) * φ (gfExp j) ^ i) :
    rsCore r t = ⟨true, addErrors E e r, E.card⟩ := by
  have hpow : IsPowers E (fun i => φ (e i)) (fun i => φ (gfExp i)) (synSeq φ (rsSyndromes r t)) (2 * t) := by
    refine ⟨fun i _ => h.exp_ne i, fun i hi j hj => h.exp_inj i j (hE i hi) (hE j hj), fun j hj => ?_⟩
    rw [synSeq_rsSyndromes φ r t j hj, hsyn (j + 1) (by omega) (by omega)]
    exact Finset.sum_congr rfl fun i _ => by rw [locator_pow h]
  have ha : ∀ i ∈ E, φ (e i) ≠ 0 := fun i hi hz => he i hi ((h.eq_zero _).1 hz)
  have hone := bmInv h (rsSyndromes r t)
  rw [rsSyndromes_length] at hone
  obtain ⟨hl, hdeg, hroot, honly⟩ := locator_of_powers E _ _ _ (2 * t) _ hpow ha (by omega) _ hone.one hone.deg
    hone.zero hone.least
  have hP0 : toPoly φ (berlekampMassey (rsSyndromes r t)).c ≠ 0 := fun e0 => by
    have := hone.one
    rw [e0, coeff_zero] at this
    exact zero_ne_one this
  have hmem : ∀ i, i ∈ rsRoots (berlekampMassey (rsSyndromes r t)).c ↔ i ∈ E := by
    intro i
    rw [mem_rsRoots h]
    constructor
    · rintro ⟨hi, hz⟩
      obtain ⟨j, hj, e⟩ := honly _ hz
      rwa [h.exp_inj i j hi (hE j hj) (inv_injective e)]
    · exact fun hi => ⟨hE i hi, hroot i hi⟩
  have hlen : (rsRoots (berlekampMassey (rsSyndromes r t)).c).length = E.card := by
    rw [← List.toFinset_card_of_nodup (rsRoots_nodup _)]
    congr 1
    ext i
    rw [List.mem_toFinset, hmem]
  unfold rsCore
  dsimp only
  split
  · rename_i hz
    -- no error at all
    have hEmpty : E = ∅ := by
      by_contra hne
      obtain ⟨f, hf⟩ := Finset.nonempty_iff_ne_empty.2 hne
      have hz := (rsSyndromes_all_zero r t).1 hz
      have := powers_independent E (fun i => φ (gfExp i)) (fun i => φ (e i) * φ (gfExp i)) hpow.inj (fun k hk => by
        rw [← h.zero, ← hz (k + 1) (by omega) (by omega), ← synSeq_rsSyndromes φ r t k (by omega), hpow.sum k (by omega)]
        exact Finset.sum_congr rfl fun i _ => by ring) f hf
      exact (mul_ne_zero (ha f hf) (h.exp_ne f)) this
    subst hEmpty
    simp
  · rw [if_neg (by rw [hl, ← natDegree_toPoly h, hdeg, hlen]; omega), hl]
    congr 1
    unfold addErrors
    congr 1
    funext i ri
    have hc : (rsRoots (berlekampMassey (rsSyndromes r t)).c).contains i = true ↔ i ∈ E := by
      rw [List.contains_iff_mem, hmem]
    by_cases hi : i ∈ E
    · rw [if_pos (hc.2 hi), if_pos hi]
      congr 1
      have hd := derivative_ne_zero_at_root E _ hpow.inj _ hP0 hdeg hroot i hi
      apply h.inj
      rw [forney_eq h _ _ i (hE i hi) hd, toPoly_rsOmega h, rsSyndromes_length,
        forney_value E _ _ _ (2 * t) hpow _ hroot (by omega) i hi, h.neg, mul_div_assoc, div_self hd, mul_one]
    · rw [if_neg (fun hx => hi (hc.1 hx)), if_neg hi]

/-- A decoded word has all its syndromes zero, and is the received one with at most t values added
(44_fec R338). -/
theorem rsCore_ok (h : GfEmb φ) (r : List Gf) (t : Nat) (hlen : r.length = 63) (hok : (rsCore r t).ok = true) :
    (∀ j, 1 ≤ j → j ≤ 2 * t → polyEval (rsCore r t).word (gfExp j) = 0#6) ∧
    ∃ (E : Finset Nat) (e : Nat → Gf), (∀ i ∈ E, i < 63) ∧ E.card ≤ t ∧ (rsCore r t).word = addErrors E e r := by
  revert hok
  unfold rsCore
  dsimp only
  split
  · rename_i hz
    intro _
    refine ⟨(rsSyndromes_all_zero r t).1 hz, ∅, fun _ => 0#6, by simp, by simp, ?_⟩
    simp
  · split
    · simp
    · rename_i hz hc
      intro _
      have hone := bmInv h (rsSyndromes r t)
      rw [rsSyndromes_length] at hone
      generalize hv : berlekampMassey (rsSyndromes r t) = v at hc hone ⊢
      push Not at hc
      obtain ⟨hlt, hdeg, hroots⟩ := hc
      have hcard : (rsRoots v.c).toFinset.card = v.l := by
        rw [List.toFinset_card_of_nodup (rsRoots_nodup _), hroots]
      have hE : ∀ i ∈ (rsRoots v.c).toFinset, i < 63 := fun i hi =>
        ((mem_rsRoots h _ i).1 (List.mem_toFinset.1 hi)).1
      have hroot : ∀ i ∈ (rsRoots v.c).toFinset, (toPoly φ v.c).eval (φ (gfExp i))⁻¹ = 0 := fun i hi =>
        ((mem_rsRoots h _ i).1 (List.mem_toFinset.1 hi)).2
      have hP0 : toPoly φ v.c ≠ 0 := fun e0 => by
        have := hone.one
        rw [e0, coeff_zero] at this
        exact zero_ne_one this
      have hd : (toPoly φ v.c).natDegree = (rsRoots v.c).toFinset.card := by
        rw [natDegree_toPoly h, hdeg, hcard]
      have hpow := powers_of_locator (rsRoots v.c).toFinset (fun i => φ (gfExp i)) (synSeq φ (rsSyndromes r t)) (2 * t)
        (fun i _ => h.exp_ne i) (fun i hi j hj => h.exp_inj i j (hE i hi) (hE j hj)) (toPoly φ v.c) hone.one
        hd (by omega) hroot (by rw [hcard]; exact hone.zero)
      have hval : ∀ i ∈ (rsRoots v.c).toFinset, φ (forney (rsOmega (rsSyndromes r t) v.c) v.c i) =
          -((omegaPoly (synSeq φ (rsSyndromes r t)) (toPoly φ v.c) (2 * t)).eval (φ (gfExp i))⁻¹ /
            (derivative (toPoly φ v.c)).eval (φ (gfExp i))⁻¹) := by
        intro i hi
        rw [forney_eq h _ _ i (hE i hi) (derivative_ne_zero_at_root _ _ hpow.inj _ hP0 hd hroot i hi), toPoly_rsOmega h,
          rsSyndromes_length, h.neg]
      have hword : r.mapIdx (fun i ri => if (rsRoots v.c).contains i then
            gfAdd ri (forney (rsOmega (rsSyndromes r t) v.c) v.c i) else ri) =
          addErrors (rsRoots v.c).toFinset (forney (rsOmega (rsSyndromes r t) v.c) v.c) r := by
        unfold addErrors
        congr 1
        funext i ri
        simp only [List.contains_iff_mem, List.mem_toFinset]
      refine ⟨fun j h1 h2 => ?_, _, _, hE, by omega, hword⟩
      rw [hword, ← h.eq_zero, polyEval_addErrors h _ _ _ (by rw [hlen]; exact hE)]
      have hs := hpow.sum (j - 1) (by omega)
      rw [synSeq_rsSyndromes φ r t _ (by omega), Nat.sub_add_cancel h1] at hs
      rw [hs, ← h.two (∑ i ∈ (rsRoots v.c).toFinset, φ (forney (rsOmega (rsSyndromes r t) v.c) v.c i) * φ (gfExp j) ^ i)]
      congr 1
      refine Finset.sum_congr rfl fun i hi => ?_
      rw [hval i hi, locator_pow h]

end Sys2Proof.Machine
end

