-- ==== Sys2Proof/Laws/Synchronizer.lean ====
section
/-! SUPPORT. The phase error of the Costas loop is finite and at most 2 in magnitude, whatever the symbol
(40_synchronizer R154). -/

namespace Sys2Proof.Machine

/-- A power of two of units is a representable value. -/
theorem exists_units_pow (j : Nat) (h : j ≤ 276) : ∃ (e : Fin 255) (m : BitVec 23), F32.units e m = 2 ^ j := by
  rcases Nat.lt_or_ge j 23 with hj | hj
  · refine ⟨0, BitVec.ofNat 23 (2 ^ j), ?_⟩
    have h2 : 2 ^ j < 2 ^ 23 := Nat.pow_lt_pow_right (by decide) hj
    simp only [F32.units, Fin.val_zero, if_true, BitVec.toNat_ofNat]
    exact Nat.mod_eq_of_lt h2
  · refine ⟨⟨j - 22, by omega⟩, 0, ?_⟩
    have h2 : ¬ j - 22 = 0 := by omega
    simp only [F32.units, h2, if_false]
    rw [show (0 : BitVec 23).toNat = 0 by rfl, Nat.add_zero, ← Nat.pow_add]
    congr 1
    omega

/-- A square that does not overflow is at least the power of two below it. -/
theorem le_ord_square (b : Bool) (e : Fin 255) (m : BitVec 23) (k : Nat)
    (hk : 75 ≤ k) (h : 2 ^ k ≤ F32.units e m)
    (hf : (F32.mul (.fin b e m) (.fin b e m)).isFinite = true) :
    2 * k - 149 ≤ 276 ∧ (2 ^ (2 * k - 149) : Int) ≤ (F32.mul (.fin b e m) (.fin b e m)).ord := by
  have hsq : 2 ^ (2 * k - 149) * 2 ^ 149 ≤ F32.units e m * F32.units e m := by
    rw [← Nat.pow_add, show 2 * k - 149 + 149 = k + k by omega, Nat.pow_add]
    exact Nat.mul_le_mul h h
  have hm : F32.mul (.fin b e m) (.fin b e m) =
      F32.round false (F32.units e m * F32.units e m) (2 ^ 149) := by
    simp [F32.mul]
  rw [hm] at hf ⊢
  have hle : 2 * k - 149 ≤ 276 := by
    by_contra hc
    have h1 : 2 ^ 277 * 2 ^ 149 ≤ F32.units e m * F32.units e m :=
      Nat.le_trans (Nat.mul_le_mul_right _ (Nat.pow_le_pow_right (by decide) (by omega))) hsq
    have h2 := F32.roundPattern_mono _ _ (2 ^ 149) (by positivity) h1
    have h3 : F32.roundPattern (2 ^ 277 * 2 ^ 149) (2 ^ 149) = 255 * 2 ^ 23 := by decide +kernel
    rw [h3] at h2
    rw [F32.round_eq] at hf
    unfold F32.ofMag at hf
    rw [dif_neg (by omega)] at hf
    simp [F32.isFinite] at hf
  refine ⟨hle, ?_⟩
  obtain ⟨f, n, hu⟩ := exists_units_pow _ hle
  have := F32.le_ord_round (F32.units e m * F32.units e m) (2 ^ 149) (by positivity) f n (by rw [hu]; exact hsq)
  rw [hu] at this
  exact_mod_cast this

/-- Half a component is at most the rounded magnitude, when that is positive and finite. -/
theorem component_le_magnitude (b : Bool) (e : Fin 255) (m : BitVec 23) (f : Fin 255) (n : BitVec 23)
    (hs : 0 < F32.units f n)
    (hf : (F32.mul (.fin b e m) (.fin b e m)).isFinite = true)
    (h : (F32.mul (.fin b e m) (.fin b e m)).ord ≤ (F32.fin false f n).ord) :
    (F32.units e m : Int) ≤ 2 * (F32.sqrt (.fin false f n)).ord := by
  have h74 : (2 ^ 74 : Int) ≤ (F32.sqrt (.fin false f n)).ord := by
    obtain ⟨g, l, hu⟩ := exists_units_pow 74 (by decide)
    have := F32.le_ord_sqrt f n g l hs (by
      rw [hu, ← Nat.pow_add]
      calc 2 ^ (74 + 74) ≤ 1 * 2 ^ 149 := by decide
        _ ≤ _ := Nat.mul_le_mul_right _ hs)
    rw [hu] at this
    exact_mod_cast this
  rcases Nat.lt_or_ge (F32.units e m) (2 ^ 75) with hlt | hge
  · have : (F32.units e m : Int) < 2 ^ 75 := by exact_mod_cast hlt
    omega
  · have hn : F32.units e m ≠ 0 := by
      have : 1 ≤ 2 ^ 75 := Nat.one_le_two_pow
      omega
    have hk : 75 ≤ Nat.log2 (F32.units e m) := (Nat.le_log2 hn).2 hge
    have hlo := Nat.log2_self_le hn
    have hhi : F32.units e m < 2 ^ (Nat.log2 (F32.units e m) + 1) := Nat.lt_log2_self
    generalize Nat.log2 (F32.units e m) = k at *
    obtain ⟨h1, h2⟩ := le_ord_square b e m k hk hlo hf
    have hk' : k ≤ 276 := by omega
    obtain ⟨g, l, hu⟩ := exists_units_pow k hk'
    rw [F32.ord_fin_false] at h
    have hS : 2 ^ (2 * k - 149) ≤ F32.units f n := by
      have := h2.trans h
      exact_mod_cast this
    have := F32.le_ord_sqrt f n g l hs (by
      rw [hu, ← Nat.pow_add]
      calc 2 ^ (k + k) = 2 ^ (2 * k - 149) * 2 ^ 149 := by
            rw [← Nat.pow_add, show 2 * k - 149 + 149 = k + k by omega]
        _ ≤ _ := Nat.mul_le_mul_right _ hS)
    rw [hu] at this
    have hhi' : (F32.units e m : Int) < 2 ^ (k + 1) := by exact_mod_cast hhi
    have h3 : ((2 ^ k : Nat) : Int) = 2 ^ k := by push_cast; rfl
    rw [h3] at this
    have h4 : (2 : Int) ^ (k + 1) = 2 * 2 ^ k := by ring
    omega

/-- A component divided by a magnitude at least half of it is finite and at most 2. -/
theorem div_le_two (b : Bool) (e : Fin 255) (m : BitVec 23) (M : F32) (hM : M.isFinite = true)
    (hp : 0 < M.ord) (h : (F32.units e m : Int) ≤ 2 * M.ord) :
    (F32.div (.fin b e m) M).isNaN = false ∧
      -(2 ^ 150) ≤ (F32.div (.fin b e m) M).ord ∧ (F32.div (.fin b e m) M).ord ≤ 2 ^ 150 := by
  cases M with
  | nan => simp [F32.isFinite] at hM
  | inf _ => simp [F32.isFinite] at hM
  | fin c f n =>
    cases c
    · rw [F32.ord_fin_false] at hp h
      have hn : F32.units f n ≠ 0 := by omega
      have hu : F32.units e m ≤ 2 * F32.units f n := by omega
      have h2 : (F32.round false (F32.units e m * 2 ^ 149) (F32.units f n)).ord ≤ 2 ^ 150 := by
        obtain ⟨g, l, hl⟩ := exists_units_pow 150 (by decide)
        have := F32.ord_round_le (F32.units e m * 2 ^ 149) (F32.units f n) (by omega) g l (by
          rw [hl]
          calc F32.units e m * 2 ^ 149 ≤ 2 * F32.units f n * 2 ^ 149 := Nat.mul_le_mul_right _ hu
            _ = 2 ^ 150 * F32.units f n := by ring)
        rw [hl] at this
        exact_mod_cast this
      have h3 := F32.ord_round_nonneg (F32.units e m * 2 ^ 149) (F32.units f n)
      have h4 := F32.ord_round_true (F32.units e m * 2 ^ 149) (F32.units f n)
      have h5 : F32.div (.fin b e m) (.fin false f n) =
          F32.round (b != false) (F32.units e m * 2 ^ 149) (F32.units f n) := by
        simp [F32.div, hn]
      rw [h5]
      refine ⟨F32.isNaN_round _ _ _, ?_⟩
      cases b
      · rw [show (false != false) = false by rfl]
        omega
      · rw [show (true != false) = true by rfl]
        omega
    · rw [F32.ord_fin_true] at hp
      omega

theorem ord_abs (x : F32) (h : x.isNaN = false) : x.abs.isNaN = false ∧ 0 ≤ x.abs.ord ∧ x.abs.ord ≤ |x.ord| := by
  cases x with
  | nan => simp [F32.isNaN] at h
  | inf b => cases b <;> simp [F32.abs, F32.isNaN, F32.ord]
  | fin b e m => cases b <;> simp [F32.abs, F32.isNaN]

/-- A sum of two squares that is finite has finite terms, each at most the sum. -/
theorem square_le_sum (a b : F32) (hf : (F32.add (F32.mul a a) (F32.mul b b)).isFinite = true) :
    a.isFinite = true ∧ b.isFinite = true ∧
    (F32.mul a a).isFinite = true ∧ (F32.mul b b).isFinite = true ∧
    (F32.mul a a).ord ≤ (F32.add (F32.mul a a) (F32.mul b b)).ord ∧
    (F32.mul b b).ord ≤ (F32.add (F32.mul a a) (F32.mul b b)).ord := by
  have hfin : ∀ x y : F32, (F32.add x y).isFinite = true → x.isFinite = true ∧ y.isFinite = true := by
    intro x y h
    cases x <;> cases y <;> simp [F32.add, F32.isFinite] at h ⊢
    rename_i p q
    by_cases hpq : p = q <;> simp [hpq] at h
  have hsq : ∀ x : F32, (F32.mul x x).isFinite = true → x.isFinite = true ∧ 0 ≤ (F32.mul x x).ord := by
    intro x h
    cases x with
    | nan => simp [F32.mul, F32.isFinite] at h
    | inf _ => simp [F32.mul, F32.isFinite] at h
    | fin p e m =>
      refine ⟨rfl, ?_⟩
      have : F32.mul (.fin p e m) (.fin p e m) =
          F32.round false (F32.units e m * F32.units e m) (2 ^ 149) := by simp [F32.mul]
      rw [this]
      exact F32.ord_round_nonneg _ _
  obtain ⟨h1, h2⟩ := hfin _ _ hf
  obtain ⟨h3, h4⟩ := hsq a h1
  obtain ⟨h5, h6⟩ := hsq b h2
  exact ⟨h3, h5, h1, h2, F32.le_ord_add _ _ _ h1 h2 h1 (by omega), F32.le_ord_add _ _ _ h1 h2 h2 (by omega)⟩

/-- COSTAS_ERR is finite and at most 2 in magnitude (40_synchronizer R154). -/
theorem costasErr_bounded (d : Cplx) : (costasErr d).isFinite = true ∧
    -(2 ^ 150) ≤ (costasErr d).ord ∧ (costasErr d).ord ≤ 2 ^ 150 := by
  have hz : F32.zero.isFinite = true ∧ -(2 ^ 150) ≤ F32.zero.ord ∧ F32.zero.ord ≤ 2 ^ 150 := by
    decide +kernel
  obtain ⟨re, im⟩ := d
  unfold costasErr
  dsimp only
  generalize hS : F32.add (F32.mul re re) (F32.mul im im) = S
  split
  · rename_i hc
    simp only [Bool.and_eq_true, F32.gt, F32.lt, Bool.not_eq_true', decide_eq_true_eq] at hc
    obtain ⟨⟨-, hpos⟩, ⟨hnan, -⟩, hlt⟩ := hc
    have hpos' : 0 < (F32.sqrt S).ord := by
      rwa [show F32.zero.ord = 0 by rfl] at hpos
    have hlt' : (F32.sqrt S).ord < 2 ^ 277 := hlt
    have hMF := F32.isFinite_of_ord _ hnan (by
      have : (0 : Int) < 2 ^ 277 := by positivity
      omega) hlt'
    -- S is a positive finite value
    have hSform : ∃ f n, S = .fin false f n ∧ 0 < F32.units f n := by
      cases S with
      | nan => simp [F32.sqrt, F32.isNaN] at hnan
      | inf b => cases b <;> simp [F32.sqrt, F32.isFinite] at hMF
      | fin b f n =>
        by_cases h0 : F32.units f n = 0
        · exfalso
          unfold F32.sqrt at hpos'
          dsimp only at hpos'
          rw [if_pos h0] at hpos'
          cases b
          · rw [F32.ord_fin_false] at hpos'
            omega
          · rw [F32.ord_fin_true] at hpos'
            omega
        · cases b
          · exact ⟨f, n, rfl, by omega⟩
          · unfold F32.sqrt at hnan
            dsimp only at hnan
            rw [if_neg h0, if_pos rfl] at hnan
            simp [F32.isNaN] at hnan
    obtain ⟨f, n, rfl, hu⟩ := hSform
    obtain ⟨r1, r2, r3, r4, r5, r6⟩ := square_le_sum re im (by rw [hS]; rfl)
    rw [hS] at r5 r6
    have key : ∀ x : F32, x.isFinite = true → (F32.mul x x).isFinite = true →
        (F32.mul x x).ord ≤ (F32.fin false f n).ord →
        (F32.div x (F32.sqrt (.fin false f n))).isNaN = false ∧
          -(2 ^ 150) ≤ (F32.div x (F32.sqrt (.fin false f n))).ord ∧
          (F32.div x (F32.sqrt (.fin false f n))).ord ≤ 2 ^ 150 := by
      intro x hx h1 h2
      cases x with
      | nan => simp [F32.isFinite] at hx
      | inf _ => simp [F32.isFinite] at hx
      | fin b e m =>
        exact div_le_two b e m _ hMF hpos' (component_le_magnitude b e m f n hu h1 h2)
    obtain ⟨a1, a2, a3⟩ := key re r1 r3 r5
    obtain ⟨b1, b2, b3⟩ := key im r2 r4 r6
    generalize F32.div re (F32.sqrt (.fin false f n)) = p at *
    generalize F32.div im (F32.sqrt (.fin false f n)) = q at *
    obtain ⟨p1, p2, p3⟩ := ord_abs p a1
    obtain ⟨q1, q2, q3⟩ := ord_abs q b1
    have p4 : p.abs.ord ≤ 2 ^ 150 := p3.trans (abs_le.2 ⟨a2, a3⟩)
    have q4 : q.abs.ord ≤ 2 ^ 150 := q3.trans (abs_le.2 ⟨b2, b3⟩)
    have big : (2 : Int) ^ 150 < 2 ^ 277 := by
      exact_mod_cast Nat.pow_lt_pow_right (show 1 < 2 by decide) (show 150 < 277 by decide)
    have two : ∃ t : F32, t.isFinite = true ∧ t.ord = 2 ^ 150 :=
      ⟨F32.ofBits Config.two, by decide +kernel, by decide +kernel⟩
    obtain ⟨t, ht, hto⟩ := two
    have sub : ∀ x y : F32, x.isNaN = false → y.isNaN = false → 0 ≤ x.ord → x.ord ≤ 2 ^ 150 → 0 ≤ y.ord →
        y.ord ≤ 2 ^ 150 → (F32.sub x y).isFinite = true ∧ -(2 ^ 150) ≤ (F32.sub x y).ord ∧
          (F32.sub x y).ord ≤ 2 ^ 150 := by
      intro x y hx hy hx0 hx1 hy0 hy1
      have hxf := F32.isFinite_of_ord x hx (by omega) (by omega)
      have hyf : y.neg.isFinite = true := by
        rw [F32.isFinite_neg]
        exact F32.isFinite_of_ord y hy (by omega) (by omega)
      have h1 := F32.ord_add_le x y.neg t hxf hyf ht (by rw [F32.ord_neg]; omega)
      have h2 := F32.le_ord_add x y.neg t.neg hxf hyf (by simpa using ht) (by
        rw [F32.ord_neg, F32.ord_neg]
        omega)
      rw [F32.ord_neg, hto] at h2
      rw [hto] at h1
      exact ⟨F32.isFinite_of_ord _ (F32.add_isNaN _ _ hxf hyf) (by unfold F32.sub at *; omega)
        (by unfold F32.sub at *; omega), h2, h1⟩
    unfold costasDiff
    dsimp only
    generalize hE : (if F32.ge p F32.zero = F32.ge q F32.zero then F32.sub q.abs p.abs
      else F32.sub p.abs q.abs) = E
    have hEb : E.isFinite = true ∧ -(2 ^ 150) ≤ E.ord ∧ E.ord ≤ 2 ^ 150 := by
      subst hE
      split
      · exact sub _ _ q1 p1 q2 q4 p2 p4
      · exact sub _ _ p1 q1 p2 p4 q2 q4
    split
    · exact hz
    · exact hEb
  · exact hz

end Sys2Proof.Machine
end

