-- ==== Sys2Proof/Laws/Wrap.lean ====
section
/-! SUPPORT. The loops of WRAP (40_synchronizer R152): once for both, what a loop answers, and that its
bound cuts no loop short that ends. -/

namespace Sys2Proof.Machine

/-- A number of its own below 2^32 for every binary32 value. -/
def f32Code : F32 → Nat
  | .nan => 0
  | .inf b => 1 + b.toNat
  | .fin b e m => 3 + (b.toNat * 255 + e.val) * 2 ^ 23 + m.toNat

theorem f32Code_lt (x : F32) : f32Code x < 2 ^ 32 := by
  cases x with
  | nan => decide
  | inf b => cases b <;> decide
  | fin b e m =>
    have he := e.isLt
    have hm := m.isLt
    have hb : b.toNat < 2 := b.toNat_lt
    simp only [f32Code]
    omega

theorem f32Code_injective : Function.Injective f32Code := by
  intro x y h
  match x, y with
  | .nan, .nan => rfl
  | .nan, .inf b => cases b <;> simp [f32Code] at h
  | .inf b, .nan => cases b <;> simp [f32Code] at h
  | .inf b, .inf c => cases b <;> cases c <;> simp_all [f32Code]
  | .nan, .fin .. => simp only [f32Code] at h; omega
  | .fin .., .nan => simp only [f32Code] at h; omega
  | .inf b, .fin .. => cases b <;> simp only [f32Code, Bool.toNat] at h <;> dsimp only [cond] at h <;> omega
  | .fin .., .inf b => cases b <;> simp only [f32Code, Bool.toNat] at h <;> dsimp only [cond] at h <;> omega
  | .fin b e m, .fin c f n =>
    have he := e.isLt
    have hf := f.isLt
    have hm := m.isLt
    have hn := n.isLt
    simp only [f32Code] at h
    have hb : b = c := by
      cases b <;> cases c <;> simp only [Bool.toNat_true, Bool.toNat_false] at h <;> first | rfl | omega
    subst hb
    have he : e = f := Fin.ext (by omega)
    have hm : m = n := BitVec.eq_of_toNat_eq (by omega)
    rw [he, hm]

/-- A loop that ends after `m` turns met `m + 1` different values, so `m` is below the bound. -/
theorem turns_lt_loopBound {p : F32 → Bool} {f : F32 → F32} {x : F32} {m : Nat}
    (hp : ∀ j < m, p (f^[j] x) = true) (hm : p (f^[m] x) = false) : m < loopBound := by
  have distinct : ∀ i j, i < j → j ≤ m → f^[i] x ≠ f^[j] x := by
    intro i j hij hjm he
    have : f^[m] x = f^[m - j + i] x := by
      rw [Function.iterate_add_apply, he, ← Function.iterate_add_apply, Nat.sub_add_cancel hjm]
    rw [this, hp _ (by omega)] at hm
    cases hm
  have inj : Function.Injective
      (fun j : Fin (m + 1) => (⟨f32Code (f^[j.val] x), f32Code_lt _⟩ : Fin (2 ^ 32))) := by
    intro i j h
    have he := f32Code_injective (Fin.mk.inj h)
    rcases Nat.lt_trichotomy i.val j.val with hij | hij | hij
    · exact (distinct _ _ hij (by omega) he).elim
    · exact Fin.ext hij
    · exact (distinct _ _ hij (by omega) he.symm).elim
  have := Fintype.card_le_of_injective _ inj
  rw [Fintype.card_fin, Fintype.card_fin] at this
  exact this

/-- All a loop of at most `n` turns can answer: the first value its test refuses, if that comes in fewer
than `n` turns. -/
theorem repeatWhile_eq_some_iff (p : F32 → Bool) (f : F32 → F32) (n : Nat) (x y : F32) :
    repeatWhile p f n x = some y ↔
      ∃ m < n, (∀ j < m, p (f^[j] x) = true) ∧ p (f^[m] x) = false ∧ y = f^[m] x := by
  induction n generalizing x with
  | zero => simp [repeatWhile]
  | succ n ih =>
    rw [repeatWhile]
    split
    · rename_i hx
      constructor
      · intro h
        split at h
        · cases h
        · obtain ⟨m, hm, hp, hq, rfl⟩ := (ih _).1 h
          refine ⟨m + 1, by omega, fun j hj => ?_, hq, rfl⟩
          cases j with
          | zero => exact hx
          | succ j => exact hp j (by omega)
      · rintro ⟨m, hm, hp, hq, rfl⟩
        cases m with
        | zero => rw [Function.iterate_zero_apply, hx] at hq; cases hq
        | succ m =>
          have moves : f x ≠ x := fun he => by
            rw [Function.iterate_fixed he, hx] at hq; cases hq
          rw [if_neg moves]
          exact (ih _).2 ⟨m, by omega, fun j hj => hp (j + 1) (by omega), hq, rfl⟩
    · rename_i hx
      rw [Bool.not_eq_true] at hx
      constructor
      · intro h
        cases h
        exact ⟨0, by omega, fun j hj => absurd hj (Nat.not_lt_zero j), hx, rfl⟩
      · rintro ⟨m, hm, hp, hq, rfl⟩
        cases m with
        | zero => rfl
        | succ m => exact absurd (hp 0 (by omega)) (by simp [hx])

/-- A loop of WRAP answers the value it ends on, however many turns that takes. -/
theorem repeatWhile_of_ends {p : F32 → Bool} {f : F32 → F32} {x : F32} {m : Nat}
    (hp : ∀ j < m, p (f^[j] x) = true) (hm : p (f^[m] x) = false) :
    repeatWhile p f loopBound x = some (f^[m] x) :=
  (repeatWhile_eq_some_iff ..).2 ⟨m, turns_lt_loopBound hp hm, hp, hm, rfl⟩

end Sys2Proof.Machine
end

