-- ==== Sys2Proof/Tests/Slice0.lean ====
section
/-! SUPPORT. Small tests, each named by what it checks. Expected values are the spec's own examples (the
rule is named) or are worked out by hand from the rule. Tests of an operation that takes the parameters of
00_scope R8 use the test instantiation of 95_test_vectors §1. -/

namespace Sys2Proof.Machine

-- one check at a time: each test is evaluated by the kernel
set_option Elab.async false

/-! ## Small states -/

/-- The reset state with command words presented. -/
def testHost (ws : List Word) : State := State.reset.present ws

/-- An active slot in state `c` with a given buffer and capacity. -/
def testSlot (c : StateCode) (buf : List Bool) (cap : Nat) : Slot := ⟨true, false, c, buf, cap, 24⟩

/-- The reset state with slot 0 given. -/
def testBusy (v : Slot) : State := { State.reset with slot0 := v }

/-- The 64 bits of a NID: a codeword of 63 bits, then a zero bit. -/
def testNid (code : Nat) : List Bool := bitsOfNat 63 code ++ [false]

/-- The test instantiation of 95_test_vectors §1, with constants for F_SIN and F_COS at π/4. -/
def testParams : Config.Params where
  trellis12 := fun b => (!b 195, fun i => b ⟨i.val, by omega⟩)
  trellis34 := fun b => (!b 195, fun i => b ⟨i.val, by omega⟩)
  perm196 := Equiv.refl _
  fSin := fun _ => F32.ofBits 0x3F3504F3#32
  fCos := fun _ => F32.ofBits 0x3F3504F3#32

/-- A block of 196 bits: out, zeros up to bit 195, the fail bit (95_test_vectors §1). -/
def testBlock (out : List Bool) (fail : Bool) : List Bool :=
  out ++ List.replicate (195 - out.length) false ++ [fail]

/-- The next state of an outcome. -/
def testNext : Host.Outcome State Fault Refusal → Option State
  | .next t => some t
  | .fault _ => none
  | .refused _ => none

/-- The event words of an outcome. -/
def testEvents (o : Host.Outcome State Fault Refusal) : List Word :=
  ((testNext o).map (·.events)).getD []

/-! ## WellFormed refuses ill-formed terms -/

theorem test_wellFormed_refuses_no_dibit : (Instr.dibit8 []).wellFormed = false := by decide
theorem test_wellFormed_refuses_nine_dibits :
    (Instr.dibit8 (List.replicate 9 .d00)).wellFormed = false := by decide
theorem test_wellFormed_refuses_capability_zero : (Instr.rs 0#5).wellFormed = false := by decide
theorem test_wellFormed_refuses_short_crc : (Instr.crc 16#9 true).wellFormed = false := by decide
theorem test_wellFormed_refuses_long_crc : (Instr.crc 497#9 false).wellFormed = false := by decide

/-! ## Words written out from the encoding tables (30_encoding R113, R115, R130) -/

theorem test_decode_nop : decode [0x00000000#32] = .command .nop 1 := by decide
theorem test_decode_sample : decode [0x01000000#32, 0x3F800000#32, 0x00000000#32] =
    .command (.sample 0x3F800000#32 0x00000000#32) 3 := by decide
theorem test_decode_dibit : decode [0x02000001#32] = .command (.dibit .d01) 1 := by decide
theorem test_decode_dibit8 : decode [0x03085575#32] =
    .command (.dibit8 [.d01, .d01, .d01, .d01, .d01, .d11, .d01, .d01]) 1 := by decide
theorem test_decode_dibit8_partial : decode [0x03036C00#32] =
    .command (.dibit8 [.d01, .d10, .d11]) 1 := by decide
theorem test_decode_wrreg : decode [0x10000004#32, 0x00000010#32] =
    .command (.wrreg 0x04#8 0x10#32) 2 := by decide
theorem test_decode_rdreg : decode [0x11000004#32] = .command (.rdreg 0x04#8) 1 := by decide
theorem test_decode_scrwr : decode [0x1200000F#32, 0x80000000#32] =
    .command (.scrwr 15#4 0x80000000#32) 2 := by decide
theorem test_decode_scrrd : decode [0x13000003#32] = .command (.scrrd 3#4) 1 := by decide
theorem test_decode_sreset : decode [0x1F000000#32] = .command .sreset 1 := by decide
theorem test_decode_bch : decode [0x20000000#32] = .command .bch 1 := by decide
theorem test_decode_rs : decode [0x2100001F#32] = .command (.rs 31#5) 1 := by decide
theorem test_decode_tr12 : decode [0x22000000#32] = .command .tr12 1 := by decide
theorem test_decode_tr34 : decode [0x23000000#32] = .command .tr34 1 := by decide
theorem test_decode_crc : decode [0x24001060#32] = .command (.crc 96#9 true) 1 := by decide
theorem test_decode_deint : decode [0x25000000#32] = .command .deint 1 := by decide
theorem test_decode_intlv : decode [0x26000000#32] = .command .intlv 1 := by decide
theorem test_decode_state_nid : decodeState .s1 0#4 = some (.stateNid .s1) := by decide
theorem test_decode_state_hdu : decodeState .s1 1#4 = some (.stateHdu .s1) := by decide
theorem test_decode_state_ldu1 : decodeState .s0 2#4 = some (.stateLdu1 .s0) := by decide
theorem test_decode_state_ldu2 : decodeState .s0 3#4 = some (.stateLdu2 .s0) := by decide
theorem test_decode_state_tdu : decodeState .s0 4#4 = some (.stateTdu .s0) := by decide
theorem test_decode_state_tdulc : decodeState .s0 5#4 = some (.stateTdulc .s0) := by decide
theorem test_decode_state_tsbk1 : decodeState .s0 6#4 = some (.stateTsbk1 .s0) := by decide
theorem test_decode_state_tsbk2 : decodeState .s0 7#4 = some (.stateTsbk2 .s0) := by decide
theorem test_decode_state_tsbk3 : decodeState .s0 8#4 = some (.stateTsbk3 .s0) := by decide
theorem test_decode_state_pdu0 : decodeState .s0 9#4 = some (.statePdu0 .s0) := by decide
theorem test_decode_state_pdu1 : decodeState .s0 10#4 = some (.statePdu1 .s0) := by decide
theorem test_decode_state_pdu2 : decodeState .s0 11#4 = some (.statePdu2 .s0) := by decide
theorem test_decode_state_pdu3 : decodeState .s0 12#4 = some (.statePdu3 .s0) := by decide
theorem test_decode_state_pduc : decodeState .s0 13#4 = some (.statePduc .s0) := by decide
theorem test_decode_state_unknown : decodeState .s0 14#4 = some (.stateUnknown .s0) := by decide
theorem test_decode_state_fifteen : decodeState .s0 15#4 = none := by decide

/-- Program P9's illegal headers (30_encoding R116 a, c, b). -/
theorem test_decode_illegal : decode [0x7F000000#32] = .illegal .unassignedOpcode 0x7F#8 1 ∧
    decode [0x03000000#32] = .illegal .operandRange 0x03#8 1 ∧
    decode [0x10000100#32, 0x12345678#32] = .illegal .reservedBit 0x10#8 2 := by decide
/-- A dibit in an unused slot of DIBIT8 is a reserved bit (30_encoding R113). -/
theorem test_decode_dibit8_unused_slot :
    decode [0x03030100#32] = .illegal .reservedBit 0x03#8 1 := by decide
/-- A CRC header is complete by itself, a SAMPLE header is not (30_encoding R112). -/
theorem test_decode_incomplete : decode [0x01000000#32, 0#32] = .incomplete := by decide

/-! ## Register, scratch and reset commands -/

theorem test_nop_no_event : testNext (exec .nop State.reset) = some State.reset := by decide +kernel
/-- R434's example. -/
theorem test_rdreg_sync_len : testNext (exec (.rdreg 0x04#8) State.reset) =
    some { State.reset with events := [0x04000004#32, 0x00000030#32] } := by decide +kernel
/-- R433's example. -/
theorem test_wrreg_sync_len : testNext (exec (.wrreg 0x04#8 0x10#32) State.reset) =
    some { State.reset with syncLen := 16#7 } := by decide +kernel
/-- R433, R37: 0 is not a legal SYNC_LEN. -/
theorem test_wrreg_keeps_legal : testNext (exec (.wrreg 0x04#8 0x80#32) State.reset) = some State.reset := by
  decide +kernel
/-- R435's example. -/
theorem test_scrwr_first_bit : testNext (exec (.scrwr 0#4 0x80000000#32) State.reset) =
    some { State.reset with scr := 1#512 <<< 511 } := by decide +kernel
/-- R436's example. -/
theorem test_scrrd_word3 : testNext (exec (.scrrd 3#4) State.reset) =
    some { State.reset with events := [0x05000003#32, 0x00000000#32] } := by decide +kernel
/-- R436: scratch word 15 holds SCR[480..512). -/
theorem test_scrrd_word15 :
    testNext (exec (.scrrd 15#4) { State.reset with scr := 0xABCD1234#512 }) =
    some { State.reset with scr := 0xABCD1234#512, events := [0x0500000F#32, 0xABCD1234#32] } := by
  decide +kernel
/-- R432's example. -/
theorem test_sreset_frees_slot :
    testNext (exec .sreset { testBusy (testSlot .hdu [true] 712) with dropCnt := 5#32 }) =
      some State.reset := by decide +kernel

/-! ## FEC commands -/

/-- R437's example: a TDU NID with bit 20 flipped. -/
theorem test_bch_one_error :
    (bchCommand { State.reset with scr := 0x29333177728CED6E#512 <<< 448 }).scr =
      0x29333977728CED6E#512 <<< 448 := by decide +kernel
/-- R334's example. -/
theorem test_bch_codeword : bchCodeword 0x2933#16 = 0x14999CBBB94676B7 := by decide +kernel
/-- R352's and R438's example: one symbol error with t = 1. -/
theorem test_rs_one_error :
    (rsCommand 1 { State.reset with scr := 0x21#512 <<< 476 }) =
      { State.reset with fecResult := 0x00210003#32, events := [0x06210003#32] } := by decide +kernel
/-- R439's example, in both outcomes. -/
theorem test_tr12_fail_bit :
    (tr12Command testParams { State.reset with scr := 1#512 <<< 511 }).events = [0x06220001#32] ∧
    (tr12Command testParams { State.reset with scr := 1#512 <<< 316 }).events = [0x06220000#32] := by
  decide +kernel
/-- R440's example. -/
theorem test_tr34_ok : tr34Command testParams State.reset =
    { State.reset with fecResult := 0x00230001#32, events := [0x06230001#32] } := by decide +kernel
/-- R441's example, and R392's: with bit 5 set and FIX, the bit is cleared. -/
theorem test_crc_pass :
    testNext (exec (.crc 96#9 false) { State.reset with scr := 0xFFFF#512 <<< 416 }) =
    some { State.reset with
      scr := 0xFFFF#512 <<< 416, fecResult := 0x00240101#32, events := [0x06240101#32] } := by
  decide +kernel
theorem test_crc_fix :
    testNext (exec (.crc 96#9 true)
      { State.reset with scr := 0xFFFF#512 <<< 416 ||| 1#512 <<< 506 }) =
    some { State.reset with
      scr := 0xFFFF#512 <<< 416, fecResult := 0x00240203#32, events := [0x06240203#32] } := by
  decide +kernel
/-- R390's example: the ASCII bytes "123456789". -/
theorem test_crc16_check_value : crc16 (bitsOfNat 72 0x313233343536373839) = 0xCE3C#16 := by
  decide +kernel
/-- R442's and R443's examples, with the identity. -/
theorem test_deint_identity : deintCommand testParams { State.reset with scr := 1#512 <<< 317 } =
    { State.reset with scr := 1#512 <<< 317, fecResult := 0x00250001#32, events := [0x06250001#32] } := by
  decide +kernel
theorem test_intlv_identity : (intlvCommand testParams State.reset).events = [0x06260001#32] := by
  decide +kernel

/-! ## Dibit path -/

/-- R221's example: the bits 1, 0, 1 from reset. -/
theorem test_corr_three_bits : (corrBit true (corrBit false (corrBit true State.reset))).corrW = 5#64 ∧
    (corrBit true (corrBit false (corrBit true State.reset))).corrCnt = 3 := by decide +kernel
/-- R222's example: the reset pattern, 24 dibits, activates slot 0 at its last bit. -/
theorem test_dibit8_sync : (dibitsStep testParams
    [.d01, .d01, .d01, .d01, .d01, .d11, .d01, .d01, .d11, .d11, .d01, .d01,
     .d11, .d11, .d11, .d11, .d01, .d11, .d01, .d11, .d11, .d11, .d11, .d11] State.reset).slot0 =
    ⟨true, false, .nid, [], 64, 24⟩ := by decide +kernel
/-- R230's example: ctr 34, len 10, D01. -/
theorem test_dibit_stored : (dibitStep testParams .d01 (testBusy
      { testSlot .hdu (List.replicate 10 false) 712 with ctr := 34 })).slot0 =
    { testSlot .hdu (List.replicate 10 false ++ [false, true]) 712 with ctr := 35 } := by decide +kernel
/-- R230: at ctr 35 the dibit is skipped. -/
theorem test_dibit_skipped : (dibitStep testParams .d11 (testBusy
      { testSlot .hdu [true] 712 with ctr := 35 })).slot0 =
    { testSlot .hdu [true] 712 with ctr := 0 } := by decide +kernel
/-- R472: the second bit of a dibit finds the buffer full. -/
theorem test_dibit_buffer_full :
    (dibitStep testParams .d11 (testBusy (testSlot .tdu [true] 2))).events = [0x03000001#32] ∧
    (dibitStep testParams .d11 (testBusy (testSlot .tdu [true] 2))).slot0 = idleSlot 25 := by
  decide +kernel
/-- R262's example: a TDU of 92 bits, header 0x0142005C and 3 payload words. -/
theorem test_dibit_completes_tdu :
    (dibitStep testParams .d11 (testBusy (testSlot .tdu (List.replicate 90 false) 92))).events =
      [0x0142005C#32, 0#32, 0#32, 0x00000030#32] := by decide +kernel
/-- R233's example. -/
theorem test_third_detection_dropped :
    (detect { State.reset with slot0 := testSlot .hdu [] 712, slot1 := testSlot .hdu [] 712 }).events =
      [0x02000000#32] ∧
    (detect { State.reset with slot0 := testSlot .hdu [] 712, slot1 := testSlot .hdu [] 712 }).dropCnt =
      1#32 := by decide +kernel

/-! ## Synchronizer and slicer -/

/-- R155's example: y = (0x3F3504F3, 0xBF3504F3) and μ = 9. -/
theorem test_sample_from_reset :
    (sampleStep testParams ⟨F32.ofBits 0x3F800000#32, F32.zero⟩ State.reset).dl.get 0 =
      ⟨F32.ofBits 0x3F3504F3#32, F32.ofBits 0xBF3504F3#32⟩ ∧
    (sampleStep testParams ⟨F32.ofBits 0x3F800000#32, F32.zero⟩ State.reset).mu =
      F32.ofBits 0x41100000#32 := by decide +kernel
/-- R157: the first symbol after reset has no error, and μ grows by ω: 1 + 10 = 11; it decides D10. -/
theorem test_sample_symbol :
    (sampleStep testParams ⟨F32.zero, F32.zero⟩ { State.reset with
      mu := F32.ofBits 0x40000000#32, ctrl := 0x8#4 }).mu = F32.ofBits 0x41300000#32 ∧
    (sampleStep testParams ⟨F32.zero, F32.zero⟩ { State.reset with
      mu := F32.ofBits 0x40000000#32, ctrl := 0x8#4 }).events = [0x07000002#32] := by decide +kernel
/-- R153's example: the weights at fr = 0.5. -/
theorem test_interp_weights : interpWeights (F32.ofBits 0x3F000000#32) =
    (F32.ofBits 0xBD800000#32, F32.ofBits 0x3F100000#32, F32.ofBits 0x3F100000#32,
      F32.ofBits 0xBD800000#32) := by decide +kernel
/-- R154's example: 60 degrees. -/
theorem test_costas_err : costasErr ⟨F32.ofBits 0x3F000000#32, F32.ofBits 0x3F5DB3D7#32⟩ =
    F32.ofBits 0x3EBB67AE#32 := by decide +kernel
/-- R160's example: from freq 0 and e = 0.5. -/
theorem test_costas_update : (costasUpdate (F32.ofBits 0x3F000000#32) State.reset).freq =
    F32.ofBits 0x3A4BDE0F#32 := by decide +kernel
/-- R203's examples: (0.7071, 0.1) and (−0.2, −0.9). -/
theorem test_slice : slice ⟨F32.ofBits 0x3F350481#32, F32.ofBits 0x3DCCCCCD#32⟩ = .d00 ∧
    slice ⟨F32.ofBits 0xBE4CCCCD#32, F32.ofBits 0xBF666666#32⟩ = .d10 := by decide +kernel

/-! ## State handlers -/

/-- R272's example: a TDU NID with two bit errors is corrected, and the state becomes TDU at 92. -/
theorem test_nid_tdu : (handleNid .s0 (testBusy
      (testSlot .nid (testNid (0x14999CBBB94676B7 ^^^ 0x4000000000000001)) 64))).slot0 =
    testSlot .tdu (testNid 0x14999CBBB94676B7) 92 := by decide +kernel
/-- R272: with the reset map DUID 0x1 is unrecognized: the slot completes with no event. -/
theorem test_nid_unrecognized :
    (handleNid .s0 (testBusy (testSlot .nid (testNid (bchCodeword 0x2931#16)) 64))).slot0 =
      { testSlot .nid (testNid (bchCodeword 0x2931#16)) 64 with complete := true } := by decide +kernel
/-- R274's example: 712 bits, kind 1. -/
theorem test_hdu : (testEvents (exec (.stateHdu .s1)
    { State.reset with slot1 := testSlot .hdu (List.replicate 712 true) 712 })).head? =
      some 0x011302C8#32 := by decide +kernel
theorem test_ldu1 : (testEvents (exec (.stateLdu1 .s0)
    (testBusy (testSlot .ldu1 (List.replicate 1632 true) 1632)))).head? = some 0x01220660#32 := by
  decide +kernel
theorem test_ldu2 : (testEvents (exec (.stateLdu2 .s0)
    (testBusy (testSlot .ldu2 (List.replicate 1632 true) 1632)))).length = 52 := by decide +kernel
/-- R277's example. -/
theorem test_tdu : (testEvents (exec (.stateTdu .s0)
    (testBusy (testSlot .tdu (List.replicate 92 true) 92)))) =
      [0x0142005C#32, 0xFFFFFFFF#32, 0xFFFFFFFF#32, 0xFFFFFFF0#32] := by decide +kernel
theorem test_tdulc : (testEvents (exec (.stateTdulc .s0)
    (testBusy (testSlot .tdulc (List.replicate 352 true) 352)))).head? = some 0x01520160#32 := by
  decide +kernel
/-- R279's example: 80 bits, kind 14. -/
theorem test_unknown : (testEvents (exec (.stateUnknown .s0)
    (testBusy (testSlot .unknown (List.replicate 80 false) 80)))).head? = some 0x01E20050#32 := by
  decide +kernel
/-- R285's example: CRC passes, LB = 0; kind 6, CRC 1, then TSBK2 with 64 bits at 260. -/
theorem test_tsbk1 :
    (tsbkStage testParams .s0 (some .tsbk2) (testBusy (testSlot .tsbk1
      (List.replicate 64 true ++ testBlock (bitsOfNat 96 0xFFFF) false) 260))).slot0 =
      testSlot .tsbk2 (List.replicate 64 true) 260 ∧
    (tsbkStage testParams .s0 (some .tsbk2) (testBusy (testSlot .tsbk1
      (List.replicate 64 true ++ testBlock (bitsOfNat 96 0xFFFF) false) 260))).events.head? =
      some 0x016600A0#32 := by decide +kernel
/-- R286's example: the trellis fails: no record, the slot completes. -/
theorem test_tsbk2_trellis_fails :
    (tsbkStage testParams .s0 (some .tsbk3) (testBusy (testSlot .tsbk2
      (List.replicate 64 true ++ testBlock (bitsOfNat 96 0xFFFF) true) 260))).slot0.complete = true ∧
    (tsbkStage testParams .s0 (some .tsbk3) (testBusy (testSlot .tsbk2
      (List.replicate 64 true ++ testBlock (bitsOfNat 96 0xFFFF) true) 260))).events = [] := by
  decide +kernel
/-- R287's example: LB = 0 in the third TSBK: kind 8, and the slot completes; here a flipped bit is
corrected (CRC 2). -/
theorem test_tsbk3_corrected :
    (tsbkStage testParams .s0 none (testBusy (testSlot .tsbk3
      (List.replicate 64 true ++ testBlock (bitsOfNat 96 0x4FFFF) false) 260))).events =
      [0x018A00A0#32, 0xFFFFFFFF#32, 0xFFFFFFFF#32, 0#32, 0#32, 0x0000FFFF#32] := by decide +kernel
/-- R293's example: FMT = 0x15 and BTF = 2: PDU1 with 160 bits at 356. FMT stands at header bits 67 to 71,
BTF at 113 to 119: block bits 3 to 7 and 49 to 55. -/
theorem test_pdu0 :
    (handlePdu0 testParams .s0 (testBusy (testSlot .pdu0 (List.replicate 64 true ++
      testBlock (bitsOfNat 96 (0x15 * 2 ^ 88 + 2 * 2 ^ 40)) false) 260))).slot0 =
    testSlot .pdu1 (List.replicate 64 true ++ bitsOfNat 96 (0x15 * 2 ^ 88 + 2 * 2 ^ 40)) 356 := by
  decide +kernel
/-- R294's example: BTF = 1 and the block decodes: 256 bits, kind 10. -/
theorem test_pdu1 :
    (pduStage testParams .s0 160 1 .pdu2 (testBusy (testSlot .pdu1 (List.replicate 64 true ++
      bitsOfNat 96 (1 * 2 ^ 40) ++ testBlock [true] false) 356))).events.head? =
    some 0x01A20100#32 := by decide +kernel
/-- R295's example: BTF = 2, the block decodes: 352 bits, kind 11. -/
theorem test_pdu2 :
    (pduStage testParams .s0 256 2 .pdu3 (testBusy (testSlot .pdu2 (List.replicate 64 true ++
      bitsOfNat 96 (2 * 2 ^ 40) ++ List.replicate 96 false ++ testBlock [true] false) 452))).events.head? =
    some 0x01B20160#32 := by decide +kernel
/-- R296's example: the trellis fails: 448 bits, kind 12, FEC_OK 0. -/
theorem test_pdu3 :
    (handlePdu3 testParams .s0 (testBusy (testSlot .pdu3
      (List.replicate 352 true ++ testBlock [true] true) 548))).events.head? =
    some 0x01C001C0#32 := by decide +kernel
/-- R300's example: BTF = 2: block 0 gives no record and cap 500; block 1 gives 448 bits, kind 13. -/
theorem test_pduc_block0 :
    (handlePduc testParams .s0 (testBusy (testSlot .pduc (List.replicate 64 true ++
      bitsOfNat 96 (2 * 2 ^ 40) ++ testBlock [true] false) 356))).slot0.cap = 500 := by decide +kernel
theorem test_pduc_block1 :
    (handlePduc testParams .s0 (testBusy (testSlot .pduc (List.replicate 64 true ++
      bitsOfNat 96 (2 * 2 ^ 40) ++ List.replicate 144 false ++ testBlock [true] false) 500))).events.head? =
    some 0x01D201C0#32 := by decide +kernel

/-! ## Witnesses: states and operands that meet the hypotheses of each obligation, at boundary values -/

theorem witness_DecodeOfEncodeIsTheInstruction :
    (Instr.crc 17#9 true).wellFormed = true ∧ (Instr.crc 496#9 false).wellFormed = true ∧
    (Instr.rs 31#5).wellFormed = true ∧ (Instr.dibit8 (List.replicate 8 .d11)).wellFormed = true ∧
    encode (.crc 17#9 true) = .words [0x24001011#32] := by decide
theorem witness_DecodedCommandReencodesToItsWords :
    decode [0x24001011#32, 5#32] = .command (.crc 17#9 true) 1 := by decide
theorem witness_LegalHeadersAreTheTableRows :
    headerLength 0x01000000#32 ≤ 1 + [0#32, 0#32].length ∧ headerLegal 0x01000000#32 = true ∧
    headerLength 0x2100001F#32 ≤ 1 + ([] : List Word).length ∧ headerLegal 0x2100001F#32 = true ∧
    headerLegal 0x21000000#32 = false ∧ headerLegal 0x03090000#32 = false ∧
    headerLegal 0x240001F1#32 = false ∧ headerLegal 0x7F000000#32 = false := by decide +kernel
theorem witness_StepRunsTheDecodedCommand :
    slotDue (testHost [0x1F000000#32]).slot0 = false ∧ slotDue (testHost [0x1F000000#32]).slot1 = false ∧
    decode ((testHost [0x1F000000#32]).stream.drop (testHost [0x1F000000#32]).cc) =
      .command .sreset 1 := by decide +kernel
theorem witness_StepRunsTheHandlerOfAFullSlot :
    slotDue ((testBusy (dueSlot .nid 24)).slot .s0) = true ∧
    slotDue (({ State.reset with slot1 := dueSlot .pduc 0 } : State).slot .s1) = true ∧
    slotDue ({ State.reset with slot1 := dueSlot .pduc 0 } : State).slot0 = false := by decide +kernel
theorem witness_StepAwaitsAbsentWords :
    slotDue State.reset.slot0 = false ∧ slotDue State.reset.slot1 = false ∧
    State.reset.stream.drop State.reset.cc = [] ∧
    (testHost [0x01000000#32, 1#32]).stream.drop (testHost [0x01000000#32, 1#32]).cc =
      [0x01000000#32, 1#32] ∧ 1 + [1#32].length < headerLength 0x01000000#32 := by decide +kernel
theorem witness_IllegalHeaderOnlyRaisesIllegalCmd :
    slotDue (testHost [0x10000100#32, 7#32]).slot0 = false ∧
    slotDue (testHost [0x10000100#32, 7#32]).slot1 = false ∧
    (testHost [0x10000100#32, 7#32]).stream.drop (testHost [0x10000100#32, 7#32]).cc =
      0x10000100#32 :: [7#32] ∧
    headerLength 0x10000100#32 ≤ 1 + [7#32].length ∧ headerLegal 0x10000100#32 = false := by
  decide +kernel
theorem witness_OnlyWrregChangesConfiguration :
    exec .nop State.reset = .next State.reset ∧ ∀ a v, Instr.nop ≠ .wrreg a v :=
  ⟨rfl, fun _ _ h => nomatch h⟩
theorem witness_StickyFaultBitsStaySet : ∃ t,
    step { State.reset with faultBufferFull := true, faultIllegalCmd := true } = .next t := ⟨_, rfl⟩
theorem witness_UnmappedAndReadOnlyRegistersIgnoreWrites :
    (0x08 < (0x09#8).toNat ∧ (0x0F#8).toNat < 0x10) ∧ 0x23 < (0x24#8).toNat ∧ 0x23 < (0xFF#8).toNat ∧
    (0x01#8).toNat = 0x01 ∧ (0x07#8).toNat = 0x07 ∧ (0x08#8).toNat = 0x08 ∧
    (0x20 ≤ (0x20#8).toNat ∧ (0x23#8).toNat ≤ 0x23) := by decide
theorem witness_RegistersReadBackWhatWasWritten :
    (0x05#8) ≠ 0x04#8 ∧ (0x02#8).toNat = 0x02 ∧ (0x03#8).toNat = 0x03 ∧ (0x00#8).toNat = 0x00 ∧
    (0x04#8).toNat = 0x04 ∧ 1 ≤ (1#32).toNat % 128 ∧ (64#32).toNat % 128 ≤ 64 ∧
    (0x05#8).toNat = 0x05 ∧ (35#32).toNat % 64 ≤ 35 ∧
    (0x06#8).toNat = 0x06 ∧ (0x7F7FFFFF#32).toNat < 0x7F800000 ∧
    (0x10 ≤ (0x10#8).toNat ∧ (0x1F#8).toNat ≤ 0x1F) := by decide
theorem witness_FloatPatternsReadBack : F32.ofBits 0x7F800000#32 ≠ .nan ∧
    F32.ofBits 0x80000001#32 ≠ .nan ∧ (0x7F7FFFFF#32).toNat / 2 ^ 23 % 2 ^ 8 < 255 ∧
    (0xFFFFFFFF#32).toNat / 2 ^ 23 % 2 ^ 8 = 255 ∧ F32.isFinite (F32.ofBits 0x7F7FFFFF#32) = true := by
  decide +kernel
/-- The statements of SCRWR, SCRRD, BCH, RS, TR12, TR34, CRC, DEINT and INTLV hold in every state; they
quantify over the bits 0 to 511 and the bits 0 to 31 of a word. -/
theorem witness_scratch_bits : 0 < 512 ∧ 511 < 512 ∧ 31 < 32 ∧ 196 ≤ 196 := by decide
theorem witness_InterleaverAndDeinterleaverAreInverse : ∃ t u v w,
    exec .intlv State.reset = .next t ∧ exec .deint t = .next u ∧
    exec .deint State.reset = .next v ∧ exec .intlv v = .next w := ⟨_, _, _, _, rfl, rfl, rfl, rfl⟩
/-- The example of R341: a word at distance 11 of a codeword, the largest distance that is decoded. -/
theorem witness_BchAcceptsEveryCodeword :
    (bitsOfNat 63 0x5CAA9CABFD4676AD).length = 63 ∧ bchCodeword 0xBBD5#16 = 0x5DEA9D2DDD4766A8 ∧
    distance false (bitsOfNat 63 0x5CAA9CABFD4676AD) (bitsOfNat 63 (bchCodeword 0xBBD5#16)) = 11 ∧
    bchDecode (bitsOfNat 63 0x5CAA9CABFD4676AD) = ⟨true, bitsOfNat 63 0x5DEA9D2DDD4766A8, 11⟩ ∧
    (bchDecode (bitsOfNat 63 0x7FFF)).ok = false := by decide +kernel
/-- The example of R335 for t = 1, and the largest t with 31 wrong symbols, over the zero codeword. -/
theorem witness_RsCoreCorrectsAtMostItsCapability_codeword :
    isRsCodeword 1 (List.replicate 63 0#6) ∧
    distance 0#6 ((List.replicate 63 0#6).set 5 0x21#6) (List.replicate 63 0#6) = 1 ∧
    rsCore ((List.replicate 63 0#6).set 5 0x21#6) 1 = ⟨true, List.replicate 63 0#6, 1⟩ ∧
    distance 0#6 (List.replicate 31 0x15#6 ++ List.replicate 32 0#6) (List.replicate 63 0#6) = 31 := by
  refine ⟨⟨List.length_replicate, fun j h1 h2 => ?_⟩, by decide +kernel, by decide +kernel, by decide +kernel⟩
  interval_cases j <;> decide +kernel
theorem witness_RsCoreCorrectsAtMostItsCapability :
    (rsCore (List.replicate 63 0#6) 1).ok = true ∧
    (rsCore (1#6 :: 0x21#6 :: List.replicate 61 0#6) 1).ok = false := by decide +kernel
theorem witness_CrcCheckAcceptsTheAppendedCrc : (List.replicate 16 true).length = 16 := by decide
theorem witness_CrcCorrectTriesOneFlipInOrder :
    (crcCorrect (bitsOfNat 17 (crc16 [false]).toNat)).1 = .pass ∧
    (crcCorrect (flipBit (bitsOfNat 17 (crc16 [false]).toNat) 16)).1 = .corrected ∧
    (crcCorrect (flipBit (flipBit (bitsOfNat 17 (crc16 [false]).toNat) 16) 14)).1 = .failed := by
  decide +kernel
theorem witness_SingleFlippedBitIsCorrected :
    crcCheck (bitsOfNat 17 (crc16 [false]).toNat) = true ∧
    17 ≤ (bitsOfNat 17 (crc16 [false]).toNat).length ∧
    16 < (bitsOfNat 17 (crc16 [false]).toNat).length := by decide +kernel
theorem witness_SingleFlippedBitIsCorrected_longest :
    crcCheck (List.replicate 480 false ++ bitsOfNat 16 0xFFFF) = true ∧
    (List.replicate 480 false ++ bitsOfNat 16 0xFFFF).length = 496 := by
  have hl : (List.replicate 480 false ++ bitsOfNat 16 0xFFFF).length = 480 + 16 := by
    rw [List.length_append, List.length_replicate]
    exact congrArg (480 + ·) (show (bitsOfNat 16 0xFFFF).length = 16 by decide)
  have h0 : ∀ n, (List.replicate n false).foldl crcShift Config.crcInit = Config.crcInit := by
    intro n
    induction n with
    | zero => rfl
    | succ n ih =>
      rw [List.replicate_succ, List.foldl_cons, show crcShift Config.crcInit false = Config.crcInit by decide]
      exact ih
  refine ⟨?_, hl⟩
  unfold crcCheck crc16
  rw [hl, Nat.add_sub_cancel, List.take_left' List.length_replicate, List.drop_left' List.length_replicate, h0]
  decide
/-- With SYNC_LEN 1 and bit 0 of the pattern 1, the bit 1 matches and the bit 0 does not; the detection
finds slot 0 free, slot 1 free, or none. -/
theorem witness_CorrelatorBitDetectsTheSync :
    ∀ s ∈ [{ State.reset with syncLen := 1#7 },
      { State.reset with syncLen := 1#7, slot0 := testSlot .hdu [] 712 },
      { State.reset with
        syncLen := 1#7, slot0 := testSlot .hdu [] 712, slot1 := testSlot .hdu [] 712 }],
    (corrShift true s).syncMatch = true ∧ (corrShift false s).syncMatch = false := by decide +kernel
theorem witness_Dibit8FeedsItsDibitsInOrder :
    [Dibit.d01, .d10] = .d01 :: [.d10] ∧ ([] : List Dibit) = [] := by decide
theorem witness_DibitIsStoredOrSkippedByEachSlot : ∃ t,
    exec (.dibit .d11) { State.reset with slot1 := { testSlot .hdu [true] 2 with ctr := 35 } } =
      .next t ∧
    ({ testSlot .hdu [true] 2 with ctr := 35 } : Slot).len < 2 ∧
    (testSlot .hdu [true] 4).len + 2 < (testSlot .hdu [true] 4).cap ∧
    (testSlot .hdu [true] 4).ctr ≠ 35 ∧ (testSlot .hdu [true] 4).active = true ∧
    State.reset.slot0.active = false := ⟨_, rfl, by decide, by decide, by decide, by decide, by decide⟩
theorem witness_AppendPastCapacityRaisesBufferFull :
    ((testBusy (testSlot .tdu [true, true] 2)).slot .s0).active = true ∧
    ((testBusy (testSlot .tdu [true, true] 2)).slot .s0).ctr ≠ 35 ∧
    ((testBusy (testSlot .tdu [true, true] 2)).slot .s0).len =
      ((testBusy (testSlot .tdu [true, true] 2)).slot .s0).cap ∧
    ((testBusy (testSlot .tdu [true, true] 3)).slot .s0).len + 1 =
      ((testBusy (testSlot .tdu [true, true] 3)).slot .s0).cap := by decide
/-- A NID that fills on this dibit, and the two outcomes of its handler: it completes, or, with a map entry
of length 0, leaves the buffer full for the handler of the new state. -/
theorem witness_FillingDibitDispatchesTheFrame_nid :
    ((testBusy (testSlot .nid (List.replicate 62 true) 64)).slot .s0).active = true ∧
    ((testBusy (testSlot .nid (List.replicate 62 true) 64)).slot .s0).ctr ≠ 35 ∧
    ((testBusy (testSlot .nid (List.replicate 62 true) 64)).slot .s0).len + 2 =
      ((testBusy (testSlot .nid (List.replicate 62 true) 64)).slot .s0).cap ∧
    (handleNid .s0 { testBusy (testSlot .nid (testNid (bchCodeword 0x2930#16)) 64) with
      duidMap := State.reset.duidMap.set 0 ⟨.hdu, 0#12⟩ }).slot0 =
      testSlot .hdu (testNid (bchCodeword 0x2930#16)) 64 ∧
    (handleNid .s0 (testBusy (testSlot .nid (testNid (bchCodeword 0x2931#16)) 64))).slot0.complete = true := by
  decide +kernel
theorem witness_FillingDibitDispatchesTheFrame :
    ∀ c ∈ [StateCode.hdu, .ldu1, .ldu2, .tdu, .tdulc, .unknown],
    ((testBusy (testSlot c (List.replicate 32766 true) 32768)).slot .s0).state = c ∧
    ((testBusy (testSlot c (List.replicate 32766 true) 32768)).slot .s0).active = true ∧
    ((testBusy (testSlot c (List.replicate 32766 true) 32768)).slot .s0).ctr ≠ 35 ∧
    ((testBusy (testSlot c (List.replicate 32766 true) 32768)).slot .s0).len + 2 =
      ((testBusy (testSlot c (List.replicate 32766 true) 32768)).slot .s0).cap := by
  intro c _
  refine ⟨rfl, rfl, (by decide : (24 : Fin 36) ≠ 35), ?_⟩
  change (List.replicate 32766 true).length + 2 = 32768
  rw [List.length_replicate]
theorem witness_RawHandlersDispatchTheBuffer :
    ∀ c ∈ [StateCode.hdu, .ldu1, .ldu2, .tdu, .tdulc, .unknown],
    ((testBusy (testSlot c (List.replicate 32768 true) 32768)).slot .s0).state = c ∧
    ((testBusy (testSlot c (List.replicate 32768 true) 32768)).slot .s0).len ≤ 32768 := by
  intro c _
  exact ⟨rfl, Nat.le_of_eq List.length_replicate⟩
/-- A slot of an obligation's entry condition in the reset state: the state code, the length and the
capacity are as given. -/
theorem test_full_slot (k : SlotId) (c : StateCode) (n : Nat) :
    ((State.reset.setSlot k (testSlot c (List.replicate n true) n)).slot k).state = c ∧
    ((State.reset.setSlot k (testSlot c (List.replicate n true) n)).slot k).len = n ∧
    ((State.reset.setSlot k (testSlot c (List.replicate n true) n)).slot k).cap = n := by
  cases k <;> exact ⟨rfl, List.length_replicate, rfl⟩
/-- The NID's three outcomes are those of `test_nid_tdu`, `test_nid_unrecognized` and an undecodable
word. -/
theorem witness_NidEntersTheStateOfItsDuid :
    let s := State.reset.setSlot .s1 (testSlot .nid (List.replicate 64 true) 64)
    (s.slot .s1).state = .nid ∧ (s.slot .s1).len = 64 ∧ (s.slot .s1).cap = 64 := test_full_slot _ _ _
theorem witness_TsbkStagesCheckAndDispatch :
    ∀ p ∈ [(StateCode.tsbk1, some StateCode.tsbk2), (.tsbk2, some .tsbk3), (.tsbk3, none)],
    let s := State.reset.setSlot .s0 (testSlot p.1 (List.replicate 260 true) 260)
    (s.slot .s0).state = p.1 ∧ (s.slot .s0).len = 260 ∧ (s.slot .s0).cap = 260 :=
  fun p _ => test_full_slot .s0 p.1 260
theorem witness_Pdu0ReadsTheHeader :
    let s := State.reset.setSlot .s0 (testSlot .pdu0 (List.replicate 260 true) 260)
    (s.slot .s0).state = .pdu0 ∧ (s.slot .s0).len = 260 ∧ (s.slot .s0).cap = 260 := test_full_slot _ _ _
theorem witness_Pdu1AndPdu2ReceiveDataBlocks :
    ∀ p ∈ [(StateCode.pdu1, StateCode.pdu2, 160, 1), (.pdu2, .pdu3, 256, 2)],
    let s := State.reset.setSlot .s1 (testSlot p.1 (List.replicate (p.2.2.1 + 196) true) (p.2.2.1 + 196))
    (s.slot .s1).state = p.1 ∧ (s.slot .s1).len = p.2.2.1 + 196 ∧ (s.slot .s1).cap = p.2.2.1 + 196 :=
  fun p _ => test_full_slot .s1 p.1 (p.2.2.1 + 196)
theorem witness_Pdu3DispatchesUnconditionally :
    let s := State.reset.setSlot .s0 (testSlot .pdu3 (List.replicate 548 true) 548)
    (s.slot .s0).state = .pdu3 ∧ (s.slot .s0).len = 548 ∧ (s.slot .s0).cap = 548 := test_full_slot _ _ _
/-- The first and the last block: j = 0 and j = 126. -/
theorem witness_PducReceivesConfirmedBlocks : ∀ j ∈ [0, 126],
    let s := State.reset.setSlot .s0 (testSlot .pduc (List.replicate (356 + 144 * j) true) (356 + 144 * j))
    (s.slot .s0).state = .pduc ∧ j ≤ 126 ∧ (s.slot .s0).len = 356 + 144 * j ∧
      (s.slot .s0).cap = 356 + 144 * j := fun j hj =>
  ⟨(test_full_slot .s0 .pduc _).1, by simp at hj; omega, (test_full_slot .s0 .pduc _).2⟩
/-- Every branch of the handler statements is met by some decoder output: BTF 0, BTF at and past the block
number, FMT 0x16 and another, first TSBK bit 0 and 1. -/
theorem witness_handler_branches :
    natOfBits (((List.replicate 64 true ++ bitsOfNat 96 0).drop 113).take 7) = 0 ∧
    natOfBits (((List.replicate 64 true ++ bitsOfNat 96 (2 * 2 ^ 40)).drop 113).take 7) = 2 ∧
    natOfBits (((List.replicate 64 true ++ bitsOfNat 96 (0x16 * 2 ^ 88)).drop 67).take 5) = 0x16 ∧
    natOfBits (((List.replicate 64 true ++ bitsOfNat 96 (0x15 * 2 ^ 88)).drop 67).take 5) ≠ 0x16 ∧
    (crcCorrect (bitsOfNat 96 0xFFFF)).2.getD 0 false = false := by decide +kernel
theorem witness_SampleBetweenSymbols :
    F32.le (F32.sub State.reset.mu (F32.ofBits 0x3F800000#32)) (F32.ofBits 0x3F800000#32) = false ∧
    F32.le (F32.sub (F32.ofBits 0x40000001#32) (F32.ofBits 0x3F800000#32)) (F32.ofBits 0x3F800000#32) =
      false := by decide +kernel
theorem witness_SampleAtASymbol :
    F32.le (F32.sub (F32.ofBits 0x40000000#32) (F32.ofBits 0x3F800000#32)) (F32.ofBits 0x3F800000#32) =
      true := by decide +kernel
/-- R153's positions 1.0 and the last one below 8.0. -/
theorem witness_SampleAtASymbol_interp :
    (1 : ℚ) ≤ f32Value (F32.ofBits 0x3F800000#32) ∧ f32Value (F32.ofBits 0x3F800000#32) < 1 + 1 ∧
    (7 : ℚ) ≤ f32Value (F32.ofBits 0x40FFFFFF#32) ∧ f32Value (F32.ofBits 0x40FFFFFF#32) < 7 + 1 ∧
    F32.isFinite (F32.ofBits 0x40FFFFFF#32) = true ∧ F32.isFinite (F32.ofBits 0x3F800000#32) = true := by
  decide +kernel
theorem witness_SlicerAndInversionDecideTheCorners :
    F32.abs (F32.ofBits 0xBF800000#32) = F32.abs (F32.ofBits 0x3F800000#32) ∧
    F32.ofBits 0x7FC00000#32 = .nan ∧ F32.isFinite (F32.ofBits 0x80000000#32) = true ∧
    F32.gt (F32.abs (F32.ofBits 0#32)) (F32.abs (F32.ofBits 0x80000000#32)) = false := by decide +kernel
theorem witness_WrapStaysWithinTwoPi :
    F32.isFinite (F32.ofBits 0x7F7FFFFF#32) = true ∧ inTwoPi (F32.ofBits 0x40C90FDB#32) = true ∧
    inTwoPi (F32.ofBits 0xC0C90FDB#32) = true ∧
    F32.gt (F32.ofBits 0x40C90FDC#32) (F32.ofBits 0x40C90FDB#32) = true ∧
    F32.le (F32.ofBits 0x41490FDB#32) (F32.ofBits 0x41490FDB#32) = true ∧
    F32.lt (F32.ofBits 0xC0C90FDC#32) (F32.neg (F32.ofBits 0x40C90FDB#32)) = true ∧
    F32.le (F32.ofBits 0xC1490FDB#32) (F32.ofBits 0xC1490FDB#32) = true := by decide +kernel
/-- The loops end after three subtractions from 20, and after three additions to −20. -/
theorem witness_WrapStaysWithinTwoPi_turns :
    let twoPi := F32.ofBits 0x40C90FDB#32
    let down := fun y => F32.sub y twoPi
    let up := fun y => F32.add y twoPi
    let a := F32.ofBits 0x41A00000#32
    let b := F32.ofBits 0xC1A00000#32
    ((∀ j < 3, F32.gt (down^[j] a) twoPi = true) ∧ F32.gt (down^[3] a) twoPi = false ∧
      F32.lt (up^[0] (down^[3] a)) (F32.neg twoPi) = false) ∧
    F32.gt (down^[0] b) twoPi = false ∧
      (∀ j < 3, F32.lt (up^[j] (down^[0] b)) (F32.neg twoPi) = true) ∧
      F32.lt (up^[3] (down^[0] b)) (F32.neg twoPi) = false := by decide +kernel
/-- 95_test_vectors 2.1 (R152's example 6.5, and −7): WRAP takes TWO_PI off, and adds it. -/
theorem test_wrap_one_turn :
    wrap (F32.ofBits 0x40D00000#32) = F32.ofBits 0x3E5E04A0#32 ∧
    wrap (F32.ofBits 0xC0E00000#32) = F32.ofBits 0xBF378128#32 := by decide +kernel
theorem witness_InterpolatorStaysInItsDomain :
    omegaInBand (F32.ofBits Config.omegaMin) = true ∧ omegaInBand (F32.ofBits Config.omegaMax) = true ∧
    muWaiting (F32.ofBits 0x3F800001#32) = true ∧ muWaiting (F32.ofBits 0x40000000#32) = true ∧
    F32.le (F32.sub (F32.ofBits 0x3F800001#32) (F32.ofBits 0x3F800000#32)) (F32.ofBits 0x3F800000#32) =
      true ∧
    F32.le (F32.sub (F32.ofBits 0x40000000#32) (F32.ofBits 0x3F800000#32)) (F32.ofBits 0x3F800000#32) =
      true := by decide +kernel
theorem witness_FrequencyStaysWithinFmax : ∃ t,
    exec (.sample 0x7FC00000#32 0x3F800000#32) { State.reset with
      mu := F32.ofBits 0x40000000#32, freq := F32.ofBits 0xFF7FFFFF#32, fmax := 0#32 } = .next t ∧
    F32.isFinite (F32.ofBits 0xFF7FFFFF#32) = true ∧ fmaxLegal 0#32 = true ∧
    fmaxLegal 0x7F7FFFFF#32 = true := ⟨_, rfl, by decide +kernel, by decide +kernel, by decide +kernel⟩
theorem witness_FloatOperationsRoundToNearest :
    F32.isFinite (F32.ofBits 0x7F7FFFFF#32) = true ∧ F32.isFinite (F32.ofBits 0x00000001#32) = true ∧
    f32Value (F32.ofBits 0x00000001#32) ≠ 0 ∧ f32Value (F32.ofBits 0x80000000#32) = 0 ∧
    f32Value (F32.ofBits 0xBF800000#32) < 0 ∧
    f32Value (F32.ofBits 0xBF800000#32) + f32Value (F32.ofBits 0x3F800000#32) = 0 := by
  decide +kernel
/-- Two states that agree on slot 1, CTRL and DUID_MAP and differ elsewhere. -/
theorem witness_HandlersTouchOnlyTheirSlot :
    ({ State.reset with fmax := 0#32, slot0 := testSlot .hdu [] 712 } : State).slot .s1 =
      State.reset.slot .s1 ∧
    ({ State.reset with fmax := 0#32, slot0 := testSlot .hdu [] 712 } : State).ctrl = State.reset.ctrl ∧
    ({ State.reset with fmax := 0#32, slot0 := testSlot .hdu [] 712 } : State).duidMap =
      State.reset.duidMap := ⟨rfl, rfl, rfl⟩
/-- A state that meets the premises of the four invariants, with one slot idle and one a bit pair short of
full; stepping it answers a next state. -/
theorem witness_invariants : ∃ t,
    step { State.reset with slot1 := testSlot .tdu (List.replicate 90 true) 92 } = .next t ∧
    slotsSafe { State.reset with slot1 := testSlot .tdu (List.replicate 90 true) 92 } = true ∧
    slotsEven { State.reset with slot1 := testSlot .tdu (List.replicate 90 true) 92 } = true ∧
    mapEven State.reset = true ∧ regsLegal State.reset = true ∧ syncSafe State.reset = true ∧
    fmaxLegal State.reset.fmax = true :=
  ⟨_, rfl, by decide +kernel, by decide +kernel, by decide +kernel, by decide +kernel,
    by decide +kernel, by decide +kernel⟩

end Sys2Proof.Machine
end

section
/-! SUPPORT. Magnitude patterns (00_scope R12, 20_memory R83): the exponent and fraction fields of a
binary32 value read as one number. A larger pattern stands for a larger magnitude, so that no value lies
between two neighbouring patterns, and a pattern with its sign determines the value. -/

namespace Sys2Proof

/-! ## The units of a magnitude pattern -/

/-- The magnitude a pattern stands for, in units of 2^-149; beyond the finite patterns the same
scale goes on, so that 255·2^23 stands for 2^128. -/
def F32.patternUnits (p : Nat) : Nat :=
  if p / 2 ^ 23 = 0 then p % 2 ^ 23 else (2 ^ 23 + p % 2 ^ 23) * 2 ^ (p / 2 ^ 23 - 1)

/-- On the binade with unit 2^s the pattern s·2^23 + n stands for n·2^s, both ends included. -/
theorem F32.patternUnits_binade (s n : Nat) (hn : n ≤ 2 ^ 24) (hs : s = 0 ∨ 2 ^ 23 ≤ n) :
    F32.patternUnits (s * 2 ^ 23 + n) = n * 2 ^ s := by
  unfold F32.patternUnits
  rcases Nat.lt_or_ge n (2 ^ 23) with hlow | hhigh
  · obtain rfl : s = 0 := by omega
    rw [if_pos (by omega)]
    omega
  rw [if_neg (by omega)]
  rcases Nat.lt_or_eq_of_le hn with hmid | rfl
  · rw [show (s * 2 ^ 23 + n) / 2 ^ 23 - 1 = s by omega,
      show 2 ^ 23 + (s * 2 ^ 23 + n) % 2 ^ 23 = n by omega]
  · rw [show (s * 2 ^ 23 + 2 ^ 24) / 2 ^ 23 - 1 = s + 1 by omega,
      show 2 ^ 23 + (s * 2 ^ 23 + 2 ^ 24) % 2 ^ 23 = 2 ^ 23 by omega, Nat.pow_succ]
    ring

/-- Every pattern lies on a binade, below its upper end. -/
theorem F32.exists_binade (p : Nat) :
    ∃ s n, p = s * 2 ^ 23 + n ∧ n < 2 ^ 24 ∧ (s = 0 ∨ 2 ^ 23 ≤ n) :=
  ⟨p / 2 ^ 23 - 1, p - (p / 2 ^ 23 - 1) * 2 ^ 23, by omega, by omega, by omega⟩

theorem F32.patternUnits_strictMono : StrictMono F32.patternUnits := by
  refine strictMono_nat_of_lt_succ fun p => ?_
  obtain ⟨s, n, rfl, hn, hs⟩ := F32.exists_binade p
  rw [Nat.add_assoc, F32.patternUnits_binade s n (by omega) hs,
    F32.patternUnits_binade s (n + 1) (by omega) (by omega)]
  exact Nat.mul_lt_mul_of_pos_right (Nat.lt_succ_self n) (by positivity)

theorem F32.units_eq_patternUnits (e : Fin 255) (m : BitVec 23) :
    F32.units e m = F32.patternUnits (e.val * 2 ^ 23 + m.toNat) := by
  have hm := m.isLt
  unfold F32.units F32.patternUnits
  rw [show (e.val * 2 ^ 23 + m.toNat) / 2 ^ 23 = e.val by omega,
    show (e.val * 2 ^ 23 + m.toNat) % 2 ^ 23 = m.toNat by omega]

/-! ## The value of a magnitude pattern with a sign -/

/-- A finite value is its sign and a pattern below that of the infinities. -/
theorem F32.exists_ofMag_of_finite {x : F32} (h : x.isFinite = true) :
    ∃ b p, p < 255 * 2 ^ 23 ∧ x = F32.ofMag b p := by
  cases x with
  | nan => simp [F32.isFinite] at h
  | inf b => simp [F32.isFinite] at h
  | fin b e m =>
    have hm := m.isLt
    exact ⟨b, e.val * 2 ^ 23 + m.toNat, by omega, (F32.ofMag_units b e m).symm⟩

theorem F32.ofMag_eq_fin {p : Nat} (h : p < 255 * 2 ^ 23) (b : Bool) :
    F32.ofMag b p = .fin b ⟨p / 2 ^ 23, by omega⟩ (BitVec.ofNat 23 p) :=
  dif_pos (by omega)

theorem F32.ofMag_eq_inf {p : Nat} (h : 255 * 2 ^ 23 ≤ p) (b : Bool) : F32.ofMag b p = .inf b :=
  dif_neg (by omega)

theorem F32.isFinite_ofMag (b : Bool) (p : Nat) :
    (F32.ofMag b p).isFinite = true ↔ p < 255 * 2 ^ 23 := by
  rcases Nat.lt_or_ge p (255 * 2 ^ 23) with h | h
  · simpa [F32.ofMag_eq_fin h, F32.isFinite] using h
  · simpa [F32.ofMag_eq_inf h, F32.isFinite] using h

theorem F32.ofMag_ne_nan (b : Bool) (p : Nat) : F32.ofMag b p ≠ .nan := by
  intro h
  have := F32.isNaN_ofMag b p
  simp [h, F32.isNaN] at this

@[simp] theorem F32.neg_ofMag (b : Bool) (p : Nat) : (F32.ofMag b p).neg = F32.ofMag (!b) p := by
  unfold F32.ofMag
  split <;> rfl

@[simp] theorem F32.abs_ofMag (b : Bool) (p : Nat) : (F32.ofMag b p).abs = F32.ofMag false p := by
  unfold F32.ofMag
  split <;> rfl

/-- The fields of a finite pattern's value are the pattern's. -/
theorem F32.units_ofMag_fields {p : Nat} (h : p < 255 * 2 ^ 23) :
    F32.units ⟨p / 2 ^ 23, by omega⟩ (BitVec.ofNat 23 p) = F32.patternUnits p := by
  rw [F32.units_eq_patternUnits, BitVec.toNat_ofNat]
  congr 1
  exact Nat.div_add_mod' p (2 ^ 23)

theorem F32.ord_ofMag {p : Nat} (h : p < 255 * 2 ^ 23) (b : Bool) :
    (F32.ofMag b p).ord = (if b then -1 else 1) * (F32.patternUnits p : Int) := by
  rw [F32.ofMag_eq_fin h, F32.ord_fin, F32.units_ofMag_fields h]
  cases b <;> simp

theorem F32.toBits_ofMag {p : Nat} (h : p ≤ 255 * 2 ^ 23) (b : Bool) :
    (F32.ofMag b p).toBits = F32.patternOf b p := by
  rcases Nat.lt_or_eq_of_le h with hlt | rfl
  · rw [F32.ofMag_eq_fin hlt]
    change F32.patternOf b (p / 2 ^ 23 * 2 ^ 23 + (BitVec.ofNat 23 p).toNat) = _
    rw [BitVec.toNat_ofNat, Nat.div_add_mod']
  · rw [F32.ofMag_eq_inf (Nat.le_refl _)]
    rfl

end Sys2Proof

namespace Sys2Proof.Machine

/-! ## The sign bit -/

@[simp] theorem f32Neg_ofMag (b : Bool) (p : Nat) : f32Neg (F32.ofMag b p) = b := by
  unfold F32.ofMag
  split <;> rfl

@[simp] theorem f32Neg_round (b : Bool) (num den : Nat) : f32Neg (F32.round b num den) = b :=
  f32Neg_ofMag b _

/-! ## The number a finite value stands for -/

theorem f32Value_fin (b : Bool) (e : Fin 255) (m : BitVec 23) :
    f32Value (.fin b e m) = (if b then -1 else 1) * (F32.units e m : ℚ) / 2 ^ 149 := by
  cases b <;> simp [f32Value, F32.signedUnits]

theorem f32Value_eq_ord {x : F32} (h : x.isFinite = true) : f32Value x = (x.ord : ℚ) / 2 ^ 149 := by
  cases x with
  | nan => simp [F32.isFinite] at h
  | inf b => simp [F32.isFinite] at h
  | fin b e m => rfl

theorem f32Value_ofMag {p : Nat} (h : p < 255 * 2 ^ 23) (b : Bool) :
    f32Value (F32.ofMag b p) = (if b then -1 else 1) * (F32.patternUnits p : ℚ) / 2 ^ 149 := by
  rw [F32.ofMag_eq_fin h, f32Value_fin, F32.units_ofMag_fields h]

@[simp] theorem f32Value_neg (x : F32) : f32Value x.neg = -f32Value x := by
  cases x with
  | nan => simp [F32.neg, f32Value]
  | inf b => simp [F32.neg, f32Value]
  | fin b e m => cases b <;> simp [F32.neg, f32Value_fin, neg_div]

@[simp] theorem f32Value_fin_eq_zero (b : Bool) (e : Fin 255) (m : BitVec 23) :
    f32Value (.fin b e m) = 0 ↔ F32.units e m = 0 := by
  cases b <;> simp [f32Value_fin]

end Sys2Proof.Machine
end

section
/-! O20: binary32 patterns read back, and comparisons order the numbers (00_scope R12, 20_memory R83). A
word is the sign bit over a magnitude pattern, and `F32.ofBits` is `F32.ofMag` of the two up to the
pattern of the infinities. -/

namespace Sys2Proof

/-! ## Reading a word -/

/-- The sign bit is the weight 2^31 of the word. -/
theorem Word.toNat_eq_sign_magnitude (w : Word) :
    w.toNat = (if w.msb then 2 ^ 31 else 0) + w.toNat % 2 ^ 31 := by
  have hw := w.isLt
  rw [BitVec.msb_eq_decide]
  simp only [decide_eq_true_eq]
  split <;> omega

theorem F32.ofBits_eq (w : Word) : F32.ofBits w =
    if w.toNat % 2 ^ 31 ≤ 255 * 2 ^ 23 then F32.ofMag w.msb (w.toNat % 2 ^ 31) else .nan := by
  have hfrac : w.truncate 23 = BitVec.ofNat 23 (w.toNat % 2 ^ 31) := by
    apply BitVec.eq_of_toNat_eq
    simp only [BitVec.truncate_eq_setWidth, BitVec.toNat_setWidth, BitVec.toNat_ofNat]
    omega
  have hexp : w.toNat / 2 ^ 23 % 256 = w.toNat % 2 ^ 31 / 2 ^ 23 := by omega
  have hzero : w.truncate 23 = 0#23 ↔ w.toNat % 2 ^ 31 % 2 ^ 23 = 0 := by
    rw [hfrac, ← BitVec.toNat_inj, BitVec.toNat_ofNat]
    rfl
  unfold F32.ofBits
  rcases Nat.lt_or_ge (w.toNat % 2 ^ 31) (255 * 2 ^ 23) with hfin | hbig
  · rw [dif_pos (by omega), if_pos (by omega), F32.ofMag_eq_fin hfin, hfrac]
    simp only [hexp]
  rw [dif_neg (by omega)]
  by_cases hinf : w.toNat % 2 ^ 31 = 255 * 2 ^ 23
  · rw [if_pos (hzero.2 (by omega)), if_pos (by omega), F32.ofMag_eq_inf hbig]
  · rw [if_neg (mt hzero.1 (by omega)), if_neg (by omega)]

theorem F32.ofBits_of_le {w : Word} (h : w.toNat % 2 ^ 31 ≤ 255 * 2 ^ 23) :
    F32.ofBits w = F32.ofMag w.msb (w.toNat % 2 ^ 31) := by
  rw [F32.ofBits_eq, if_pos h]

theorem F32.ofBits_of_gt {w : Word} (h : 255 * 2 ^ 23 < w.toNat % 2 ^ 31) : F32.ofBits w = .nan := by
  rw [F32.ofBits_eq, if_neg (by omega)]

theorem F32.ofBits_ne_nan_iff (w : Word) :
    F32.ofBits w ≠ .nan ↔ w.toNat % 2 ^ 31 ≤ 255 * 2 ^ 23 := by
  rw [F32.ofBits_eq]
  split
  · exact iff_of_true (F32.ofMag_ne_nan _ _) ‹_›
  · exact iff_of_false (not_not.2 rfl) ‹_›

/-! ## Reading back -/

theorem F32.patternOf_sign_magnitude (w : Word) :
    F32.patternOf w.msb (w.toNat % 2 ^ 31) = w := by
  unfold F32.patternOf
  rw [← Word.toNat_eq_sign_magnitude w, BitVec.ofNat_toNat, BitVec.setWidth_eq]

theorem F32.toBits_ofBits {w : Word} (h : F32.ofBits w ≠ .nan) : (F32.ofBits w).toBits = w := by
  have hle := (F32.ofBits_ne_nan_iff w).1 h
  rw [F32.ofBits_of_le hle, F32.toBits_ofMag hle, F32.patternOf_sign_magnitude]

/-- The free pattern of a NaN is a NaN pattern (log 8). -/
theorem F32.ofBits_nanPattern : F32.ofBits F32.nanPattern = .nan := by
  unfold F32.nanPattern
  split
  · assumption
  · rfl

theorem F32.ofBits_toBits_ofBits (w : Word) :
    F32.ofBits (F32.ofBits w).toBits = F32.ofBits w := by
  by_cases h : F32.ofBits w = .nan
  · rw [h]
    exact F32.ofBits_nanPattern
  · rw [F32.toBits_ofBits h]

/-! ## Operations on the sign bit -/

theorem Word.msb_flip (w : Word) : (w ^^^ 0x80000000#32).msb = !w.msb := by
  rw [BitVec.msb_xor, show (0x80000000#32).msb = true from rfl, Bool.xor_true]

theorem Word.magnitude_flip (w : Word) :
    (w ^^^ 0x80000000#32).toNat % 2 ^ 31 = w.toNat % 2 ^ 31 := by
  rw [BitVec.toNat_xor, Nat.xor_mod_two_pow, show (0x80000000#32).toNat % 2 ^ 31 = 0 from rfl,
    Nat.xor_zero]

theorem Word.msb_clear (w : Word) : (w &&& 0x7FFFFFFF#32).msb = false := by
  rw [BitVec.msb_and, show (0x7FFFFFFF#32).msb = false from rfl, Bool.and_false]

theorem Word.magnitude_clear (w : Word) :
    (w &&& 0x7FFFFFFF#32).toNat % 2 ^ 31 = w.toNat % 2 ^ 31 := by
  rw [BitVec.toNat_and, show (0x7FFFFFFF#32).toNat = 2 ^ 31 - 1 from rfl, Nat.and_two_pow_sub_one_eq_mod,
    Nat.mod_mod]

theorem F32.neg_ofBits (w : Word) : F32.neg (F32.ofBits w) = F32.ofBits (w ^^^ 0x80000000#32) := by
  rw [F32.ofBits_eq w, F32.ofBits_eq (w ^^^ _), Word.magnitude_flip, Word.msb_flip]
  split
  · exact F32.neg_ofMag _ _
  · rfl

theorem F32.abs_ofBits (w : Word) : F32.abs (F32.ofBits w) = F32.ofBits (w &&& 0x7FFFFFFF#32) := by
  rw [F32.ofBits_eq w, F32.ofBits_eq (w &&& _), Word.magnitude_clear, Word.msb_clear]
  split
  · exact F32.abs_ofMag _ _
  · rfl

/-! ## Comparisons -/

theorem F32.isNaN_of_isFinite {x : F32} (h : x.isFinite = true) : x.isNaN = false := by
  cases x <;> simp_all [F32.isFinite, F32.isNaN]

theorem F32.lt_eq_decide_ord {x y : F32} (hx : x.isNaN = false) (hy : y.isNaN = false) :
    F32.lt x y = decide (x.ord < y.ord) := by
  simp [F32.lt, hx, hy]

theorem F32.le_eq_decide_ord {x y : F32} (hx : x.isNaN = false) (hy : y.isNaN = false) :
    F32.le x y = decide (x.ord ≤ y.ord) := by
  simp [F32.le, hx, hy]

theorem F32.compare_nan {x y : F32} (h : x = .nan ∨ y = .nan) :
    F32.lt x y = false ∧ F32.le x y = false := by
  rcases h with rfl | rfl <;> simp [F32.lt, F32.le, F32.isNaN]

/-- The infinities stand at the two ends of the finite values. -/
theorem F32.compare_inf {x : F32} (h : x.isFinite = true) (b : Bool) :
    F32.lt x (.inf b) = !b ∧ F32.le x (.inf b) = !b ∧ F32.lt (.inf b) x = b ∧
      F32.le (.inf b) x = b := by
  obtain ⟨hlow, hhigh⟩ := F32.ord_lt_of_finite x h
  have hx := F32.isNaN_of_isFinite h
  have hinf : (F32.inf b).isNaN = false := rfl
  rw [F32.lt_eq_decide_ord hx hinf, F32.le_eq_decide_ord hx hinf, F32.lt_eq_decide_ord hinf hx,
    F32.le_eq_decide_ord hinf hx]
  cases b
  · have : (F32.inf false).ord = 2 ^ 277 := rfl
    simp only [this, decide_eq_true_eq, decide_eq_false_iff_not, Bool.not_false]
    exact ⟨hhigh, hhigh.le, hhigh.not_gt, hhigh.not_ge⟩
  · have : (F32.inf true).ord = -(2 ^ 277) := rfl
    simp only [this, decide_eq_true_eq, decide_eq_false_iff_not, Bool.not_true]
    exact ⟨hlow.not_gt, hlow.not_ge, hlow, hlow.le⟩

theorem F32.compare_inf_inf (a b : Bool) :
    F32.lt (.inf a) (.inf b) = (a && !b) ∧ F32.le (.inf a) (.inf b) = (a || !b) := by
  revert a b
  decide +kernel

end Sys2Proof

namespace Sys2Proof.Machine

theorem lt_iff_f32Value {x y : F32} (hx : x.isFinite = true) (hy : y.isFinite = true) :
    F32.lt x y = true ↔ f32Value x < f32Value y := by
  rw [F32.lt_eq_decide_ord (F32.isNaN_of_isFinite hx) (F32.isNaN_of_isFinite hy), decide_eq_true_eq,
    f32Value_eq_ord hx, f32Value_eq_ord hy, div_lt_div_iff_of_pos_right (by positivity), Int.cast_lt]

theorem le_iff_f32Value {x y : F32} (hx : x.isFinite = true) (hy : y.isFinite = true) :
    F32.le x y = true ↔ f32Value x ≤ f32Value y := by
  rw [F32.le_eq_decide_ord (F32.isNaN_of_isFinite hx) (F32.isNaN_of_isFinite hy), decide_eq_true_eq,
    f32Value_eq_ord hx, f32Value_eq_ord hy, div_le_div_iff_of_pos_right (by positivity), Int.cast_le]

/-! ## The layout -/

/-- The units of a pattern by its fields, as the formats of IEEE-754 give the number. -/
theorem patternUnits_div (p : Nat) : (F32.patternUnits p : ℚ) / 2 ^ 149 =
    if p / 2 ^ 23 = 0 then ((p % 2 ^ 23 : Nat) : ℚ) / 2 ^ 149
    else (2 ^ 23 + ((p % 2 ^ 23 : Nat) : ℚ)) * 2 ^ (p / 2 ^ 23) / 2 ^ 150 := by
  unfold F32.patternUnits
  split
  · rfl
  · obtain ⟨k, hk⟩ : ∃ k, p / 2 ^ 23 = k + 1 := ⟨p / 2 ^ 23 - 1, by omega⟩
    rw [hk, Nat.add_sub_cancel]
    push_cast
    ring

theorem ofBits_layout_finite {w : Word} (h : w.toNat / 2 ^ 23 % 2 ^ 8 < 255) :
    (F32.ofBits w).isFinite = true ∧ f32Value (F32.ofBits w) = (if w.msb then -1 else 1) *
      (if w.toNat / 2 ^ 23 % 2 ^ 8 = 0 then ((w.toNat % 2 ^ 23 : Nat) : ℚ) / 2 ^ 149
       else (2 ^ 23 + ((w.toNat % 2 ^ 23 : Nat) : ℚ)) * 2 ^ (w.toNat / 2 ^ 23 % 2 ^ 8) / 2 ^ 150) := by
  have hp : w.toNat % 2 ^ 31 < 255 * 2 ^ 23 := by omega
  rw [F32.ofBits_of_le hp.le]
  refine ⟨(F32.isFinite_ofMag _ _).2 hp, ?_⟩
  rw [f32Value_ofMag hp, mul_div_assoc, patternUnits_div,
    show w.toNat % 2 ^ 31 / 2 ^ 23 = w.toNat / 2 ^ 23 % 2 ^ 8 by omega,
    show w.toNat % 2 ^ 31 % 2 ^ 23 = w.toNat % 2 ^ 23 by omega]

theorem ofBits_layout_special {w : Word} (h : w.toNat / 2 ^ 23 % 2 ^ 8 = 255) :
    F32.ofBits w = if w.toNat % 2 ^ 23 = 0 then .inf w.msb else .nan := by
  split
  · rw [F32.ofBits_of_le (by omega), F32.ofMag_eq_inf (by omega)]
  · rw [F32.ofBits_of_gt (by omega)]

theorem f32Neg_ofBits (w : Word) :
    f32Neg (F32.ofBits w) = (w.msb && decide (F32.ofBits w ≠ .nan)) := by
  by_cases h : F32.ofBits w = .nan
  · simp [h, f32Neg]
  · rw [decide_eq_true h, Bool.and_true, F32.ofBits_of_le ((F32.ofBits_ne_nan_iff w).1 h), f32Neg_ofMag]

/-- Settles O20: each clause is the lemma about `F32.ofBits` or the comparison that states it. -/
theorem floatPatternsReadBack : Obligations.FloatPatternsReadBack := by
  exact ⟨fun w => ⟨F32.toBits_ofBits, F32.ofBits_toBits_ofBits w, ofBits_layout_finite,
    ofBits_layout_special, f32Neg_ofBits w, F32.neg_ofBits w, F32.abs_ofBits w⟩,
    fun x y => ⟨rfl, rfl, fun hx hy => ⟨lt_iff_f32Value hx hy, le_iff_f32Value hx hy⟩,
      F32.compare_inf, F32.compare_nan⟩, F32.compare_inf_inf⟩

end Sys2Proof.Machine
end

section
/-! Rounding to nearest, ties to even (00_scope R12), on magnitude patterns: `F32.roundPattern` gives the
pattern nearest to a quotient among all patterns, and so `F32.round` is IEEE rounding. -/

namespace Sys2Proof

/-! ## The nearest pattern -/

/-- `p` is the pattern nearest to the magnitude of `q` units, the even one of two equally near. Patterns
without bound compete, those beyond the infinities' too. -/
def F32.IsNearest (q : ℚ) (p : Nat) : Prop :=
  ∀ b : Nat, |q - F32.patternUnits p| ≤ |q - F32.patternUnits b| ∧
    (|q - F32.patternUnits p| = |q - F32.patternUnits b| → b ≠ p → p % 2 = 0)

/-- No pattern's magnitude lies between those of two neighbours. -/
theorem F32.patternUnits_le_or_ge (p b : Nat) :
    F32.patternUnits b ≤ F32.patternUnits p ∨ F32.patternUnits (p + 1) ≤ F32.patternUnits b := by
  rcases Nat.lt_or_ge p b with h | h
  · exact .inr (F32.patternUnits_strictMono.monotone h)
  · exact .inl (F32.patternUnits_strictMono.monotone h)

/-- Of two neighbours around q the lower is nearest when q is at most half way between them. -/
theorem F32.isNearest_lower {q : ℚ} {p : Nat} (hlow : (F32.patternUnits p : ℚ) ≤ q)
    (hhalf : 2 * q ≤ F32.patternUnits p + F32.patternUnits (p + 1))
    (htie : 2 * q = F32.patternUnits p + F32.patternUnits (p + 1) → p % 2 = 0) :
    F32.IsNearest q p := by
  intro b
  rw [abs_of_nonneg (sub_nonneg.2 hlow)]
  rcases F32.patternUnits_le_or_ge p b with hb | hb
  · have hb' : (F32.patternUnits b : ℚ) ≤ F32.patternUnits p := Nat.cast_le.2 hb
    rw [abs_of_nonneg (by linarith)]
    refine ⟨by linarith, fun heq hne => absurd ?_ hne⟩
    exact F32.patternUnits_strictMono.injective (Nat.cast_injective (R := ℚ) (by linarith))
  · have hb' : (F32.patternUnits (p + 1) : ℚ) ≤ F32.patternUnits b := Nat.cast_le.2 hb
    rw [abs_of_nonpos (by linarith)]
    exact ⟨by linarith, fun heq _ => htie (by linarith)⟩

/-- Of two neighbours around q the upper is nearest when q is at least half way between them. -/
theorem F32.isNearest_upper {q : ℚ} {p : Nat} (hhigh : q ≤ F32.patternUnits (p + 1))
    (hhalf : F32.patternUnits p + F32.patternUnits (p + 1) ≤ 2 * q)
    (htie : F32.patternUnits p + F32.patternUnits (p + 1) = 2 * q → (p + 1) % 2 = 0) :
    F32.IsNearest q (p + 1) := by
  intro b
  rw [abs_of_nonpos (sub_nonpos.2 hhigh)]
  rcases F32.patternUnits_le_or_ge p b with hb | hb
  · have hb' : (F32.patternUnits b : ℚ) ≤ F32.patternUnits p := Nat.cast_le.2 hb
    rw [abs_of_nonneg (by linarith)]
    exact ⟨by linarith, fun heq _ => htie (by linarith)⟩
  · have hb' : (F32.patternUnits (p + 1) : ℚ) ≤ F32.patternUnits b := Nat.cast_le.2 hb
    rw [abs_of_nonpos (by linarith)]
    refine ⟨by linarith, fun heq hne => absurd ?_ hne⟩
    exact F32.patternUnits_strictMono.injective (Nat.cast_injective (R := ℚ) (by linarith))

/-! ## The rounded quotient is nearest -/

/-- The whole part of a quotient, and the two cases of its rounding: down at most half way to the next
number, up at least half way, and to the even one at the half. -/
theorem F32.nearestEven_cases (a d : Nat) (hd : 0 < d) :
    ((a / d : Nat) : ℚ) ≤ (a : ℚ) / d ∧ (a : ℚ) / d ≤ (a / d : Nat) + 1 ∧
    ((F32.nearestEven a d = a / d ∧ 2 * ((a : ℚ) / d) ≤ 2 * (a / d : Nat) + 1 ∧
        (2 * ((a : ℚ) / d) = 2 * (a / d : Nat) + 1 → a / d % 2 = 0)) ∨
      (F32.nearestEven a d = a / d + 1 ∧ 2 * (a / d : Nat) + 1 ≤ 2 * ((a : ℚ) / d) ∧
        (2 * (a / d : Nat) + 1 = 2 * ((a : ℚ) / d) → (a / d + 1) % 2 = 0))) := by
  have hd' : (0 : ℚ) < d := Nat.cast_pos.2 hd
  have hmod := Nat.mod_lt a hd
  have hdiv : (a : ℚ) / d = (a / d : Nat) + (a % d : Nat) / d := by
    rw [div_eq_iff hd'.ne', add_mul, div_mul_cancel₀ _ hd'.ne']
    exact_mod_cast (Nat.div_add_mod' a d).symm
  have hupper : ((a % d : Nat) : ℚ) / d ≤ 1 := (div_le_one hd').2 (Nat.cast_le.2 hmod.le)
  have hlower : (0 : ℚ) ≤ (a % d : Nat) / d := by positivity
  -- the fraction against the half is the doubled remainder against the divisor
  have hle : 2 * (((a % d : Nat) : ℚ) / d) ≤ 1 ↔ 2 * (a % d) ≤ d := by
    rw [← mul_div_assoc, div_le_one hd']
    exact_mod_cast Iff.rfl
  have hge : 1 ≤ 2 * (((a % d : Nat) : ℚ) / d) ↔ d ≤ 2 * (a % d) := by
    rw [← mul_div_assoc, one_le_div hd']
    exact_mod_cast Iff.rfl
  refine ⟨by linarith, by linarith, ?_⟩
  rw [hdiv]
  unfold F32.nearestEven
  split
  · refine .inr ⟨rfl, by linarith [hge.2 (by omega)], fun h => ?_⟩
    have := hle.1 (by linarith)
    omega
  · refine .inl ⟨rfl, by linarith [hle.2 (by omega)], fun h => ?_⟩
    have := hge.1 (by linarith)
    omega

/-- In units 2^s, s what rounding drops, a magnitude has at most 24 bits, and 24 bits if s is not 0. -/
theorem F32.div_roundShift (n : Nat) : n / 2 ^ F32.roundShift n < 2 ^ 24 ∧
    (F32.roundShift n = 0 ∨ 2 ^ 23 ≤ n / 2 ^ F32.roundShift n) := by
  refine ⟨Nat.div_lt_of_lt_mul ?_, (Nat.eq_zero_or_pos _).imp_right fun hpos => ?_⟩
  · rw [← Nat.pow_add]
    exact F32.lt_roundShift n
  · rw [Nat.le_div_iff_mul_le (by positivity), ← Nat.pow_add, Nat.add_comm]
    exact F32.roundShift_le n hpos

theorem F32.isNearest_roundPattern (num den : Nat) (hd : 0 < den) :
    F32.IsNearest ((num : ℚ) / den) (F32.roundPattern num den) := by
  obtain ⟨hbits, hfull⟩ := F32.div_roundShift (num / den)
  unfold F32.roundPattern
  generalize F32.roundShift (num / den) = s at hbits hfull ⊢
  rw [Nat.div_div_eq_div_mul] at hbits hfull
  obtain ⟨hfloor, hceil, hcases⟩ := F32.nearestEven_cases num (den * 2 ^ s) (by positivity)
  generalize num / (den * 2 ^ s) = k at hbits hfull hfloor hceil hcases
  have hg : (0 : ℚ) < 2 ^ s := by positivity
  have hq : (num : ℚ) / den = num / (den * 2 ^ s : Nat) * 2 ^ s := by
    push_cast
    field_simp
  rw [hq]
  generalize (num : ℚ) / (den * 2 ^ s : Nat) = x at hfloor hceil hcases
  have hlow : (F32.patternUnits (s * 2 ^ 23 + k) : ℚ) = k * 2 ^ s := by
    rw [F32.patternUnits_binade s k hbits.le hfull, Nat.cast_mul, Nat.cast_pow, Nat.cast_ofNat]
  have hhigh : (F32.patternUnits (s * 2 ^ 23 + k + 1) : ℚ) = (k + 1) * 2 ^ s := by
    rw [Nat.add_assoc, F32.patternUnits_binade s (k + 1) hbits (by omega), Nat.cast_mul, Nat.cast_pow,
      Nat.cast_ofNat, Nat.cast_succ]
  have hmid : (k * 2 ^ s + (k + 1) * 2 ^ s : ℚ) = (2 * k + 1) * 2 ^ s := by ring
  rcases hcases with ⟨hn, hhalf, htie⟩ | ⟨hn, hhalf, htie⟩
  · rw [hn]
    apply F32.isNearest_lower <;> rw [hlow]
    · exact mul_le_mul_of_nonneg_right hfloor hg.le
    · rw [hhigh, hmid, ← mul_assoc]
      exact mul_le_mul_of_nonneg_right hhalf hg.le
    · rw [hhigh, hmid, ← mul_assoc]
      intro h
      have := htie (mul_right_cancel₀ hg.ne' h)
      omega
  · rw [hn, ← Nat.add_assoc]
    apply F32.isNearest_upper <;> rw [hhigh]
    · exact mul_le_mul_of_nonneg_right hceil hg.le
    · rw [hlow, hmid, ← mul_assoc]
      exact mul_le_mul_of_nonneg_right hhalf hg.le
    · rw [hlow, hmid, ← mul_assoc]
      intro h
      have := htie (mul_right_cancel₀ hg.ne' h)
      omega

end Sys2Proof
end

section
/-! O55: the binary32 operations round to nearest, ties to even, and treat NaN, infinities and zeros as
IEEE-754 does (00_scope R12). -/

namespace Sys2Proof.Machine

/-! ## Distances and the middle of two numbers -/

theorem midpoint_ge_of_nearer {q a b : ℚ} (h : |q - a| ≤ |q - b|) (hab : a < b) : 2 * q ≤ a + b := by
  have := sq_le_sq.2 h
  by_contra hlt
  nlinarith

theorem midpoint_le_of_nearer {q a b : ℚ} (h : |q - a| ≤ |q - b|) (hab : b < a) : a + b ≤ 2 * q := by
  have := sq_le_sq.2 h
  by_contra hlt
  nlinarith

theorem distances_eq_of_midpoint {q a b : ℚ} (h : 2 * q = a + b) : |q - a| = |q - b| := by
  rw [← abs_neg]
  congr 1
  linarith

/-! ## A nearest pattern is the rounded value -/

/-- The last finite pattern and that of the infinities; overflow begins half way between them. -/
theorem patternUnits_last :
    (F32.patternUnits (255 * 2 ^ 23 - 1) : ℚ) = (2 ^ 24 - 1) * 2 ^ 253 ∧
    (F32.patternUnits (255 * 2 ^ 23) : ℚ) = 2 ^ 24 * 2 ^ 253 := by
  have hlast := F32.patternUnits_binade 253 (2 ^ 24 - 1) (by omega) (by omega)
  have hinf := F32.patternUnits_binade 253 (2 ^ 24) (by omega) (by omega)
  rw [show 255 * 2 ^ 23 - 1 = 253 * 2 ^ 23 + (2 ^ 24 - 1) by rfl, hlast,
    show 255 * 2 ^ 23 = 253 * 2 ^ 23 + 2 ^ 24 by rfl, hinf]
  norm_num

/-- The nearest pattern is finite exactly below the overflow point. -/
theorem lt_overflowPoint_iff_of_nearest {q : ℚ} {p : Nat} (h : F32.IsNearest q p) :
    q / 2 ^ 149 < overflowPoint ↔ p < 255 * 2 ^ 23 := by
  obtain ⟨hlast, hinf⟩ := patternUnits_last
  have hpoint : overflowPoint * 2 ^ 149 * 2 = (2 ^ 24 - 1) * 2 ^ 253 + 2 ^ 24 * 2 ^ 253 := by
    norm_num [overflowPoint]
  have hgap : ((2 : ℚ) ^ 24 - 1) * 2 ^ 253 < 2 ^ 24 * 2 ^ 253 := by norm_num
  rw [div_lt_iff₀ (by positivity)]
  generalize ((2 : ℚ) ^ 24 - 1) * 2 ^ 253 = last at *
  generalize (2 : ℚ) ^ 24 * 2 ^ 253 = top at *
  rcases Nat.lt_or_ge p (255 * 2 ^ 23) with hp | hp
  · refine iff_of_true ?_ hp
    have hle : (F32.patternUnits p : ℚ) ≤ last := by
      rw [← hlast]
      exact Nat.cast_le.2 (F32.patternUnits_strictMono.monotone (by omega))
    obtain ⟨hnear, htie⟩ := h (255 * 2 ^ 23)
    rw [hinf] at hnear htie
    have hmid := midpoint_ge_of_nearer hnear (by linarith)
    by_contra hover
    -- q is exactly half way, and the last finite pattern is odd
    have heven := htie (distances_eq_of_midpoint (by linarith)) (by omega)
    have heq : F32.patternUnits p = F32.patternUnits (255 * 2 ^ 23 - 1) :=
      Nat.cast_injective (R := ℚ) (by rw [hlast]; linarith)
    have hplast := F32.patternUnits_strictMono.injective heq
    omega
  · refine iff_of_false ?_ (by omega)
    have hge : top ≤ F32.patternUnits p := by
      rw [← hinf]
      exact Nat.cast_le.2 (F32.patternUnits_strictMono.monotone hp)
    obtain ⟨hnear, -⟩ := h (255 * 2 ^ 23 - 1)
    rw [hlast] at hnear
    have hmid := midpoint_le_of_nearer hnear (by linarith)
    linarith

/-- A magnitude is nearer to its nearest pattern than to any value of sign − but 0. -/
theorem nearest_signed {q : ℚ} {p : Nat} (hq : 0 ≤ q) (h : F32.IsNearest q p) (b : Bool) (n : Nat) :
    |q - F32.patternUnits p| ≤ |q - (if b then -1 else 1) * F32.patternUnits n| ∧
    (|q - F32.patternUnits p| = |q - (if b then -1 else 1) * F32.patternUnits n| →
      (if b then -1 else 1) * (F32.patternUnits n : ℚ) ≠ F32.patternUnits p → p % 2 = 0) := by
  have hpos : ∀ k : Nat, |q - F32.patternUnits p| ≤ |q - F32.patternUnits k| ∧
      (|q - F32.patternUnits p| = |q - F32.patternUnits k| →
        (F32.patternUnits k : ℚ) ≠ F32.patternUnits p → p % 2 = 0) := fun k =>
    ⟨(h k).1, fun heq hne => (h k).2 heq (fun hk => hne (by rw [hk]))⟩
  cases b with
  | false => simpa using hpos n
  | true =>
    have hzero := hpos 0
    have hn : (0 : ℚ) ≤ F32.patternUnits n := Nat.cast_nonneg _
    rw [show ((F32.patternUnits 0 : Nat) : ℚ) = 0 from rfl, sub_zero, abs_of_nonneg hq] at hzero
    rw [if_pos rfl, neg_one_mul, sub_neg_eq_add, abs_of_nonneg (add_nonneg hq hn)]
    refine ⟨by linarith [hzero.1], fun heq hne => hzero.2 (by linarith [hzero.1]) fun h0 => hne ?_⟩
    linarith [hzero.1]

theorem roundsTo_neg {q : ℚ} {r : F32} (h : roundsTo q r) : roundsTo (-q) r.neg := by
  cases r with
  | nan => exact h
  | inf b => cases b <;> simpa [roundsTo, F32.neg] using h
  | fin b e m =>
    obtain ⟨hover, hnear⟩ := h
    refine ⟨by rwa [abs_neg], fun c hc => ?_⟩
    obtain ⟨hle, htie⟩ := hnear c.neg (by simpa using hc)
    have hvalue : f32Value (.fin (!b) e m) = -f32Value (.fin b e m) := f32Value_neg (.fin b e m)
    have hflip : ∀ v : ℚ, |-q - -v| = |q - v| := fun v => by rw [← abs_neg]; ring_nf
    rw [hvalue, hflip, ← neg_neg (f32Value c), hflip, ← f32Value_neg]
    exact ⟨hle, fun heq hne => htie heq fun h => hne (by rw [h])⟩

theorem roundsTo_of_nearest {q : ℚ} {p : Nat} (hq : 0 ≤ q) (h : F32.IsNearest q p) :
    roundsTo (q / 2 ^ 149) (F32.ofMag false p) := by
  have hover := lt_overflowPoint_iff_of_nearest h
  rcases Nat.lt_or_ge p (255 * 2 ^ 23) with hp | hp
  · have hvalue := f32Value_ofMag hp false
    rw [F32.ofMag_eq_fin hp] at hvalue ⊢
    refine ⟨by rw [abs_of_nonneg (by positivity)]; exact hover.2 hp, fun c hc => ?_⟩
    obtain ⟨b, n, hn, rfl⟩ := F32.exists_ofMag_of_finite hc
    obtain ⟨hle, htie⟩ := nearest_signed hq h b n
    have hscale : ∀ v : ℚ, |q / 2 ^ 149 - v / 2 ^ 149| = |q - v| / 2 ^ 149 := fun v => by
      rw [← sub_div, abs_div, abs_of_pos (show (0 : ℚ) < 2 ^ 149 by positivity)]
    have hpos : (0 : ℚ) < 2 ^ 149 := by positivity
    rw [hvalue, f32Value_ofMag hn, if_neg Bool.false_ne_true, one_mul, hscale, hscale]
    refine ⟨div_le_div_of_nonneg_right hle hpos.le, fun heq hne => ?_⟩
    have heven := htie ((div_left_inj' hpos.ne').1 heq) fun h => hne (by rw [h])
    rw [BitVec.getLsbD_ofNat, Nat.testBit_zero]
    simp [heven]
  · rw [F32.ofMag_eq_inf hp]
    exact not_lt.1 (mt hover.1 (by omega))

/-- `F32.round` rounds `num / den` units, with its sign, to nearest even. -/
theorem roundsTo_round (b : Bool) (num den : Nat) (hd : 0 < den) :
    roundsTo ((if b then -1 else 1) * ((num : ℚ) / den) / 2 ^ 149) (F32.round b num den) := by
  have h := roundsTo_of_nearest (by positivity) (F32.isNearest_roundPattern num den hd)
  rw [← F32.round_eq] at h
  cases b with
  | false => simpa using h
  | true =>
    rw [F32.round_eq, ← Bool.not_false, ← F32.neg_ofMag, ← F32.round_eq, Bool.not_false, if_pos rfl,
      neg_one_mul, neg_div]
    exact roundsTo_neg h

/-! ## Sum, difference, product and quotient of finite values -/

theorem roundSum_zero (b : Bool) : F32.roundSum b 0 = .fin b 0 0 := rfl

theorem roundsTo_roundSum (b : Bool) (t : Int) : roundsTo ((t : ℚ) / 2 ^ 149) (F32.roundSum b t) := by
  rcases eq_or_ne t 0 with rfl | ht
  · have hround : F32.roundSum b 0 = F32.round b 0 1 := by cases b <;> decide +kernel
    have h := roundsTo_round b 0 1 Nat.one_pos
    simpa [hround] using h
  · have h := roundsTo_round (decide (t < 0)) t.natAbs 1 Nat.one_pos
    have hsign : (if decide (t < 0) = true then -1 else 1) * ((t.natAbs : ℚ) / (1 : Nat)) = t := by
      rw [Nat.cast_one, div_one, Nat.cast_natAbs]
      rcases lt_or_ge t 0 with hneg | hnonneg
      · simp [hneg, abs_of_neg]
      · simp [hnonneg.not_gt, abs_of_nonneg hnonneg]
    rw [hsign] at h
    unfold F32.roundSum
    rwa [if_neg ht]

theorem exists_fin {x : F32} (h : x.isFinite = true) : ∃ b e m, x = .fin b e m := by
  cases x with
  | nan => simp [F32.isFinite] at h
  | inf b => simp [F32.isFinite] at h
  | fin b e m => exact ⟨b, e, m, rfl⟩

/-- Signs multiply as the factors 1 and −1. -/
theorem sign_bne (a b : Bool) : (if (a != b) = true then -1 else 1 : ℚ) =
    (if a = true then -1 else 1) * (if b = true then -1 else 1) := by
  cases a <;> cases b <;> simp

section
variable {x y : F32} (hx : x.isFinite = true) (hy : y.isFinite = true)
include hx hy

theorem roundsTo_add : roundsTo (f32Value x + f32Value y) (F32.add x y) := by
  obtain ⟨a, e, m, rfl⟩ := exists_fin hx
  obtain ⟨b, f, n, rfl⟩ := exists_fin hy
  rw [show f32Value (.fin a e m) + f32Value (.fin b f n) =
    ((F32.signedUnits a e m + F32.signedUnits b f n : Int) : ℚ) / 2 ^ 149 by
      simp only [f32Value]; push_cast; ring]
  exact roundsTo_roundSum _ _

theorem roundsTo_sub : roundsTo (f32Value x - f32Value y) (F32.sub x y) := by
  rw [sub_eq_add_neg, ← f32Value_neg]
  exact roundsTo_add hx (by simpa using hy)

theorem roundsTo_mul : roundsTo (f32Value x * f32Value y) (F32.mul x y) := by
  obtain ⟨a, e, m, rfl⟩ := exists_fin hx
  obtain ⟨b, f, n, rfl⟩ := exists_fin hy
  have h := roundsTo_round (a != b) (F32.units e m * F32.units f n) (2 ^ 149) (by positivity)
  have hvalue : f32Value (.fin a e m) * f32Value (.fin b f n) = (if (a != b) = true then -1 else 1) *
      ((F32.units e m * F32.units f n : Nat) / (2 ^ 149 : Nat) : ℚ) / 2 ^ 149 := by
    rw [f32Value_fin, f32Value_fin, sign_bne]
    push_cast
    ring
  rw [hvalue]
  exact h

theorem roundsTo_div (h0 : f32Value y ≠ 0) : roundsTo (f32Value x / f32Value y) (F32.div x y) := by
  obtain ⟨a, e, m, rfl⟩ := exists_fin hx
  obtain ⟨b, f, n, rfl⟩ := exists_fin hy
  have hunits : F32.units f n ≠ 0 := mt (f32Value_fin_eq_zero b f n).2 h0
  have hcast : (F32.units f n : ℚ) ≠ 0 := Nat.cast_ne_zero.2 hunits
  have h := roundsTo_round (a != b) (F32.units e m * 2 ^ 149) _ (Nat.pos_of_ne_zero hunits)
  have hvalue : f32Value (.fin a e m) / f32Value (.fin b f n) = (if (a != b) = true then -1 else 1) *
      ((F32.units e m * 2 ^ 149 : Nat) / F32.units f n : ℚ) / 2 ^ 149 := by
    rw [f32Value_fin, f32Value_fin, sign_bne]
    rw [Nat.cast_mul, Nat.cast_pow, Nat.cast_ofNat]
    cases b <;> simp only [if_true, if_false, Bool.false_eq_true] <;> field_simp
  rw [F32.div, if_neg hunits, hvalue]
  exact h

end

/-! ## The square root -/

/-- The root of `n` in half units that `F32.roundRoot` rounds: an odd number stands for an inexact root
between its even neighbours. -/
def stickyRoot (n : Nat) : Nat := 2 * isqrt n + (if isqrt n * isqrt n = n then 0 else 1)

theorem roundRoot_eq (n : Nat) :
    F32.roundRoot n = F32.ofMag false (F32.roundPattern (stickyRoot n) 2) := rfl

/-- Against every number of half units but an odd one equal to it, the sticky root orders as the exact
root does. -/
theorem stickyRoot_order {n : Nat} (hn : n < 2 ^ 428) {k : Nat} (hk : k = stickyRoot n → k % 2 = 0) :
    (stickyRoot n ≤ k → 4 * n ≤ k * k) ∧ (k ≤ stickyRoot n → k * k ≤ 4 * n) := by
  obtain ⟨hlow, hhigh⟩ := isqrt_spec n hn
  unfold stickyRoot at *
  generalize isqrt n = r at *
  split at hk
  · rename_i hexact
    rw [if_pos hexact, ← hexact]
    constructor <;> intro h <;> nlinarith
  · rename_i hinexact
    rw [if_neg hinexact]
    constructor <;> intro h
    · have : 2 * r + 2 ≤ k := by omega
      nlinarith
    · have : k ≤ 2 * r := by omega
      nlinarith

theorem stickyRoot_range {n : Nat} (hlow : 2 ^ 149 ≤ n) (hn : n < 2 ^ 428) :
    2 * 2 ^ 74 ≤ stickyRoot n ∧ stickyRoot n < 2 * 2 ^ 215 := by
  obtain ⟨hle, hlt⟩ := isqrt_spec n hn
  have hroot : 2 ^ 74 ≤ isqrt n := by
    by_contra h
    have : (isqrt n + 1) * (isqrt n + 1) ≤ 2 ^ 74 * 2 ^ 74 := Nat.mul_le_mul (by omega) (by omega)
    rw [← Nat.pow_add] at this
    omega
  have hbound : isqrt n < 2 ^ 214 := by
    by_contra h
    have : 2 ^ 214 * 2 ^ 214 ≤ isqrt n * isqrt n := Nat.mul_le_mul (by omega) (by omega)
    rw [← Nat.pow_add] at this
    exact absurd (this.trans hle) (not_le.2 hn)
  unfold stickyRoot
  split <;> omega

/-- At or above 2^24 units every representable magnitude is even. -/
theorem patternUnits_even {p : Nat} (h : 2 ^ 24 ≤ F32.patternUnits p) :
    F32.patternUnits p % 2 = 0 := by
  obtain ⟨s, n, rfl, hn, hs⟩ := F32.exists_binade p
  rw [F32.patternUnits_binade s n hn.le hs] at h ⊢
  cases s with
  | zero => omega
  | succ s => rw [Nat.pow_succ, ← Nat.mul_assoc, Nat.mul_mod_left]

/-- What is as near to a magnitude of at least 2^74 units as the nearest pattern has as many units. -/
theorem le_patternUnits_of_nearest {q : ℚ} {p b : Nat} (h : F32.IsNearest q p) (hq : 2 ^ 74 ≤ q)
    (hb : |q - F32.patternUnits b| = |q - F32.patternUnits p|) : 2 ^ 74 ≤ F32.patternUnits b := by
  have hpow : (F32.patternUnits (51 * 2 ^ 23 + 2 ^ 23) : ℚ) = 2 ^ 74 := by
    rw [F32.patternUnits_binade 51 (2 ^ 23) (by omega) (.inr le_rfl)]
    norm_num
  have hnear := (h (51 * 2 ^ 23 + 2 ^ 23)).1
  rw [hpow, abs_of_nonneg (sub_nonneg.2 hq), ← hb] at hnear
  by_contra hlt
  have hlt' : (F32.patternUnits b : ℚ) < 2 ^ 74 := by exact_mod_cast not_le.1 hlt
  rw [abs_of_nonneg (by linarith)] at hnear
  linarith

/-- The pattern nearest to the sticky root is nearest to the exact root: it lies on the same side of the
middle to every other pattern as the root. A middle equal to the sticky root is even, so exact. -/
theorem root_nearest {n p : Nat} (hlow : 2 ^ 149 ≤ n) (hn : n < 2 ^ 428)
    (hp : F32.IsNearest ((stickyRoot n : ℚ) / (2 : Nat)) p) (b : Nat) :
    (F32.patternUnits p < F32.patternUnits b →
      4 * n ≤ (F32.patternUnits p + F32.patternUnits b) * (F32.patternUnits p + F32.patternUnits b)) ∧
    (F32.patternUnits b < F32.patternUnits p →
      (F32.patternUnits p + F32.patternUnits b) * (F32.patternUnits p + F32.patternUnits b) ≤ 4 * n) := by
  have hdouble : 2 * ((stickyRoot n : ℚ) / (2 : Nat)) = stickyRoot n := by push_cast; ring
  have hq : (2 : ℚ) ^ 74 ≤ (stickyRoot n : ℚ) / (2 : Nat) := by
    have : ((2 * 2 ^ 74 : Nat) : ℚ) ≤ stickyRoot n := Nat.cast_le.2 (stickyRoot_range hlow hn).1
    push_cast at this
    linarith
  have hnear := (hp b).1
  have heven : F32.patternUnits p + F32.patternUnits b = stickyRoot n →
      (F32.patternUnits p + F32.patternUnits b) % 2 = 0 := by
    intro hmid
    have hmid' : (F32.patternUnits p + F32.patternUnits b : ℚ) = stickyRoot n := by exact_mod_cast hmid
    have htie : |(stickyRoot n : ℚ) / (2 : Nat) - F32.patternUnits b| =
        |(stickyRoot n : ℚ) / (2 : Nat) - F32.patternUnits p| :=
      distances_eq_of_midpoint (by linarith)
    have hb := patternUnits_even (le_trans (by omega) (le_patternUnits_of_nearest hp hq htie))
    have hp' := patternUnits_even (le_trans (by omega) (le_patternUnits_of_nearest hp hq rfl))
    omega
  obtain ⟨hup, hdown⟩ := stickyRoot_order hn heven
  refine ⟨fun h => hup ?_, fun h => hdown ?_⟩
  · have := midpoint_ge_of_nearer hnear (Nat.cast_lt.2 h)
    rw [hdouble] at this
    exact_mod_cast this
  · have := midpoint_le_of_nearer hnear (Nat.cast_lt.2 h)
    rw [hdouble] at this
    exact_mod_cast this

/-- A finite value that is not negative is a pattern's magnitude. -/
theorem exists_patternUnits_of_nonneg {c : F32} (hc : c.isFinite = true) (h : 0 ≤ f32Value c) :
    ∃ p, f32Value c = (F32.patternUnits p : ℚ) / 2 ^ 149 := by
  obtain ⟨b, p, hp, rfl⟩ := F32.exists_ofMag_of_finite hc
  rw [f32Value_ofMag hp] at h ⊢
  cases b with
  | false => exact ⟨p, by rw [if_neg Bool.false_ne_true, one_mul]⟩
  | true =>
    have hpos : (0 : ℚ) ≤ F32.patternUnits p / 2 ^ 149 := by positivity
    rw [if_pos rfl, neg_one_mul, neg_div] at h ⊢
    exact ⟨0, by rw [show ((F32.patternUnits 0 : Nat) : ℚ) = 0 from rfl]; linarith⟩

/-- The root of a positive value is its rounded sticky root, a finite value. -/
theorem sqrt_eq_nearest {e : Fin 255} {m : BitVec 23} (h : F32.units e m ≠ 0) :
    ∃ p, p < 255 * 2 ^ 23 ∧ F32.sqrt (.fin false e m) = F32.ofMag false p ∧
      2 ^ 149 ≤ F32.units e m * 2 ^ 149 ∧ F32.units e m * 2 ^ 149 < 2 ^ 428 ∧
      F32.IsNearest ((stickyRoot (F32.units e m * 2 ^ 149) : ℚ) / (2 : Nat)) p := by
  have hlow : 2 ^ 149 ≤ F32.units e m * 2 ^ 149 := Nat.le_mul_of_pos_left _ (Nat.pos_of_ne_zero h)
  have hhigh : F32.units e m * 2 ^ 149 < 2 ^ 428 := by
    rw [show 428 = 279 + 149 from rfl, Nat.pow_add]
    refine Nat.mul_lt_mul_of_pos_right ?_ (by positivity)
    exact (F32.units_lt e m).trans (Nat.pow_lt_pow_right (by decide) (by decide))
  have hnear := F32.isNearest_roundPattern (stickyRoot (F32.units e m * 2 ^ 149)) 2 (by decide)
  refine ⟨_, (lt_overflowPoint_iff_of_nearest hnear).1 ?_, ?_, hlow, hhigh, hnear⟩
  · have : (stickyRoot (F32.units e m * 2 ^ 149) : ℚ) < (2 * 2 ^ 215 : Nat) :=
      Nat.cast_lt.2 (stickyRoot_range hlow hhigh).2
    rw [div_div, div_lt_iff₀ (by positivity)]
    refine this.trans ?_
    norm_num [overflowPoint]
  · rw [F32.sqrt, if_neg h, if_neg Bool.false_ne_true, roundRoot_eq]

theorem sqrt_of_units_zero {b : Bool} {e : Fin 255} {m : BitVec 23} (h : F32.units e m = 0) :
    F32.sqrt (.fin b e m) = .fin b e m := by
  rw [F32.sqrt, if_pos h]

theorem nearest_sqrt {x : F32} (hx : x.isFinite = true) (h : 0 ≤ f32Value x) :
    (F32.sqrt x).isFinite = true ∧ 0 ≤ f32Value (F32.sqrt x) ∧
      ∀ c : F32, c.isFinite = true → 0 ≤ f32Value c →
        (f32Value (F32.sqrt x) < f32Value c →
          4 * f32Value x ≤ (f32Value (F32.sqrt x) + f32Value c) ^ 2) ∧
        (f32Value c < f32Value (F32.sqrt x) →
          (f32Value c + f32Value (F32.sqrt x)) ^ 2 ≤ 4 * f32Value x) := by
  obtain ⟨b, e, m, rfl⟩ := exists_fin hx
  by_cases hzero : F32.units e m = 0
  · have hvalue : f32Value (.fin b e m) = 0 := (f32Value_fin_eq_zero b e m).2 hzero
    rw [sqrt_of_units_zero hzero, hvalue]
    exact ⟨rfl, le_rfl, fun c _ hc =>
      ⟨fun _ => by rw [mul_zero]; positivity, fun hneg => absurd hneg hc.not_gt⟩⟩
  · obtain rfl : b = false := by
      by_contra hb
      have hpos : (0 : ℚ) < F32.units e m := Nat.cast_pos.2 (Nat.pos_of_ne_zero hzero)
      rw [f32Value_fin, if_pos (by simpa using hb), neg_one_mul, neg_div] at h
      linarith [show (0 : ℚ) < F32.units e m / 2 ^ 149 by positivity]
    obtain ⟨p, hp, hsqrt, hlow, hhigh, hnear⟩ := sqrt_eq_nearest hzero
    have hroot : f32Value (F32.sqrt (.fin false e m)) = (F32.patternUnits p : ℚ) / 2 ^ 149 := by
      rw [hsqrt, f32Value_ofMag hp, if_neg Bool.false_ne_true, one_mul]
    have hx4 : 4 * f32Value (.fin false e m) =
        ((4 * (F32.units e m * 2 ^ 149) : Nat) : ℚ) / (2 ^ 149 * 2 ^ 149) := by
      rw [f32Value_fin]
      push_cast
      ring
    refine ⟨by rw [hsqrt, F32.isFinite_ofMag]; exact hp, by rw [hroot]; positivity, fun c hc hc0 => ?_⟩
    obtain ⟨n, hn⟩ := exists_patternUnits_of_nonneg hc hc0
    have hsquare : (F32.patternUnits p / 2 ^ 149 + F32.patternUnits n / 2 ^ 149 : ℚ) ^ 2 =
        (((F32.patternUnits p + F32.patternUnits n) * (F32.patternUnits p + F32.patternUnits n) : Nat) : ℚ)
          / (2 ^ 149 * 2 ^ 149) := by
      push_cast
      ring
    obtain ⟨habove, hbelow⟩ := root_nearest hlow hhigh hnear n
    have hlt : ∀ a b : Nat, (a : ℚ) / 2 ^ 149 < (b : ℚ) / 2 ^ 149 ↔ a < b := fun a b => by
      rw [div_lt_div_iff_of_pos_right (by positivity), Nat.cast_lt]
    rw [hx4, hroot, hn, hlt, hlt, add_comm (F32.patternUnits n / 2 ^ 149 : ℚ), hsquare]
    exact ⟨fun h => div_le_div_of_nonneg_right (Nat.cast_le.2 (habove h)) (by positivity),
      fun h => div_le_div_of_nonneg_right (Nat.cast_le.2 (hbelow h)) (by positivity)⟩

/-! ## NaN, infinities and zeros -/

theorem nan_operand (x : F32) : F32.add .nan x = .nan ∧ F32.add x .nan = .nan ∧ F32.mul .nan x = .nan ∧
    F32.mul x .nan = .nan ∧ F32.div .nan x = .nan ∧ F32.div x .nan = .nan ∧ F32.sqrt .nan = .nan := by
  cases x <;> exact ⟨rfl, rfl, rfl, rfl, rfl, rfl, rfl⟩

/-- An exact zero sum has the sign − only from two operands of sign −. -/
theorem add_eq_zero_of_sum_zero {x y : F32} (hx : x.isFinite = true) (hy : y.isFinite = true)
    (h : f32Value x + f32Value y = 0) : F32.add x y = .fin (f32Neg x && f32Neg y) 0 0 := by
  obtain ⟨a, e, m, rfl⟩ := exists_fin hx
  obtain ⟨b, f, n, rfl⟩ := exists_fin hy
  have hsum : F32.signedUnits a e m + F32.signedUnits b f n = 0 := by
    simp only [f32Value] at h
    rw [← add_div, div_eq_zero_iff, or_iff_left (by positivity)] at h
    exact_mod_cast h
  rw [F32.add, hsum, roundSum_zero]
  rfl

theorem f32Neg_mul {x y : F32} (hx : x.isFinite = true) (hy : y.isFinite = true) :
    f32Neg (F32.mul x y) = (f32Neg x != f32Neg y) := by
  obtain ⟨a, e, m, rfl⟩ := exists_fin hx
  obtain ⟨b, f, n, rfl⟩ := exists_fin hy
  exact f32Neg_round ..

theorem f32Neg_div {x y : F32} (hx : x.isFinite = true) (hy : y.isFinite = true)
    (h : f32Value y ≠ 0) : f32Neg (F32.div x y) = (f32Neg x != f32Neg y) := by
  obtain ⟨a, e, m, rfl⟩ := exists_fin hx
  obtain ⟨b, f, n, rfl⟩ := exists_fin hy
  rw [F32.div, if_neg (mt (f32Value_fin_eq_zero b f n).2 h)]
  exact f32Neg_round ..

theorem div_by_zero {x y : F32} (hx : x.isFinite = true) (hy : y.isFinite = true)
    (h : f32Value y = 0) :
    F32.div x y = if f32Value x = 0 then .nan else .inf (f32Neg x != f32Neg y) := by
  obtain ⟨a, e, m, rfl⟩ := exists_fin hx
  obtain ⟨b, f, n, rfl⟩ := exists_fin hy
  rw [F32.div, if_pos ((f32Value_fin_eq_zero b f n).1 h)]
  simp only [f32Value_fin_eq_zero]
  rfl

theorem sqrt_zero {x : F32} (hx : x.isFinite = true) (h : f32Value x = 0) : F32.sqrt x = x := by
  obtain ⟨b, e, m, rfl⟩ := exists_fin hx
  exact sqrt_of_units_zero ((f32Value_fin_eq_zero b e m).1 h)

theorem sqrt_negative {x : F32} (hx : x.isFinite = true) (h : f32Value x < 0) : F32.sqrt x = .nan := by
  obtain ⟨b, e, m, rfl⟩ := exists_fin hx
  rw [F32.sqrt, if_neg (mt (f32Value_fin_eq_zero b e m).2 h.ne)]
  cases b with
  | true => rfl
  | false =>
    rw [f32Value_fin, if_neg Bool.false_ne_true, one_mul] at h
    exact absurd h (not_lt.2 (by positivity))

theorem infinite_operand (x : F32) (a : Bool) (hx : x.isFinite = true) :
    F32.add (.inf a) x = .inf a ∧ F32.add x (.inf a) = .inf a ∧
    F32.mul (.inf a) x = (if f32Value x = 0 then .nan else .inf (a != f32Neg x)) ∧
    F32.mul x (.inf a) = (if f32Value x = 0 then .nan else .inf (f32Neg x != a)) ∧
    F32.div (.inf a) x = .inf (a != f32Neg x) ∧ F32.div x (.inf a) = .fin (f32Neg x != a) 0 0 := by
  obtain ⟨b, e, m, rfl⟩ := exists_fin hx
  simp only [f32Value_fin_eq_zero]
  exact ⟨rfl, rfl, rfl, rfl, rfl, rfl⟩

theorem infinite_operands (a b : Bool) :
    F32.add (.inf a) (.inf b) = (if a = b then .inf a else .nan) ∧
    F32.mul (.inf a) (.inf b) = .inf (a != b) ∧ F32.div (.inf a) (.inf b) = .nan ∧
    F32.sqrt (.inf a) = if a then .nan else .inf false := ⟨rfl, rfl, rfl, rfl⟩

/-- Settles O55: finite operands by the nearest pattern, the special operands case by case. -/
theorem floatOperationsRoundToNearest : Obligations.FloatOperationsRoundToNearest :=
  ⟨fun _ _ hx hy => ⟨roundsTo_add hx hy, roundsTo_sub hx hy, roundsTo_mul hx hy, roundsTo_div hx hy,
      nearest_sqrt hx⟩,
    nan_operand, fun _ _ => rfl,
    fun _ _ hx hy => ⟨add_eq_zero_of_sum_zero hx hy, f32Neg_mul hx hy, f32Neg_div hx hy,
      div_by_zero hx hy, sqrt_zero hx, sqrt_negative hx⟩,
    infinite_operand, infinite_operands⟩

end Sys2Proof.Machine
end

section
/-! What an instruction and a step can do, said once for all constructors: the invariants of a step are
derived from these cases. -/

namespace Sys2Proof.Machine

/-! ## What an instruction can do -/

/-- From `s` to `t` only the scratch buffer and FEC_RESULT may change, and events may be appended: all NOP,
RDREG, SCRWR, SCRRD and the host FEC commands do (46_host_commands R431, R434 to R444). -/
def touchesScratch (s t : State) : Prop :=
  ∃ scr fr ev, t = { s with scr := scr, fecResult := fr, events := s.events ++ ev }

/-- From `s` to `t` only the synchronizer's state may change, and events may be appended: all a SAMPLE does
before its dibit enters the dibit path (40_synchronizer R155 to R162). -/
def touchesSync (s t : State) : Prop :=
  ∃ ph f o m p dl wi ev, t = { s with
    phase := ph, freq := f, omega := o, mu := m, prev := p, dl := dl, wi := wi,
    events := s.events ++ ev }

/-- The ways an instruction `i` can lead from `s` to `t`. -/
inductive ExecEffect (i : Instr) (s t : State) : Prop
  /-- a command on the scratch buffer, or one that only reports -/
  | scratch (h : touchesScratch s t)
  /-- WRREG -/
  | register (a : BitVec 8) (v : Word) (hi : i = .wrreg a v) (ht : t = writeAddr a v s)
  /-- SRESET -/
  | reset (ht : t = softReset s)
  /-- DIBIT, DIBIT8, and SAMPLE, which decides at most one dibit -/
  | dibits (ds : List Dibit) (u : State) (hu : touchesSync s u)
      (ht : t = dibitsStep Config.params ds u)
  /-- a state handler -/
  | handler (k : SlotId) (c : StateCode) (hi : i = handlerOf k c) (h : touchesSlot k s t)

theorem touchesSync_refl (s : State) : touchesSync s s :=
  ⟨_, _, _, _, _, _, _, [], by rw [List.append_nil]⟩

/-- SAMPLE decides no dibit, or one after the loops (40_synchronizer R155, R156). -/
theorem sampleStep_dibits (P : Config.Params) (x : Cplx) (s : State) :
    ∃ ds u, touchesSync s u ∧ sampleStep P x s = dibitsStep P ds u := by
  unfold sampleStep
  split
  · unfold symbolStep dibitIn
    refine ⟨[_], _, ?_, rfl⟩
    split
    · exact ⟨_, _, _, _, _, _, _, _, rfl⟩
    · exact ⟨_, _, _, _, _, _, _, [], by rw [List.append_nil]; rfl⟩
  · exact ⟨[], _, ⟨_, _, _, _, _, _, _, [], by rw [List.append_nil]⟩, rfl⟩

theorem touchesScratch_fecDone (opc : BitVec 8) (ok : Bool) (nerr crcstat : Nat) {s t : State}
    (h : touchesScratch s t) : touchesScratch s (fecDone opc ok nerr crcstat t) := by
  obtain ⟨scr, fr, ev, rfl⟩ := h
  exact ⟨scr, _, _, by rw [fecDone, emit, List.append_assoc]⟩

theorem touchesScratch_refl (s : State) : touchesScratch s s :=
  ⟨_, _, [], by rw [List.append_nil]⟩

theorem touchesScratch_emit (e : Event) (s : State) : touchesScratch s (emit e s) :=
  ⟨_, _, _, rfl⟩

theorem touchesScratch_memWrite (b : Nat) (v : List Bool) (s : State) :
    touchesScratch s (memWrite b v s) :=
  ⟨_, _, [], by rw [List.append_nil]; rfl⟩

/-- A write made on a condition, as the FEC commands make theirs. -/
theorem touchesScratch_ite (c : Prop) [Decidable c] (b : Nat) (v : List Bool) (s : State) :
    touchesScratch s (if c then memWrite b v s else s) := by
  split
  · exact touchesScratch_memWrite b v s
  · exact touchesScratch_refl s

theorem touchesScratch_crcCommand (nb : Nat) (fix : Bool) (s : State) :
    touchesScratch s (crcCommand nb fix s) := by
  unfold crcCommand
  split
  · exact touchesScratch_fecDone _ _ _ _ (touchesScratch_ite _ 0 _ s)
  · exact touchesScratch_fecDone _ _ _ _ (touchesScratch_refl s)

/-- The instruction of a state's handler runs SM_STEP's arm for that state (43_duid R271). -/
theorem touchesSlot_exec_handlerOf {k : SlotId} {c : StateCode} {s t : State}
    (h : exec (handlerOf k c) s = .next t) : touchesSlot k s t := by
  have hraw := touchesSlot_dispatchRaw true (touchesSlot_refl k s)
  cases c <;> cases h
  case nid => exact touchesSlot_nid k s
  case tsbk1 => exact touchesSlot_tsbk _ k _ s
  case tsbk2 => exact touchesSlot_tsbk _ k _ s
  case tsbk3 => exact touchesSlot_tsbk _ k _ s
  case pdu0 => exact touchesSlot_pdu0 _ k s
  case pdu1 => exact touchesSlot_pduStage _ k _ _ _ s
  case pdu2 => exact touchesSlot_pduStage _ k _ _ _ s
  case pdu3 => exact touchesSlot_pdu3 _ k s
  case pduc => exact touchesSlot_pduc _ k s
  all_goals exact hraw

theorem execEffect_handlerOf {s t : State} (k : SlotId) (c : StateCode)
    (h : exec (handlerOf k c) s = .next t) : ExecEffect (handlerOf k c) s t :=
  .handler k c rfl (touchesSlot_exec_handlerOf h)

/-- Every instruction acts in one of these ways. -/
theorem exec_effect {i : Instr} {s t : State} (h : exec i s = .next t) : ExecEffect i s t := by
  cases i with
  | nop => cases h; exact .scratch (touchesScratch_refl s)
  | sample x y =>
    cases h
    obtain ⟨ds, u, hu, ht⟩ := sampleStep_dibits Config.params ⟨F32.ofBits x, F32.ofBits y⟩ s
    exact .dibits ds u hu ht
  | dibit d => cases h; exact .dibits [d] s (touchesSync_refl s) rfl
  | dibit8 ds => cases h; exact .dibits ds s (touchesSync_refl s) rfl
  | wrreg a v => cases h; exact .register a v rfl rfl
  | rdreg a => cases h; exact .scratch (touchesScratch_emit _ s)
  | scrwr idx v => cases h; exact .scratch (touchesScratch_memWrite _ _ s)
  | scrrd idx => cases h; exact .scratch (touchesScratch_emit _ s)
  | sreset => cases h; exact .reset rfl
  | bch => cases h; exact .scratch (touchesScratch_fecDone _ _ _ _ (touchesScratch_ite _ _ _ s))
  | rs n => cases h; exact .scratch (touchesScratch_fecDone _ _ _ _ (touchesScratch_ite _ _ _ s))
  | tr12 => cases h; exact .scratch (touchesScratch_fecDone _ _ _ _ (touchesScratch_memWrite _ _ s))
  | tr34 => cases h; exact .scratch (touchesScratch_fecDone _ _ _ _ (touchesScratch_memWrite _ _ s))
  | crc nb fix => cases h; exact .scratch (touchesScratch_crcCommand _ fix s)
  | deint => cases h; exact .scratch (touchesScratch_fecDone _ _ _ _ (touchesScratch_memWrite _ _ s))
  | intlv => cases h; exact .scratch (touchesScratch_fecDone _ _ _ _ (touchesScratch_memWrite _ _ s))
  | stateNid k => exact execEffect_handlerOf k .nid h
  | stateHdu k => exact execEffect_handlerOf k .hdu h
  | stateLdu1 k => exact execEffect_handlerOf k .ldu1 h
  | stateLdu2 k => exact execEffect_handlerOf k .ldu2 h
  | stateTdu k => exact execEffect_handlerOf k .tdu h
  | stateTdulc k => exact execEffect_handlerOf k .tdulc h
  | stateTsbk1 k => exact execEffect_handlerOf k .tsbk1 h
  | stateTsbk2 k => exact execEffect_handlerOf k .tsbk2 h
  | stateTsbk3 k => exact execEffect_handlerOf k .tsbk3 h
  | statePdu0 k => exact execEffect_handlerOf k .pdu0 h
  | statePdu1 k => exact execEffect_handlerOf k .pdu1 h
  | statePdu2 k => exact execEffect_handlerOf k .pdu2 h
  | statePdu3 k => exact execEffect_handlerOf k .pdu3 h
  | statePduc k => exact execEffect_handlerOf k .pduc h
  | stateUnknown k => exact execEffect_handlerOf k .unknown h

/-! ## What a step can do -/

theorem afterExec_next {f : State → State} {o : Host.Outcome State Fault Refusal} {t : State}
    (h : afterExec f o = .next t) : ∃ u, o = .next u ∧ t = f u := by
  cases o with
  | next u => cases h; exact ⟨u, rfl, rfl⟩
  | fault r => cases h
  | refused r => cases h

/-- The ways a step can lead from `s` to `t` (42_sync R231, 46_host_commands R430, 60_exceptions R473). -/
inductive StepEffect (s t : State) : Prop
  /-- the block waits for words -/
  | wait (ht : t = s)
  /-- an illegal command is skipped -/
  | illegal (opc : BitVec 8) (n : Nat) (ht : t = skipIllegal opc n s)
  /-- the command at the cursor is performed -/
  | command (i : Instr) (n : Nat) (u : State) (hd : decode (s.stream.drop s.cc) = .command i n)
      (hu : exec i s = .next u) (ht : t = advance n u)
  /-- the handler of a full slot runs -/
  | handler (k : SlotId) (i : Instr) (u : State) (hk : slotDue (s.slot k) = true)
      (hu : exec i s = .next u) (ht : t = finishHandler k u)

theorem fetch_handler_due {s : State} {k : SlotId} {i : Option Instr} (h : fetch s = .handler k i) :
    slotDue (s.slot k) = true := by
  unfold fetch at h
  split at h
  · cases h; assumption
  · split at h
    · cases h; assumption
    · cases h

theorem fetch_command {s : State} {d : Decoded} (h : fetch s = .command d) :
    decode (s.stream.drop s.cc) = d := by
  unfold fetch at h
  split at h
  · cases h
  · split at h
    · cases h
    · cases h; rfl

/-- Every step goes one of these ways. -/
theorem step_effect {s t : State} (h : step s = .next t) : StepEffect s t := by
  unfold step at h
  split at h
  · next k i hf =>
    obtain ⟨u, hu, rfl⟩ := afterExec_next h
    exact .handler k i u (fetch_handler_due hf) hu rfl
  · cases h; exact .wait rfl
  · next i n hf =>
    obtain ⟨u, hu, rfl⟩ := afterExec_next h
    exact .command i n u (fetch_command hf) hu rfl
  · cases h; exact .illegal _ _ rfl
  · cases h; exact .wait rfl

end Sys2Proof.Machine
end

section
/-! O10, O11, O58: the configuration registers, the sticky fault bits and the legal ranges of the registers,
from the cases of an instruction and of a step (10_state R33, R35, R37, R39, R56). -/

namespace Sys2Proof.Machine

open Config (Params)

/-! ## The configuration registers (10_state R33) -/

theorem writeAddr_cases (a : BitVec 8) (v : Word) (s : State) :
    writeAddr a v s = s ∨ ∃ r, writeAddr a v s = writeReg r v s := by
  unfold writeAddr
  split
  · exact .inr ⟨_, rfl⟩
  · exact .inl rfl

/-- WRREG changes a configuration register and nothing else (46_host_commands R433). -/
theorem writeAddr_frame (a : BitVec 8) (v : Word) (s : State) :
    ∃ c lo hi sl si fm dm, writeAddr a v s = { s with
      ctrl := c, syncPatLo := lo, syncPatHi := hi, syncLen := sl, statusInit := si, fmax := fm,
      duidMap := dm } := by
  rcases writeAddr_cases a v s with h | ⟨r, h⟩ <;> rw [h]
  · exact ⟨_, _, _, _, _, _, _, rfl⟩
  · rcases writeReg_cases r v s with
      h | ⟨_, h⟩ | ⟨_, h⟩ | ⟨_, h⟩ | ⟨_, -, -, h⟩ | ⟨_, h⟩ | ⟨_, -, h⟩ | ⟨_, h⟩ <;> rw [h] <;>
    exact ⟨_, _, _, _, _, _, _, rfl⟩

theorem sameConfig_of_touchesScratch {s t : State} (h : touchesScratch s t) : sameConfig s t := by
  obtain ⟨scr, fr, ev, rfl⟩ := h
  exact ⟨rfl, rfl, rfl, rfl, rfl, rfl, rfl, rfl, rfl⟩

theorem sameConfig_softReset (s : State) : sameConfig s (softReset s) :=
  ⟨rfl, rfl, rfl, rfl, rfl, rfl, rfl, rfl, rfl⟩

theorem sameConfig_of_touchesSlot {k : SlotId} {s t : State} (h : touchesSlot k s t) :
    sameConfig s t := by
  obtain ⟨v, ev, rfl⟩ := h
  exact ⟨rfl, rfl, rfl, rfl, rfl, rfl, rfl, rfl, rfl⟩

/-- The synchronizer and the dibit path leave the configuration alone (70_reset R512). -/
theorem sameConfig_dibits (P : Params) (ds : List Dibit) {s u : State} (h : touchesSync s u) :
    sameConfig s (dibitsStep P ds u) := by
  obtain ⟨ph, f, o, m, p, dl, wi, ev, rfl⟩ := h
  obtain ⟨bf, fs, dc, w, n, a, b, ev', h⟩ := touchesDibitPath_dibitsStep P ds _
  rw [h]
  exact ⟨rfl, rfl, rfl, rfl, rfl, rfl, rfl, rfl, rfl⟩

/-- Settles O10: each case of an instruction but WRREG's keeps the configuration. -/
theorem onlyWrregChangesConfiguration : Obligations.OnlyWrregChangesConfiguration := by
  intro i s t h
  have hsame : sameConfig s t → t.stream = s.stream ∧ t.cc = s.cc ∧
      ((∀ a v, i ≠ .wrreg a v) → sameConfig s t) := fun hc => ⟨hc.1, hc.2.1, fun _ => hc⟩
  cases exec_effect h with
  | scratch h => exact hsame (sameConfig_of_touchesScratch h)
  | register a v hi ht =>
    obtain ⟨c, lo, hi', sl, si, fm, dm, hw⟩ := writeAddr_frame a v s
    rw [ht, hw]
    exact ⟨rfl, rfl, fun hne => absurd hi (hne a v)⟩
  | reset ht => exact hsame (ht ▸ sameConfig_softReset s)
  | dibits ds u hu ht => exact hsame (ht ▸ sameConfig_dibits _ ds hu)
  | handler k c _ h => exact hsame (sameConfig_of_touchesSlot h)

/-! ## The sticky fault bits (10_state R35) -/

/-- BUFFER_FULL is not cleared from `s` to `t`. -/
def keepsBufferFull (s t : State) : Prop := s.faultBufferFull = true → t.faultBufferFull = true

theorem keepsBufferFull_of_eq {s t : State} (h : t.faultBufferFull = s.faultBufferFull) :
    keepsBufferFull s t := fun hs => h.trans hs

theorem keepsBufferFull_trans {s t u : State} (h : keepsBufferFull s t) (h' : keepsBufferFull t u) :
    keepsBufferFull s u := fun hs => h' (h hs)

theorem touchesSlot_faultBufferFull {k : SlotId} {s t : State} (h : touchesSlot k s t) :
    t.faultBufferFull = s.faultBufferFull := by
  obtain ⟨v, ev, rfl⟩ := h
  rfl

/-- An append sets BUFFER_FULL or leaves it (20_memory R85). -/
theorem keepsBufferFull_append (k : SlotId) (b : Bool) (s : State) :
    keepsBufferFull s (append k b s).1 := by
  unfold append
  split
  · exact fun _ => rfl
  · exact keepsBufferFull_of_eq rfl

theorem keepsBufferFull_asmReceive (k : SlotId) (d : Dibit) (s : State) :
    keepsBufferFull s (asmReceive k d s).1 := by
  unfold asmReceive appendDibit
  split
  · exact keepsBufferFull_of_eq rfl
  · refine keepsBufferFull_trans (t := setCtr k ((s.slot k).ctr + 1) s) (keepsBufferFull_of_eq rfl) ?_
    split
    · exact keepsBufferFull_trans (keepsBufferFull_append k _ _) (keepsBufferFull_append k _ _)
    · exact keepsBufferFull_append k _ _

theorem keepsBufferFull_asmSlot (P : Params) (k : SlotId) (d : Dibit) (s : State) :
    keepsBufferFull s (asmSlot P k d s) := by
  unfold asmSlot
  split
  · have hreceive := keepsBufferFull_asmReceive k d s
    split
    · exact keepsBufferFull_trans hreceive
        (keepsBufferFull_of_eq (touchesSlot_faultBufferFull (touchesSlot_fullCheck P k 3 _)))
    · exact hreceive
  · exact id

/-- A correlator bit raises no fault (42_sync R240). -/
theorem corrBit_faults (b : Bool) (s : State) : sameFaults s (corrBit b s) := by
  unfold corrBit detect
  split
  · split
    · exact ⟨rfl, rfl, rfl⟩
    · split <;> exact ⟨rfl, rfl, rfl⟩
  · exact ⟨rfl, rfl, rfl⟩

theorem keepsBufferFull_dibitStep (P : Params) (d : Dibit) (s : State) :
    keepsBufferFull s (dibitStep P d s) :=
  keepsBufferFull_trans (keepsBufferFull_asmSlot P .s0 d s)
    (keepsBufferFull_trans (keepsBufferFull_asmSlot P .s1 d _)
      (keepsBufferFull_trans (keepsBufferFull_of_eq (corrBit_faults _ _).1)
        (keepsBufferFull_of_eq (corrBit_faults _ _).1)))

theorem keepsBufferFull_dibitsStep (P : Params) (ds : List Dibit) (s : State) :
    keepsBufferFull s (dibitsStep P ds s) := by
  induction ds generalizing s with
  | nil => exact id
  | cons d ds ih => exact keepsBufferFull_trans (keepsBufferFull_dibitStep P d s) (ih _)

/-- The fault bits after an instruction: none is cleared, and FAULT_ILLEGAL_CMD is untouched. -/
theorem exec_faults {i : Instr} {s t : State} (h : exec i s = .next t) :
    keepsBufferFull s t ∧ t.faultIllegalCmd = s.faultIllegalCmd := by
  cases exec_effect h with
  | scratch h =>
    obtain ⟨scr, fr, ev, rfl⟩ := h
    exact ⟨id, rfl⟩
  | register a v _ ht =>
    obtain ⟨c, lo, hi, sl, si, fm, dm, hw⟩ := writeAddr_frame a v s
    rw [ht, hw]
    exact ⟨id, rfl⟩
  | reset ht =>
    subst ht
    exact ⟨id, rfl⟩
  | dibits ds u hu ht =>
    have hsync : u.faultBufferFull = s.faultBufferFull ∧ u.faultIllegalCmd = s.faultIllegalCmd := by
      obtain ⟨ph, f, o, m, p, dl, wi, ev, rfl⟩ := hu
      exact ⟨rfl, rfl⟩
    obtain ⟨bf, fs, dc, w, n, a, b, ev, hd⟩ := touchesDibitPath_dibitsStep Config.params ds u
    subst ht
    exact ⟨keepsBufferFull_trans (keepsBufferFull_of_eq hsync.1) (keepsBufferFull_dibitsStep _ ds u),
      by rw [hd]; exact hsync.2⟩
  | handler k c _ h =>
    obtain ⟨v, ev, rfl⟩ := h
    exact ⟨id, rfl⟩

theorem finishHandler_faults (k : SlotId) (s : State) : sameFaults s (finishHandler k s) := by
  unfold finishHandler
  split <;> exact ⟨rfl, rfl, rfl⟩

/-- Settles O11: instructions by `exec_faults`; the step around them only sets FAULT_ILLEGAL_CMD. -/
theorem stickyFaultBitsStaySet : Obligations.StickyFaultBitsStaySet := by
  refine ⟨fun s t h => ?_, fun i s t h => (exec_faults h).2⟩
  cases step_effect h with
  | wait ht =>
    subst ht
    exact ⟨id, id⟩
  | illegal opc n ht =>
    subst ht
    exact ⟨id, fun _ => rfl⟩
  | command i n u _ hu ht =>
    obtain ⟨hfull, hcmd⟩ := exec_faults hu
    subst ht
    exact ⟨hfull, hcmd.trans⟩
  | handler k i u _ hu ht =>
    obtain ⟨hfull, hcmd⟩ := exec_faults hu
    obtain ⟨hfull', hcmd', -⟩ := finishHandler_faults k u
    subst ht
    exact ⟨keepsBufferFull_trans hfull (keepsBufferFull_of_eq hfull'), fun hs => by rw [hcmd', hcmd, hs]⟩

/-! ## The legal ranges (10_state R37, R39, R56) -/

theorem regsLegal_iff (s : State) : regsLegal s = true ↔
    (1 ≤ s.syncLen.toNat ∧ s.syncLen.toNat ≤ 64) ∧ fmaxLegal s.fmax = true ∧ s.corrCnt ≤ 64 := by
  simp [regsLegal, and_assoc]

/-- The legal ranges speak of three fields only. -/
theorem regsLegal_congr {s t : State} (hl : t.syncLen = s.syncLen) (hf : t.fmax = s.fmax)
    (hc : t.corrCnt = s.corrCnt) (h : regsLegal s = true) : regsLegal t = true := by
  rw [regsLegal_iff] at h ⊢
  rwa [hl, hf, hc]

/-- A register write stores legal values only (46_host_commands R433). -/
theorem regsLegal_writeAddr (a : BitVec 8) (v : Word) {s : State} (h : regsLegal s = true) :
    regsLegal (writeAddr a v s) = true := by
  rcases writeAddr_cases a v s with hw | ⟨r, hw⟩ <;> rw [hw]
  · exact h
  obtain ⟨hlen, hfmax, hcnt⟩ := (regsLegal_iff s).1 h
  rcases writeReg_cases r v s with
    hw | ⟨_, hw⟩ | ⟨_, hw⟩ | ⟨_, hw⟩ | ⟨_, hlow, hhigh, hw⟩ | ⟨_, hw⟩ | ⟨_, hlegal, hw⟩ | ⟨_, hw⟩ <;>
    rw [hw, regsLegal_iff]
  · exact ⟨hlen, hfmax, hcnt⟩
  · exact ⟨hlen, hfmax, hcnt⟩
  · exact ⟨hlen, hfmax, hcnt⟩
  · exact ⟨hlen, hfmax, hcnt⟩
  · exact ⟨⟨hlow, hhigh⟩, hfmax, hcnt⟩
  · exact ⟨hlen, hfmax, hcnt⟩
  · exact ⟨hlen, hlegal, hcnt⟩
  · exact ⟨hlen, hfmax, hcnt⟩

/-- The correlator's count saturates at 64 (42_sync R221). -/
theorem corrShift_corrCnt_le (b : Bool) (s : State) : (corrShift b s).corrCnt ≤ 64 := min_le_right _ _

theorem regsLegal_dibitStep (P : Params) (d : Dibit) {s : State} (h : regsLegal s = true) :
    regsLegal (dibitStep P d s) = true := by
  obtain ⟨hlen, hfmax, -⟩ := (regsLegal_iff s).1 h
  have hcnt : (dibitStep P d s).corrCnt ≤ 64 := by
    unfold dibitStep
    rw [corrBit_corrCnt]
    exact corrShift_corrCnt_le _ _
  rw [regsLegal_iff]
  obtain ⟨bf, fs, dc, w, n, a, b, ev, ht⟩ := touchesDibitPath_dibitStep P d s
  rw [ht] at hcnt ⊢
  exact ⟨hlen, hfmax, hcnt⟩

theorem regsLegal_dibitsStep (P : Params) (ds : List Dibit) {s : State} (h : regsLegal s = true) :
    regsLegal (dibitsStep P ds s) = true := by
  induction ds generalizing s with
  | nil => exact h
  | cons d ds ih => exact ih (regsLegal_dibitStep P d h)

theorem regsLegal_exec {i : Instr} {s t : State} (h : regsLegal s = true) (he : exec i s = .next t) :
    regsLegal t = true := by
  cases exec_effect he with
  | scratch ht =>
    obtain ⟨scr, fr, ev, rfl⟩ := ht
    exact regsLegal_congr rfl rfl rfl h
  | register a v _ ht => exact ht ▸ regsLegal_writeAddr a v h
  | reset ht =>
    obtain ⟨hlen, hfmax, -⟩ := (regsLegal_iff s).1 h
    rw [ht, regsLegal_iff]
    exact ⟨hlen, hfmax, Nat.zero_le _⟩
  | dibits ds u hu ht =>
    obtain ⟨ph, f, o, m, p, dl, wi, ev, rfl⟩ := hu
    rw [ht]
    exact regsLegal_dibitsStep _ ds (regsLegal_congr rfl rfl rfl h)
  | handler k c _ ht =>
    obtain ⟨v, ev, rfl⟩ := ht
    exact regsLegal_congr rfl rfl rfl h

/-- Settles O58: the instruction keeps the ranges, and the step around it touches none of the three. -/
theorem stepKeepsTheRegistersLegal : Obligations.StepKeepsTheRegistersLegal := by
  intro s t hs h
  cases step_effect h with
  | wait ht => exact ht ▸ hs
  | illegal opc n ht =>
    subst ht
    exact regsLegal_congr rfl rfl rfl hs
  | command i n u _ hu ht =>
    subst ht
    have hregs := regsLegal_exec hs hu
    exact regsLegal_congr rfl rfl rfl hregs
  | handler k i u _ hu ht =>
    have hregs := regsLegal_exec hs hu
    rw [ht, finishHandler]
    split
    · exact regsLegal_congr rfl rfl rfl hregs
    · exact hregs

end Sys2Proof.Machine
end

section
/-! What a state handler leaves in its slot (43_duid R272 to R300): the slot completed, a slot that goes on
with room in its buffer, or, after a NID, a raw-bit frame that may be full at once. -/

namespace Sys2Proof.Machine

open Config (Params)

/-! ## Buffers rewritten in place -/

/-- Slot `k` of `t` is slot `k` of `s` but for the contents of its buffer, not its length. -/
def rewritesBuffer (k : SlotId) (s t : State) : Prop :=
  ∃ b : List Bool, b.length = (s.slot k).buf.length ∧ t.slot k = { s.slot k with buf := b }

theorem rewritesBuffer_refl (k : SlotId) (s : State) : rewritesBuffer k s s := ⟨_, rfl, rfl⟩

theorem rewritesBuffer_trans {k : SlotId} {s t u : State} (h : rewritesBuffer k s t)
    (h' : rewritesBuffer k t u) : rewritesBuffer k s u := by
  obtain ⟨b, hb, ht⟩ := h
  obtain ⟨c, hc, hu⟩ := h'
  rw [ht] at hc hu
  exact ⟨c, hc.trans hb, hu⟩

theorem rewritesBuffer_writeBuf (k : SlotId) (i : Nat) (c : List Bool) (s : State) :
    rewritesBuffer k s (writeBuf k i c s) :=
  ⟨_, overwriteBits_length _ i c, writeBuf_slot k i c s⟩

/-- A block decoded in place: deinterleaved, then overwritten by the decoder's output (43_duid R284). -/
theorem rewritesBuffer_block (P : Params) (k : SlotId) (start : Nat) (c : List Bool) (s : State) :
    rewritesBuffer k s (writeBuf k start c (blockDeint P k start s)) :=
  rewritesBuffer_trans (rewritesBuffer_writeBuf k start _ s) (rewritesBuffer_writeBuf k start c _)

theorem rewritesBuffer_tsbkCrc (k : SlotId) (s : State) : rewritesBuffer k s (tsbkCrc k s).2 := by
  unfold tsbkCrc
  dsimp only
  split
  · dsimp only
    split
    · exact rewritesBuffer_writeBuf k 64 _ s
    · exact rewritesBuffer_refl k s
  · exact rewritesBuffer_refl k s

/-- A slot rewritten in place, then truncated within its buffer. -/
theorem resize_of_rewritesBuffer {k : SlotId} {s t : State} (c : Nat) (h : rewritesBuffer k s t)
    (hc : c ≤ (s.slot k).buf.length) :
    ∃ b : List Bool, b.length = c ∧ (resize k c t).slot k = { s.slot k with cap := c, buf := b } := by
  obtain ⟨b, hb, ht⟩ := h
  exact ⟨b.take c, by simp; omega, by rw [resize_slot, ht]; rfl⟩

/-! ## The outcomes of a handler -/

/-- The raw-bit states (43_duid R274 to R279). -/
def rawStates : List StateCode := [.hdu, .ldu1, .ldu2, .tdu, .tdulc, .unknown]

/-- The slot `w` goes on after the handler of the full slot `v`, with room in its buffer; even capacities
stay even (10_state R59). -/
def goesOn (v w : Slot) : Prop :=
  w.active = v.active ∧ w.complete = v.complete ∧ w.len < w.cap ∧ legalCap w.state w.cap = true ∧
    (v.cap % 2 = 0 → w.len % 2 = 0 ∧ w.cap % 2 = 0)

/-- The slot `w` holds a raw-bit frame begun by the NID of the slot `v`, of the length a map entry gives
(43_duid R272, R273). -/
def beginsRaw (m : Vector DuidEntry 16) (v w : Slot) : Prop :=
  w.active = v.active ∧ w.complete = v.complete ∧ w.state ∈ rawStates ∧ w.len = 64 ∧
    ∃ i, w.cap = 64 + (m.get i).len.toNat

theorem len_resize_of_le {v : Slot} {c : Nat} (h : v.len ≤ c) : (v.resize c).len = v.len := by
  simp only [Slot.len, resize_len] at h ⊢
  exact min_eq_right h

/-- A slot whose buffer is set to `a` bits and whose capacity is then raised to `c` goes on. -/
theorem goesOn_resized {v : Slot} {b : List Bool} {q : StateCode} {a c₀ : Nat} (c : Nat)
    (hb : b.length = a) (hac : a < c) (hcap : legalCap q c = true)
    (heven : v.cap % 2 = 0 → a % 2 = 0 ∧ c % 2 = 0) :
    goesOn v (Slot.resize { v with state := q, cap := c₀, buf := b } c) := by
  have hlen : (Slot.resize { v with state := q, cap := c₀, buf := b } c).len = a := by
    rw [len_resize_of_le (show b.length ≤ c by omega)]
    exact hb
  refine ⟨rfl, rfl, ?_, hcap, fun hv => ?_⟩ <;> rw [hlen]
  · exact hac
  · exact heven hv

section
variable {k : SlotId} {s : State}

/-- Every raw dispatch completes the slot (43_duid R274). -/
theorem dispatchRaw_complete (f : Bool) : ((dispatchRaw k f s).slot k).complete = true := by
  simp [dispatchRaw]

/-- The state and capacity of the frame a map entry begins (43_duid R272, R273). -/
theorem newCap_cases {e : DuidEntry} {c : StateCode} (h : targetState e.target = some c) :
    (c ∈ rawStates ∧ newCap e = 64 + e.len.toNat) ∨ (legalCap c 260 = true ∧ newCap e = 260) := by
  obtain ⟨target, len⟩ := e
  cases target <;> cases h
  case tsbk1 => exact .inr ⟨rfl, rfl⟩
  case pdu0 => exact .inr ⟨rfl, rfl⟩
  all_goals exact .inl ⟨by decide, rfl⟩

theorem nidContinue_outcome {t : State} (hlen : (s.slot k).len = 64) (ht : rewritesBuffer k s t) :
    ((nidContinue k t).slot k).complete = true ∨ goesOn (s.slot k) ((nidContinue k t).slot k) ∨
      beginsRaw t.duidMap (s.slot k) ((nidContinue k t).slot k) := by
  obtain ⟨b, hb, hslot⟩ := ht
  replace hb : b.length = 64 := hb.trans hlen
  unfold nidContinue
  split
  · exact .inl (by simp)
  · next c htarget =>
    rw [resize_slot, enterState_slot, hslot]
    rcases newCap_cases htarget with ⟨hraw, hcap⟩ | ⟨hlegal, hcap⟩ <;> rw [hcap]
    · refine .inr (.inr ⟨rfl, rfl, hraw, ?_, _, rfl⟩)
      rw [len_resize_of_le (show b.length ≤ _ by omega)]
      exact hb
    · exact .inr (.inl (goesOn_resized 260 hb (by omega) hlegal (fun _ => by omega)))

theorem handleNid_outcome (hlen : (s.slot k).len = 64) :
    ((handleNid k s).slot k).complete = true ∨ goesOn (s.slot k) ((handleNid k s).slot k) ∨
      beginsRaw s.duidMap (s.slot k) ((handleNid k s).slot k) := by
  unfold handleNid
  dsimp only
  split
  · exact nidContinue_outcome hlen (rewritesBuffer_writeBuf k 0 _ s)
  · exact .inl (by simp)

theorem tsbkStage_outcome (P : Params) (next : Option StateCode) (hlen : (s.slot k).len = 260)
    (hnext : ∀ c, next = some c → legalCap c 260 = true) :
    ((tsbkStage P k next s).slot k).complete = true ∨
      goesOn (s.slot k) ((tsbkStage P k next s).slot k) := by
  unfold tsbkStage
  dsimp only
  split
  · have hrewrite := rewritesBuffer_trans
      (rewritesBuffer_block P k 64 (blockBits (P.trellis12 (blockOf P k 64 s)).2) s)
      (rewritesBuffer_tsbkCrc k _)
    generalize tsbkCrc k _ = crc at hrewrite ⊢
    split
    · exact .inl (by simp)
    · obtain ⟨b, hb, hslot⟩ := resize_of_rewritesBuffer 160 hrewrite (by simp [Slot.len] at hlen; omega)
      unfold tsbkDispatch
      dsimp only
      split
      · exact .inl (by simp)
      · next c =>
        split
        · exact .inl (by simp)
        · refine .inr ?_
          rw [enterState_slot, resize_slot, resize_slot, dispatch_slot, hslot]
          exact goesOn_resized (a := 64) (c₀ := 64) 260 (by simp; omega) (by omega) (hnext c rfl)
            (fun _ => by omega)
  · exact .inl (by simp)

theorem handlePdu0_outcome (P : Params) (hlen : (s.slot k).len = 260) :
    ((handlePdu0 P k s).slot k).complete = true ∨ goesOn (s.slot k) ((handlePdu0 P k s).slot k) := by
  unfold handlePdu0
  dsimp only
  split
  · obtain ⟨b, hb, hslot⟩ := resize_of_rewritesBuffer 160
      (rewritesBuffer_block P k 64 (blockBits (P.trellis12 (blockOf P k 64 s)).2) s)
      (by simp [Slot.len] at hlen; omega)
    split
    · exact .inl (dispatchRaw_complete true)
    · refine .inr ?_
      rw [resize_slot, enterState_slot, hslot]
      refine goesOn_resized 356 hb (by omega) ?_ (fun _ => by omega)
      split <;> rfl
  · exact .inl (by simp)

theorem pduStage_outcome (P : Params) {start n : Nat} {next : StateCode}
    (hlen : (s.slot k).len = start + 196) (hcap : legalCap next (start + 96 + 196) = true)
    (heven : start % 2 = 0) :
    ((pduStage P k start n next s).slot k).complete = true ∨
      goesOn (s.slot k) ((pduStage P k start n next s).slot k) := by
  unfold pduStage
  dsimp only
  split
  · obtain ⟨b, hb, hslot⟩ := resize_of_rewritesBuffer (start + 96)
      (rewritesBuffer_block P k start (blockBits (P.trellis12 (blockOf P k start s)).2) s)
      (by simp [Slot.len] at hlen; omega)
    split
    · exact .inl (dispatchRaw_complete true)
    · refine .inr ?_
      rw [resize_slot, enterState_slot, hslot]
      exact goesOn_resized (start + 96 + 196) hb (by omega) hcap (fun _ => by omega)
  · exact .inl (by simp)

theorem pduBtf_le (k : SlotId) (s : State) : pduBtf k s ≤ 127 := by
  have := natOfBits_lt ([113, 114, 115, 116, 117, 118, 119].map (bufBit (s.slot k).buf))
  exact Nat.le_of_lt_succ this

/-- BTF has seven bits, so a confirmed PDU has at most 127 blocks, and the capacity stays legal
(43_duid R300, R301). -/
theorem handlePduc_outcome (P : Params) (hstate : (s.slot k).state = .pduc)
    (hlen : (s.slot k).len = (s.slot k).cap) (hcap : legalCap .pduc (s.slot k).cap = true) :
    ((handlePduc P k s).slot k).complete = true ∨ goesOn (s.slot k) ((handlePduc P k s).slot k) := by
  simp only [legalCap, Bool.and_eq_true, decide_eq_true_eq] at hcap
  obtain ⟨⟨hlow, hhigh⟩, hmod⟩ := hcap
  unfold handlePduc
  dsimp only
  generalize hstart : (s.slot k).cap - 196 = start
  split
  · obtain ⟨b, hb, hslot⟩ := resize_of_rewritesBuffer (start + 144)
      (rewritesBuffer_block P k start (blockBits (P.trellis34 (blockOf P k start s)).2) s)
      (by simp [Slot.len] at hlen; omega)
    split
    · exact .inl (dispatchRaw_complete true)
    · next hblock =>
      have hbtf := pduBtf_le k (resize k (start + 144) (writeBuf k start
        (blockBits (P.trellis34 (blockOf P k start s)).2) (blockDeint P k start s)))
      refine .inr ?_
      rw [resize_slot, hslot]
      have hlegal : legalCap (s.slot k).state (start + 144 + 196) = true := by
        simp only [hstate, legalCap, Bool.and_eq_true, decide_eq_true_eq]
        omega
      exact goesOn_resized (start + 144 + 196) hb (by omega) hlegal (fun _ => by omega)
  · exact .inl (dispatchRaw_complete false)

/-- What SM_STEP leaves in a full slot of legal capacity. -/
theorem smStep_outcome (P : Params) (hfull : (s.slot k).len = (s.slot k).cap)
    (hlegal : legalCap (s.slot k).state (s.slot k).cap = true) :
    ((smStep P k s).slot k).complete = true ∨ goesOn (s.slot k) ((smStep P k s).slot k) ∨
      beginsRaw s.duidMap (s.slot k) ((smStep P k s).slot k) := by
  have hlen : ∀ {c : StateCode} {n : Nat}, (s.slot k).state = c → (∀ m, legalCap c m = decide (m = n)) →
      (s.slot k).len = n := by
    intro c n hc hn
    rw [hc, hn] at hlegal
    rw [hfull, of_decide_eq_true hlegal]
  unfold smStep
  cases hstate : (s.slot k).state with
  | nid => exact handleNid_outcome (hlen hstate fun _ => rfl)
  | tsbk1 =>
    exact (tsbkStage_outcome P (some .tsbk2) (hlen hstate fun _ => rfl)
      (by rintro c ⟨⟩; rfl)).imp_right .inl
  | tsbk2 =>
    exact (tsbkStage_outcome P (some .tsbk3) (hlen hstate fun _ => rfl)
      (by rintro c ⟨⟩; rfl)).imp_right .inl
  | tsbk3 => exact (tsbkStage_outcome P none (hlen hstate fun _ => rfl) nofun).imp_right .inl
  | pdu0 => exact (handlePdu0_outcome P (hlen hstate fun _ => rfl)).imp_right .inl
  | pdu1 => exact (pduStage_outcome P (hlen hstate fun _ => rfl) rfl rfl).imp_right .inl
  | pdu2 => exact (pduStage_outcome P (hlen hstate fun _ => rfl) rfl rfl).imp_right .inl
  | pduc => exact (handlePduc_outcome P hstate hfull (hstate ▸ hlegal)).imp_right .inl
  | pdu3 => exact .inl (dispatchRaw_complete _)
  | hdu => exact .inl (dispatchRaw_complete _)
  | ldu1 => exact .inl (dispatchRaw_complete _)
  | ldu2 => exact .inl (dispatchRaw_complete _)
  | tdu => exact .inl (dispatchRaw_complete _)
  | tdulc => exact .inl (dispatchRaw_complete _)
  | unknown => exact .inl (dispatchRaw_complete _)

end

end Sys2Proof.Machine
end

section
/-! O57, O60: every step keeps the slot invariant (10_state R58, R59, 43_duid R301, R302), and while every
DUID_MAP LEN is even it also keeps the slots even and raises no BUFFER_FULL. Both are one argument: the
invariant carries a proposition `e`, and speaks of evenness only when `e` holds. -/

namespace Sys2Proof.Machine

open Config (Params)

/-! ## The invariant -/

/-- The slot is safe and, if `e`, even. -/
def slotHolds (e : Prop) (v : Slot) : Prop := slotSafe v = true ∧ (e → slotEven v = true)

/-- Both slots are safe and, if `e`, they and the map's lengths are even. -/
def slotsHold (e : Prop) (s : State) : Prop :=
  (∀ k, slotHolds e (s.slot k)) ∧ (e → mapEven s = true)

/-- An active slot within a dibit's step: it may be full, which no slot between commands is. -/
def slotReceiving (e : Prop) (v : Slot) : Prop :=
  v.active = true ∧ v.complete = false ∧ v.len ≤ v.cap ∧ legalCap v.state v.cap = true ∧
    (e → v.len % 2 = 0 ∧ v.cap % 2 = 0)

theorem slotSafe_iff (v : Slot) : slotSafe v = true ↔ v.complete = false ∧
    ((v.active = false ∧ v.state = .nid ∧ v.len = 0 ∧ v.cap = 64) ∨
      (v.active = true ∧ v.len < v.cap ∧ legalCap v.state v.cap = true)) := by
  simp [slotSafe, slotIdle, slotBusy, and_assoc]

theorem slotEven_iff (v : Slot) :
    slotEven v = true ↔ (v.active = true → v.len % 2 = 0 ∧ v.cap % 2 = 0) := by
  cases h : v.active <;> simp [slotEven, h]

theorem slotsSafe_iff (s : State) : slotsSafe s = true ↔ ∀ k, slotSafe (s.slot k) = true := by
  rw [slotsSafe, Bool.and_eq_true]
  exact ⟨fun h k => by cases k; exacts [h.1, h.2], fun h => ⟨h .s0, h .s1⟩⟩

theorem slotsEven_iff (s : State) : slotsEven s = true ↔ ∀ k, slotEven (s.slot k) = true := by
  rw [slotsEven, Bool.and_eq_true]
  exact ⟨fun h k => by cases k; exacts [h.1, h.2], fun h => ⟨h .s0, h .s1⟩⟩

/-- Without evenness the invariant is the slot invariant. -/
theorem slotsHold_false_iff (s : State) : slotsHold False s ↔ slotsSafe s = true := by
  simp [slotsHold, slotHolds, slotsSafe_iff]

theorem slotsHold_true_iff (s : State) :
    slotsHold True s ↔ slotsSafe s = true ∧ slotsEven s = true ∧ mapEven s = true := by
  simp [slotsHold, slotHolds, slotsSafe_iff, slotsEven_iff, forall_and, and_assoc]

theorem mapEven_get {s : State} (h : mapEven s = true) (i : Fin 16) :
    (s.duidMap.get i).len.toNat % 2 = 0 := by
  have := List.all_eq_true.1 h (s.duidMap.get i) (Vector.mem_toList_iff.2 (Vector.getElem_mem _))
  simpa using this

variable {e : Prop}

theorem slotHolds_idle (c : Fin 36) : slotHolds e (idleSlot c) :=
  ⟨rfl, fun _ => rfl⟩

/-- A slot in NID search just activated (42_sync R232). -/
theorem slotHolds_activated (c : Fin 36) : slotHolds e ⟨true, false, .nid, [], 64, c⟩ :=
  ⟨rfl, fun _ => by simp [slotEven, Slot.len]⟩

/-- A slot's status-skip counter is no part of the invariant. -/
theorem slotHolds_ctr {v : Slot} (c : Fin 36) (h : slotHolds e v) : slotHolds e { v with ctr := c } := h

/-- A safe slot has room for a bit, whether idle or busy. -/
theorem len_lt_cap_of_holds {v : Slot} (h : slotHolds e v) : v.len < v.cap := by
  obtain ⟨-, ⟨-, -, hlen, hcap⟩ | ⟨-, hlt, -⟩⟩ := (slotSafe_iff v).1 h.1
  · omega
  · exact hlt

theorem slotReceiving_of_active {v : Slot} (h : slotHolds e v) (ha : v.active = true) :
    v.len < v.cap ∧ slotReceiving e v := by
  obtain ⟨hsafe, heven⟩ := h
  obtain ⟨hc, hidle | ⟨-, hlt, hcap⟩⟩ := (slotSafe_iff v).1 hsafe
  · rw [hidle.1] at ha
    cases ha
  · exact ⟨hlt, ha, hc, hlt.le, hcap, fun he => (slotEven_iff v).1 (heven he) ha⟩

theorem slotHolds_of_receiving {v : Slot} (h : slotReceiving e v) (hlt : v.len < v.cap) :
    slotHolds e v := by
  obtain ⟨ha, hc, -, hcap, heven⟩ := h
  exact ⟨(slotSafe_iff v).2 ⟨hc, .inr ⟨ha, hlt, hcap⟩⟩, fun he => (slotEven_iff v).2 fun _ => heven he⟩

/-! ## The full check (42_sync R231) -/

theorem slotHolds_of_goesOn {v w : Slot} (h : slotReceiving e v) (hw : goesOn v w) :
    slotHolds e w := by
  obtain ⟨ha, hc, -, -, heven⟩ := h
  obtain ⟨hwa, hwc, hlt, hcap, hweven⟩ := hw
  exact slotHolds_of_receiving
    ⟨hwa.trans ha, hwc.trans hc, hlt.le, hcap, fun he => hweven (heven he).2⟩ hlt

theorem legalCap_raw {c : StateCode} (h : c ∈ rawStates) (n : BitVec 12) :
    legalCap c (64 + n.toNat) = true := by
  have hn := n.isLt
  simp only [rawStates, List.mem_cons, List.not_mem_nil, or_false] at h
  rcases h with rfl | rfl | rfl | rfl | rfl | rfl <;>
    exact Bool.and_eq_true_iff.2 ⟨decide_eq_true (by omega), decide_eq_true (by omega)⟩

theorem slotReceiving_of_beginsRaw {s : State} {v w : Slot} (hmap : e → mapEven s = true)
    (h : slotReceiving e v) (hw : beginsRaw s.duidMap v w) : slotReceiving e w := by
  obtain ⟨ha, hc, -⟩ := h
  obtain ⟨hwa, hwc, hraw, hlen, i, hcap⟩ := hw
  refine ⟨hwa.trans ha, hwc.trans hc, by omega, hcap ▸ legalCap_raw hraw _, fun he => ?_⟩
  have := mapEven_get (hmap he) i
  omega

/-- One turn on a slot that is not full. -/
theorem fullCheck_of_not_full (P : Params) (k : SlotId) (n : Nat) {s : State}
    (h : (s.slot k).len ≠ (s.slot k).cap) : fullCheck P k (n + 1) s = s := by
  simp [fullCheck, Slot.full, h]

theorem fullCheck_of_full (P : Params) (k : SlotId) (n : Nat) {s : State}
    (h : (s.slot k).len = (s.slot k).cap) : fullCheck P k (n + 1) s =
      if ((smStep P k s).slot k).complete then resetSlot k (smStep P k s)
      else fullCheck P k n (smStep P k s) := by
  simp [fullCheck, Slot.full, h]

/-- A raw-bit frame, full or not, is safe after one turn: its handler completes it. -/
theorem slotHolds_fullCheck_raw (P : Params) (k : SlotId) (n : Nat) {s : State}
    (h : slotReceiving e (s.slot k)) (hraw : (s.slot k).state ∈ rawStates) :
    slotHolds e ((fullCheck P k (n + 1) s).slot k) := by
  by_cases hfull : (s.slot k).len = (s.slot k).cap
  · rw [fullCheck_of_full P k n hfull, smStep_raw P k s hraw, if_pos (dispatchRaw_complete true),
      resetSlot_slot]
    exact slotHolds_idle _
  · rw [fullCheck_of_not_full P k n hfull]
    exact slotHolds_of_receiving h (by obtain ⟨-, -, hle, -⟩ := h; omega)

/-- Two turns of the full check suffice (log 12): the first handler completes the slot, leaves room in it,
or begins a raw-bit frame. -/
theorem slotHolds_fullCheck (P : Params) (k : SlotId) (n : Nat) {s : State}
    (hmap : e → mapEven s = true) (h : slotReceiving e (s.slot k)) :
    slotHolds e ((fullCheck P k (n + 2) s).slot k) := by
  by_cases hfull : (s.slot k).len = (s.slot k).cap
  · have hlegal : legalCap (s.slot k).state (s.slot k).cap = true := by
      obtain ⟨-, -, -, hlegal, -⟩ := h
      exact hlegal
    rw [fullCheck_of_full P k (n + 1) hfull]
    split
    · rw [resetSlot_slot]
      exact slotHolds_idle _
    · next hdone =>
      rcases smStep_outcome P hfull hlegal with hcomplete | hgoes | hraw
      · exact absurd hcomplete hdone
      · have hholds := slotHolds_of_goesOn h hgoes
        rw [fullCheck_of_not_full P k n (len_lt_cap_of_holds hholds).ne]
        exact hholds
      · have hreceiving := slotReceiving_of_beginsRaw hmap h hraw
        obtain ⟨-, -, hstate, -⟩ := hraw
        exact slotHolds_fullCheck_raw P k n hreceiving hstate
  · rw [fullCheck_of_not_full P k (n + 1) hfull]
    exact slotHolds_of_receiving h (by obtain ⟨-, -, hle, -⟩ := h; omega)

/-! ## One dibit (42_sync R230, R240) -/

/-- The ways a slot that is not full receives a dibit: it stores both bits or none, or faults with its
last free bit. -/
theorem asmReceive_cases (k : SlotId) (d : Dibit) {s : State} (h : (s.slot k).len < (s.slot k).cap) :
    asmReceive k d s = (s.setSlot k { s.slot k with ctr := 0 }, true) ∨
    ((s.slot k).len + 2 ≤ (s.slot k).cap ∧ asmReceive k d s = (s.setSlot k { s.slot k with
      ctr := (s.slot k).ctr + 1, buf := (s.slot k).buf ++ [dibitB1 d, dibitB2 d] }, true)) ∨
    ((s.slot k).len + 1 = (s.slot k).cap ∧
      ∃ u, asmReceive k d s = (raiseFault (.bufferFull k) u, false)) := by
  by_cases hctr : (s.slot k).ctr = 35
  · exact .inl (asmReceive_skip k d s hctr)
  · rcases Nat.lt_or_ge ((s.slot k).len + 1) (s.slot k).cap with hroom | hlast
    · exact .inr (.inl ⟨hroom, asmReceive_store k d s hctr hroom⟩)
    · have heq : (s.slot k).len + 1 = (s.slot k).cap := by omega
      exact .inr (.inr ⟨heq, _, asmReceive_full_second k d s hctr heq⟩)

/-- An even safe slot has room for a dibit: its receiving changes that slot only and does not fault
(60_exceptions R471). -/
theorem asmReceive_even (he : e) (k : SlotId) (d : Dibit) {s : State} (h : slotHolds e (s.slot k)) :
    (asmReceive k d s).2 = true ∧ touchesSlot k s (asmReceive k d s).1 := by
  have hroom : (s.slot k).len + 1 ≠ (s.slot k).cap := by
    obtain ⟨-, ⟨-, -, hlen, hcap⟩ | ⟨ha, -, -⟩⟩ := (slotSafe_iff _).1 h.1
    · omega
    · obtain ⟨hlen, hcap⟩ := (slotEven_iff _).1 (h.2 he) ha
      omega
  rcases asmReceive_cases k d (len_lt_cap_of_holds h) with hr | ⟨-, hr⟩ | ⟨hlast, -⟩
  · rw [hr]
    exact ⟨rfl, touchesSlot_setSlot _ (touchesSlot_refl k s)⟩
  · rw [hr]
    exact ⟨rfl, touchesSlot_setSlot _ (touchesSlot_refl k s)⟩
  · exact absurd hlast hroom

/-- A dibit keeps the invariant of the slot that receives it. -/
theorem slotHolds_asmSlot (P : Params) (k : SlotId) (d : Dibit) {s : State}
    (hmap : e → mapEven s = true) (h : slotHolds e (s.slot k)) :
    slotHolds e ((asmSlot P k d s).slot k) := by
  unfold asmSlot
  split
  · next ha =>
    obtain ⟨hlt, hreceiving⟩ := slotReceiving_of_active h ha
    rcases asmReceive_cases k d hlt with hr | ⟨hroom, hr⟩ | ⟨-, u, hr⟩ <;> rw [hr]
    · refine slotHolds_fullCheck P k 1 hmap ?_
      rw [slot_setSlot_same]
      exact hreceiving
    · refine slotHolds_fullCheck P k 1 hmap ?_
      rw [slot_setSlot_same]
      obtain ⟨-, hc, -, hcap, heven⟩ := hreceiving
      have hlen : ((s.slot k).buf ++ [dibitB1 d, dibitB2 d]).length = (s.slot k).len + 2 := by
        simp [Slot.len]
      refine ⟨ha, hc, hlen.trans_le hroom, hcap, fun he => ?_⟩
      obtain ⟨hlen2, hcap2⟩ := heven he
      rw [Slot.len, hlen]
      exact ⟨by omega, hcap2⟩
    · change slotHolds e ((resetSlot k _).slot k)
      rw [resetSlot_slot]
      exact slotHolds_idle _
  · exact h

theorem slotsHold_asmSlot (P : Params) (k : SlotId) (d : Dibit) {s : State} (h : slotsHold e s) :
    slotsHold e (asmSlot P k d s) := by
  obtain ⟨hslots, hmap⟩ := h
  refine ⟨fun j => ?_, ?_⟩
  · by_cases hj : j = k
    · subst hj
      exact slotHolds_asmSlot P j d hmap (hslots j)
    · rw [asmSlot_other P k j d s hj]
      exact hslots j
  · obtain ⟨bf, fs, dc, w, n, a, b, ev, ht⟩ := touchesDibitPath_asmSlot P k d s
    rw [ht]
    exact hmap

theorem slotsHold_corrBit (b : Bool) {s : State} (h : slotsHold e s) : slotsHold e (corrBit b s) := by
  obtain ⟨hslots, hmap⟩ := h
  refine ⟨fun k => ?_, ?_⟩
  · obtain ⟨-, hk | hk, -⟩ := corrBit_slot k b s <;> rw [hk]
    · exact hslots k
    · exact slotHolds_activated _
  · obtain ⟨bf, fs, dc, w, n, a, b, ev, ht⟩ := touchesDibitPath_corrBit b s
    rw [ht]
    exact hmap

theorem slotsHold_dibitStep (P : Params) (d : Dibit) {s : State} (h : slotsHold e s) :
    slotsHold e (dibitStep P d s) :=
  slotsHold_corrBit _ (slotsHold_corrBit _ (slotsHold_asmSlot P .s1 d (slotsHold_asmSlot P .s0 d h)))

theorem slotsHold_dibitsStep (P : Params) (ds : List Dibit) {s : State} (h : slotsHold e s) :
    slotsHold e (dibitsStep P ds s) := by
  induction ds generalizing s with
  | nil => exact h
  | cons d ds ih => exact ih (slotsHold_dibitStep P d h)

/-! ## No BUFFER_FULL while lengths are even (60_exceptions R471) -/

theorem sameFaults_trans {s t u : State} (h : sameFaults s t) (h' : sameFaults t u) :
    sameFaults s u := by
  obtain ⟨hf, hc, hs⟩ := h
  obtain ⟨hf', hc', hs'⟩ := h'
  exact ⟨hf'.trans hf, hc'.trans hc, hs'.trans hs⟩

theorem sameFaults_of_touchesSlot {k : SlotId} {s t : State} (h : touchesSlot k s t) :
    sameFaults s t := by
  obtain ⟨v, ev, rfl⟩ := h
  exact ⟨rfl, rfl, rfl⟩

theorem sameFaults_asmSlot (he : e) (P : Params) (k : SlotId) (d : Dibit) {s : State}
    (h : slotsHold e s) : sameFaults s (asmSlot P k d s) := by
  unfold asmSlot
  split
  · obtain ⟨hok, htouches⟩ := asmReceive_even he k d (h.1 k)
    rw [if_pos hok]
    exact sameFaults_trans (sameFaults_of_touchesSlot htouches)
      (sameFaults_of_touchesSlot (touchesSlot_fullCheck P k 3 _))
  · exact ⟨rfl, rfl, rfl⟩

theorem sameFaults_dibitStep (he : e) (P : Params) (d : Dibit) {s : State} (h : slotsHold e s) :
    sameFaults s (dibitStep P d s) :=
  sameFaults_trans (sameFaults_asmSlot he P .s0 d h)
    (sameFaults_trans (sameFaults_asmSlot he P .s1 d (slotsHold_asmSlot P .s0 d h))
      (sameFaults_trans (corrBit_faults _ _) (corrBit_faults _ _)))

theorem sameFaults_dibitsStep (he : e) (P : Params) (ds : List Dibit) {s : State}
    (h : slotsHold e s) : sameFaults s (dibitsStep P ds s) := by
  induction ds generalizing s with
  | nil => exact ⟨rfl, rfl, rfl⟩
  | cons d ds ih =>
    exact sameFaults_trans (sameFaults_dibitStep he P d h) (ih (slotsHold_dibitStep P d h))

/-! ## One step -/

/-- What a step keeps of the slots: each stays safe, and if `e` holds, even. (WRREG may write an odd
LEN into the map.) -/
def keepsSlots (e : Prop) (s t : State) : Prop :=
  (∀ k, slotHolds e (t.slot k)) ∧
    (e → t.faultBufferFull = s.faultBufferFull ∧ t.faultSlot = s.faultSlot)

theorem keepsSlots_of_same {s t : State} (h : slotsHold e s) (h0 : t.slot0 = s.slot0)
    (h1 : t.slot1 = s.slot1) (hf : t.faultBufferFull = s.faultBufferFull)
    (hs : t.faultSlot = s.faultSlot) : keepsSlots e s t := by
  refine ⟨fun k => ?_, fun _ => ⟨hf, hs⟩⟩
  have hk : t.slot k = s.slot k := by
    cases k
    · exact h0
    · exact h1
  rw [hk]
  exact h.1 k

theorem ifReservedZero_ok {b : Bool} {i j : Instr} (h : ifReservedZero b i = .ok j) : j = i := by
  unfold ifReservedZero at h
  split at h <;> cases h
  rfl

theorem decodeOperand_encode {op : Opcode} {v : BitVec 24} {p0 p1 : Word} {i : Instr}
    (h : decodeOperand op v p0 p1 = .ok i) : ∃ ws, encode i = .words ws := by
  cases op
  case dibit8 =>
    simp only [decodeOperand, decodeDibit8] at h
    split at h
    · cases h
    · exact ifReservedZero_ok h ▸ ⟨_, rfl⟩
  case rs =>
    simp only [decodeOperand, decodeRs] at h
    split at h
    · cases h
    · exact ifReservedZero_ok h ▸ ⟨_, rfl⟩
  case crc =>
    simp only [decodeOperand, decodeCrc] at h
    split at h
    · cases h
    · exact ifReservedZero_ok h ▸ ⟨_, rfl⟩
  all_goals exact ifReservedZero_ok h ▸ ⟨_, rfl⟩

/-- The decoder answers host commands only: their code is words, a handler's is not (30_encoding R111,
R130). -/
theorem decode_command_encode {ws : List Word} {i : Instr} {n : Nat} (h : decode ws = .command i n) :
    ∃ ws, encode i = .words ws := by
  unfold decode at h
  split at h
  · cases h
  · split at h
    · cases h
    · split at h
      · cases h
      · split at h
        · next hop =>
          cases h
          exact decodeOperand_encode hop
        · cases h

theorem encode_handlerOf (k : SlotId) (c : StateCode) :
    encode (handlerOf k c) = .state k (stateNum c) := by
  cases c <;> rfl

/-- A host command keeps the slots. -/
theorem keepsSlots_exec {i : Instr} {s t : State} {ws : List Word} (h : slotsHold e s)
    (hi : encode i = .words ws) (he : exec i s = .next t) : keepsSlots e s t := by
  cases exec_effect he with
  | scratch ht =>
    obtain ⟨scr, fr, ev, rfl⟩ := ht
    exact keepsSlots_of_same h rfl rfl rfl rfl
  | register a v _ ht =>
    obtain ⟨c, lo, hi, sl, si, fm, dm, hw⟩ := writeAddr_frame a v s
    rw [ht, hw]
    exact keepsSlots_of_same h rfl rfl rfl rfl
  | reset ht =>
    subst ht
    exact ⟨fun k => by cases k <;> exact slotHolds_idle _, fun _ => ⟨rfl, rfl⟩⟩
  | dibits ds u hu ht =>
    have hsync : slotsHold e u ∧ sameFaults s u := by
      obtain ⟨ph, f, o, m, p, dl, wi, ev, rfl⟩ := hu
      exact ⟨h, rfl, rfl, rfl⟩
    obtain ⟨hold, hfaults⟩ := hsync
    subst ht
    refine ⟨(slotsHold_dibitsStep _ ds hold).1, fun he => ?_⟩
    obtain ⟨hf, -, hs⟩ := sameFaults_trans hfaults (sameFaults_dibitsStep he Config.params ds hold)
    exact ⟨hf, hs⟩
  | handler k c hk _ =>
    rw [hk, encode_handlerOf] at hi
    cases hi

/-- Between commands no slot is due (10_state R59). -/
theorem not_slotDue_of_holds {v : Slot} (h : slotHolds e v) : slotDue v = false := by
  have := len_lt_cap_of_holds h
  simp [slotDue, Slot.full, this.ne]

theorem keepsSlots_step {s t : State} (h : slotsHold e s) (hstep : step s = .next t) :
    keepsSlots e s t := by
  cases step_effect hstep with
  | wait ht =>
    subst ht
    exact ⟨h.1, fun _ => ⟨rfl, rfl⟩⟩
  | illegal opc n ht =>
    subst ht
    exact keepsSlots_of_same h rfl rfl rfl rfl
  | command i n u hd hu ht =>
    obtain ⟨ws, hi⟩ := decode_command_encode hd
    obtain ⟨hslots, hfaults⟩ := keepsSlots_exec h hi hu
    subst ht
    exact ⟨hslots, hfaults⟩
  | handler k i u hk _ _ =>
    rw [not_slotDue_of_holds (h.1 k)] at hk
    cases hk

/-- Settles O57: the invariant of both slots, whatever the map's lengths. -/
theorem stepKeepsTheSlotInvariant : Obligations.StepKeepsTheSlotInvariant := by
  intro s t hs h
  obtain ⟨hslots, -⟩ := keepsSlots_step ((slotsHold_false_iff s).2 hs) h
  exact (slotsSafe_iff t).2 fun k => (hslots k).1

/-- Settles O60: the invariant with evenness; an even slot that is not full has room for both bits of a
dibit, so that no receiving faults. -/
theorem evenLengthsNeverRaiseBufferFull : Obligations.EvenLengthsNeverRaiseBufferFull := by
  refine ⟨fun s t hsafe heven hmap h => ?_, fun s d hsafe heven hmap => ?_⟩
  · obtain ⟨hslots, hfaults⟩ := keepsSlots_step ((slotsHold_true_iff s).2 ⟨hsafe, heven, hmap⟩) h
    exact ⟨(slotsEven_iff t).2 fun k => (hslots k).2 trivial, hfaults trivial⟩
  · have hold := (slotsHold_true_iff s).2 ⟨hsafe, heven, hmap⟩
    have hold0 := slotsHold_asmSlot Config.params .s0 d hold
    obtain ⟨hsafe', heven', hmap'⟩ :=
      (slotsHold_true_iff _).1 (slotsHold_dibitStep Config.params d hold)
    obtain ⟨hf, -, hs⟩ := sameFaults_dibitStep trivial Config.params d hold
    obtain ⟨hreceive0, -⟩ := asmReceive_even trivial .s0 d (hold.1 .s0)
    obtain ⟨hreceive1, -⟩ := asmReceive_even trivial .s1 d (hold0.1 .s1)
    exact ⟨hreceive0, hreceive1, _, rfl, hsafe', heven', hmap', hf, hs⟩

end Sys2Proof.Machine
end

section
/-! O13, O16, O17: the register map's reset values, its unmapped and read-only addresses, and STATUS
(10_state R33, R35, R44, R46, R60). -/

namespace Sys2Proof.Machine

/-! ## The register map (10_state R33) -/

/-- The unmapped addresses. -/
theorem regOfAddr_unmapped {a : BitVec 8} (h : (0x08 < a.toNat ∧ a.toNat < 0x10) ∨ 0x23 < a.toNat) :
    regOfAddr a = none := by
  revert a
  decide +kernel

/-- A register that WRREG leaves alone: STATUS, the counters, and the loop state (10_state R33). -/
def readOnly : RegName → Bool
  | .status | .dropCnt | .fecResult | .costasPhase | .costasFreq | .gardnerOmega | .gardnerMu => true
  | .ctrl | .syncPatLo | .syncPatHi | .syncLen | .statusInit | .fmax | .duidMap _ => false

theorem writeReg_readOnly (v : Word) (s : State) :
    ∀ {r : RegName}, readOnly r = true → writeReg r v s = s
  | .status, _ | .dropCnt, _ | .fecResult, _ | .costasPhase, _ | .costasFreq, _
  | .gardnerOmega, _ | .gardnerMu, _ => rfl

theorem regOfAddr_readOnly {a : BitVec 8}
    (h : a.toNat = 0x01 ∨ a.toNat = 0x07 ∨ a.toNat = 0x08 ∨ (0x20 ≤ a.toNat ∧ a.toNat ≤ 0x23)) :
    ∃ r, regOfAddr a = some r ∧ readOnly r = true := by
  have hall : ∀ a : BitVec 8,
      (a.toNat = 0x01 ∨ a.toNat = 0x07 ∨ a.toNat = 0x08 ∨ (0x20 ≤ a.toNat ∧ a.toNat ≤ 0x23)) →
      (regOfAddr a).any readOnly = true := by decide +kernel
  exact (Option.any_eq_true _ _).1 (hall a h)

/-- Settles O16: an unmapped address names no register, and a read-only register ignores the write. -/
theorem unmappedAndReadOnlyRegistersIgnoreWrites :
    Obligations.UnmappedAndReadOnlyRegistersIgnoreWrites := by
  intro a v s
  have hexec : exec (.wrreg a v) s = .next (writeAddr a v s) := rfl
  rw [hexec, writeAddr, readAddr]
  refine ⟨fun h => ?_, fun h => ?_⟩
  · rw [regOfAddr_unmapped h]
    exact ⟨rfl, rfl⟩
  · obtain ⟨r, hr, hro⟩ := regOfAddr_readOnly h
    rw [hr]
    exact congrArg _ (writeReg_readOnly v s hro)

/-- Settles O13: each of the 256 addresses read in the reset state. -/
theorem resetRegistersReadTheirResetValues : Obligations.ResetRegistersReadTheirResetValues := by
  unfold Obligations.ResetRegistersReadTheirResetValues
  decide +kernel

/-! ## STATUS (10_state R35) -/

theorem getLsbD_flagAt (b : Bool) {p i : Nat} (hi : i < 32) :
    (flagAt b p).getLsbD i = (decide (i = p) && b) := by
  cases b with
  | false => simp [flagAt]
  | true =>
    rw [flagAt, BitVec.getLsbD_shiftLeft, Bool.toNat_true, BitVec.getLsbD_one, Bool.eq_iff_iff]
    simp only [hi, decide_true, Bool.true_and, Bool.and_true, Bool.and_eq_true, Bool.not_eq_true',
      decide_eq_false_iff_not, decide_eq_true_eq]
    omega

theorem getLsbD_codeAt (c : BitVec 4) {p i : Nat} (hi : i < 32) :
    (codeAt c p).getLsbD i = (decide (p ≤ i) && c.getLsbD (i - p)) := by
  rw [codeAt, BitVec.getLsbD_shiftLeft, BitVec.zeroExtend, BitVec.getLsbD_setWidth]
  have hlt : i - p < 32 := by omega
  simp [hi, hlt, ← decide_not]

/-- STATUS bit by bit: at each place at most one of its fields. -/
theorem getLsbD_statusWord (s : State) {i : Nat} (hi : i < 32) : s.statusWord.getLsbD i =
    (decide (i = 0) && s.faultBufferFull || decide (i = 1) && s.faultIllegalCmd ||
      decide (i = 2) && s.slot0.active || decide (i = 3) && s.slot1.active ||
      decide (4 ≤ i) && (stateNum s.slot0.state).getLsbD (i - 4) ||
      decide (8 ≤ i) && (stateNum s.slot1.state).getLsbD (i - 8) ||
      decide (i = 12) && decide (s.faultSlot = .s1)) := by
  simp only [State.statusWord, BitVec.getLsbD_or, getLsbD_flagAt _ hi, getLsbD_codeAt _ hi]

theorem extractLsb'_statusWord_state0 (s : State) :
    s.statusWord.extractLsb' 4 4 = stateNum s.slot0.state := by
  apply BitVec.eq_of_getLsbD_eq
  intro i hi
  rw [BitVec.getLsbD_extractLsb', getLsbD_statusWord s (by omega)]
  have h8 : ¬ 8 ≤ 4 + i := by omega
  have hne : 4 + i ≠ 0 ∧ 4 + i ≠ 1 ∧ 4 + i ≠ 2 ∧ 4 + i ≠ 3 ∧ 4 + i ≠ 12 := by omega
  simp [hi, h8, hne]

theorem extractLsb'_statusWord_state1 (s : State) :
    s.statusWord.extractLsb' 8 4 = stateNum s.slot1.state := by
  apply BitVec.eq_of_getLsbD_eq
  intro i hi
  have hpast : (stateNum s.slot0.state).getLsbD (8 + i - 4) = false :=
    BitVec.getLsbD_of_ge _ _ (by omega)
  have hne : 8 + i ≠ 0 ∧ 8 + i ≠ 1 ∧ 8 + i ≠ 2 ∧ 8 + i ≠ 3 ∧ 8 + i ≠ 12 := by omega
  rw [BitVec.getLsbD_extractLsb', getLsbD_statusWord s (by omega)]
  simp [hi, hne, hpast]

theorem extractLsb'_statusWord_reserved (s : State) : s.statusWord.extractLsb' 13 19 = 0#19 := by
  apply BitVec.eq_of_getLsbD_eq
  intro i hi
  have hpast0 : (stateNum s.slot0.state).getLsbD (13 + i - 4) = false :=
    BitVec.getLsbD_of_ge _ _ (by omega)
  have hpast1 : (stateNum s.slot1.state).getLsbD (13 + i - 8) = false :=
    BitVec.getLsbD_of_ge _ _ (by omega)
  have hne : 13 + i ≠ 0 ∧ 13 + i ≠ 1 ∧ 13 + i ≠ 2 ∧ 13 + i ≠ 3 ∧ 13 + i ≠ 12 := by omega
  rw [BitVec.getLsbD_extractLsb', getLsbD_statusWord s (by omega)]
  simp [hne, hpast0, hpast1]

/-- Settles O17: each field's place holds that field's bits and no other's. -/
theorem statusShowsFaultsAndSlots : Obligations.StatusShowsFaultsAndSlots := by
  intro s
  have hread : readAddr 0x01#8 s = s.statusWord := rfl
  simp only [hread]
  refine ⟨?_, ?_, ?_, ?_, extractLsb'_statusWord_state0 s, extractLsb'_statusWord_state1 s, ?_,
    extractLsb'_statusWord_reserved s⟩ <;>
    · rw [getLsbD_statusWord s (by decide)]
      simp

end Sys2Proof.Machine
end

section
/-! O49: a SAMPLE at a symbol (40_synchronizer R153 to R162, 41_slicer R206). The statement writes out the
symbol step, INTERP and COSTAS_ERR operation by operation; each part is the model's function of that name. -/

namespace Sys2Proof.Machine

open Config (Params)

/-! ## The dibit path of a symbol (41_slicer R206) -/

/-- The DIBIT_OUT event's word (30_encoding R128). -/
theorem eventWords_dibitOut (d : Dibit) :
    eventWords (.dibitOut d) = [BitVec.ofNat 32 (0x07 * 2 ^ 24 + (dibitLow d).toNat)] := by
  cases d <;> rfl

/-- An event emitted on a condition. -/
theorem emit_ite (c : Prop) [Decidable c] (ev : Event) (s : State) :
    (if c then emit ev s else s) =
      { s with events := s.events ++ if c then eventWords ev else [] } := by
  split
  · rfl
  · rw [List.append_nil]

/-- DIBIT_IN is a DIBIT after the tap (41_slicer R206). -/
theorem dibitIn_eq (P : Params) (d : Dibit) (s : State) :
    dibitIn P d s = dibitStep P (sliceOut d s) { s with
      events := s.events ++ if s.ctrl.getLsbD 3
        then [BitVec.ofNat 32 (0x07 * 2 ^ 24 + (dibitLow (sliceOut d s)).toNat)] else [] } := by
  rw [← eventWords_dibitOut, dibitIn, emit_ite]
  rfl

theorem ofBits_zero : F32.ofBits 0x00000000#32 = F32.zero := by decide +kernel

theorem ofBits_neg_one : F32.ofBits 0xBF800000#32 = F32.neg (F32.ofBits Config.one) := by decide +kernel

theorem ofBits_infinity : F32.ofBits 0x7F800000#32 = .inf false := by decide +kernel

/-- The sample that brings μ to 1 or below is followed by the symbol step (40_synchronizer R155, R156). -/
theorem sampleStep_symbol (P : Params) (x : Cplx) (s : State)
    (h : F32.le (F32.sub s.mu (F32.ofBits Config.one)) (F32.ofBits Config.one) = true) :
    sampleStep P x s = symbolStep P (sampleFront P x s) := if_pos h

/-! ## INTERP (40_synchronizer R153) -/

/-- The whole part of a value between i ≥ 1 and i + 1. -/
theorem floorNat_eq {b : F32} {i : Nat} (hb : b.isFinite = true) (hi : 1 ≤ i)
    (hlow : (i : ℚ) ≤ f32Value b) (hhigh : f32Value b < i + 1) : b.floorNat = i := by
  obtain ⟨neg, e, m, rfl⟩ := exists_fin hb
  rw [f32Value_fin] at hlow hhigh
  cases neg with
  | true =>
    have hpos : (1 : ℚ) ≤ i := by exact_mod_cast hi
    have hunits : (0 : ℚ) ≤ F32.units e m / 2 ^ 149 := by positivity
    rw [if_pos rfl, neg_one_mul, neg_div] at hlow
    linarith
  | false =>
    rw [if_neg Bool.false_ne_true, one_mul] at hlow hhigh
    rw [le_div_iff₀ (by positivity)] at hlow
    rw [div_lt_iff₀ (by positivity)] at hhigh
    exact Nat.div_eq_of_lt_le (by exact_mod_cast hlow) (by exact_mod_cast hhigh)

/-- Y(k) counts back from the entry before the write index (10_state R53). -/
theorem tap_eq (s : State) {k : Nat} (hk : k ≤ 31) :
    s.tap k = s.dl.get (Fin.ofNat 32 (s.wi.val + 31 - k)) := by
  unfold State.tap
  congr 1
  apply Fin.ext
  have hwi := s.wi.isLt
  simp only [Fin.sub_def, Fin.ofNat]
  omega

/-- The float of a small natural number. -/
theorem ofNat_table {i : Nat} (hi : 1 ≤ i) (hi7 : i ≤ 7) :
    F32.ofNat i = F32.ofBits ([0x3F800000#32, 0x40000000#32, 0x40400000#32, 0x40800000#32,
      0x40A00000#32, 0x40C00000#32, 0x40E00000#32].getD (i - 1) 0#32) := by
  interval_cases i <;> decide +kernel

theorem f32Value_one : f32Value (F32.ofBits Config.one) = 1 := by decide +kernel
theorem f32Value_eight : f32Value (F32.ofBits Config.eight) = 8 := by decide +kernel

/-- INTERP at a position whose whole part is i. -/
theorem interp_eq {b : F32} {i : Nat} (s : State) (hi : 1 ≤ i) (hi7 : i ≤ 7) (hb : b.isFinite = true)
    (hlow : (i : ℚ) ≤ f32Value b) (hhigh : f32Value b < i + 1) :
    interp b s =
      let h := interpWeights (F32.sub b (F32.ofNat i))
      ⟨interpSum h (s.tap (i - 1)).re (s.tap i).re (s.tap (i + 1)).re (s.tap (i + 2)).re,
       interpSum h (s.tap (i - 1)).im (s.tap i).im (s.tap (i + 1)).im (s.tap (i + 2)).im⟩ := by
  have hi1 : (1 : ℚ) ≤ i := by exact_mod_cast hi
  have hi8 : (i : ℚ) ≤ 7 := by exact_mod_cast hi7
  have hone : F32.le (F32.ofBits Config.one) b = true :=
    (le_iff_f32Value rfl hb).2 (by rw [f32Value_one]; linarith)
  have height : F32.lt b (F32.ofBits Config.eight) = true :=
    (lt_iff_f32Value hb rfl).2 (by rw [f32Value_eight]; linarith)
  unfold interp
  rw [hone, height, floorNat_eq hb hi hlow hhigh]
  rfl

/-! ## COSTAS_ERR (40_synchronizer R154) -/

/-- COSTAS_ERR with its comparisons as propositions. -/
theorem costasErr_eq (d : Cplx) :
    let m := F32.sqrt (F32.add (F32.mul d.re d.re) (F32.mul d.im d.im))
    let a := F32.div d.re m
    let b := F32.div d.im m
    let e := if (F32.ge a F32.zero = true ↔ F32.ge b F32.zero = true) then F32.sub b.abs a.abs
      else F32.sub a.abs b.abs
    costasErr d = if F32.gt m F32.zero = true ∧ F32.lt m (.inf false) = true then
      (if e.isNaN then F32.zero else e) else F32.zero := by
  intro m a b e
  have hsign : e = if F32.ge a F32.zero = F32.ge b F32.zero then F32.sub b.abs a.abs
      else F32.sub a.abs b.abs := if_congr Bool.eq_iff_iff.symm rfl rfl
  rw [hsign]
  exact if_congr Bool.and_eq_true_iff rfl rfl

/-- Settles O49: the symbol step by its loops and `dibitIn_eq`, INTERP by `interp_eq`, COSTAS_ERR by
`costasErr_eq`; what is left is the same operations under the model's names. -/
theorem sampleAtASymbol : Obligations.SampleAtASymbol := by
  refine ⟨fun x y s h => ?_, fun b s i hi hi7 hb hlow hhigh => ?_, fun d => ?_⟩
  · intro f bb cur mid e0 e1 e2 et o1 o2 om d e f1 f2 rot dib
    refine ⟨_, rfl, ?_⟩
    have het : et = timingError f.prev (symbolCentre f) (symbolMid f) := by
      simp only [et, e2, e1, e0, timingError, clampHigh, ← ofBits_neg_one, ← ofBits_zero]
      rfl
    rw [sampleStep_symbol _ _ _ h, symbolStep, dibitIn_eq, het]
    rfl
  · intro one two six whole fr fm1 fm2 fp1 h0 h1 h2 h3 y
    rw [interp_eq s hi hi7 hb hlow hhigh, ofNat_table hi hi7, tap_eq s (by omega), tap_eq s (by omega),
      tap_eq s (by omega), tap_eq s (by omega)]
    rfl
  · rw [ofBits_zero, ofBits_infinity]
    exact costasErr_eq d

end Sys2Proof.Machine
end

section
/-! What headers and operands are made of (30_encoding R111 to R116): a header is its opcode and its operand,
and each operand format of R113 has one layout lemma, `<encoded operand> = v ↔ <the fields of v>`. From the
layout follows which operands decode to which command, once for both round trips. -/

namespace Sys2Proof

open Machine

/-! ## Opcodes and headers (30_encoding R111, R115) -/

@[simp] theorem opcodeOfNum_opcodeNum (op : Opcode) : opcodeOfNum (opcodeNum op) = some op := by
  cases op <;> rfl

theorem opcodeNum_of_opcodeOfNum {c : BitVec 8} {op : Opcode} (h : opcodeOfNum c = some op) :
    opcodeNum op = c := by
  have hall : ∀ c : BitVec 8, ∀ op ∈ opcodeOfNum c, opcodeNum op = c := by decide +kernel
  exact hall c op h

@[simp] theorem headerOpc_headerWord (op : Opcode) (v : BitVec 24) :
    headerOpc (headerWord op v) = opcodeNum op := BitVec.extractLsb'_append_eq_left

@[simp] theorem headerOperand_headerWord (op : Opcode) (v : BitVec 24) :
    headerOperand (headerWord op v) = v := BitVec.extractLsb'_append_eq_right

/-- A header is its OPC followed by its OPERAND. -/
theorem headerOpc_append_headerOperand (h : Word) : headerOpc h ++ headerOperand h = h :=
  BitVec.extractLsb'_append_extractLsb'

theorem headerWord_headerOperand {h : Word} {op : Opcode} (hop : opcodeOfNum (headerOpc h) = some op) :
    headerWord op (headerOperand h) = h := by
  rw [headerWord, opcodeNum_of_opcodeOfNum hop, headerOpc_append_headerOperand]

/-! ## The front of the command stream (46_host_commands R430, 30_encoding R112) -/

theorem decode_unassigned {h : Word} {rest : List Word} (hop : opcodeOfNum (headerOpc h) = none) :
    decode (h :: rest) = .illegal .unassignedOpcode (headerOpc h) 1 := by
  simp [decode, hop]

theorem decode_headerWord_ok {op : Opcode} {v : BitVec 24} {rest : List Word} {i : Instr}
    (hlen : payloadWords op ≤ rest.length)
    (hv : decodeOperand op v (rest.getD 0 0#32) (rest.getD 1 0#32) = .ok i) :
    decode (headerWord op v :: rest) = .command i (1 + payloadWords op) := by
  simp only [decode, headerOpc_headerWord, opcodeOfNum_opcodeNum, headerOperand_headerWord,
    Nat.not_lt.2 hlen, if_false, hv]

theorem decode_headerWord_error {op : Opcode} {v : BitVec 24} {rest : List Word} {why : DecodeError}
    (hlen : payloadWords op ≤ rest.length)
    (hv : decodeOperand op v (rest.getD 0 0#32) (rest.getD 1 0#32) = .error why) :
    decode (headerWord op v :: rest) = .illegal why (opcodeNum op) (1 + payloadWords op) := by
  simp only [decode, headerOpc_headerWord, opcodeOfNum_opcodeNum, headerOperand_headerWord,
    Nat.not_lt.2 hlen, if_false, hv]

/-- A command is a header of its opcode, whose operand decodes, with its payload words. -/
theorem decode_eq_command {ws : List Word} {i : Instr} {n : Nat} (h : decode ws = .command i n) :
    ∃ op v rest, ws = headerWord op v :: rest ∧ n = 1 + payloadWords op ∧
      payloadWords op ≤ rest.length ∧
      decodeOperand op v (rest.getD 0 0#32) (rest.getD 1 0#32) = .ok i := by
  cases ws with
  | nil => cases h
  | cons w rest =>
    cases hop : opcodeOfNum (headerOpc w) with
    | none => rw [decode_unassigned hop] at h; cases h
    | some op =>
      simp only [decode, hop] at h
      split at h
      · cases h
      · next hlen =>
        split at h
        · next hv =>
          cases h
          exact ⟨op, _, rest, by rw [headerWord_headerOperand hop], rfl, Nat.not_lt.1 hlen, hv⟩
        · cases h

/-! ## Operands of one field, the bits above it reserved (30_encoding R113) -/

theorem ifReservedZero_eq_ok_iff {b : Bool} {i j : Instr} :
    ifReservedZero b i = .ok j ↔ b = true ∧ i = j := by
  cases b <;> simp [ifReservedZero]

theorem extractLsb'_eq_zero_iff {w : Nat} (v : BitVec w) (n m : Nat) :
    v.extractLsb' n m = 0#m ↔ ∀ i < m, v.getLsbD (n + i) = false := by
  refine ⟨fun h i hi => ?_, fun h => BitVec.eq_of_getLsbD_eq fun i hi => ?_⟩
  · simpa [hi] using congrArg (fun u => u.getLsbD i) h
  · simp [h i hi]

/-- The layout of a field in the low bits, all others reserved. -/
theorem setWidth_eq_iff {n m : Nat} (hnm : n + m = 24) (x : BitVec n) (v : BitVec 24) :
    x.setWidth 24 = v ↔ v.extractLsb' n m = 0#m ∧ v.extractLsb' 0 n = x := by
  rw [extractLsb'_eq_zero_iff]
  constructor
  · rintro rfl
    rw [BitVec.extractLsb'_setWidth_of_le (by omega), BitVec.extractLsb'_eq_self]
    exact ⟨fun i _ => by simp, rfl⟩
  · rintro ⟨hzero, rfl⟩
    refine BitVec.eq_of_getLsbD_eq fun i hi => ?_
    by_cases hin : i < n
    · simp [hi, hin]
    · have hbit := hzero (i - n) (by omega)
      rw [show n + (i - n) = i by omega] at hbit
      simp [hin, hbit]

theorem decodeField_eq_ok_iff {n m : Nat} (hnm : n + m = 24) {v : BitVec 24} {f : BitVec n → Instr}
    {i : Instr} :
    ifReservedZero (decide (v.extractLsb' n m = 0#m)) (f (v.extractLsb' 0 n)) = .ok i ↔
      ∃ x, f x = i ∧ x.setWidth 24 = v := by
  simp [ifReservedZero_eq_ok_iff, setWidth_eq_iff hnm, and_comm]

theorem decodeNoOperand_eq_ok_iff {v : BitVec 24} {i j : Instr} :
    ifReservedZero (decide (v = 0#24)) j = .ok i ↔ j = i ∧ v = 0#24 := by
  simp [ifReservedZero_eq_ok_iff, and_comm]

theorem decodeRs_eq_ok_iff {v : BitVec 24} {i : Instr} :
    decodeRs v = .ok i ↔ ∃ t, wfCapability t = true ∧ .rs t = i ∧ t.zeroExtend 24 = v := by
  have hfield := decodeField_eq_ok_iff (n := 5) (m := 19) rfl (v := v) (f := .rs) (i := i)
  rw [decodeRs]
  split
  · next hzero =>
    simp only [reduceCtorEq, false_iff, not_exists, not_and]
    rintro t ht - hv
    obtain ⟨-, hlow⟩ := (setWidth_eq_iff (m := 19) rfl t v).1 hv
    simp [wfCapability, ← hlow, hzero] at ht
  · next hzero =>
    rw [hfield]
    refine exists_congr fun t => ⟨fun ⟨hi, hv⟩ => ⟨?_, hi, hv⟩, fun ⟨_, hi, hv⟩ => ⟨hi, hv⟩⟩
    obtain ⟨-, hlow⟩ := (setWidth_eq_iff (m := 19) rfl t v).1 hv
    simpa [wfCapability, ← hlow] using hzero

/-! ## CRC's operand (30_encoding R113) -/

/-- CRC's OPERAND: NB in bits 8:0, FIX in bit 12. -/
def crcOperand (nb : BitVec 9) (fix : Bool) : BitVec 24 :=
  nb.zeroExtend 24 ||| (BitVec.ofNat 24 fix.toNat <<< 12)

theorem getLsbD_crcOperand (nb : BitVec 9) (fix : Bool) (i : Nat) :
    (crcOperand nb fix).getLsbD i = (nb.getLsbD i || (decide (i = 12) && fix)) := by
  have hfix : (BitVec.ofNat 24 fix.toNat <<< 12).getLsbD i = (decide (i = 12) && fix) := by
    cases fix <;> simp [← BitVec.twoPow_eq, BitVec.getLsbD_twoPow, eq_comm]
  have hnb : 24 ≤ i → nb.getLsbD i = false := fun hi => BitVec.getLsbD_of_ge _ _ (by omega)
  rw [crcOperand, BitVec.getLsbD_or, hfix, BitVec.getLsbD_setWidth]
  by_cases hi : i < 24
  · simp [hi]
  · simp [hi, hnb (by omega)]

theorem crcOperand_eq_iff (nb : BitVec 9) (fix : Bool) (v : BitVec 24) :
    crcOperand nb fix = v ↔ v.extractLsb' 13 11 = 0#11 ∧ v.extractLsb' 9 3 = 0#3 ∧
      v.extractLsb' 0 9 = nb ∧ v.getLsbD 12 = fix := by
  rw [extractLsb'_eq_zero_iff, extractLsb'_eq_zero_iff]
  constructor
  · rintro rfl
    refine ⟨fun i hi => ?_, fun i hi => ?_, BitVec.eq_of_getLsbD_eq fun i hi => ?_, ?_⟩
    · simp [getLsbD_crcOperand, BitVec.getLsbD_of_ge nb (13 + i) (by omega),
        show 13 + i ≠ 12 by omega]
    · simp [getLsbD_crcOperand, show 9 + i ≠ 12 by omega]
    · simp [getLsbD_crcOperand, hi, show i ≠ 12 by omega]
    · rw [getLsbD_crcOperand, BitVec.getLsbD_of_ge nb 12 (by omega)]
      simp
  · rintro ⟨hhigh, hmid, rfl, rfl⟩
    refine BitVec.eq_of_getLsbD_eq fun i hi => ?_
    rw [getLsbD_crcOperand, BitVec.getLsbD_extractLsb', Nat.zero_add]
    by_cases hlow : i < 9
    · simp [hlow, show i ≠ 12 by omega]
    · by_cases hfix : i = 12
      · simp [hfix]
      · have hbit : v.getLsbD i = false := by
          rcases Nat.lt_or_ge i 12 with h12 | h12
          · simpa [show 9 + (i - 9) = i by omega] using hmid (i - 9) (by omega)
          · simpa [show 13 + (i - 13) = i by omega] using hhigh (i - 13) (by omega)
        simp [hlow, hfix, hbit]

theorem decodeCrc_eq_ok_iff {v : BitVec 24} {i : Instr} :
    decodeCrc v = .ok i ↔
      ∃ nb fix, wfCrcRange nb = true ∧ .crc nb fix = i ∧ crcOperand nb fix = v := by
  simp only [crcOperand_eq_iff, wfCrcRange, Bool.and_eq_true, decide_eq_true_eq]
  rw [decodeCrc]
  split
  · next hrange =>
    simp only [reduceCtorEq, false_iff, not_exists]
    rintro nb fix ⟨hwf, -, -, -, rfl, -⟩
    omega
  · next hrange =>
    simp only [ifReservedZero_eq_ok_iff, Bool.and_eq_true, decide_eq_true_eq]
    constructor
    · rintro ⟨⟨hhigh, hmid⟩, hi⟩
      exact ⟨_, _, by omega, hi, hhigh, hmid, rfl, rfl⟩
    · rintro ⟨_, _, -, hi, hhigh, hmid, rfl, rfl⟩
      exact ⟨⟨hhigh, hmid⟩, hi⟩

/-! ## DIBIT8's operand (30_encoding R113, R114) -/

@[simp] theorem dibitLow_dibitOfLow (v : BitVec 2) : dibitLow (dibitOfLow v) = v := by
  revert v
  decide

/-- DIBIT8's OPERAND: CNT in bits 19:16, dibit j in bits 15−2j : 14−2j. -/
def dibit8Operand (ds : List Dibit) : BitVec 24 :=
  (BitVec.ofNat 24 ds.length <<< 16) ||| encodeDibits 0 ds

/-- A dibit put into place k stands in that place alone. -/
theorem extractLsb'_placed {k j : Nat} (hk : k < 8) (hj : j < 8) (x : BitVec 2) :
    (x.zeroExtend 24 <<< (14 - 2 * k)).extractLsb' (14 - 2 * j) 2 = if k = j then x else 0#2 := by
  refine BitVec.eq_of_getLsbD_eq fun i hi => ?_
  rw [BitVec.getLsbD_extractLsb', BitVec.getLsbD_shiftLeft, BitVec.getLsbD_setWidth]
  rcases Nat.lt_trichotomy k j with h | rfl | h
  · simp [h.ne, show 14 - 2 * j + i < 14 - 2 * k by omega]
  · simp [hi, show 14 - 2 * k + i < 24 by omega]
    omega
  · simp [h.ne', BitVec.getLsbD_of_ge x (14 - 2 * j + i - (14 - 2 * k)) (by omega)]

theorem extractLsb'_encodeDibits {k j : Nat} {ds : List Dibit} (hk : k + ds.length ≤ 8) (hj : j < 8) :
    (encodeDibits k ds).extractLsb' (14 - 2 * j) 2 =
      if k ≤ j then dibitLow (ds.getD (j - k) .d00) else 0#2 := by
  induction ds generalizing k with
  | nil => simp [encodeDibits, dibitLow]
  | cons d ds ih =>
    rw [List.length_cons] at hk
    rw [encodeDibits, BitVec.extractLsb'_or, extractLsb'_placed (by omega) hj, ih (by omega)]
    rcases Nat.lt_trichotomy k j with h | rfl | h
    · simp [h.ne, h.le, Nat.succ_le_of_lt h, show j - k = j - (k + 1) + 1 by omega]
    · simp
    · simp [h.ne', h.not_ge, show ¬ k + 1 ≤ j by omega]

/-- The dibits stay below CNT. -/
theorem encodeDibits_lt (k : Nat) (ds : List Dibit) : (encodeDibits k ds).toNat < 2 ^ 16 := by
  induction ds generalizing k with
  | nil => simp [encodeDibits]
  | cons d ds ih =>
    rw [encodeDibits, BitVec.toNat_or]
    refine Nat.or_lt_two_pow ?_ (ih _)
    have hplace : 2 ^ (14 - 2 * k) ≤ 2 ^ 14 := Nat.pow_le_pow_right (by decide) (Nat.sub_le ..)
    have hle := Nat.mul_le_mul (Nat.le_pred_of_lt (dibitLow d).isLt) hplace
    rw [BitVec.toNat_shiftLeft, BitVec.toNat_setWidth_of_le (by decide), Nat.shiftLeft_eq]
    exact (Nat.mod_le ..).trans_lt (hle.trans_lt (by decide))

theorem dibit8Operand_div {ds : List Dibit} (hlen : ds.length ≤ 8) :
    (dibit8Operand ds).toNat / 2 ^ 16 = ds.length := by
  have hcnt : (BitVec.ofNat 24 ds.length <<< 16).toNat = ds.length <<< 16 := by
    rw [BitVec.toNat_shiftLeft, BitVec.toNat_ofNat, Nat.shiftLeft_eq, Nat.shiftLeft_eq]
    omega
  have hlt := encodeDibits_lt 0 ds
  rw [dibit8Operand, BitVec.toNat_or, hcnt, ← Nat.shiftLeft_add_eq_or_of_lt hlt, Nat.shiftLeft_eq]
  omega

theorem extractLsb'_dibit8Operand {ds : List Dibit} (hlen : ds.length ≤ 8) {j : Nat} (hj : j < 8) :
    (dibit8Operand ds).extractLsb' (14 - 2 * j) 2 = dibitLow (ds.getD j .d00) := by
  have hcnt : (BitVec.ofNat 24 ds.length <<< 16).extractLsb' (14 - 2 * j) 2 = 0#2 := by
    rw [extractLsb'_eq_zero_iff]
    intro i hi
    simp [show 14 - 2 * j + i < 16 by omega]
  rw [dibit8Operand, BitVec.extractLsb'_or, hcnt, extractLsb'_encodeDibits (by omega) hj]
  simp

/-- An operand is its part above the dibits and its eight places of dibits. -/
theorem operand_ext {u v : BitVec 24} (hcnt : u.toNat / 2 ^ 16 = v.toNat / 2 ^ 16)
    (hfield : ∀ j < 8, u.extractLsb' (14 - 2 * j) 2 = v.extractLsb' (14 - 2 * j) 2) : u = v := by
  refine BitVec.eq_of_getLsbD_eq fun i hi => ?_
  rcases Nat.lt_or_ge i 16 with hlow | hhigh
  · have hbit := congrArg (fun x => x.getLsbD (i % 2)) (hfield (7 - i / 2) (by omega))
    simpa [show i % 2 < 2 by omega, show 14 - 2 * (7 - i / 2) + i % 2 = i by omega] using hbit
  · have hbit := congrArg (fun x => Nat.testBit x (i - 16)) hcnt
    simpa only [Nat.testBit_div_two_pow, BitVec.testBit_toNat, show i - 16 + 16 = i by omega] using hbit

theorem dibit8Operand_eq_iff {ds : List Dibit} (hlen : ds.length ≤ 8) (v : BitVec 24) :
    dibit8Operand ds = v ↔ v.toNat / 2 ^ 16 = ds.length ∧
      ∀ j < 8, v.extractLsb' (14 - 2 * j) 2 = dibitLow (ds.getD j .d00) := by
  constructor
  · rintro rfl
    exact ⟨dibit8Operand_div hlen, fun j hj => extractLsb'_dibit8Operand hlen hj⟩
  · rintro ⟨hcnt, hfield⟩
    refine operand_ext (by rw [hcnt, dibit8Operand_div hlen]) fun j hj => ?_
    rw [hfield j hj, extractLsb'_dibit8Operand hlen hj]

/-- The places of DIBIT8 beyond its dibits are 0 exactly when the bits below the last dibit are. -/
theorem unusedDibits_iff {v : BitVec 24} {n : Nat} :
    v.toNat % 2 ^ (16 - 2 * n) = 0 ↔ ∀ j < 8, n ≤ j → v.extractLsb' (14 - 2 * j) 2 = 0#2 := by
  have hbits := mod_two_pow_eq_iff v.toNat 0 (16 - 2 * n)
  simp only [Nat.zero_mod, Nat.zero_testBit] at hbits
  simp only [hbits, extractLsb'_eq_zero_iff]
  constructor
  · intro h j hj hn i hi
    exact h _ (by omega)
  · intro h i hi
    have hbit := h (7 - i / 2) (by omega) (by omega) (i % 2) (by omega)
    rwa [show 14 - 2 * (7 - i / 2) + i % 2 = i by omega] at hbit

/-- The dibits read from the operand are `ds` and the other places are 0: each place holds its dibit. -/
theorem operandDibits_iff {v : BitVec 24} {ds : List Dibit} (hlen : ds.length ≤ 8) :
    (List.range ds.length).map (operandDibit v) = ds ∧ v.toNat % 2 ^ (16 - 2 * ds.length) = 0 ↔
      ∀ j < 8, v.extractLsb' (14 - 2 * j) 2 = dibitLow (ds.getD j .d00) := by
  rw [unusedDibits_iff]
  constructor
  · rintro ⟨hread, hzero⟩ j hj
    rcases Nat.lt_or_ge j ds.length with hin | hout
    · have hplace := congrArg (fun l => dibitLow (l.getD j .d00)) hread
      simpa [hin, operandDibit] using hplace
    · rw [hzero j hj hout, List.getD_eq_default _ _ hout]
      rfl
  · intro h
    refine ⟨List.ext_getElem (by simp) fun j _ hj => ?_, fun j hj hout => ?_⟩
    · simp [operandDibit, h j (by omega), hj]
    · rw [h j hj, List.getD_eq_default _ _ hout]
      rfl

theorem dibitCount_iff {v : BitVec 24} {n : Nat} (hn : n ≤ 8) :
    v.toNat / 2 ^ 16 = n ↔ (v.extractLsb' 16 4).toNat = n ∧ v.extractLsb' 20 4 = 0#4 := by
  rw [← BitVec.toNat_inj, BitVec.extractLsb'_toNat, BitVec.extractLsb'_toNat, Nat.shiftRight_eq_div_pow,
    Nat.shiftRight_eq_div_pow, BitVec.toNat_ofNat]
  omega

theorem wfDibitCount_iff {ds : List Dibit} :
    wfDibitCount ds = true ↔ 1 ≤ ds.length ∧ ds.length ≤ 8 := by
  simp [wfDibitCount]

theorem decodeDibit8_eq_ok_iff {v : BitVec 24} {i : Instr} :
    decodeDibit8 v = .ok i ↔
      ∃ ds, wfDibitCount ds = true ∧ .dibit8 ds = i ∧ dibit8Operand ds = v := by
  have hlayout : ∀ ds : List Dibit, wfDibitCount ds = true → (dibit8Operand ds = v ↔
      ((v.extractLsb' 16 4).toNat = ds.length ∧ v.extractLsb' 20 4 = 0#4) ∧
        (List.range ds.length).map (operandDibit v) = ds ∧
          v.toNat % 2 ^ (16 - 2 * ds.length) = 0) := by
    intro ds hwf
    obtain ⟨-, hlen⟩ := wfDibitCount_iff.1 hwf
    rw [dibit8Operand_eq_iff hlen, dibitCount_iff hlen, operandDibits_iff hlen]
  rw [decodeDibit8]
  split
  · next hrange =>
    simp only [reduceCtorEq, false_iff, not_exists]
    rintro ds ⟨hwf, -, hv⟩
    obtain ⟨⟨hcnt, -⟩, -⟩ := (hlayout ds hwf).1 hv
    have hlen := wfDibitCount_iff.1 hwf
    omega
  · next hrange =>
    simp only [ifReservedZero_eq_ok_iff, Bool.and_eq_true, decide_eq_true_eq]
    constructor
    · rintro ⟨⟨hhigh, hlow⟩, hi⟩
      have hwf : wfDibitCount ((List.range (v.extractLsb' 16 4).toNat).map (operandDibit v)) = true := by
        rw [wfDibitCount_iff, List.length_map, List.length_range]
        omega
      refine ⟨_, hwf, hi, (hlayout _ hwf).2 ⟨⟨?_, hhigh⟩, ?_, ?_⟩⟩ <;>
        simp only [List.length_map, List.length_range, hlow]
    · rintro ⟨ds, hwf, hi, hv⟩
      obtain ⟨⟨hcnt, hhigh⟩, hread, hlow⟩ := (hlayout ds hwf).1 hv
      rw [hcnt, hread]
      exact ⟨⟨hhigh, hlow⟩, hi⟩

end Sys2Proof
end

section
/-! O1, O2: encoding and decoding are inverse (30_encoding R110 to R116, R130). -/

namespace Sys2Proof

open Machine

/-! ## Encode, then decode (30_encoding R110 to R116, R130) -/

/-- The code of `i` decodes to it, and so do a command's words, whatever follows them. -/
def RoundTrips (i : Instr) : Prop :=
  decodeCode (encode i) = some i ∧
    ∀ ws rest : List Word, encode i = .words ws → decode (ws ++ rest) = .command i ws.length

/-- A command round-trips when its operand decodes to it. -/
theorem roundTrips_command {i : Instr} {op : Opcode} {v : BitVec 24} {ps : List Word}
    (henc : encode i = .words (headerWord op v :: ps)) (hlen : ps.length = payloadWords op)
    (hdec : ∀ rest, decodeOperand op v ((ps ++ rest).getD 0 0#32) ((ps ++ rest).getD 1 0#32) = .ok i) :
    RoundTrips i := by
  have hwords : ∀ rest, decode (headerWord op v :: ps ++ rest) = .command i (1 + payloadWords op) :=
    fun rest => decode_headerWord_ok (by simp [hlen]) (hdec rest)
  constructor
  · rw [henc, decodeCode, ← List.append_nil (headerWord op v :: ps), hwords, decodedInstr]
  · intro ws rest hws
    rw [henc] at hws
    cases hws
    rw [hwords, List.length_cons, hlen, Nat.add_comm]

theorem decodeState_stateNum (k : SlotId) (c : StateCode) :
    decodeState k (stateNum c) = some (handlerOf k c) := by
  rw [decodeState, stateOfNum_stateNum, Option.map_some]

theorem roundTrips_handlerOf (k : SlotId) (c : StateCode) : RoundTrips (handlerOf k c) := by
  rw [RoundTrips, encode_handlerOf]
  exact ⟨decodeState_stateNum k c, fun _ _ hws => nomatch hws⟩

/-- Settles O1: each command by its operand's layout lemma, each handler by its state's code. -/
theorem decodeOfEncodeIsTheInstruction : Obligations.DecodeOfEncodeIsTheInstruction := by
  intro i hwf
  change RoundTrips i
  cases i with
  | nop => exact roundTrips_command rfl rfl fun _ => rfl
  | sample i q => exact roundTrips_command rfl rfl fun _ => rfl
  | dibit d =>
    exact roundTrips_command rfl rfl fun _ =>
      (decodeField_eq_ok_iff rfl (f := fun x => .dibit (dibitOfLow x))).2 ⟨dibitLow d, by simp, rfl⟩
  | dibit8 ds => exact roundTrips_command rfl rfl fun _ => decodeDibit8_eq_ok_iff.2 ⟨ds, hwf, rfl, rfl⟩
  | wrreg a v =>
    exact roundTrips_command rfl rfl fun _ =>
      (decodeField_eq_ok_iff rfl (f := fun x => .wrreg x v)).2 ⟨a, rfl, rfl⟩
  | rdreg a => exact roundTrips_command rfl rfl fun _ => (decodeField_eq_ok_iff rfl).2 ⟨a, rfl, rfl⟩
  | scrwr x v =>
    exact roundTrips_command rfl rfl fun _ =>
      (decodeField_eq_ok_iff rfl (f := fun x => .scrwr x v)).2 ⟨x, rfl, rfl⟩
  | scrrd x => exact roundTrips_command rfl rfl fun _ => (decodeField_eq_ok_iff rfl).2 ⟨x, rfl, rfl⟩
  | sreset => exact roundTrips_command rfl rfl fun _ => rfl
  | bch => exact roundTrips_command rfl rfl fun _ => rfl
  | rs t => exact roundTrips_command rfl rfl fun _ => decodeRs_eq_ok_iff.2 ⟨t, hwf, rfl, rfl⟩
  | tr12 => exact roundTrips_command rfl rfl fun _ => rfl
  | tr34 => exact roundTrips_command rfl rfl fun _ => rfl
  | crc nb fix =>
    exact roundTrips_command rfl rfl fun _ => decodeCrc_eq_ok_iff.2 ⟨nb, fix, hwf, rfl, rfl⟩
  | deint => exact roundTrips_command rfl rfl fun _ => rfl
  | intlv => exact roundTrips_command rfl rfl fun _ => rfl
  | stateNid k => exact roundTrips_handlerOf k .nid
  | stateHdu k => exact roundTrips_handlerOf k .hdu
  | stateLdu1 k => exact roundTrips_handlerOf k .ldu1
  | stateLdu2 k => exact roundTrips_handlerOf k .ldu2
  | stateTdu k => exact roundTrips_handlerOf k .tdu
  | stateTdulc k => exact roundTrips_handlerOf k .tdulc
  | stateTsbk1 k => exact roundTrips_handlerOf k .tsbk1
  | stateTsbk2 k => exact roundTrips_handlerOf k .tsbk2
  | stateTsbk3 k => exact roundTrips_handlerOf k .tsbk3
  | statePdu0 k => exact roundTrips_handlerOf k .pdu0
  | statePdu1 k => exact roundTrips_handlerOf k .pdu1
  | statePdu2 k => exact roundTrips_handlerOf k .pdu2
  | statePdu3 k => exact roundTrips_handlerOf k .pdu3
  | statePduc k => exact roundTrips_handlerOf k .pduc
  | stateUnknown k => exact roundTrips_handlerOf k .unknown

/-! ## Decode, then encode (30_encoding R111 to R116) -/

theorem take_two_of_length {l : List Word} (h : 2 ≤ l.length) :
    l.take 2 = [l.getD 0 0#32, l.getD 1 0#32] := by
  match l, h with
  | a :: b :: _, _ => rfl

theorem take_one_of_length {l : List Word} (h : 1 ≤ l.length) : l.take 1 = [l.getD 0 0#32] := by
  match l, h with
  | a :: _, _ => rfl

/-- An operand that decodes is the operand of the command it decodes to, with its payload words. -/
theorem encode_of_decodeOperand {op : Opcode} {v : BitVec 24} {rest : List Word} {i : Instr}
    (hlen : payloadWords op ≤ rest.length)
    (h : decodeOperand op v (rest.getD 0 0#32) (rest.getD 1 0#32) = .ok i) :
    i.wellFormed = true ∧ encode i = .words (headerWord op v :: rest.take (payloadWords op)) := by
  cases op with
  | sample =>
    obtain ⟨rfl, rfl⟩ := decodeNoOperand_eq_ok_iff.1 h
    rw [payloadWords, take_two_of_length hlen]
    exact ⟨rfl, rfl⟩
  | dibit =>
    obtain ⟨x, rfl, rfl⟩ := (decodeField_eq_ok_iff rfl (f := fun x => .dibit (dibitOfLow x))).1 h
    exact ⟨rfl, by simp [encode, payloadWords]⟩
  | dibit8 =>
    obtain ⟨ds, hwf, rfl, rfl⟩ := decodeDibit8_eq_ok_iff.1 h
    exact ⟨hwf, rfl⟩
  | wrreg =>
    obtain ⟨a, rfl, rfl⟩ := (decodeField_eq_ok_iff rfl (f := fun x => .wrreg x _)).1 h
    rw [payloadWords, take_one_of_length hlen]
    exact ⟨rfl, rfl⟩
  | rdreg =>
    obtain ⟨a, rfl, rfl⟩ := (decodeField_eq_ok_iff rfl).1 h
    exact ⟨rfl, rfl⟩
  | scrwr =>
    obtain ⟨x, rfl, rfl⟩ := (decodeField_eq_ok_iff rfl (f := fun x => .scrwr x _)).1 h
    rw [payloadWords, take_one_of_length hlen]
    exact ⟨rfl, rfl⟩
  | scrrd =>
    obtain ⟨x, rfl, rfl⟩ := (decodeField_eq_ok_iff rfl).1 h
    exact ⟨rfl, rfl⟩
  | rs =>
    obtain ⟨t, hwf, rfl, rfl⟩ := decodeRs_eq_ok_iff.1 h
    exact ⟨hwf, rfl⟩
  | crc =>
    obtain ⟨nb, fix, hwf, rfl, rfl⟩ := decodeCrc_eq_ok_iff.1 h
    exact ⟨hwf, rfl⟩
  | nop | sreset | bch | tr12 | tr34 | deint | intlv =>
    obtain ⟨rfl, rfl⟩ := decodeNoOperand_eq_ok_iff.1 h
    exact ⟨rfl, rfl⟩

/-- Settles O2: the header is its opcode and the operand of the command it decodes to. -/
theorem decodedCommandReencodesToItsWords : Obligations.DecodedCommandReencodesToItsWords := by
  intro ws i n h
  obtain ⟨op, v, rest, rfl, rfl, hlen, hop⟩ := decode_eq_command h
  obtain ⟨hwf, henc⟩ := encode_of_decodeOperand hlen hop
  rw [Nat.add_comm 1, List.take_succ_cons, List.length_cons]
  exact ⟨hwf, Nat.succ_le_succ hlen, henc⟩

end Sys2Proof
end

section
/-! O3, O4: the legal headers are the rows of the opcode table with operands in range, and the table's words
decode to their instructions (30_encoding R112, R113, R115, R116, R130, 10_state R60). -/

namespace Sys2Proof

open Machine

/-! ## The rows of the opcode table (30_encoding R113, R115) -/

/-- The OPERAND bits that each opcode reserves. -/
def reservedMask : Opcode → BitVec 24
  | .nop | .sample | .sreset | .bch | .tr12 | .tr34 | .deint | .intlv => 0xFFFFFF#24
  | .dibit => 0xFFFFFC#24
  | .dibit8 => 0xF00000#24
  | .wrreg | .rdreg => 0xFFFF00#24
  | .scrwr | .scrrd => 0xFFFFF0#24
  | .rs => 0xFFFFE0#24
  | .crc => 0xFFEE00#24

/-- An opcode's row: the mask covers OPC and the reserved bits, the match is OPC with these bits 0. -/
def headerRow (op : Opcode) : Word × Word := (0xFF#8 ++ reservedMask op, headerWord op 0#24)

/-- The assigned opcodes, in the order of the table. -/
def opcodes : List Opcode :=
  [.nop, .sample, .dibit, .dibit8, .wrreg, .rdreg, .scrwr, .scrrd, .sreset, .bch, .rs, .tr12, .tr34, .crc,
    .deint, .intlv]

theorem mem_opcodes (op : Opcode) : op ∈ opcodes := by
  cases op <;> decide

theorem headerRows_eq : headerRows = opcodes.map headerRow := by
  decide

theorem opcodeNum_injective : Function.Injective opcodeNum := fun a b h => by
  simpa using congrArg opcodeOfNum h

theorem append_inj {n m : Nat} {a b : BitVec n} {x y : BitVec m} :
    a ++ x = b ++ y ↔ a = b ∧ x = y := by
  refine ⟨fun h => ⟨?_, ?_⟩, fun ⟨ha, hx⟩ => ha ▸ hx ▸ rfl⟩
  · rw [← BitVec.extractLsb'_append_eq_left (a := a) (b := x), h, BitVec.extractLsb'_append_eq_left]
  · rw [← BitVec.extractLsb'_append_eq_right (a := a) (b := x), h, BitVec.extractLsb'_append_eq_right]

theorem headerRow_matches_iff (op : Opcode) (h : Word) :
    h &&& (headerRow op).1 = (headerRow op).2 ↔
      headerOpc h = opcodeNum op ∧ headerOperand h &&& reservedMask op = 0#24 := by
  have hones : headerOpc h &&& 0xFF#8 = headerOpc h := BitVec.and_allOnes
  rw [← headerOpc_append_headerOperand h, headerRow, headerWord, BitVec.and_append, append_inj,
    headerOpc_append_headerOperand, hones]

theorem headerRows_any_iff (h : Word) :
    headerRows.any (fun r => decide (h &&& r.1 = r.2)) = true ↔
      ∃ op, opcodeOfNum (headerOpc h) = some op ∧ headerOperand h &&& reservedMask op = 0#24 := by
  simp only [headerRows_eq, List.any_map, List.any_eq_true, Function.comp, decide_eq_true_eq,
    headerRow_matches_iff, mem_opcodes, true_and]
  refine exists_congr fun op => and_congr_left fun _ => ⟨fun hop => ?_, fun hop => ?_⟩
  · rw [hop, opcodeOfNum_opcodeNum]
  · rw [opcodeNum_of_opcodeOfNum hop]

/-! ## Legal operands (30_encoding R113, R116) -/

/-- A field is 0 exactly when the mask over it finds no bit. -/
theorem and_mask_eq_zero_iff {w : Nat} (v : BitVec w) {n m : Nat} (hnm : n + m ≤ w) :
    v &&& ((BitVec.allOnes m).setWidth w <<< n) = 0#w ↔ v.extractLsb' n m = 0#m := by
  rw [extractLsb'_eq_zero_iff]
  constructor
  · intro h i hi
    have hbit := congrArg (fun x => x.getLsbD (n + i)) h
    simpa [hi, show n + i < w by omega, show i < w by omega] using hbit
  · intro h
    refine BitVec.eq_of_getLsbD_eq fun i hi => ?_
    have hbit := h (i - n)
    by_cases hin : i < n
    · simp [hin]
    · rw [show n + (i - n) = i by omega] at hbit
      by_cases him : i - n < m
      · simp [hbit him]
      · simp [him]

/-- The range an operand must lie in; what is not here any value (30_encoding R116 (c), R113). -/
def operandInRange (op : Opcode) (v : BitVec 24) : Prop :=
  match op with
  | .dibit8 =>
    let cnt := v.toNat / 2 ^ 16 % 16
    1 ≤ cnt ∧ cnt ≤ 8 ∧ v.toNat % 2 ^ (16 - 2 * cnt) = 0
  | .rs => v.toNat % 32 ≠ 0
  | .crc => 17 ≤ v.toNat % 512 ∧ v.toNat % 512 ≤ 496
  | _ => True

theorem ifReservedZero_isOk (b : Bool) (i : Instr) : (ifReservedZero b i).isOk = b := by
  cases b <;> rfl

theorem error_isOk (why : DecodeError) : (Except.error why : Except DecodeError Instr).isOk = false := rfl

theorem decodeDibit8_isOk_iff (v : BitVec 24) :
    (decodeDibit8 v).isOk = true ↔ v &&& 0xF00000#24 = 0#24 ∧ operandInRange .dibit8 v := by
  have hmask : v &&& 0xF00000#24 = 0#24 ↔ v.extractLsb' 20 4 = 0#4 :=
    and_mask_eq_zero_iff v (n := 20) (m := 4) (by decide)
  have hcnt : (v.extractLsb' 16 4).toNat = v.toNat / 2 ^ 16 % 16 := by
    rw [BitVec.extractLsb'_toNat, Nat.shiftRight_eq_div_pow]
  rw [decodeDibit8, operandInRange, hmask, hcnt]
  split
  · next hout =>
    rw [error_isOk]
    refine iff_of_false Bool.false_ne_true fun ⟨_, hlow, hhigh, _⟩ => ?_
    omega
  · next hin =>
    rw [ifReservedZero_isOk, Bool.and_eq_true, decide_eq_true_eq, decide_eq_true_eq]
    exact and_congr_right fun _ =>
      ⟨fun hzero => ⟨by omega, by omega, hzero⟩, fun ⟨_, _, hzero⟩ => hzero⟩

theorem decodeRs_isOk_iff (v : BitVec 24) :
    (decodeRs v).isOk = true ↔ v &&& 0xFFFFE0#24 = 0#24 ∧ operandInRange .rs v := by
  have hmask : v &&& 0xFFFFE0#24 = 0#24 ↔ v.extractLsb' 5 19 = 0#19 :=
    and_mask_eq_zero_iff v (n := 5) (m := 19) (by decide)
  have ht : v.extractLsb' 0 5 = 0#5 ↔ v.toNat % 32 = 0 := by
    rw [← BitVec.toNat_inj, BitVec.extractLsb'_toNat]
    rfl
  rw [operandInRange, hmask, Ne, ← ht, decodeRs]
  split
  · next hzero =>
    rw [error_isOk]
    exact iff_of_false Bool.false_ne_true fun ⟨_, hne⟩ => hne hzero
  · next hne =>
    rw [ifReservedZero_isOk, decide_eq_true_eq]
    exact (and_iff_left hne).symm

theorem decodeCrc_isOk_iff (v : BitVec 24) :
    (decodeCrc v).isOk = true ↔ v &&& 0xFFEE00#24 = 0#24 ∧ operandInRange .crc v := by
  have hhigh : v &&& 0xFFE000#24 = 0#24 ↔ v.extractLsb' 13 11 = 0#11 :=
    and_mask_eq_zero_iff v (n := 13) (m := 11) (by decide)
  have hmid : v &&& 0x000E00#24 = 0#24 ↔ v.extractLsb' 9 3 = 0#3 :=
    and_mask_eq_zero_iff v (n := 9) (m := 3) (by decide)
  have hmask : v &&& 0xFFEE00#24 = 0#24 ↔ v.extractLsb' 13 11 = 0#11 ∧ v.extractLsb' 9 3 = 0#3 := by
    rw [← hhigh, ← hmid, ← BitVec.or_eq_zero_iff, ← BitVec.and_or_distrib_left]
    rfl
  have hnb : (v.extractLsb' 0 9).toNat = v.toNat % 512 := BitVec.extractLsb'_toNat ..
  rw [decodeCrc, operandInRange, hmask, hnb]
  split
  · next hout =>
    rw [error_isOk]
    refine iff_of_false Bool.false_ne_true fun ⟨_, hlow, hhigh⟩ => ?_
    omega
  · next hin =>
    rw [ifReservedZero_isOk, Bool.and_eq_true, decide_eq_true_eq, decide_eq_true_eq]
    exact (and_iff_left ⟨by omega, by omega⟩).symm

/-- A field alone, any value of it legal. -/
theorem decodeField_isOk_iff {n m : Nat} (hnm : n + m = 24) (v : BitVec 24) (i : Instr) :
    (ifReservedZero (decide (v.extractLsb' n m = 0#m)) i).isOk = true ↔
      v &&& ((BitVec.allOnes m).setWidth 24 <<< n) = 0#24 ∧ True := by
  rw [ifReservedZero_isOk, decide_eq_true_eq, and_mask_eq_zero_iff v hnm.le, and_true]

theorem decodeNoOperand_isOk_iff (v : BitVec 24) (i : Instr) :
    (ifReservedZero (decide (v = 0#24)) i).isOk = true ↔ v &&& 0xFFFFFF#24 = 0#24 ∧ True := by
  rw [ifReservedZero_isOk, decide_eq_true_eq, and_true, show v &&& 0xFFFFFF#24 = v from BitVec.and_allOnes]

/-- An operand decodes exactly when its reserved bits are 0 and it is in range (30_encoding R116). -/
theorem decodeOperand_isOk_iff (op : Opcode) (v : BitVec 24) (p0 p1 : Word) :
    (decodeOperand op v p0 p1).isOk = true ↔ v &&& reservedMask op = 0#24 ∧ operandInRange op v := by
  cases op with
  | dibit8 => exact decodeDibit8_isOk_iff v
  | rs => exact decodeRs_isOk_iff v
  | crc => exact decodeCrc_isOk_iff v
  | dibit => exact decodeField_isOk_iff (n := 2) (m := 22) rfl v _
  | wrreg | rdreg => exact decodeField_isOk_iff (n := 8) (m := 16) rfl v _
  | scrwr | scrrd => exact decodeField_isOk_iff (n := 4) (m := 20) rfl v _
  | nop | sample | sreset | bch | tr12 | tr34 | deint | intlv => exact decodeNoOperand_isOk_iff v _

/-! ## The header as a number (30_encoding R111, R112) -/

theorem opcOf_eq (h : Word) : opcOf h = (headerOpc h).toNat := by
  have hlt := h.isLt
  rw [opcOf, headerOpc, BitVec.extractLsb'_toNat, Nat.shiftRight_eq_div_pow]
  omega

theorem ofNat_opcOf (h : Word) : BitVec.ofNat 8 (opcOf h) = headerOpc h := by
  rw [opcOf_eq, BitVec.ofNat_toNat, BitVec.setWidth_eq]

theorem opcOf_of_opcodeOfNum {h : Word} {op : Opcode} (hop : opcodeOfNum (headerOpc h) = some op) :
    opcOf h = (opcodeNum op).toNat := by
  rw [opcOf_eq, opcodeNum_of_opcodeOfNum hop]

theorem headerLength_of_opcodeOfNum {h : Word} {op : Opcode} (hop : opcodeOfNum (headerOpc h) = some op) :
    headerLength h = 1 + payloadWords op := by
  rw [headerLength, opcOf_of_opcodeOfNum hop]
  cases op <;> rfl

theorem headerLength_unassigned {h : Word} (hop : opcodeOfNum (headerOpc h) = none) :
    headerLength h = 1 := by
  have hall : ∀ c : BitVec 8, opcodeOfNum c = none →
      c.toNat ≠ 0x01 ∧ ¬ (c.toNat = 0x10 ∨ c.toNat = 0x12) := by decide +kernel
  obtain ⟨hsample, hone⟩ := hall _ hop
  rw [headerLength, opcOf_eq, if_neg hsample, if_neg hone]

theorem headerOperand_toNat (h : Word) : (headerOperand h).toNat = h.toNat % 2 ^ 24 :=
  BitVec.extractLsb'_toNat ..

theorem operandLegal_iff {h : Word} {op : Opcode} (hop : opcodeOfNum (headerOpc h) = some op) :
    operandLegal h = true ↔ operandInRange op (headerOperand h) := by
  rw [operandLegal, opcOf_of_opcodeOfNum hop]
  cases op with
  | dibit8 =>
    have hcnt : (headerOperand h).toNat / 65536 % 16 = h.toNat / 65536 % 16 := by
      rw [headerOperand_toNat]
      omega
    have hlow (n : Nat) : (headerOperand h).toNat % 2 ^ (16 - 2 * n) = h.toNat % 2 ^ (16 - 2 * n) := by
      rw [headerOperand_toNat]
      exact Nat.mod_mod_of_dvd _ (pow_dvd_pow 2 (by omega))
    simp [operandInRange, opcodeNum, hcnt, hlow, and_assoc]
  | rs | crc => simp [operandInRange, opcodeNum, headerOperand_toNat]
  | _ => simp [operandInRange, opcodeNum]

/-! ## Legality (30_encoding R112, R116) -/

theorem headerLegal_iff {h : Word} {op : Opcode} (hop : opcodeOfNum (headerOpc h) = some op)
    (p0 p1 : Word) :
    headerLegal h = true ↔ (decodeOperand op (headerOperand h) p0 p1).isOk = true := by
  rw [headerLegal, Bool.and_eq_true, headerRows_any_iff, operandLegal_iff hop, decodeOperand_isOk_iff, hop]
  simp

theorem not_headerLegal_unassigned {h : Word} (hop : opcodeOfNum (headerOpc h) = none) :
    ¬ headerLegal h = true := by
  rw [headerLegal, Bool.and_eq_true, headerRows_any_iff, hop]
  rintro ⟨⟨op, hsome, -⟩, -⟩
  cases hsome

/-- Settles O3: an unassigned OPC has no row; with an opcode, the operand decodes exactly when the header
is legal. -/
theorem legalHeadersAreTheTableRows : Obligations.LegalHeadersAreTheTableRows := by
  intro h rest hlen
  rw [ofNat_opcOf]
  cases hop : opcodeOfNum (headerOpc h) with
  | none =>
    rw [headerLength_unassigned hop]
    exact ⟨fun hlegal => absurd hlegal (not_headerLegal_unassigned hop),
      fun _ => ⟨_, decode_unassigned hop⟩⟩
  | some op =>
    rw [headerLength_of_opcodeOfNum hop] at hlen ⊢
    have hpayload : payloadWords op ≤ rest.length := by omega
    rw [← Bool.not_eq_true, headerLegal_iff hop (rest.getD 0 0#32) (rest.getD 1 0#32),
      ← headerWord_headerOperand hop, headerOpc_headerWord, headerOperand_headerWord]
    cases hv : decodeOperand op (headerOperand h) (rest.getD 0 0#32) (rest.getD 1 0#32) with
    | ok i => exact ⟨fun _ => ⟨i, decode_headerWord_ok hpayload hv⟩, fun hnot => absurd rfl hnot⟩
    | error why =>
      exact ⟨fun hok => absurd hok Bool.false_ne_true, fun _ => ⟨why, decode_headerWord_error hpayload hv⟩⟩

/-! ## The table's words (30_encoding R113, R130) -/

theorem decodeTableWord_byte {n : Nat} (hn : n < 16) :
    decodeTableWord 8 n = decodeState .s0 (BitVec.ofNat 4 n) := by
  rw [decodeTableWord, if_pos (Nat.le_refl 8), if_pos hn]

theorem decodeTableWord_words {nbits w : Nat} (hbits : 8 < nbits) :
    decodeTableWord nbits w = decodedInstr (decode (tableWords w)) :=
  if_neg (Nat.not_le.2 hbits)

/-- Settles O4: each word by evaluation, the state codes by `decodeState_stateNum`. -/
theorem tableWordsDecodeToTheirInstructions : Obligations.TableWordsDecodeToTheirInstructions := by
  refine ⟨?_, ?_, ?_, ?_, ?_, ?_, ?_, ?_, fun k => ?_, fun c k => decodeState_stateNum k c, rfl,
    fun n hn => decodeTableWord_byte hn⟩
  iterate 8
    · rw [decodeTableWord_words (by decide)]
      decide +kernel
  · exact ⟨rfl, rfl, rfl, rfl, rfl, rfl, rfl, rfl, rfl, rfl, rfl, rfl, rfl, rfl, rfl, rfl⟩

end Sys2Proof
end

section
/-! Values against bounds (00_scope R12): a value between two finite ones, and an exact result between them
rounded. A rounded result never crosses a representable bound, so the ranges of 40_synchronizer R152, R158
and R160 follow by arithmetic on the exact results. -/

namespace Sys2Proof

/-! ## Order -/

theorem F32.le_iff_ord {x y : F32} :
    F32.le x y = true ↔ (x.isNaN = false ∧ y.isNaN = false) ∧ x.ord ≤ y.ord := by
  simp [F32.le]

theorem F32.lt_iff_ord {x y : F32} :
    F32.lt x y = true ↔ (x.isNaN = false ∧ y.isNaN = false) ∧ x.ord < y.ord := by
  simp [F32.lt]

theorem F32.isNaN_of_le {x y : F32} (h : F32.le x y = true) : x.isNaN = false ∧ y.isNaN = false :=
  (F32.le_iff_ord.1 h).1

theorem F32.isNaN_of_lt {x y : F32} (h : F32.lt x y = true) : x.isNaN = false ∧ y.isNaN = false :=
  (F32.lt_iff_ord.1 h).1

theorem F32.lt_eq_false_iff {x y : F32} (hx : x.isNaN = false) (hy : y.isNaN = false) :
    F32.lt x y = false ↔ F32.le y x = true := by
  rw [F32.lt_eq_decide_ord hx hy, F32.le_eq_decide_ord hy hx, decide_eq_false_iff_not, decide_eq_true_eq,
    not_lt]

theorem F32.le_eq_false_iff {x y : F32} (hx : x.isNaN = false) (hy : y.isNaN = false) :
    F32.le x y = false ↔ F32.lt y x = true := by
  rw [F32.le_eq_decide_ord hx hy, F32.lt_eq_decide_ord hy hx, decide_eq_false_iff_not, decide_eq_true_eq,
    not_le]

theorem F32.le_refl {x : F32} (hx : x.isNaN = false) : F32.le x x = true :=
  F32.le_iff_ord.2 ⟨⟨hx, hx⟩, Int.le_refl _⟩

theorem F32.le_of_lt {x y : F32} (h : F32.lt x y = true) : F32.le x y = true := by
  obtain ⟨hnan, hord⟩ := F32.lt_iff_ord.1 h
  exact F32.le_iff_ord.2 ⟨hnan, hord.le⟩

theorem F32.le_trans {x y z : F32} (hxy : F32.le x y = true) (hyz : F32.le y z = true) :
    F32.le x z = true := by
  obtain ⟨⟨hx, -⟩, hxy⟩ := F32.le_iff_ord.1 hxy
  obtain ⟨⟨-, hz⟩, hyz⟩ := F32.le_iff_ord.1 hyz
  exact F32.le_iff_ord.2 ⟨⟨hx, hz⟩, hxy.trans hyz⟩

theorem F32.lt_of_le_of_lt {x y z : F32} (hxy : F32.le x y = true) (hyz : F32.lt y z = true) :
    F32.lt x z = true := by
  obtain ⟨⟨hx, -⟩, hxy⟩ := F32.le_iff_ord.1 hxy
  obtain ⟨⟨-, hz⟩, hyz⟩ := F32.lt_iff_ord.1 hyz
  exact F32.lt_iff_ord.2 ⟨⟨hx, hz⟩, hxy.trans_lt hyz⟩

theorem F32.lt_of_lt_of_le {x y z : F32} (hxy : F32.lt x y = true) (hyz : F32.le y z = true) :
    F32.lt x z = true := by
  obtain ⟨⟨hx, -⟩, hxy⟩ := F32.lt_iff_ord.1 hxy
  obtain ⟨⟨-, hz⟩, hyz⟩ := F32.le_iff_ord.1 hyz
  exact F32.lt_iff_ord.2 ⟨⟨hx, hz⟩, hxy.trans_le hyz⟩

theorem F32.le_neg_neg (x y : F32) : F32.le x.neg y.neg = F32.le y x := by
  simp [F32.le, Bool.and_comm (!x.isNaN)]

/-- The values go in steps: a value above a pattern's is at or above the next pattern's. -/
theorem F32.next_le_of_lt {p : Nat} {x : F32} (hp : p + 1 < 255 * 2 ^ 23) (hx : x.isFinite = true)
    (h : F32.lt (F32.ofMag false p) x = true) : F32.le (F32.ofMag false (p + 1)) x = true := by
  obtain ⟨b, n, hn, rfl⟩ := F32.exists_ofMag_of_finite hx
  obtain ⟨⟨-, hnan⟩, hord⟩ := F32.lt_iff_ord.1 h
  refine F32.le_iff_ord.2 ⟨⟨F32.isNaN_ofMag _ _, hnan⟩, ?_⟩
  rw [F32.ord_ofMag (by omega), F32.ord_ofMag hn] at hord
  rw [F32.ord_ofMag hp, F32.ord_ofMag hn]
  cases b with
  | true =>
    simp only [Bool.false_eq_true, if_false, if_true] at hord
    omega
  | false =>
    simp only [Bool.false_eq_true, if_false, one_mul, Nat.cast_lt, Nat.cast_le] at hord ⊢
    exact F32.patternUnits_strictMono.monotone (F32.patternUnits_strictMono.lt_iff_lt.1 hord)

/-- A sum is a NaN only from a NaN or from two infinities. -/
theorem F32.isNaN_add_of_finite {x y : F32} (hx : x.isNaN = false) (hy : y.isNaN = false)
    (h : x.isFinite = true ∨ y.isFinite = true) : (F32.add x y).isNaN = false := by
  cases x with
  | nan => cases hx
  | inf a =>
    cases y with
    | nan => cases hy
    | inf b => simp [F32.isFinite] at h
    | fin b f n => rfl
  | fin a e m =>
    cases y with
    | nan => cases hy
    | inf b => rfl
    | fin b f n => exact F32.add_isNaN _ _ rfl rfl

end Sys2Proof

namespace Sys2Proof.Machine

/-! ## Ranges -/

/-- x lies in [lo, hi]. -/
def within (lo hi x : F32) : Bool := F32.le lo x && F32.le x hi

theorem inTwoPi_eq_within (x : F32) :
    inTwoPi x = within (F32.neg (F32.ofBits Config.twoPi)) (F32.ofBits Config.twoPi) x := rfl

theorem omegaInBand_eq_within (x : F32) :
    omegaInBand x = within (F32.ofBits Config.omegaMin) (F32.ofBits Config.omegaMax) x := rfl

theorem within_intro {lo hi x : F32} (hlow : F32.le lo x = true) (hhigh : F32.le x hi = true) :
    within lo hi x = true := by rw [within, hlow, hhigh]; rfl

theorem within_elim {lo hi x : F32} (h : within lo hi x = true) :
    F32.le lo x = true ∧ F32.le x hi = true := by rwa [within, Bool.and_eq_true] at h

theorem within_iff {lo hi x : F32} (hlo : lo.isFinite = true) (hhi : hi.isFinite = true) :
    within lo hi x = true ↔ x.isFinite = true ∧ f32Value lo ≤ f32Value x ∧ f32Value x ≤ f32Value hi := by
  constructor
  · intro h
    obtain ⟨hlow, hhigh⟩ := within_elim h
    have hx : x.isFinite = true := by
      cases x with
      | nan => rw [(F32.compare_nan (.inr rfl)).2] at hlow; cases hlow
      | inf b =>
        rw [(F32.compare_inf hlo b).2.1] at hlow
        rw [(F32.compare_inf hhi b).2.2.2] at hhigh
        rw [hhigh] at hlow
        cases hlow
      | fin b e m => rfl
    exact ⟨hx, (le_iff_f32Value hlo hx).1 hlow, (le_iff_f32Value hx hhi).1 hhigh⟩
  · rintro ⟨hx, hlow, hhigh⟩
    exact within_intro ((le_iff_f32Value hlo hx).2 hlow) ((le_iff_f32Value hx hhi).2 hhigh)

/-! ## Rounded results (00_scope R12) -/

theorem f32Value_zero : f32Value F32.zero = 0 := by decide +kernel

theorem f32Value_lt_overflowPoint {c : F32} (hc : c.isFinite = true) : f32Value c < overflowPoint := by
  obtain ⟨b, n, hn, rfl⟩ := F32.exists_ofMag_of_finite hc
  have hlast : (F32.patternUnits n : ℚ) ≤ (2 ^ 24 - 1) * 2 ^ 253 := by
    rw [← patternUnits_last.1, Nat.cast_le]
    exact F32.patternUnits_strictMono.monotone (by omega)
  have hpos : (0 : ℚ) ≤ F32.patternUnits n := Nat.cast_nonneg _
  rw [f32Value_ofMag hn, div_lt_iff₀ (by positivity)]
  have hpoint : ((2 : ℚ) ^ 24 - 1) * 2 ^ 253 < overflowPoint * 2 ^ 149 := by norm_num [overflowPoint]
  cases b
  · simpa using hlast.trans_lt hpoint
  · simp only [if_true]
    linarith

/-- Rounding does not cross a representable value. -/
theorem le_of_roundsTo {q : ℚ} {r c : F32} (h : roundsTo q r) (hc : c.isFinite = true)
    (hq : q ≤ f32Value c) : F32.le r c = true := by
  cases r with
  | nan => exact h.elim
  | inf b =>
    cases b with
    | true => exact (F32.compare_inf hc true).2.2.2
    | false =>
      have hover : overflowPoint ≤ q := h
      exact absurd (f32Value_lt_overflowPoint hc) (by linarith)
  | fin b e m =>
    obtain ⟨-, hnear⟩ := h
    obtain ⟨hle, -⟩ := hnear c hc
    rw [le_iff_f32Value rfl hc]
    by_contra hlt
    rw [abs_of_nonpos (by linarith), abs_of_nonpos (by linarith)] at hle
    linarith

theorem ge_of_roundsTo {q : ℚ} {r c : F32} (h : roundsTo q r) (hc : c.isFinite = true)
    (hq : f32Value c ≤ q) : F32.le c r = true := by
  rw [← F32.le_neg_neg]
  exact le_of_roundsTo (roundsTo_neg h) (by simpa using hc) (by simpa using hq)

theorem within_of_roundsTo {q : ℚ} {lo hi r : F32} (h : roundsTo q r) (hlo : lo.isFinite = true)
    (hhi : hi.isFinite = true) (hlow : f32Value lo ≤ q) (hhigh : q ≤ f32Value hi) :
    within lo hi r = true :=
  within_intro (ge_of_roundsTo h hlo hlow) (le_of_roundsTo h hhi hhigh)

/-! ## Clamps (40_synchronizer R157, R160) -/

theorem within_clampHigh {lo hi x : F32} (hx : x.isNaN = false) (h : F32.le lo hi = true) :
    within lo hi (clampHigh lo hi x) = true := by
  obtain ⟨hlo, hhi⟩ := F32.isNaN_of_le h
  unfold clampHigh
  dsimp only
  split
  · rw [(F32.lt_eq_false_iff hhi hlo).2 h]
    exact within_intro h (F32.le_refl hhi)
  · next hle =>
    rw [Bool.not_eq_true, F32.gt, F32.lt_eq_false_iff hhi hx] at hle
    split
    · exact within_intro (F32.le_refl hlo) h
    · next hge =>
      rw [Bool.not_eq_true, F32.lt_eq_false_iff hx hlo] at hge
      exact within_intro hge hle

theorem within_clampLow {lo hi x : F32} (hx : x.isNaN = false) (h : F32.le lo hi = true) :
    within lo hi (clampLow lo hi x) = true := by
  obtain ⟨hlo, hhi⟩ := F32.isNaN_of_le h
  unfold clampLow
  dsimp only
  split
  · rw [F32.gt, (F32.lt_eq_false_iff hhi hlo).2 h]
    exact within_intro (F32.le_refl hlo) h
  · next hge =>
    rw [Bool.not_eq_true, F32.lt_eq_false_iff hx hlo] at hge
    split
    · exact within_intro h (F32.le_refl hhi)
    · next hle =>
      rw [Bool.not_eq_true, F32.gt, F32.lt_eq_false_iff hhi hx] at hle
      exact within_intro hge hle

end Sys2Proof.Machine
end

section
/-! O52: WRAP is its two loops, and brings every value that is no NaN into ±TWO_PI (40_synchronizer R152). -/

namespace Sys2Proof.Machine

/-! ## The loops -/

/-- A loop answers the value it started from, or what its last turn made. -/
theorem repeatWhile_last_turn {p : F32 → Bool} {f : F32 → F32} {n : Nat} {x y : F32}
    (h : repeatWhile p f n x = some y) :
    (y = x ∧ p x = false) ∨ ∃ w, p w = true ∧ y = f w ∧ p (f w) = false := by
  obtain ⟨m, -, hp, hq, rfl⟩ := (repeatWhile_eq_some_iff p f n x y).1 h
  cases m with
  | zero => exact .inl ⟨rfl, hq⟩
  | succ m =>
    rw [Function.iterate_succ_apply'] at hq ⊢
    exact .inr ⟨_, hp m (by omega), rfl, hq⟩

theorem repeatWhile_no_turn {p : F32 → Bool} (f : F32 → F32) {x : F32} (h : p x = false) :
    repeatWhile p f loopBound x = some x :=
  repeatWhile_of_ends (m := 0) (fun j hj => absurd hj (Nat.not_lt_zero j)) h

theorem repeatWhile_one_turn {p : F32 → Bool} {f : F32 → F32} {x : F32} (hx : p x = true)
    (h : p (f x) = false) : repeatWhile p f loopBound x = some (f x) :=
  repeatWhile_of_ends (m := 1) (fun j hj => by rwa [Nat.lt_one_iff.1 hj]) h

theorem wrap_of_loops {x y z : F32} (hdown : wrapDown x = some y) (hup : wrapUp y = some z) :
    wrap x = z := by
  rw [wrap, hdown]
  dsimp only
  rw [hup]

/-! ## The range of WRAP -/

theorem isFinite_twoPi : (F32.ofBits Config.twoPi).isFinite = true := rfl

theorem f32Value_twoPi : f32Value (F32.ofBits Config.twoPi) = 13176795 / 2 ^ 21 := by decide +kernel

theorem inTwoPi_wrapFree (x : F32) : inTwoPi (wrapFree x) = true := by
  unfold wrapFree
  split
  · assumption
  · decide +kernel

/-- The first loop ends at a value that is not above TWO_PI. -/
theorem le_twoPi_of_wrapDown {x y : F32} (hx : x.isNaN = false) (h : wrapDown x = some y) :
    F32.le y (F32.ofBits Config.twoPi) = true := by
  rcases repeatWhile_last_turn h with ⟨rfl, hend⟩ | ⟨w, hw, rfl, hend⟩
  · exact (F32.lt_eq_false_iff rfl hx).1 hend
  · have hy : (F32.sub w (F32.ofBits Config.twoPi)).isNaN = false :=
      F32.isNaN_add_of_finite (F32.isNaN_of_lt hw).2 rfl (.inr rfl)
    exact (F32.lt_eq_false_iff rfl hy).1 hend

/-- The second loop, from a value that is not above TWO_PI, ends within ±TWO_PI: one turn from below −TWO_PI
stays below 0. -/
theorem inTwoPi_of_wrapUp {y z : F32} (hy : F32.le y (F32.ofBits Config.twoPi) = true)
    (h : wrapUp y = some z) : inTwoPi z = true := by
  rcases repeatWhile_last_turn h with ⟨rfl, hend⟩ | ⟨w, hw, rfl, hend⟩
  · exact within_intro ((F32.lt_eq_false_iff (F32.isNaN_of_le hy).1 rfl).1 hend) hy
  · have hwfin : w.isFinite = true := by
      cases w with
      | nan => exact nomatch (F32.isNaN_of_lt hw).1
      | inf b => exact nomatch hw.symm.trans hend
      | fin b e m => rfl
    have hwvalue := (lt_iff_f32Value hwfin rfl).1 hw
    have hsum := roundsTo_add hwfin isFinite_twoPi
    rw [f32Value_neg, f32Value_twoPi] at hwvalue
    rw [f32Value_twoPi] at hsum
    have hnan : (F32.add w (F32.ofBits Config.twoPi)).isNaN = false := F32.add_isNaN _ _ hwfin rfl
    refine within_intro ((F32.lt_eq_false_iff hnan rfl).1 hend) (le_of_roundsTo hsum rfl ?_)
    rw [f32Value_twoPi]
    linarith

/-- Whatever value WRAP is given, if no NaN, it answers one within ±TWO_PI (R152; where a loop never ends, by
the model's choice, log 9). -/
theorem inTwoPi_wrap {x : F32} (hx : x.isNaN = false) : inTwoPi (wrap x) = true := by
  unfold wrap
  split
  · exact inTwoPi_wrapFree x
  · next y hdown =>
    split
    · exact inTwoPi_wrapFree x
    · next z hup => exact inTwoPi_of_wrapUp (le_twoPi_of_wrapDown hx hdown) hup

/-! ## Values at most one turn away -/

theorem f32Value_fourPi : f32Value (F32.ofBits 0x41490FDB#32) = 13176795 / 2 ^ 20 := by decide +kernel

theorem f32Value_neg_fourPi : f32Value (F32.ofBits 0xC1490FDB#32) = -(13176795 / 2 ^ 20) := by
  decide +kernel

/-- One subtraction takes a value of (TWO_PI, 2·TWO_PI] into [0, TWO_PI]. -/
theorem within_sub_twoPi {x : F32} (hlow : F32.gt x (F32.ofBits Config.twoPi) = true)
    (hhigh : F32.le x (F32.ofBits 0x41490FDB#32) = true) :
    within F32.zero (F32.ofBits Config.twoPi) (F32.sub x (F32.ofBits Config.twoPi)) = true := by
  obtain ⟨hx, hxlow, hxhigh⟩ := (within_iff rfl rfl).1 (within_intro (F32.le_of_lt hlow) hhigh)
  rw [f32Value_twoPi] at hxlow
  rw [f32Value_fourPi] at hxhigh
  refine within_of_roundsTo (roundsTo_sub hx isFinite_twoPi) rfl rfl ?_ ?_ <;> rw [f32Value_twoPi]
  · rw [f32Value_zero]
    linarith
  · linarith

/-- One addition takes a value of [−2·TWO_PI, −TWO_PI) into [−TWO_PI, 0]. -/
theorem within_add_twoPi {x : F32} (hlow : F32.le (F32.ofBits 0xC1490FDB#32) x = true)
    (hhigh : F32.lt x (F32.neg (F32.ofBits Config.twoPi)) = true) :
    within (F32.neg (F32.ofBits Config.twoPi)) F32.zero (F32.add x (F32.ofBits Config.twoPi)) = true := by
  obtain ⟨hx, hxlow, hxhigh⟩ := (within_iff rfl rfl).1 (within_intro hlow (F32.le_of_lt hhigh))
  rw [f32Value_neg, f32Value_twoPi] at hxhigh
  rw [f32Value_neg_fourPi] at hxlow
  refine within_of_roundsTo (roundsTo_add hx isFinite_twoPi) rfl rfl ?_ ?_
  · rw [f32Value_neg, f32Value_twoPi]
    linarith
  · rw [f32Value_twoPi, f32Value_zero]
    linarith

/-- Settles O52: the loops answer what they end on (`repeatWhile_of_ends`), the range is `inTwoPi_wrap`, and
no turn or one turn are special cases. -/
theorem wrapStaysWithinTwoPi : Obligations.WrapStaysWithinTwoPi := by
  unfold Obligations.WrapStaysWithinTwoPi
  intro twoPi down up
  have not_gt : ∀ {x : F32}, F32.le x twoPi = true → F32.gt x twoPi = false := fun h =>
    (F32.lt_eq_false_iff rfl (F32.isNaN_of_le h).1).2 h
  have not_lt : ∀ {x : F32}, F32.le twoPi.neg x = true → F32.lt x twoPi.neg = false := fun h =>
    (F32.lt_eq_false_iff (F32.isNaN_of_le h).2 rfl).2 h
  refine ⟨fun x hx => inTwoPi_wrap (F32.isNaN_of_isFinite hx), fun x h => ?_, ?_, fun x hlow hhigh => ?_,
    fun x hhigh hlow => ?_, fun x m n hp hm hq hn => ?_⟩
  · obtain ⟨hlow, hhigh⟩ := within_elim h
    exact wrap_of_loops (repeatWhile_no_turn _ (not_gt hhigh)) (repeatWhile_no_turn _ (not_lt hlow))
  · exact wrap_of_loops (repeatWhile_no_turn _ rfl) (repeatWhile_no_turn _ rfl)
  · obtain ⟨hzero, hend⟩ := within_elim (within_sub_twoPi hlow hhigh)
    have hpos : F32.le twoPi.neg (F32.sub x twoPi) = true := F32.le_trans rfl hzero
    exact wrap_of_loops (repeatWhile_one_turn hlow (not_gt hend)) (repeatWhile_no_turn _ (not_lt hpos))
  · obtain ⟨hend, -⟩ := within_elim (within_add_twoPi hlow hhigh)
    have hneg : F32.le x twoPi = true := F32.le_trans (F32.le_of_lt hhigh) rfl
    exact wrap_of_loops (repeatWhile_no_turn _ (not_gt hneg)) (repeatWhile_one_turn hhigh (not_lt hend))
  · exact wrap_of_loops (repeatWhile_of_ends hp hm) (repeatWhile_of_ends hq hn)

end Sys2Proof.Machine
end

section
/-! O48, O53, O54: a SAMPLE between symbols, the positions INTERP is used at, and the clamp of the frequency
(40_synchronizer R155 to R160). -/

namespace Sys2Proof.Machine

open Config (Params)

/-! ## A SAMPLE between symbols (40_synchronizer R155, R156) -/

theorem sampleStep_between (P : Params) (x : Cplx) (s : State)
    (h : F32.le (F32.sub s.mu (F32.ofBits Config.one)) (F32.ofBits Config.one) = false) :
    sampleStep P x s = sampleFront P x s := if_neg (by rw [sampleFront_mu, h]; exact Bool.false_ne_true)

/-- Settles O48: no symbol is due, so the SAMPLE is its per-sample part. -/
theorem sampleBetweenSymbols : Obligations.SampleBetweenSymbols := by
  intro x y s h ph psi c n i q
  exact congrArg Host.Outcome.next (sampleStep_between Config.params ⟨i, q⟩ s h)

/-! ## The constants' values (00_scope R7, 40_synchronizer R150) -/

theorem f32Value_half : f32Value (F32.ofBits Config.half) = 1 / 2 := by decide +kernel
theorem f32Value_two : f32Value (F32.ofBits Config.two) = 2 := by decide +kernel
theorem f32Value_six : f32Value (F32.ofBits Config.six) = 6 := by decide +kernel
theorem f32Value_omegaMin : f32Value (F32.ofBits Config.omegaMin) = 10433331 / 2 ^ 20 := by decide +kernel
theorem f32Value_omegaMax : f32Value (F32.ofBits Config.omegaMax) = 10538189 / 2 ^ 20 := by decide +kernel
theorem f32Value_muMax : f32Value (F32.ofBits muMax) = 45 / 4 := by decide +kernel

/-! ## The positions of a symbol (40_synchronizer R157, R158) -/

/-- 2^-23, the distance of 1.0 to the next value. -/
def ulpOne : Word := 0x34000000#32

theorem f32Value_ulpOne : f32Value (F32.ofBits ulpOne) = 1 / 2 ^ 23 := by decide +kernel

/-- The value after 1.0. -/
theorem ofMag_after_one : F32.ofMag false (127 * 2 ^ 23 + 1) = F32.ofBits 0x3F800001#32 := by decide +kernel

theorem f32Value_after_one : f32Value (F32.ofBits 0x3F800001#32) = 1 + 1 / 2 ^ 23 := by decide +kernel

/-- The value before 2.0. -/
theorem f32Value_before_two : f32Value (F32.ofBits 0x3FFFFFFF#32) = 2 - 1 / 2 ^ 23 := by decide +kernel

theorem omegaInBand_iff (x : F32) : omegaInBand x = true ↔
    x.isFinite = true ∧ 10433331 / 2 ^ 20 ≤ f32Value x ∧ f32Value x ≤ 10538189 / 2 ^ 20 := by
  rw [omegaInBand_eq_within, within_iff rfl rfl, f32Value_omegaMin, f32Value_omegaMax]

theorem muWaiting_iff (x : F32) : muWaiting x = true ↔
    x.isFinite = true ∧ 1 < f32Value x ∧ f32Value x ≤ 45 / 4 := by
  rw [← f32Value_one, ← f32Value_muMax, muWaiting, Bool.and_eq_true]
  constructor
  · rintro ⟨hlow, hhigh⟩
    obtain ⟨hx, -, hle⟩ := (within_iff rfl rfl).1 (within_intro (F32.le_of_lt hlow) hhigh)
    exact ⟨hx, (lt_iff_f32Value rfl hx).1 hlow, hle⟩
  · rintro ⟨hx, hlow, hhigh⟩
    exact ⟨(lt_iff_f32Value rfl hx).2 hlow, (le_iff_f32Value hx rfl).2 hhigh⟩

/-- A waiting μ is at least one unit in the last place above 1, so μ − 1 at a symbol lies in (0, 1]. -/
theorem within_mu_at_symbol {mu : F32} (hmu : muWaiting mu = true)
    (hdue : F32.le (F32.sub mu (F32.ofBits Config.one)) (F32.ofBits Config.one) = true) :
    within (F32.ofBits ulpOne) (F32.ofBits Config.one) (F32.sub mu (F32.ofBits Config.one)) = true := by
  obtain ⟨hfin, hlow, -⟩ := (muWaiting_iff mu).1 hmu
  have hnext : F32.le (F32.ofBits 0x3F800001#32) mu = true := by
    rw [← ofMag_after_one]
    exact F32.next_le_of_lt (by decide) hfin ((lt_iff_f32Value rfl hfin).2 (by rwa [← f32Value_one] at hlow))
  rw [le_iff_f32Value rfl hfin, f32Value_after_one] at hnext
  refine within_intro (ge_of_roundsTo (roundsTo_sub hfin rfl) rfl ?_) hdue
  rw [f32Value_ulpOne, f32Value_one]
  linarith

/-- The centre position lies in [1, 2). -/
theorem within_centre {mu : F32} (h : within (F32.ofBits ulpOne) (F32.ofBits Config.one) mu = true) :
    within (F32.ofBits Config.one) (F32.ofBits 0x3FFFFFFF#32) (F32.sub (F32.ofBits Config.two) mu) =
      true := by
  obtain ⟨hmu, hlow, hhigh⟩ := (within_iff rfl rfl).1 h
  rw [f32Value_ulpOne] at hlow
  rw [f32Value_one] at hhigh
  refine within_of_roundsTo (roundsTo_sub rfl hmu) rfl rfl ?_ ?_
  · rw [f32Value_one, f32Value_two]
    linarith
  · rw [f32Value_before_two, f32Value_two]
    linarith

/-- 5.03125, above half of OMEGA_MAX. -/
theorem f32Value_bound_half : f32Value (F32.ofBits 0x40A10000#32) = 161 / 32 := by decide +kernel

/-- 7.03125, above 2 and half of OMEGA_MAX. -/
theorem f32Value_bound_mid : f32Value (F32.ofBits 0x40E10000#32) = 225 / 32 := by decide +kernel

theorem within_half_omega {omega : F32} (homega : omegaInBand omega = true) :
    within (F32.ofBits Config.one) (F32.ofBits 0x40A10000#32)
      (F32.mul omega (F32.ofBits Config.half)) = true := by
  obtain ⟨hfin, hlow, hhigh⟩ := (omegaInBand_iff omega).1 homega
  refine within_of_roundsTo (roundsTo_mul hfin rfl) rfl rfl ?_ ?_ <;> rw [f32Value_half]
  · rw [f32Value_one]
    linarith
  · rw [f32Value_bound_half]
    linarith

/-- Half a symbol earlier lies in [1, 7.03125]. -/
theorem within_mid {b omega : F32} (homega : omegaInBand omega = true)
    (hb : within (F32.ofBits Config.one) (F32.ofBits 0x3FFFFFFF#32) b = true) :
    within (F32.ofBits Config.one) (F32.ofBits 0x40E10000#32)
      (F32.add b (F32.mul omega (F32.ofBits Config.half))) = true := by
  obtain ⟨hbfin, hblow, hbhigh⟩ := (within_iff rfl rfl).1 hb
  obtain ⟨hfin, hlow, hhigh⟩ := (within_iff rfl rfl).1 (within_half_omega homega)
  rw [f32Value_one] at hblow hlow
  rw [f32Value_before_two] at hbhigh
  rw [f32Value_bound_half] at hhigh
  refine within_of_roundsTo (roundsTo_add hbfin hfin) rfl rfl ?_ ?_
  · rw [f32Value_one]
    linarith
  · rw [f32Value_bound_mid]
    linarith

/-- Settles O53: μ − 1 lies in (0, 1], which puts 2 − (μ − 1) into [1, 2) and adds at most 5.03125 to it. -/
theorem interpolatorStaysInItsDomain : Obligations.InterpolatorStaysInItsDomain := by
  intro s homega hmu mu b h hdue
  have hcentre := within_centre (within_mu_at_symbol hmu hdue)
  obtain ⟨hlow, hhigh⟩ := within_elim hcentre
  obtain ⟨hmidlow, hmidhigh⟩ := within_elim (within_mid homega hcentre)
  exact ⟨hlow, F32.lt_of_le_of_lt hhigh rfl, hmidlow, F32.lt_of_le_of_lt hmidhigh rfl⟩

/-! ## The frequency after a symbol (40_synchronizer R160) -/

/-- A legal FMAX is finite and not negative (10_state R39). -/
theorem fmaxLegal_range {w : Word} (h : fmaxLegal w = true) : (F32.ofBits w).isFinite = true ∧
    F32.le (F32.neg (F32.ofBits w)) (F32.ofBits w) = true := by
  rw [fmaxLegal, Bool.and_eq_true, Bool.not_eq_true', decide_eq_true_eq] at h
  obtain ⟨hsign, hexp⟩ := h
  have hfin : (w.toNat / 2 ^ 23) % 256 < 255 := by
    have hne := BitVec.toNat_ne_iff_ne.2 hexp
    rw [BitVec.extractLsb'_toNat, Nat.shiftRight_eq_div_pow] at hne
    exact lt_of_le_of_ne (Nat.le_of_lt_succ (Nat.mod_lt _ (by decide))) hne
  have heq : ∃ e m, F32.ofBits w = .fin false e m := by
    rw [F32.ofBits, dif_pos hfin, hsign]
    exact ⟨_, _, rfl⟩
  obtain ⟨e, m, heq⟩ := heq
  rw [heq]
  refine ⟨rfl, ?_⟩
  rw [F32.le_eq_decide_ord rfl rfl, decide_eq_true_eq, F32.ord_neg, F32.ord_fin_false]
  omega

/-- COSTAS_ERR is finite, so its product with BETA or ALPHA is no NaN and adding it to a finite frequency
makes none. -/
theorem isNaN_freq_next {freq : F32} (hfreq : freq.isFinite = true) (d : Cplx) :
    (F32.add freq (F32.mul (F32.ofBits Config.beta) (costasErr d))).isNaN = false :=
  F32.isNaN_add_of_finite (F32.isNaN_of_isFinite hfreq) (F32.mul_isNaN _ _ rfl (costasErr_bounded d).1)
    (.inl hfreq)

/-- The loops leave the frequency within ±FMAX. -/
theorem within_symbolLoops_freq {s : State} (hfreq : s.freq.isFinite = true)
    (hfmax : fmaxLegal s.fmax = true) :
    within (F32.neg (F32.ofBits s.fmax)) (F32.ofBits s.fmax) (symbolLoops s).freq = true :=
  within_clampHigh (isNaN_freq_next hfreq _) (fmaxLegal_range hfmax).2

/-- The dibit path leaves the synchronizer alone (42_sync R240). -/
theorem sameSync_of_touchesDibitPath {s t : State} (h : touchesDibitPath s t) : sameSync s t := by
  obtain ⟨bf, fs, dc, w, n, a, b, ev, rfl⟩ := h
  exact ⟨rfl, rfl, rfl, rfl, rfl, rfl, rfl⟩

/-- After a symbol the synchronizer is as its loops left it (40_synchronizer R162). -/
theorem sameSync_symbolStep (P : Params) (s : State) : sameSync (symbolLoops s) (symbolStep P s) :=
  sameSync_of_touchesDibitPath (touchesDibitPath_dibitIn P _ _)

/-- Settles O54: the clamp of the loops, which the dibit path leaves as it is. -/
theorem frequencyStaysWithinFmax : Obligations.FrequencyStaysWithinFmax := by
  intro x y s t hfreq hfmax hdue h
  cases h
  rw [sampleStep_symbol _ _ _ hdue]
  obtain ⟨-, hsame, -⟩ := sameSync_symbolStep Config.params
    (sampleFront Config.params ⟨F32.ofBits x, F32.ofBits y⟩ s)
  rw [hsame]
  exact within_elim (within_symbolLoops_freq (s := sampleFront _ _ s) hfreq hfmax)

end Sys2Proof.Machine
end

section
/-! O59: every step keeps the loop state in range (40_synchronizer R152, R158, R160). Only SAMPLE and SRESET
change the synchronizer; SRESET gives it its reset values, and SAMPLE keeps the ranges between symbols and at
one. -/

namespace Sys2Proof.Machine

open Config (Params)

/-! ## The loop state -/

theorem syncSafe_iff (s : State) : syncSafe s = true ↔ inTwoPi s.phase = true ∧ s.freq.isFinite = true ∧
    omegaInBand s.omega = true ∧ muWaiting s.mu = true := by
  simp [syncSafe, and_assoc]

theorem syncSafe_congr {s t : State} (h : sameSync s t) (hs : syncSafe s = true) : syncSafe t = true := by
  obtain ⟨hphase, hfreq, homega, hmu, -⟩ := h
  rw [syncSafe_iff] at hs ⊢
  rwa [hphase, hfreq, homega, hmu]

theorem isFinite_of_inTwoPi {x : F32} (h : inTwoPi x = true) : x.isFinite = true := by
  rw [inTwoPi_eq_within, within_iff rfl rfl] at h
  exact h.1

/-! ## A SAMPLE between symbols (40_synchronizer R155) -/

theorem inTwoPi_sampleFront (P : Params) (x : Cplx) {s : State} (hphase : inTwoPi s.phase = true)
    (hfreq : s.freq.isFinite = true) : inTwoPi (sampleFront P x s).phase = true :=
  inTwoPi_wrap (F32.add_isNaN _ _ (isFinite_of_inTwoPi hphase) hfreq)

/-- μ counted down and still above 1 waits on. -/
theorem muWaiting_countDown {mu : F32} (h : muWaiting mu = true)
    (hnot : F32.le (F32.sub mu (F32.ofBits Config.one)) (F32.ofBits Config.one) = false) :
    muWaiting (F32.sub mu (F32.ofBits Config.one)) = true := by
  obtain ⟨hmu, -, hhigh⟩ := (muWaiting_iff mu).1 h
  have hnan : (F32.sub mu (F32.ofBits Config.one)).isNaN = false := F32.add_isNaN _ _ hmu rfl
  have hle : F32.le (F32.sub mu (F32.ofBits Config.one)) (F32.ofBits muMax) = true :=
    le_of_roundsTo (roundsTo_sub hmu rfl) rfl (by rw [f32Value_one, f32Value_muMax]; linarith)
  rw [muWaiting, hle, (F32.le_eq_false_iff hnan rfl).1 hnot]
  rfl

/-! ## The loops at a symbol (40_synchronizer R157, R160) -/

/-- The timing error is clamped, whatever the samples. -/
theorem within_timingError (prev cur mid : Cplx) :
    within (F32.neg (F32.ofBits Config.one)) (F32.ofBits Config.one) (timingError prev cur mid) = true := by
  refine within_clampHigh ?_ (by decide +kernel)
  split
  · rfl
  · next h => simpa using h

/-- ω is clamped to its band from any finite ω. -/
theorem omegaInBand_omegaNext {omega et : F32} (homega : omega.isFinite = true)
    (het : et.isFinite = true) : omegaInBand (omegaNext omega et) = true :=
  within_clampLow (F32.isNaN_add_of_finite (F32.isNaN_of_isFinite homega) (F32.mul_isNaN _ _ rfl het)
    (.inl homega)) (by decide +kernel)

theorem f32Value_gainMu : f32Value (F32.ofBits Config.gainMu) = 11744051 / 2 ^ 26 := by decide +kernel

/-- 11.0625, above 1 + OMEGA_MAX. -/
theorem f32Value_bound_mu : f32Value (F32.ofBits 0x41310000#32) = 177 / 16 := by decide +kernel

theorem within_mu_add_omega {mu omega : F32}
    (hmu : within (F32.ofBits ulpOne) (F32.ofBits Config.one) mu = true)
    (homega : omegaInBand omega = true) :
    within (F32.ofBits Config.eight) (F32.ofBits 0x41310000#32) (F32.add mu omega) = true := by
  obtain ⟨hmufin, hmulow, hmuhigh⟩ := (within_iff rfl rfl).1 hmu
  obtain ⟨homegafin, homegalow, homegahigh⟩ := (omegaInBand_iff omega).1 homega
  rw [f32Value_ulpOne] at hmulow
  rw [f32Value_one] at hmuhigh
  refine within_of_roundsTo (roundsTo_add hmufin homegafin) rfl rfl ?_ ?_
  · rw [f32Value_eight]
    linarith
  · rw [f32Value_bound_mu]
    linarith

theorem within_gainMu_mul {et : F32}
    (het : within (F32.neg (F32.ofBits Config.one)) (F32.ofBits Config.one) et = true) :
    within (F32.neg (F32.ofBits Config.gainMu)) (F32.ofBits Config.gainMu)
      (F32.mul (F32.ofBits Config.gainMu) et) = true := by
  obtain ⟨hfin, hlow, hhigh⟩ := (within_iff rfl rfl).1 het
  rw [f32Value_neg, f32Value_one] at hlow
  rw [f32Value_one] at hhigh
  refine within_of_roundsTo (roundsTo_mul rfl hfin) rfl rfl ?_ ?_
  · rw [f32Value_neg, f32Value_gainMu]
    linarith
  · rw [f32Value_gainMu]
    linarith

/-- After a symbol μ lies in [6, 11.25] (R158 has the tighter (9.775, 11.225]). -/
theorem muWaiting_after_symbol {mu omega et : F32}
    (hmu : within (F32.ofBits ulpOne) (F32.ofBits Config.one) mu = true) (homega : omegaInBand omega = true)
    (het : within (F32.neg (F32.ofBits Config.one)) (F32.ofBits Config.one) et = true) :
    muWaiting (F32.add (F32.add mu omega) (F32.mul (F32.ofBits Config.gainMu) et)) = true := by
  obtain ⟨hsumfin, hsumlow, hsumhigh⟩ := (within_iff rfl rfl).1 (within_mu_add_omega hmu homega)
  obtain ⟨hgainfin, hgainlow, hgainhigh⟩ := (within_iff rfl rfl).1 (within_gainMu_mul het)
  rw [f32Value_eight] at hsumlow
  rw [f32Value_bound_mu] at hsumhigh
  rw [f32Value_neg, f32Value_gainMu] at hgainlow
  rw [f32Value_gainMu] at hgainhigh
  have hnext : within (F32.ofBits Config.six) (F32.ofBits muMax)
      (F32.add (F32.add mu omega) (F32.mul (F32.ofBits Config.gainMu) et)) = true := by
    refine within_of_roundsTo (roundsTo_add hsumfin hgainfin) rfl rfl ?_ ?_
    · rw [f32Value_six]
      linarith
    · rw [f32Value_muMax]
      linarith
  have hone : F32.lt (F32.ofBits Config.one) (F32.ofBits Config.six) = true := rfl
  obtain ⟨hlow, hhigh⟩ := within_elim hnext
  rw [muWaiting, F32.lt_of_lt_of_le hone hlow, hhigh]
  rfl

theorem f32Value_alpha : f32Value (F32.ofBits Config.alpha) = 14761577 / 2 ^ 28 := by decide +kernel

theorem ord_two : (F32.ofBits Config.two).ord = 2 ^ 150 := by decide +kernel

theorem within_costasErr (d : Cplx) :
    within (F32.neg (F32.ofBits Config.two)) (F32.ofBits Config.two) (costasErr d) = true := by
  obtain ⟨hfin, hlow, hhigh⟩ := costasErr_bounded d
  have hnan := F32.isNaN_of_isFinite hfin
  refine within_intro ?_ ?_
  · rwa [F32.le_eq_decide_ord rfl hnan, decide_eq_true_eq, F32.ord_neg, ord_two]
  · rwa [F32.le_eq_decide_ord hnan rfl, decide_eq_true_eq, ord_two]

/-- The phase correction by ALPHA is finite: at most 1 in magnitude. -/
theorem isFinite_alpha_costasErr (d : Cplx) :
    (F32.mul (F32.ofBits Config.alpha) (costasErr d)).isFinite = true := by
  obtain ⟨hfin, hlow, hhigh⟩ := (within_iff rfl rfl).1 (within_costasErr d)
  rw [f32Value_neg] at hlow
  rw [f32Value_two] at hlow hhigh
  have hmul : within (F32.neg (F32.ofBits Config.one)) (F32.ofBits Config.one)
      (F32.mul (F32.ofBits Config.alpha) (costasErr d)) = true := by
    refine within_of_roundsTo (roundsTo_mul rfl hfin) rfl rfl ?_ ?_ <;> rw [f32Value_alpha]
    · rw [f32Value_neg, f32Value_one]
      linarith
    · rw [f32Value_one]
      linarith
  exact ((within_iff rfl rfl).1 hmul).1

/-- The phase after a symbol is wrapped; what WRAP is given is no NaN. -/
theorem inTwoPi_costasUpdate {s : State} (d : Cplx) (hphase : inTwoPi s.phase = true)
    (hfreq : s.freq.isFinite = true) : inTwoPi (costasUpdate (costasErr d) s).phase = true :=
  inTwoPi_wrap (F32.isNaN_add_of_finite (F32.isNaN_of_isFinite (isFinite_of_inTwoPi hphase))
    (F32.isNaN_add_of_finite (isNaN_freq_next hfreq d)
      (F32.isNaN_of_isFinite (isFinite_alpha_costasErr d)) (.inr (isFinite_alpha_costasErr d)))
    (.inl (isFinite_of_inTwoPi hphase)))

/-- At a symbol the loops leave the loop state safe. -/
theorem syncSafe_symbolLoops {s : State} (hfmax : fmaxLegal s.fmax = true) (hphase : inTwoPi s.phase = true)
    (hfreq : s.freq.isFinite = true) (homega : omegaInBand s.omega = true)
    (hmu : within (F32.ofBits ulpOne) (F32.ofBits Config.one) s.mu = true) :
    syncSafe (symbolLoops s) = true := by
  have het := within_timingError s.prev (symbolCentre s) (symbolMid s)
  obtain ⟨hetfin, -⟩ := (within_iff rfl rfl).1 het
  obtain ⟨homegafin, -⟩ := (omegaInBand_iff s.omega).1 homega
  have hband := omegaInBand_omegaNext homegafin hetfin
  obtain ⟨hfmaxfin, -⟩ := fmaxLegal_range hfmax
  obtain ⟨hfreqfin, -⟩ :=
    (within_iff (by rwa [F32.isFinite_neg]) hfmaxfin).1 (within_symbolLoops_freq hfreq hfmax)
  exact (syncSafe_iff _).2 ⟨
    inTwoPi_costasUpdate (s := { gardner s with prev := symbolCentre s }) _ hphase hfreq,
    hfreqfin, hband, muWaiting_after_symbol hmu hband het⟩

/-- SAMPLE keeps the loop state safe, between symbols and at one. -/
theorem syncSafe_sampleStep (P : Params) (x : Cplx) {s : State} (hfmax : fmaxLegal s.fmax = true)
    (h : syncSafe s = true) : syncSafe (sampleStep P x s) = true := by
  obtain ⟨hphase, hfreq, homega, hmu⟩ := (syncSafe_iff s).1 h
  have hfront := inTwoPi_sampleFront P x hphase hfreq
  cases hdue : F32.le (F32.sub s.mu (F32.ofBits Config.one)) (F32.ofBits Config.one) with
  | false =>
    rw [sampleStep_between P x s hdue, syncSafe_iff]
    exact ⟨hfront, hfreq, homega, muWaiting_countDown hmu hdue⟩
  | true =>
    rw [sampleStep_symbol P x s hdue]
    exact syncSafe_congr (sameSync_symbolStep P _)
      (syncSafe_symbolLoops hfmax hfront hfreq homega (within_mu_at_symbol hmu hdue))

/-! ## What changes the loop state -/

theorem sameSync_of_touchesScratch {s t : State} (h : touchesScratch s t) : sameSync s t := by
  obtain ⟨scr, fr, ev, rfl⟩ := h
  exact ⟨rfl, rfl, rfl, rfl, rfl, rfl, rfl⟩

theorem sameSync_writeAddr (a : BitVec 8) (v : Word) (s : State) : sameSync s (writeAddr a v s) := by
  obtain ⟨c, lo, hi, sl, si, fm, dm, h⟩ := writeAddr_frame a v s
  rw [h]
  exact ⟨rfl, rfl, rfl, rfl, rfl, rfl, rfl⟩

/-- The ways an instruction can act on the synchronizer. -/
inductive SyncEffect (i : Instr) (s t : State) : Prop
  /-- SAMPLE -/
  | sample (x y : Word) (hi : i = .sample x y)
  /-- SRESET -/
  | reset (ht : t = softReset s)
  /-- every other instruction leaves it as it is (70_reset R513) -/
  | same (h : sameSync s t)

theorem syncEffect_handlerOf {i : Instr} {s t : State} (k : SlotId) (c : StateCode)
    (h : exec (handlerOf k c) s = .next t) : SyncEffect i s t :=
  .same (sameSync_of_touchesDibitPath (touchesDibitPath_of_slot (touchesSlot_exec_handlerOf h)))

/-- Only SAMPLE and SRESET change the synchronizer. -/
theorem exec_syncEffect {i : Instr} {s t : State} (h : exec i s = .next t) : SyncEffect i s t := by
  have unchanged : sameSync s s := ⟨rfl, rfl, rfl, rfl, rfl, rfl, rfl⟩
  cases i with
  | sample x y => exact .sample x y rfl
  | sreset => cases h; exact .reset rfl
  | dibit d => cases h; exact .same (sameSync_of_touchesDibitPath (touchesDibitPath_dibitStep _ d s))
  | dibit8 ds => cases h; exact .same (sameSync_of_touchesDibitPath (touchesDibitPath_dibitsStep _ ds s))
  | wrreg a v => cases h; exact .same (sameSync_writeAddr a v s)
  | nop => cases h; exact .same unchanged
  | rdreg a => cases h; exact .same unchanged
  | scrwr idx v => cases h; exact .same unchanged
  | scrrd idx => cases h; exact .same unchanged
  | bch =>
    cases h
    exact .same (sameSync_of_touchesScratch (touchesScratch_fecDone _ _ _ _ (touchesScratch_ite _ _ _ s)))
  | rs n =>
    cases h
    exact .same (sameSync_of_touchesScratch (touchesScratch_fecDone _ _ _ _ (touchesScratch_ite _ _ _ s)))
  | tr12 => cases h; exact .same unchanged
  | tr34 => cases h; exact .same unchanged
  | crc nb fix => cases h; exact .same (sameSync_of_touchesScratch (touchesScratch_crcCommand _ fix s))
  | deint => cases h; exact .same unchanged
  | intlv => cases h; exact .same unchanged
  | stateNid k => exact syncEffect_handlerOf k .nid h
  | stateHdu k => exact syncEffect_handlerOf k .hdu h
  | stateLdu1 k => exact syncEffect_handlerOf k .ldu1 h
  | stateLdu2 k => exact syncEffect_handlerOf k .ldu2 h
  | stateTdu k => exact syncEffect_handlerOf k .tdu h
  | stateTdulc k => exact syncEffect_handlerOf k .tdulc h
  | stateTsbk1 k => exact syncEffect_handlerOf k .tsbk1 h
  | stateTsbk2 k => exact syncEffect_handlerOf k .tsbk2 h
  | stateTsbk3 k => exact syncEffect_handlerOf k .tsbk3 h
  | statePdu0 k => exact syncEffect_handlerOf k .pdu0 h
  | statePdu1 k => exact syncEffect_handlerOf k .pdu1 h
  | statePdu2 k => exact syncEffect_handlerOf k .pdu2 h
  | statePdu3 k => exact syncEffect_handlerOf k .pdu3 h
  | statePduc k => exact syncEffect_handlerOf k .pduc h
  | stateUnknown k => exact syncEffect_handlerOf k .unknown h

theorem syncSafe_reset : syncSafe State.reset = true := by decide +kernel

/-- SRESET gives the loop state its hard-reset values (70_reset R500). -/
theorem syncSafe_softReset (s : State) : syncSafe (softReset s) = true := syncSafe_reset

theorem syncSafe_exec {i : Instr} {s t : State} (hfmax : fmaxLegal s.fmax = true) (hs : syncSafe s = true)
    (h : exec i s = .next t) : syncSafe t = true := by
  cases exec_syncEffect h with
  | sample x y hi =>
    subst hi
    cases h
    exact syncSafe_sampleStep _ _ hfmax hs
  | reset ht => exact ht ▸ syncSafe_softReset s
  | same hsame => exact syncSafe_congr hsame hs

/-- Settles O59: the instruction keeps the ranges, and the step around it leaves the synchronizer alone. -/
theorem stepKeepsTheLoopStateInRange : Obligations.StepKeepsTheLoopStateInRange := by
  intro s t hfmax hs h
  cases step_effect h with
  | wait ht => exact ht ▸ hs
  | illegal opc n ht => exact ht ▸ hs
  | command i n u _ hu ht =>
    have hsafe := syncSafe_exec hfmax hs hu
    exact ht ▸ hsafe
  | handler k i u _ hu ht =>
    have hsafe := syncSafe_exec hfmax hs hu
    rw [ht, finishHandler]
    split
    · exact hsafe
    · exact hsafe

end Sys2Proof.Machine
end

section
/-! O51: the decisions of the slicer and their corners, and the inversion of a dibit (41_slicer R203 to R205).
The comparison of the magnitudes chooses the axis and the sign on that axis chooses the dibit; every corner is
a comparison that fails. -/

namespace Sys2Proof

/-! ## Comparisons that fail (00_scope R12) -/

theorem F32.gt_irrefl (x : F32) : F32.gt x x = false := by
  simp [F32.gt, F32.lt]

theorem F32.gt_eq_false_of_nan {x y : F32} (h : x = .nan ∨ y = .nan) : F32.gt x y = false :=
  (F32.compare_nan h.symm).1

theorem F32.abs_nan : F32.abs .nan = .nan := rfl

end Sys2Proof

namespace Sys2Proof.Machine

/-- Neither zero is above zero. -/
theorem gt_zero_eq_false_of_value_zero {x : F32} (hx : x.isFinite = true) (h : f32Value x = 0) :
    F32.gt x F32.zero = false := by
  rw [F32.gt, ← Bool.not_eq_true, lt_iff_f32Value rfl hx, f32Value_zero, h]
  exact lt_irrefl 0

/-! ## Inversion (41_slicer R205) -/

@[simp] theorem dibitInv_dibitInv (d : Dibit) : dibitInv (dibitInv d) = d := by
  cases d <;> rfl

@[simp] theorem dibitB1_dibitInv (d : Dibit) : dibitB1 (dibitInv d) = !dibitB1 d := by
  cases d <;> rfl

@[simp] theorem dibitB2_dibitInv (d : Dibit) : dibitB2 (dibitInv d) = dibitB2 d := by
  cases d <;> rfl

/-! ## The two axes (41_slicer R203) -/

theorem slice_real_axis {c : Cplx} (h : F32.gt c.re.abs c.im.abs = true) :
    slice c = if F32.gt c.re F32.zero then .d00 else .d11 := if_pos h

theorem slice_imag_axis {c : Cplx} (h : F32.gt c.re.abs c.im.abs = false) :
    slice c = if F32.gt c.im F32.zero then .d01 else .d10 := if_neg (Bool.eq_false_iff.1 h)

/-- Each dibit is decided by one axis and one sign. -/
theorem slice_eq_iff (c : Cplx) :
    (slice c = .d00 ↔ F32.gt c.re.abs c.im.abs = true ∧ F32.gt c.re F32.zero = true) ∧
    (slice c = .d11 ↔ F32.gt c.re.abs c.im.abs = true ∧ F32.gt c.re F32.zero = false) ∧
    (slice c = .d01 ↔ F32.gt c.re.abs c.im.abs = false ∧ F32.gt c.im F32.zero = true) ∧
    (slice c = .d10 ↔ F32.gt c.re.abs c.im.abs = false ∧ F32.gt c.im F32.zero = false) := by
  cases haxis : F32.gt c.re.abs c.im.abs with
  | true =>
    rw [slice_real_axis haxis]
    cases F32.gt c.re F32.zero <;> simp
  | false =>
    rw [slice_imag_axis haxis]
    cases F32.gt c.im F32.zero <;> simp

/-! ## The corners (41_slicer R204) -/

theorem slice_tie {c : Cplx} (h : c.re.abs = c.im.abs) :
    slice c = if F32.gt c.im F32.zero then .d01 else .d10 :=
  slice_imag_axis (h ▸ F32.gt_irrefl c.re.abs)

/-- A NaN component leaves the decision to the imaginary axis. -/
theorem slice_nan {c : Cplx} (h : c.re = .nan ∨ c.im = .nan) :
    slice c = if F32.gt c.im F32.zero then .d01 else .d10 :=
  slice_imag_axis (F32.gt_eq_false_of_nan (h.imp
    (fun hre => by rw [hre, F32.abs_nan]) (fun him => by rw [him, F32.abs_nan])))

theorem slice_nan_im {c : Cplx} (h : c.im = .nan) : slice c = .d10 := by
  rw [slice_nan (.inr h), F32.gt_eq_false_of_nan (.inl h)]
  rfl

theorem slice_zero_im {c : Cplx} (hvalue : f32Value c.im = 0) (hfin : c.im.isFinite = true)
    (haxis : F32.gt c.re.abs c.im.abs = false) : slice c = .d10 := by
  rw [slice_imag_axis haxis, gt_zero_eq_false_of_value_zero hfin hvalue]
  rfl

/-- Settles O51: the decision by axis and sign, with each corner a comparison that fails, and the inversion
table bit by bit. -/
theorem slicerAndInversionDecideTheCorners : Obligations.SlicerAndInversionDecideTheCorners := by
  refine ⟨fun d => ⟨dibitInv_dibitInv d, dibitB1_dibitInv d, dibitB2_dibitInv d⟩, fun c => ?_⟩
  obtain ⟨hd00, hd11, hd01, hd10⟩ := slice_eq_iff c
  exact ⟨hd00, hd11, hd01, hd10, slice_tie, fun hre => slice_nan (.inl hre), slice_nan_im, slice_zero_im⟩

end Sys2Proof.Machine
end

section
/-! O34, O35, O37: the correlator on one bit, and what one dibit leaves in the correlator and in each slot
(42_sync R221 to R240). -/

namespace Sys2Proof.Machine

open Config (Params)

/-! ## One bit into the correlator (42_sync R221, R222, R232 to R234) -/

/-- The count, which saturates at the width of the window (42_sync R221). -/
theorem corrShift_corrCnt_eq (b : Bool) (s : State) :
    (corrShift b s).corrCnt = if s.corrCnt < 64 then s.corrCnt + 1 else 64 := by
  rw [corrShift_corrCnt, Config.corrWidth]
  split <;> omega

theorem corrShift_eq (b : Bool) (s : State) :
    corrShift b s = { s with
      corrW := s.corrW <<< 1 ||| BitVec.ofNat 64 b.toNat
      corrCnt := if s.corrCnt < 64 then s.corrCnt + 1 else 64 } := by
  rw [← corrShift_corrCnt_eq b s]
  rfl

/-- DETECT: the lowest inactive slot is activated, or the detection is counted and reported
(42_sync R232, R233, R234). -/
theorem detect_eq (s : State) :
    detect s =
      if s.slot0.active = false then { s with slot0 := ⟨true, false, .nid, [], 64, s.statusInit⟩ }
      else if s.slot1.active = false then { s with slot1 := ⟨true, false, .nid, [], 64, s.statusInit⟩ }
      else { s with dropCnt := s.dropCnt + 1, events := s.events ++ [0x02000000#32] } := rfl

theorem corrBit_of_match {b : Bool} {s : State} (h : (corrShift b s).syncMatch = true) :
    corrBit b s = detect (corrShift b s) := if_pos h

theorem corrBit_of_no_match {b : Bool} {s : State} (h : ¬ (corrShift b s).syncMatch = true) :
    corrBit b s = corrShift b s := if_neg h

/-- Settles O34: the hit is MATCH after the shift, and the shift keeps all that DETECT reads. -/
theorem correlatorBitDetectsTheSync : Obligations.CorrelatorBitDetectsTheSync := by
  intro b s w u hit fresh
  have hu : corrShift b s = u := corrShift_eq b s
  have hhit : (corrShift b s).syncMatch = true ↔ hit := by
    rw [hu]
    exact syncMatch_iff u
  refine ⟨fun h => ?_, fun h => ?_⟩
  · rw [corrBit_of_no_match (mt hhit.1 h), hu]
  · rw [corrBit_of_match (hhit.2 h), hu]
    exact detect_eq u

/-! ## The correlator after a dibit (42_sync R221, R240) -/

theorem sameCorr_of_touchesSlot {k : SlotId} {s t : State} (h : touchesSlot k s t) : sameCorr s t := by
  obtain ⟨v, ev, rfl⟩ := h
  exact ⟨rfl, rfl⟩

theorem sameCorr_trans {s t u : State} (h : sameCorr s t) (h' : sameCorr t u) : sameCorr s u := by
  obtain ⟨hw, hn⟩ := h
  obtain ⟨hw', hn'⟩ := h'
  exact ⟨hw'.trans hw, hn'.trans hn⟩

theorem sameCorr_append (k : SlotId) (b : Bool) (s : State) : sameCorr s (append k b s).1 := by
  unfold append
  split <;> exact ⟨rfl, rfl⟩

theorem sameCorr_asmReceive (k : SlotId) (d : Dibit) (s : State) :
    sameCorr s (asmReceive k d s).1 := by
  unfold asmReceive appendDibit
  split
  · exact ⟨rfl, rfl⟩
  · refine sameCorr_trans (t := setCtr k ((s.slot k).ctr + 1) s) ⟨rfl, rfl⟩ ?_
    split
    · exact sameCorr_trans (sameCorr_append k _ _) (sameCorr_append k _ _)
    · exact sameCorr_append k _ _

/-- Only its own bits reach the correlator: an assembler slot's part of a dibit leaves it alone. -/
theorem sameCorr_asmSlot (P : Params) (k : SlotId) (d : Dibit) (s : State) :
    sameCorr s (asmSlot P k d s) := by
  unfold asmSlot
  split
  · split
    · exact sameCorr_trans (sameCorr_asmReceive k d s)
        (sameCorr_of_touchesSlot (touchesSlot_fullCheck P k 3 _))
    · exact sameCorr_asmReceive k d s
  · exact ⟨rfl, rfl⟩

/-- Shifting in b1, then b2, shifts in LOW of the dibit (41_slicer R202). -/
theorem shift_dibit_bits (d : Dibit) (w : BitVec 64) :
    (w <<< 1 ||| BitVec.ofNat 64 (dibitB1 d).toNat) <<< 1 ||| BitVec.ofNat 64 (dibitB2 d).toNat =
      w <<< 2 ||| (dibitLow d).zeroExtend 64 := by
  rw [BitVec.shiftLeft_or_distrib, ← BitVec.shiftLeft_add, BitVec.or_assoc]
  congr 1
  cases d <;> decide

/-- Settles O35: the composition is DIBIT_STEP's definition; the slots' parts keep the window and the
count, which then take two bits. -/
theorem dibitFeedsSlotsThenCorrelator : Obligations.DibitFeedsSlotsThenCorrelator := by
  intro d s
  refine ⟨_, rfl, rfl, touchesDibitPath_dibitStep Config.params d s, ?_⟩
  obtain ⟨hw, hn⟩ := sameCorr_trans (sameCorr_asmSlot Config.params .s0 d s)
    (sameCorr_asmSlot Config.params .s1 d _)
  constructor
  · rw [dibitStep, corrBit_corrW, corrShift_corrW, corrBit_corrW, corrShift_corrW, hw,
      shift_dibit_bits]
  · rw [dibitStep, corrBit_corrCnt, corrShift_corrCnt_eq, corrBit_corrCnt, corrShift_corrCnt_eq, hn]
    split_ifs <;> omega

/-! ## One slot after a dibit (42_sync R230, R232, R240) -/

theorem asmSlot_inactive (P : Params) {k : SlotId} (d : Dibit) {s : State}
    (h : (s.slot k).active = false) : asmSlot P k d s = s := by
  simp [asmSlot, h]

/-- An active slot that receives without a fault goes through the full check (42_sync R231). -/
theorem asmSlot_received (P : Params) {k : SlotId} {d : Dibit} {s t : State}
    (h : (s.slot k).active = true) (hr : asmReceive k d s = (t, true)) :
    asmSlot P k d s = fullCheck P k 3 t := by
  simp [asmSlot, h, hr]

theorem asmSlot_skip (P : Params) {k : SlotId} (d : Dibit) {s : State}
    (ha : (s.slot k).active = true) (hctr : (s.slot k).ctr = 35)
    (hroom : (s.slot k).len < (s.slot k).cap) :
    asmSlot P k d s = s.setSlot k { s.slot k with ctr := 0 } := by
  rw [asmSlot_received P ha (asmReceive_skip k d s hctr)]
  refine fullCheck_of_not_full P k 2 ?_
  rw [slot_setSlot_same]
  exact hroom.ne

/-- The slot `v` after it has stored both bits of a dibit (42_sync R230). -/
def storeDibit (d : Dibit) (v : Slot) : Slot :=
  { v with ctr := v.ctr + 1, buf := v.buf ++ [dibitB1 d, dibitB2 d] }

@[simp] theorem storeDibit_len (d : Dibit) (v : Slot) : (storeDibit d v).len = v.len + 2 := by
  simp [storeDibit, Slot.len]

/-- A dibit with room for both its bits is stored, then the full check runs (42_sync R230, R231). -/
theorem asmSlot_store (P : Params) {k : SlotId} (d : Dibit) {s : State}
    (ha : (s.slot k).active = true) (hctr : (s.slot k).ctr ≠ 35)
    (hroom : (s.slot k).len + 2 ≤ (s.slot k).cap) :
    asmSlot P k d s = fullCheck P k 3 (s.setSlot k (storeDibit d (s.slot k))) :=
  asmSlot_received P ha (asmReceive_store k d s hctr hroom)

theorem asmSlot_store_not_full (P : Params) {k : SlotId} (d : Dibit) {s : State}
    (ha : (s.slot k).active = true) (hctr : (s.slot k).ctr ≠ 35)
    (hroom : (s.slot k).len + 2 < (s.slot k).cap) :
    asmSlot P k d s = s.setSlot k (storeDibit d (s.slot k)) := by
  rw [asmSlot_store P d ha hctr hroom.le]
  refine fullCheck_of_not_full P k 2 ?_
  rw [slot_setSlot_same, storeDibit_len]
  exact hroom.ne

theorem asmSlot_statusInit (P : Params) (k : SlotId) (d : Dibit) (s : State) :
    (asmSlot P k d s).statusInit = s.statusInit := by
  obtain ⟨bf, fs, dc, w, n, a, b, ev, ht⟩ := touchesDibitPath_asmSlot P k d s
  rw [ht]

/-- Each slot sees the dibit once, from the same slot and STATUS_INIT it had before the dibit's step:
the rest of the step is the correlator's (42_sync R240). -/
theorem dibitStep_slot (P : Params) (k : SlotId) (d : Dibit) (s : State) :
    ∃ u t, u.slot k = s.slot k ∧ t.slot k = (asmSlot P k d u).slot k ∧
      t.statusInit = s.statusInit ∧ dibitStep P d s = corrBit (dibitB2 d) (corrBit (dibitB1 d) t) := by
  have hinit : (asmSlot P .s1 d (asmSlot P .s0 d s)).statusInit = s.statusInit := by
    rw [asmSlot_statusInit, asmSlot_statusInit]
  cases k with
  | s0 => exact ⟨s, _, rfl, asmSlot_other P .s1 .s0 d _ (by decide), hinit, rfl⟩
  | s1 => exact ⟨_, _, asmSlot_other P .s0 .s1 d s (by decide), rfl, hinit, rfl⟩

/-- The correlator leaves an active slot alone through both bits (42_sync R234). -/
theorem corrBits_slot_active {k : SlotId} {t : State} (b c : Bool) (h : (t.slot k).active = true) :
    (corrBit c (corrBit b t)).slot k = t.slot k := by
  have hb := (corrBit_slot k b t).1 h
  rw [← hb] at h
  rw [(corrBit_slot k c _).1 h, hb]

/-- Of an inactive slot the correlator's two bits can make a fresh one, once (42_sync R232, R234). -/
theorem corrBits_slot (k : SlotId) (t : State) (b c : Bool) :
    (corrBit c (corrBit b t)).slot k = t.slot k ∨
      (corrBit c (corrBit b t)).slot k = ⟨true, false, .nid, [], 64, t.statusInit⟩ := by
  obtain ⟨-, hb, hinit⟩ := corrBit_slot k b t
  obtain ⟨-, hc, -⟩ := corrBit_slot k c (corrBit b t)
  rw [hinit] at hc
  rcases hc with hc | hc
  · rwa [hc]
  · exact .inr hc

/-- An active slot that its part of the dibit leaves active ends the dibit's step so. -/
theorem dibitStep_slot_active (P : Params) {k : SlotId} {d : Dibit} {s : State} {v : Slot}
    (hasm : ∀ u : State, u.slot k = s.slot k → asmSlot P k d u = u.setSlot k v)
    (hv : v.active = true) : (dibitStep P d s).slot k = v := by
  obtain ⟨u, t, hu, ht, -, hstep⟩ := dibitStep_slot P k d s
  rw [hasm u hu, slot_setSlot_same] at ht
  rw [hstep, corrBits_slot_active _ _ (ht ▸ hv), ht]

/-- Settles O37: each case is the slot's part of the dibit, which the correlator then keeps or, of an
inactive slot, makes fresh. -/
theorem dibitIsStoredOrSkippedByEachSlot : Obligations.DibitIsStoredOrSkippedByEachSlot := by
  intro d k s t h v
  cases h
  refine ⟨fun ha hctr hroom => ?_, fun ha hctr hroom => ?_, fun ha => ?_⟩
  · refine dibitStep_slot_active Config.params (fun u hu => ?_) ha
    rw [asmSlot_skip _ d (hu ▸ ha) (hu ▸ hctr) (hu ▸ hroom), hu]
  · refine dibitStep_slot_active Config.params (v := storeDibit d v) (fun u hu => ?_) ha
    rw [asmSlot_store_not_full _ d (hu ▸ ha) (hu ▸ hctr) (hu ▸ hroom), hu]
  · obtain ⟨u, t, hu, ht, hinit, hstep⟩ := dibitStep_slot Config.params k d s
    rw [asmSlot_inactive _ d (hu ▸ ha), hu] at ht
    rw [hstep, ← hinit, show v = t.slot k from ht.symm]
    exact corrBits_slot k t _ _

end Sys2Proof.Machine
end

section
/-! O39: the dibit that fills a slot runs the slot's handler, and the handler after it, in the same dibit
step (42_sync R230, R231, 43_duid R271 to R279). -/

namespace Sys2Proof.Machine

open Config (Params)

/-! ## What a handler leaves of the slot's flag and counter -/

/-- Slot `k` has the same active flag and status-skip counter in `t` as in `s`. -/
def keepsActiveCtr (k : SlotId) (s t : State) : Prop :=
  (t.slot k).active = (s.slot k).active ∧ (t.slot k).ctr = (s.slot k).ctr

theorem keepsActiveCtr_trans {k : SlotId} {s t u : State} (h : keepsActiveCtr k s t)
    (h' : keepsActiveCtr k t u) : keepsActiveCtr k s u := by
  obtain ⟨ha, hc⟩ := h
  obtain ⟨ha', hc'⟩ := h'
  exact ⟨ha'.trans ha, hc'.trans hc⟩

theorem keepsActiveCtr_of_rewritesBuffer {k : SlotId} {s t : State} (h : rewritesBuffer k s t) :
    keepsActiveCtr k s t := by
  obtain ⟨b, -, ht⟩ := h
  rw [keepsActiveCtr, ht]
  exact ⟨rfl, rfl⟩

section
variable {k : SlotId} {s t : State}

theorem keepsActiveCtr_complete (h : keepsActiveCtr k s t) : keepsActiveCtr k s (complete k t) := by
  rwa [keepsActiveCtr, complete_slot]

theorem keepsActiveCtr_resize (c : Nat) (h : keepsActiveCtr k s t) :
    keepsActiveCtr k s (resize k c t) := by
  rwa [keepsActiveCtr, resize_slot]

theorem keepsActiveCtr_enterState (c : StateCode) (h : keepsActiveCtr k s t) :
    keepsActiveCtr k s (enterState k c t) := by
  rwa [keepsActiveCtr, enterState_slot]

theorem keepsActiveCtr_dispatch (crc : BitVec 2) (f : Bool) (h : keepsActiveCtr k s t) :
    keepsActiveCtr k s (dispatch k crc f t) := by
  rwa [keepsActiveCtr, dispatch_slot]

theorem keepsActiveCtr_dispatchRaw (f : Bool) (h : keepsActiveCtr k s t) :
    keepsActiveCtr k s (dispatchRaw k f t) :=
  keepsActiveCtr_complete (keepsActiveCtr_dispatch _ f h)

theorem keepsActiveCtr_nidContinue (h : keepsActiveCtr k s t) : keepsActiveCtr k s (nidContinue k t) := by
  unfold nidContinue
  split
  · exact keepsActiveCtr_complete h
  · exact keepsActiveCtr_resize _ (keepsActiveCtr_enterState _ h)

theorem keepsActiveCtr_handleNid (k : SlotId) (s : State) : keepsActiveCtr k s (handleNid k s) := by
  unfold handleNid
  dsimp only
  split
  · exact keepsActiveCtr_nidContinue (keepsActiveCtr_of_rewritesBuffer (rewritesBuffer_writeBuf k 0 _ s))
  · exact keepsActiveCtr_complete ⟨rfl, rfl⟩

theorem keepsActiveCtr_tsbkDispatch (next : Option StateCode) (crc : CrcOutcome)
    (h : keepsActiveCtr k s t) : keepsActiveCtr k s (tsbkDispatch k next crc t) := by
  have hdispatch := keepsActiveCtr_dispatch (recordCrc crc) true (keepsActiveCtr_resize 160 h)
  unfold tsbkDispatch
  dsimp only
  split
  · exact keepsActiveCtr_complete hdispatch
  · split
    · exact keepsActiveCtr_complete hdispatch
    · exact keepsActiveCtr_enterState _ (keepsActiveCtr_resize _ (keepsActiveCtr_resize _ hdispatch))

end

/-- A block deinterleaved in place (43_duid R284). -/
theorem keepsActiveCtr_blockDeint (P : Params) (k : SlotId) (start : Nat) (s : State) :
    keepsActiveCtr k s (blockDeint P k start s) :=
  keepsActiveCtr_of_rewritesBuffer (rewritesBuffer_writeBuf k start _ s)

/-- A block decoded in place (43_duid R284). -/
theorem keepsActiveCtr_block (P : Params) (k : SlotId) (start : Nat) (c : List Bool) (s : State) :
    keepsActiveCtr k s (writeBuf k start c (blockDeint P k start s)) :=
  keepsActiveCtr_of_rewritesBuffer (rewritesBuffer_block P k start c s)

theorem keepsActiveCtr_tsbkStage (P : Params) (k : SlotId) (next : Option StateCode) (s : State) :
    keepsActiveCtr k s (tsbkStage P k next s) := by
  unfold tsbkStage
  dsimp only
  split
  · have hcrc := keepsActiveCtr_trans
      (keepsActiveCtr_block P k 64 (blockBits (P.trellis12 (blockOf P k 64 s)).2) s)
      (keepsActiveCtr_of_rewritesBuffer (rewritesBuffer_tsbkCrc k _))
    split
    · exact keepsActiveCtr_complete hcrc
    · exact keepsActiveCtr_tsbkDispatch next _ hcrc
  · exact keepsActiveCtr_complete (keepsActiveCtr_blockDeint P k 64 s)

theorem keepsActiveCtr_handlePdu0 (P : Params) (k : SlotId) (s : State) :
    keepsActiveCtr k s (handlePdu0 P k s) := by
  unfold handlePdu0
  dsimp only
  split
  · have hblock := keepsActiveCtr_resize 160
      (keepsActiveCtr_block P k 64 (blockBits (P.trellis12 (blockOf P k 64 s)).2) s)
    split
    · exact keepsActiveCtr_dispatchRaw true hblock
    · exact keepsActiveCtr_resize _ (keepsActiveCtr_enterState _ hblock)
  · exact keepsActiveCtr_complete (keepsActiveCtr_blockDeint P k 64 s)

theorem keepsActiveCtr_pduStage (P : Params) (k : SlotId) (start n : Nat) (next : StateCode)
    (s : State) : keepsActiveCtr k s (pduStage P k start n next s) := by
  unfold pduStage
  dsimp only
  split
  · have hblock := keepsActiveCtr_resize (start + 96)
      (keepsActiveCtr_block P k start (blockBits (P.trellis12 (blockOf P k start s)).2) s)
    split
    · exact keepsActiveCtr_dispatchRaw true hblock
    · exact keepsActiveCtr_resize _ (keepsActiveCtr_enterState _ hblock)
  · exact keepsActiveCtr_complete (keepsActiveCtr_blockDeint P k start s)

theorem keepsActiveCtr_handlePdu3 (P : Params) (k : SlotId) (s : State) :
    keepsActiveCtr k s (handlePdu3 P k s) :=
  keepsActiveCtr_dispatchRaw _ (keepsActiveCtr_resize 448 (keepsActiveCtr_block P k 352 _ s))

theorem keepsActiveCtr_handlePduc (P : Params) (k : SlotId) (s : State) :
    keepsActiveCtr k s (handlePduc P k s) := by
  unfold handlePduc
  dsimp only
  generalize (s.slot k).cap - 196 = start
  split
  · have hblock := keepsActiveCtr_resize (start + 144)
      (keepsActiveCtr_block P k start (blockBits (P.trellis34 (blockOf P k start s)).2) s)
    split
    · exact keepsActiveCtr_dispatchRaw true hblock
    · exact keepsActiveCtr_resize _ hblock
  · exact keepsActiveCtr_dispatchRaw false (keepsActiveCtr_resize _ (keepsActiveCtr_blockDeint P k _ s))

/-- No handler writes its slot's active flag or counter (43_duid R271). -/
theorem keepsActiveCtr_smStep (P : Params) (k : SlotId) (s : State) :
    keepsActiveCtr k s (smStep P k s) := by
  have hraw : keepsActiveCtr k s (dispatchRaw k true s) := keepsActiveCtr_dispatchRaw true ⟨rfl, rfl⟩
  unfold smStep
  cases (s.slot k).state with
  | nid => exact keepsActiveCtr_handleNid k s
  | tsbk1 => exact keepsActiveCtr_tsbkStage P k _ s
  | tsbk2 => exact keepsActiveCtr_tsbkStage P k _ s
  | tsbk3 => exact keepsActiveCtr_tsbkStage P k _ s
  | pdu0 => exact keepsActiveCtr_handlePdu0 P k s
  | pdu1 => exact keepsActiveCtr_pduStage P k _ _ _ s
  | pdu2 => exact keepsActiveCtr_pduStage P k _ _ _ s
  | pdu3 => exact keepsActiveCtr_handlePdu3 P k s
  | pduc => exact keepsActiveCtr_handlePduc P k s
  | hdu => exact hraw
  | ldu1 => exact hraw
  | ldu2 => exact hraw
  | tdu => exact hraw
  | tdulc => exact hraw
  | unknown => exact hraw

/-! ## The dibit that fills a slot -/

/-- The instruction of a slot's state is the handler SM_STEP runs (30_encoding R130, 43_duid R271). -/
theorem exec_handlerOf_state (k : SlotId) (s : State) :
    exec (handlerOf k (s.slot k).state) s = .next (smStep Config.params k s) := by
  unfold smStep
  cases (s.slot k).state <;> rfl

/-- RESET_SLOT spelled out, the counter known (42_sync R231). -/
theorem resetSlot_eq {k : SlotId} {s : State} {c : Fin 36} (h : (s.slot k).ctr = c) :
    resetSlot k s = s.setSlot k ⟨false, false, .nid, [], 64, c⟩ := by
  rw [resetSlot, h]
  rfl

/-- A full slot whose handler completes is reset, its counter kept (42_sync R231). -/
theorem fullCheck_completed (P : Params) {k : SlotId} (n : Nat) {s : State}
    (hfull : (s.slot k).len = (s.slot k).cap) (hdone : ((smStep P k s).slot k).complete = true) :
    fullCheck P k (n + 1) s =
      (smStep P k s).setSlot k ⟨false, false, .nid, [], 64, (s.slot k).ctr⟩ := by
  rw [fullCheck_of_full P k n hfull, if_pos hdone]
  exact resetSlot_eq (keepsActiveCtr_smStep P k s).2

/-- A full slot whose handler does not complete is checked again (42_sync R231). -/
theorem fullCheck_goes_on (P : Params) {k : SlotId} (n : Nat) {s : State}
    (hfull : (s.slot k).len = (s.slot k).cap) (hdone : ((smStep P k s).slot k).complete = false) :
    fullCheck P k (n + 1) s = fullCheck P k n (smStep P k s) := by
  simp [fullCheck_of_full P k n hfull, hdone]

theorem smStep_raw_complete (P : Params) {k : SlotId} {s : State}
    (h : (s.slot k).state ∈ rawStates) : ((smStep P k s).slot k).complete = true := by
  rw [smStep_raw P k s h]
  exact dispatchRaw_complete true

/-- A NID that leaves the buffer full began a raw-bit frame, which completes at once (43_duid R272,
R273). -/
theorem smStep_smStep_nid_complete (P : Params) {k : SlotId} {s : State}
    (hstate : (s.slot k).state = .nid) (hlen : (s.slot k).len = 64)
    (hdone : ((smStep P k s).slot k).complete = false)
    (hfull : ((smStep P k s).slot k).len = ((smStep P k s).slot k).cap) :
    ((smStep P k (smStep P k s)).slot k).complete = true := by
  have hnid : smStep P k s = handleNid k s := by
    rw [smStep, hstate]
  rw [hnid] at hdone hfull ⊢
  rcases handleNid_outcome hlen with hcomplete | hgoes | hraw
  · rw [hcomplete] at hdone
    cases hdone
  · obtain ⟨-, -, hlt, -⟩ := hgoes
    exact absurd hfull hlt.ne
  · obtain ⟨-, -, hstate', -⟩ := hraw
    exact smStep_raw_complete P hstate'

/-- The three outcomes of the full check on a slot that is full (42_sync R231). -/
theorem fullCheck_outcomes (P : Params) {k : SlotId} (n : Nat) {s t : State}
    (hfull : (s.slot k).len = (s.slot k).cap) (ht : smStep P k s = t) :
    ((t.slot k).complete = true →
      fullCheck P k (n + 2) s = t.setSlot k ⟨false, false, .nid, [], 64, (s.slot k).ctr⟩) ∧
    ((t.slot k).complete = false → (t.slot k).len ≠ (t.slot k).cap → fullCheck P k (n + 2) s = t) ∧
    ((t.slot k).complete = false → (t.slot k).len = (t.slot k).cap →
      ((smStep P k t).slot k).complete = true → fullCheck P k (n + 2) s =
        (smStep P k t).setSlot k ⟨false, false, .nid, [], 64, (s.slot k).ctr⟩) := by
  subst ht
  refine ⟨fullCheck_completed P (n + 1) hfull, fun hdone hroom => ?_, fun hdone hfull' hdone' => ?_⟩
  · rw [fullCheck_goes_on P (n + 1) hfull hdone, fullCheck_of_not_full P k n hroom]
  · rw [fullCheck_goes_on P (n + 1) hfull hdone, fullCheck_completed P n hfull' hdone',
      (keepsActiveCtr_smStep P k s).2]

/-- The slot that a dibit has just filled. -/
theorem full_of_stored {k : SlotId} (d : Dibit) {s : State}
    (hlen : (s.slot k).len + 2 = (s.slot k).cap) :
    ((s.setSlot k (storeDibit d (s.slot k))).slot k).len =
      ((s.setSlot k (storeDibit d (s.slot k))).slot k).cap := by
  rw [slot_setSlot_same, storeDibit_len]
  exact hlen

/-- A raw-bit frame that a dibit fills: the record is dispatched to a listener, and the slot reset
(42_sync R231, R262, 43_duid R274). -/
theorem asmSlot_fills_raw (P : Params) {k : SlotId} (d : Dibit) {s : State}
    (hraw : (s.slot k).state ∈ rawStates) (ha : (s.slot k).active = true)
    (hctr : (s.slot k).ctr ≠ 35) (hlen : (s.slot k).len + 2 = (s.slot k).cap) :
    asmSlot P k d s =
      { s.setSlot k ⟨false, false, .nid, [], 64, (s.slot k).ctr + 1⟩ with
        events := s.events ++ if s.ctrl.getLsbD 1
          then eventWords (.msg (s.slot k).state 0#2 true k (storeDibit d (s.slot k)).buf)
          else [] } := by
  have hstored : ((s.setSlot k (storeDibit d (s.slot k))).slot k).state ∈ rawStates := by
    rw [slot_setSlot_same]
    exact hraw
  rw [asmSlot_store P d ha hctr hlen.le,
    fullCheck_completed P 2 (full_of_stored d hlen) (smStep_raw_complete P hstored),
    smStep_raw P k _ hstored, dispatchRaw_eq, slot_setSlot_same]
  cases k <;> rfl

/-- Settles O39: the filling dibit leaves the full check its stored slot, which is full; the outcomes are
those of the check, and a raw-bit frame's handler completes. -/
theorem fillingDibitDispatchesTheFrame : Obligations.FillingDibitDispatchesTheFrame := by
  refine ⟨exec_handlerOf_state, ?_, ?_⟩
  · intro k d s ha hctr hlen v u
    have hslot : u.slot k = storeDibit d v := slot_setSlot_same k _ s
    have hexec := exec_handlerOf_state k u
    obtain ⟨hdone, hroom, hagain⟩ :=
      fullCheck_outcomes Config.params 1 (full_of_stored d hlen) (t := smStep Config.params k u) rfl
    rw [← asmSlot_store Config.params d ha hctr hlen.le] at hdone hroom hagain
    rw [slot_setSlot_same] at hdone hagain
    rw [hslot] at hexec
    refine ⟨_, hexec, hdone, hroom, fun hgoes hfull =>
      ⟨_, exec_handlerOf_state k _, hagain hgoes hfull, fun hnid hcap => ?_⟩⟩
    refine smStep_smStep_nid_complete Config.params (hslot ▸ hnid) ?_ hgoes hfull
    rw [hslot, storeDibit_len, ← hcap]
    exact hlen
  · intro P k d s c hraw hstate ha hctr hlen hcap
    subst hstate
    refine ⟨_, eventWords_isRecord _ 0#2 true k _ ?_, asmSlot_fills_raw P d hraw ha hctr hlen⟩
    have := storeDibit_len d (s.slot k)
    change (storeDibit d (s.slot k)).len < 65536
    omega

end Sys2Proof.Machine
end

section
/-! O6, O41 to O47: the step that runs a due handler, and the slot and record each handler makes of a full
slot (43_duid R271 to R300). A handler is a chain of operations on the slot it just wrote, each said once. -/

namespace Sys2Proof.Machine

open Config (Params)

/-! ## Operations on a slot just written (20_memory R85 to R89, 42_sync R262) -/

section
variable (k : SlotId) (w : Slot) (s : State)

theorem complete_setSlot : complete k (s.setSlot k w) = s.setSlot k { w with complete := true } := by
  rw [complete, setSlot_setSlot, slot_setSlot_same]

theorem enterState_setSlot (c : StateCode) :
    enterState k c (s.setSlot k w) = s.setSlot k { w with state := c } := by
  rw [enterState, setSlot_setSlot, slot_setSlot_same]

theorem resize_setSlot (n : Nat) : resize k n (s.setSlot k w) = s.setSlot k (w.resize n) := by
  rw [resize, setSlot_setSlot, slot_setSlot_same]

variable {w}

/-- Raising the capacity keeps the buffer (20_memory R87). -/
theorem resize_setSlot_of_le {n : Nat} (h : w.buf.length ≤ n) :
    resize k n (s.setSlot k w) = s.setSlot k { w with cap := n } := by
  rw [resize_setSlot, Slot.resize, List.take_of_length_le h]

/-- A frame that goes on in a new state, with more capacity (43_duid R273, R293 to R295). -/
theorem resize_enterState_setSlot (c : StateCode) {n : Nat} (h : w.buf.length ≤ n) :
    resize k n (enterState k c (s.setSlot k w)) = s.setSlot k { w with state := c, cap := n } := by
  rw [enterState_setSlot, resize_setSlot_of_le k s (w := { w with state := c }) h]

end

/-- DISPATCH of a slot just written: the words of its record, when a listener is enabled (42_sync R262,
30_encoding R126). -/
theorem dispatch_setSlot {k : SlotId} {w : Slot} {c : StateCode} (crc : BitVec 2) (f : Bool) (s : State)
    (hstate : w.state = c) (hlen : w.len < 65536) :
    ∃ ws, isRecord (stateNum c).toNat crc.toNat f k w.buf ws ∧ dispatch k crc f (s.setSlot k w) =
      State.setSlot { s with events := s.events ++ if s.ctrl.getLsbD 1 then ws else [] } k w := by
  subst hstate
  refine ⟨_, eventWords_isRecord w.state crc f k w.buf hlen, ?_⟩
  rw [dispatch_eq, slot_setSlot_same]
  rfl

/-- An instruction that ends in a raw dispatch of the slot it wrote (43_duid R274). -/
theorem exec_dispatchRaw {i : Instr} {k : SlotId} {w : Slot} {c : StateCode} {f : Bool} {s : State}
    (hexec : exec i s = .next (dispatchRaw k f (s.setSlot k w))) (hstate : w.state = c)
    (hlen : w.len < 65536) :
    ∃ ws, isRecord (stateNum c).toNat 0 f k w.buf ws ∧
      exec i s = .next { s.setSlot k { w with complete := true } with
        events := s.events ++ if s.ctrl.getLsbD 1 then ws else [] } := by
  obtain ⟨ws, hws, hdispatch⟩ := dispatch_setSlot 0#2 f s hstate hlen
  refine ⟨ws, hws, ?_⟩
  rw [hexec, dispatchRaw, hdispatch, complete_setSlot]
  rfl

/-! ## Ranges of a rewritten buffer (20_memory R86) -/

/-- A range before the block is as it was before the block was decoded. -/
theorem take_drop_take_append {α : Type} {buf d : List α} {i n start : Nat} (h : i + n ≤ start)
    (hs : start ≤ buf.length) : ((buf.take start ++ d).drop i).take n = (buf.drop i).take n := by
  rw [List.drop_append_of_le_length (by simp; omega), List.take_append_of_le_length (by simp; omega),
    List.drop_take, List.take_take, Nat.min_eq_left (by omega)]

/-- BTF of a header that has arrived (43_duid R292). -/
theorem pduBtf_setSlot (k : SlotId) (s : State) {w : Slot} (h : 120 ≤ w.buf.length) :
    pduBtf k (s.setSlot k w) = natOfBits ((w.buf.drop 113).take 7) := by
  rw [pduBtf, slot_setSlot_same]
  exact bufInt_eq w.buf 113 7 _ rfl h

/-- FMT of a header that has arrived (43_duid R292). -/
theorem pduFmt_setSlot (k : SlotId) (s : State) {w : Slot} (h : 72 ≤ w.buf.length) :
    pduFmt k (s.setSlot k w) = natOfBits ((w.buf.drop 67).take 5) := by
  rw [pduFmt, slot_setSlot_same]
  exact bufInt_eq w.buf 67 5 _ rfl h

/-! ## A block decoded in place (43_duid R284) -/

section
variable (P : Params) {k : SlotId} {s : State} {start : Nat}

/-- A block that does not decode, of a stage that then completes (43_duid R283). -/
theorem complete_blockDeint (hlen : (s.slot k).len = start + 196) :
    complete k (blockDeint P k start s) = s.setSlot k { s.slot k with
      buf := (s.slot k).buf.take start ++ blockBits (blockOf P k start s), complete := true } := by
  rw [blockDeint_eq P k start s hlen, complete_setSlot]

theorem length_take_append_blockBits {n : Nat} (d : Block n) (hlen : (s.slot k).len = start + 196) :
    ((s.slot k).buf.take start ++ blockBits d).length = start + n := by
  have hbuf : (s.slot k).buf.length = start + 196 := hlen
  simp [hbuf]

/-- A decoded block, truncated to its `n` bits (43_duid R293). -/
theorem resize_decoded {n m : Nat} (d : Block n) (hm : start + n = m) (hn : n ≤ 196)
    (hlen : (s.slot k).len = start + 196) :
    resize k m (writeBuf k start (blockBits d) (blockDeint P k start s)) =
      s.setSlot k { s.slot k with cap := m, buf := (s.slot k).buf.take start ++ blockBits d } := by
  have := resize_writeBuf_blockDeint P k start s (blockBits d) (by simpa using hn) hlen
  rwa [blockBits_length, hm] at this

end

/-! ## The step and the raw-bit handlers (43_duid R271, R274 to R279) -/

/-- After a handler, a completed slot is idle, its counter kept (42_sync R231). -/
theorem finishHandler_eq (k : SlotId) (t : State) :
    finishHandler k t =
      if (t.slot k).complete then t.setSlot k (idleSlot (t.slot k).ctr) else t := rfl

/-- A due slot has the handler of its state fetched, slot 0 first (42_sync R231, R240). -/
theorem fetch_due {k : SlotId} {s : State} (hdue : slotDue (s.slot k) = true)
    (hfirst : k = .s1 → slotDue s.slot0 = false) :
    fetch s = .handler k (some (handlerOf k (s.slot k).state)) := by
  cases k with
  | s0 =>
    rw [slot_s0] at hdue ⊢
    rw [fetch, if_pos hdue, decodeState_stateNum]
  | s1 =>
    rw [slot_s1] at hdue ⊢
    rw [fetch, if_neg (by simp [hfirst rfl]), if_pos hdue, decodeState_stateNum]

/-- Settles O6: the due slot's handler is what is fetched, and SM_STEP is what it does. -/
theorem stepRunsTheHandlerOfAFullSlot : Obligations.StepRunsTheHandlerOfAFullSlot := by
  intro s k hdue hfirst
  have hexec := exec_handlerOf_state k s
  refine ⟨_, hexec, ?_⟩
  rw [step, fetch_due hdue hfirst, ← finishHandler_eq]
  exact congrArg (afterExec (finishHandler k)) hexec

/-- Settles O41: a raw-bit state's handler is one raw dispatch. -/
theorem rawHandlersDispatchTheBuffer : Obligations.RawHandlersDispatchTheBuffer := by
  intro k c s hraw hstate hlen
  refine exec_dispatchRaw (w := s.slot k) ?_ hstate (by omega)
  subst hstate
  rw [exec_handlerOf_state, smStep_raw _ k s hraw, setSlot_slot]

/-! ## NID (43_duid R272, R273) -/

/-- A full NID buffer with its first 63 bits replaced keeps bit 63. -/
theorem writeBuf_nid {k : SlotId} {s : State} {d : List Bool} (hd : d.length = 63)
    (hlen : (s.slot k).len = 64) :
    writeBuf k 0 d s = s.setSlot k { s.slot k with buf := d ++ (s.slot k).buf.drop 63 } := by
  have hbuf : (s.slot k).buf.length = 64 := hlen
  rw [writeBuf_eq k 0 d s (by omega), hd]
  rfl

theorem duidEntry_setSlot (k : SlotId) (s : State) {w : Slot} (h : 16 ≤ w.buf.length) :
    duidEntry k (s.setSlot k w) =
      s.duidMap.get (Fin.ofNat 16 (natOfBits ((w.buf.drop 12).take 4))) := by
  rw [duidEntry, slot_setSlot_same, bufInt_eq w.buf 12 4 [12, 13, 14, 15] rfl h]
  rfl

/-- NEWCAP in terms of the state entered (43_duid R273). -/
theorem newCap_of_targetState {e : DuidEntry} {c : StateCode} (h : targetState e.target = some c) :
    newCap e = if c = .tsbk1 ∨ c = .pdu0 then 260 else 64 + e.len.toNat := by
  obtain ⟨target, len⟩ := e
  cases target <;> cases h <;> rfl

/-- A DUID whose entry is unrecognized completes the slot (43_duid R272). -/
theorem nidContinue_unrecognized {k : SlotId} {s : State} {w : Slot} {e : DuidEntry}
    (he : duidEntry k (s.setSlot k w) = e) (htarget : targetState e.target = none) :
    nidContinue k (s.setSlot k w) = s.setSlot k { w with complete := true } := by
  rw [nidContinue, he, htarget]
  exact complete_setSlot k w s

/-- A slot holding a corrected NID enters the state of its DUID with the frame's capacity
(43_duid R272, R273). -/
theorem nidContinue_recognized {k : SlotId} {s : State} {w : Slot} {e : DuidEntry} {c : StateCode}
    (he : duidEntry k (s.setSlot k w) = e) (htarget : targetState e.target = some c)
    (hlen : w.buf.length = 64) :
    nidContinue k (s.setSlot k w) = s.setSlot k { w with
      state := c, cap := if c = .tsbk1 ∨ c = .pdu0 then 260 else 64 + e.len.toNat } := by
  rw [nidContinue, he, htarget]
  dsimp only
  rw [newCap_of_targetState htarget]
  refine resize_enterState_setSlot k s c ?_
  split <;> omega

/-- Settles O42: the first 63 bits are the codeword, and the corrected NID selects the entry. -/
theorem nidEntersTheStateOfItsDuid : Obligations.NidEntersTheStateOfItsDuid := by
  intro k s _ hlen _ v dec nid e
  have hbuf : v.buf.length = 64 := hlen
  have hdec : bchDecode (bufRange v.buf 0 63) = dec := by
    rw [bufRange_eq v.buf 0 63 (by omega)]
    rfl
  have hword : dec.word.length = 63 := by
    rw [bchDecode_length, List.length_take, hbuf]
    rfl
  have hnid : nid.length = 64 := by
    rw [List.length_append, hword, List.length_drop, hbuf]
  change Host.Outcome.next (handleNid k s) = _
  congr 1
  rw [handleNid, hdec]
  by_cases hok : dec.ok = true
  · have hentry : duidEntry k (s.setSlot k { v with buf := nid }) = e :=
      duidEntry_setSlot k s (by rw [hnid]; omega)
    rw [if_pos hok, if_neg (by simp [hok]), writeBuf_nid hword hlen]
    cases htarget : targetState e.target with
    | none => exact nidContinue_unrecognized hentry htarget
    | some c => exact nidContinue_recognized hentry htarget hnid
  · rw [if_neg hok, if_pos (Bool.eq_false_of_not_eq_true hok)]
    rfl

/-! ## The PDU chain (43_duid R292 to R300) -/

section
variable (P : Params) {k : SlotId} {s : State}

/-- Handler PDU0 on a full slot: the header `hdr` decides (43_duid R293). -/
theorem handlePdu0_eq {dec : Bool × Block 96} {hdr : List Bool} (hlen : (s.slot k).len = 260)
    (hdec : P.trellis12 (blockOf P k 64 s) = dec)
    (hhdr : (s.slot k).buf.take 64 ++ blockBits dec.2 = hdr) :
    handlePdu0 P k s =
      if dec.1 then
        if natOfBits ((hdr.drop 113).take 7) = 0 then
          dispatchRaw k true (s.setSlot k { s.slot k with buf := hdr, cap := 160 })
        else s.setSlot k { s.slot k with
          buf := hdr
          cap := 356
          state := if natOfBits ((hdr.drop 67).take 5) = 0x16 then .pduc else .pdu1 }
      else complete k (blockDeint P k 64 s) := by
  have hlenhdr : hdr.length = 160 := hhdr ▸ length_take_append_blockBits (start := 64) dec.2 hlen
  rw [handlePdu0, hdec, resize_decoded P (start := 64) dec.2 rfl (by omega) hlen, hhdr]
  dsimp only
  rw [pduBtf_setSlot k s (by rw [hlenhdr]; omega), pduFmt_setSlot k s (by rw [hlenhdr]; omega),
    resize_enterState_setSlot k s _ (by rw [hlenhdr]; omega)]
  rfl

/-- One data block on a full slot: BTF, of the header received before, decides (43_duid R294, R295). -/
theorem pduStage_eq {start n : Nat} {next : StateCode} {dec : Bool × Block 96} {bits : List Bool}
    (hstart : 160 ≤ start) (hlen : (s.slot k).len = start + 196)
    (hdec : P.trellis12 (blockOf P k start s) = dec)
    (hbits : (s.slot k).buf.take start ++ blockBits dec.2 = bits) :
    pduStage P k start n next s =
      if dec.1 then
        if natOfBits (((s.slot k).buf.drop 113).take 7) ≤ n then
          dispatchRaw k true (s.setSlot k { s.slot k with buf := bits, cap := start + 96 })
        else s.setSlot k { s.slot k with buf := bits, cap := start + 292, state := next }
      else complete k (blockDeint P k start s) := by
  have hbuf : (s.slot k).buf.length = start + 196 := hlen
  have hlenbits : bits.length = start + 96 := hbits ▸ length_take_append_blockBits dec.2 hlen
  have hbtf : (bits.drop 113).take 7 = ((s.slot k).buf.drop 113).take 7 :=
    hbits ▸ take_drop_take_append (by omega) (by omega)
  rw [pduStage, hdec, resize_decoded P dec.2 rfl (by omega) hlen, hbits]
  dsimp only
  rw [pduBtf_setSlot k s (by rw [hlenbits]; omega), hbtf,
    resize_enterState_setSlot k s next (by rw [hlenbits]; omega)]

/-- Handler PDUC on a full slot that has received block `j` (43_duid R300). -/
theorem handlePduc_eq {j start : Nat} {dec : Bool × Block 144} {bits : List Bool}
    (hstart : start = 160 + 144 * j) (hlen : (s.slot k).len = start + 196)
    (hcap : (s.slot k).cap = start + 196) (hdec : P.trellis34 (blockOf P k start s) = dec)
    (hbits : (s.slot k).buf.take start ++ blockBits dec.2 = bits) :
    handlePduc P k s =
      if dec.1 then
        if natOfBits (((s.slot k).buf.drop 113).take 7) ≤ j + 1 then
          dispatchRaw k true (s.setSlot k { s.slot k with buf := bits, cap := start + 144 })
        else s.setSlot k { s.slot k with buf := bits, cap := start + 340 }
      else dispatchRaw k false
        (s.setSlot k { s.slot k with buf := (s.slot k).buf.take start, cap := start }) := by
  have hbuf : (s.slot k).buf.length = start + 196 := hlen
  have hlenbits : bits.length = start + 144 := hbits ▸ length_take_append_blockBits dec.2 hlen
  have hbtf : (bits.drop 113).take 7 = ((s.slot k).buf.drop 113).take 7 :=
    hbits ▸ take_drop_take_append (by omega) (by omega)
  have hbefore : resize k start (blockDeint P k start s) =
      s.setSlot k { s.slot k with buf := (s.slot k).buf.take start, cap := start } := by
    rw [blockDeint_eq P k start s hlen, resize_setSlot, Slot.resize, List.take_left' (by simp [hbuf])]
  have hj : (start - 160) / 144 = j := by omega
  have hcapstart : (s.slot k).cap - 196 = start := by omega
  rw [handlePduc, hcapstart, hj, hdec, resize_decoded P dec.2 rfl (by omega) hlen, hbits, hbefore]
  dsimp only
  rw [pduBtf_setSlot k s (by rw [hlenbits]; omega), hbtf,
    resize_setSlot_of_le k s (by rw [hlenbits]; omega)]

end

/-- Settles O44: the header decides what follows a block that decodes. -/
theorem pdu0ReadsTheHeader : Obligations.Pdu0ReadsTheHeader := by
  intro k s hstate hlen _ v blk dec hdr
  have hblk : blockOf Config.params k 64 s = blk := blockOf_eq _ k 64 s (Nat.le_of_eq hlen.symm)
  have hexec : exec (.statePdu0 k) s = .next (handlePdu0 Config.params k s) := rfl
  rw [handlePdu0_eq Config.params (dec := dec) hlen (by rw [hblk]; rfl) (hdr := hdr) rfl] at hexec
  by_cases hok : dec.1 = true
  · rw [if_pos hok] at hexec
    rw [if_neg (by simp [hok])]
    split
    · next hbtf =>
      have hlenhdr : hdr.length = 160 := length_take_append_blockBits (start := 64) dec.2 hlen
      rw [if_pos hbtf] at hexec
      exact exec_dispatchRaw (c := .pdu0) (w := { v with buf := hdr, cap := 160 }) hexec hstate
        (by rw [Slot.len, hlenhdr]; omega)
    · next hbtf => rwa [if_neg hbtf] at hexec
  · rw [if_neg hok, complete_blockDeint Config.params hlen, hblk] at hexec
    rwa [if_pos (Bool.eq_false_of_not_eq_true hok)]

/-- Settles O45: both stages are one data block, at their start and with their block number. -/
theorem pdu1AndPdu2ReceiveDataBlocks : Obligations.Pdu1AndPdu2ReceiveDataBlocks := by
  intro k s c next start n hmem hstate hlen _ v blk dec rec96
  have hblk : blockOf Config.params k start s = blk :=
    blockOf_eq _ k start s (Nat.le_of_eq hlen.symm)
  have hstage : exec (handlerOf k c) s = .next (pduStage Config.params k start n next s) ∧
      160 ≤ start ∧ start ≤ 256 := by
    simp only [List.mem_cons, Prod.mk.injEq, List.not_mem_nil, or_false] at hmem
    rcases hmem with ⟨rfl, rfl, rfl, rfl⟩ | ⟨rfl, rfl, rfl, rfl⟩ <;> exact ⟨rfl, by omega, by omega⟩
  obtain ⟨hexec, hlow, hhigh⟩ := hstage
  rw [pduStage_eq Config.params (dec := dec) hlow hlen (by rw [hblk]; rfl) (bits := rec96) rfl] at hexec
  by_cases hok : dec.1 = true
  · rw [if_pos hok] at hexec
    rw [if_neg (by simp [hok])]
    split
    · next hbtf =>
      have hlenrec : rec96.length = start + 96 := length_take_append_blockBits dec.2 hlen
      rw [if_pos hbtf] at hexec
      exact exec_dispatchRaw (c := c) (w := { v with buf := rec96, cap := start + 96 }) hexec hstate
        (by rw [Slot.len, hlenrec]; omega)
    · next hbtf => rwa [if_neg hbtf] at hexec
  · rw [if_neg hok, complete_blockDeint Config.params hlen, hblk] at hexec
    rwa [if_pos (Bool.eq_false_of_not_eq_true hok)]

/-- Settles O46: the outcome goes into FEC_OK, and decides nothing. -/
theorem pdu3DispatchesUnconditionally : Obligations.Pdu3DispatchesUnconditionally := by
  intro k s hstate hlen _ v blk dec bits
  have hdec : Config.params.trellis12 (blockOf Config.params k 352 s) = dec := by
    rw [blockOf_eq _ k 352 s (Nat.le_of_eq hlen.symm)]
    rfl
  have hlenbits : bits.length = 448 := length_take_append_blockBits (start := 352) dec.2 hlen
  refine exec_dispatchRaw (c := .pdu3) (w := { v with buf := bits, cap := 448 }) ?_ hstate
    (by rw [Slot.len, hlenbits]; omega)
  change Host.Outcome.next (handlePdu3 Config.params k s) = _
  rw [handlePdu3, hdec, resize_decoded Config.params (start := 352) dec.2 rfl (by omega) hlen]

/-- Settles O47: the capacity gives the block's number, and BTF of the header received before decides. -/
theorem pducReceivesConfirmedBlocks : Obligations.PducReceivesConfirmedBlocks := by
  intro k s j hstate hj hlen hcap v start blk dec bits
  have hstart : start = 160 + 144 * j := rfl
  replace hlen : (s.slot k).len = start + 196 := by omega
  replace hcap : (s.slot k).cap = start + 196 := by omega
  have hdec : Config.params.trellis34 (blockOf Config.params k start s) = dec := by
    rw [blockOf_eq _ k start s (Nat.le_of_eq hlen.symm)]
    rfl
  have hexec : exec (.statePduc k) s = .next (handlePduc Config.params k s) := rfl
  rw [handlePduc_eq Config.params hstart hlen hcap hdec (bits := bits) rfl] at hexec
  by_cases hok : dec.1 = true
  · rw [if_pos hok] at hexec
    rw [if_neg (by simp [hok])]
    split
    · next hbtf =>
      have hlenbits : bits.length = start + 144 := length_take_append_blockBits dec.2 hlen
      rw [if_pos hbtf] at hexec
      exact exec_dispatchRaw (c := .pduc) (w := { v with buf := bits, cap := start + 144 }) hexec hstate
        (by rw [Slot.len, hlenbits]; omega)
    · next hbtf => rwa [if_neg hbtf] at hexec
  · have hlenbefore : (v.buf.take start).length ≤ start := List.length_take_le start v.buf
    rw [if_neg hok] at hexec
    rw [if_pos (Bool.eq_false_of_not_eq_true hok)]
    exact exec_dispatchRaw (c := .pduc) (w := { v with buf := v.buf.take start, cap := start }) hexec
      hstate (hlenbefore.trans_lt (by omega))

/-! ## The TSBK chain (43_duid R283 to R291) -/

/-- TSBK_CRC over the decoded bits: the outcome and the bits it leaves (43_duid R291). -/
def tsbkOutcome (fix : Bool) (tsbk : List Bool) : CrcOutcome × List Bool :=
  if fix then crcCorrect tsbk else (crcPlain tsbk, tsbk)

theorem tsbkOutcome_length (fix : Bool) (tsbk : List Bool) :
    (tsbkOutcome fix tsbk).2.length = tsbk.length := by
  unfold tsbkOutcome
  split
  · exact crcCorrect_length tsbk
  · rfl

/-- Only a correction changes the decoded bits (45_fec R392). -/
theorem tsbkOutcome_same {fix : Bool} {tsbk : List Bool}
    (h : (tsbkOutcome fix tsbk).1 ≠ .corrected) : (tsbkOutcome fix tsbk).2 = tsbk := by
  revert h
  unfold tsbkOutcome
  split
  · exact crcCorrect_same tsbk
  · exact fun _ => rfl

theorem recordCrc_toNat {crc : CrcOutcome} (h : crc ≠ .failed) :
    (recordCrc crc).toNat = if crc = .pass then 1 else 2 := by
  cases crc with
  | pass => rfl
  | corrected => rfl
  | failed => exact absurd rfl h

/-- The slot that a TSBK stage leaves of `v` once its record, the NID `nid` and the bits `d`, is
dispatched (43_duid R283). -/
def afterTsbk (next : Option StateCode) (nid d : List Bool) (v : Slot) : Slot :=
  match next with
  | none => { v with buf := nid ++ d, cap := 160, complete := true }
  | some n =>
    if d.getD 0 false then { v with buf := nid ++ d, cap := 160, complete := true }
    else { v with state := n, buf := nid, cap := 260 }

section
variable {k : SlotId} {s : State} {w : Slot} {nid : List Bool}

theorem setSlot_tsbkCrcFix (k : SlotId) (w : Slot) (s : State) :
    (s.setSlot k w).tsbkCrcFix = s.tsbkCrcFix := rfl

/-- TSBK_CRC on a slot holding the NID, the 96 decoded bits and the rest of the block. -/
theorem tsbkCrc_setSlot {tsbk rest : List Bool} {crc : CrcOutcome × List Bool} (hnid : nid.length = 64)
    (htsbk : tsbk.length = 96) (hcrc : tsbkOutcome s.tsbkCrcFix tsbk = crc) :
    tsbkCrc k (s.setSlot k { w with buf := nid ++ tsbk ++ rest }) =
      (crc.1, s.setSlot k { w with buf := nid ++ crc.2 ++ rest }) := by
  have hrange : bufRange (nid ++ tsbk ++ rest) 64 96 = tsbk := by
    rw [bufRange_eq _ 64 96 (by simp; omega), List.append_assoc, List.drop_left' hnid,
      List.take_left' htsbk]
  rw [tsbkCrc, slot_setSlot_same, hrange, setSlot_tsbkCrcFix]
  by_cases hfix : s.tsbkCrcFix = true
  · rw [tsbkOutcome, if_pos hfix] at hcrc
    subst hcrc
    rw [if_pos hfix]
    dsimp only
    by_cases hcorr : (crcCorrect tsbk).1 = .corrected
    · have hlen : (crcCorrect tsbk).2.length = 96 := (crcCorrect_length tsbk).trans htsbk
      rw [if_pos hcorr, writeBuf_eq _ _ _ _ (by simp; omega), setSlot_setSlot, slot_setSlot_same, hlen]
      dsimp only
      rw [List.append_assoc nid, List.take_left' hnid, ← List.append_assoc nid,
        List.drop_left' (by simp; omega)]
    · rw [if_neg hcorr, crcCorrect_same tsbk hcorr]
  · rw [tsbkOutcome, if_neg hfix] at hcrc
    rw [if_neg hfix, ← hcrc]

/-- The end of a stage whose CRC did not fail (43_duid R283). -/
theorem tsbkDispatch_setSlot {c : StateCode} (next : Option StateCode) {crc : CrcOutcome}
    {d rest : List Bool} (hnid : nid.length = 64) (hd : d.length = 96) (hcrc : crc ≠ .failed)
    (hstate : w.state = c) :
    ∃ ws, isRecord (stateNum c).toNat (if crc = .pass then 1 else 2) true k (nid ++ d) ws ∧
      tsbkDispatch k next crc (s.setSlot k { w with buf := nid ++ d ++ rest }) =
        { s.setSlot k (afterTsbk next nid d w) with
          events := s.events ++ if s.ctrl.getLsbD 1 then ws else [] } := by
  have hlen : (nid ++ d).length = 160 := by simp [hnid, hd]
  obtain ⟨ws, hws, hdispatch⟩ := dispatch_setSlot (k := k) (w := { w with cap := 160, buf := nid ++ d })
    (recordCrc crc) true s hstate (by rw [Slot.len, hlen]; omega)
  rw [recordCrc_toNat hcrc] at hws
  refine ⟨ws, hws, ?_⟩
  have hresize : resize k 160 (s.setSlot k { w with buf := nid ++ d ++ rest }) =
      s.setSlot k { w with cap := 160, buf := nid ++ d } := by
    rw [resize_setSlot, Slot.resize, List.take_left' hlen]
  have hlast : bufBit (nid ++ d) 64 = d.getD 0 false := by
    rw [bufBit_eq _ _ (by omega), List.getElem_append_right (by omega), List.getD_eq_getElem _ _ (by omega)]
    simp [hnid]
  unfold tsbkDispatch afterTsbk
  rw [hresize, hdispatch]
  cases next with
  | none =>
    dsimp only
    rw [complete_setSlot]
    rfl
  | some n =>
    dsimp only
    rw [slot_setSlot_same, hlast]
    split
    · rw [complete_setSlot]
      rfl
    · rw [resize_setSlot, resize_setSlot, enterState_setSlot]
      simp only [Slot.resize]
      rw [List.take_left' hnid, List.take_of_length_le (by omega)]
      rfl

/-- A TSBK stage on a full slot (43_duid R283). -/
theorem tsbkStage_eq (P : Params) (next : Option StateCode) {dec : Bool × Block 96}
    {crc : CrcOutcome × List Bool} (hlen : (s.slot k).len = 260)
    (hdec : P.trellis12 (blockOf P k 64 s) = dec)
    (hcrc : tsbkOutcome s.tsbkCrcFix (blockBits dec.2) = crc) :
    tsbkStage P k next s =
      if dec.1 then
        let t := s.setSlot k { s.slot k with
          buf := (s.slot k).buf.take 64 ++ crc.2 ++ (blockBits (blockOf P k 64 s)).drop 96 }
        if crc.1 = .failed then complete k t else tsbkDispatch k next crc.1 t
      else complete k (blockDeint P k 64 s) := by
  have hbuf : (s.slot k).buf.length = 260 := hlen
  have hwrite := writeBuf_blockDeint P k 64 s (blockBits dec.2) (by simp) hlen
  rw [blockBits_length] at hwrite
  rw [tsbkStage, hdec, hwrite, tsbkCrc_setSlot (by simp [hbuf]) (blockBits_length _) hcrc]

end

/-- Settles O43: the three outcomes are those of the trellis decoder and of TSBK_CRC. -/
theorem tsbkStagesCheckAndDispatch : Obligations.TsbkStagesCheckAndDispatch := by
  intro k s c next hmem hstate hlen _ v blk dec nid tsbk crc
  have hblk : blockOf Config.params k 64 s = blk := blockOf_eq _ k 64 s (Nat.le_of_eq hlen.symm)
  have hexec : exec (handlerOf k c) s = .next (tsbkStage Config.params k next s) := by
    simp only [List.mem_cons, Prod.mk.injEq, List.not_mem_nil, or_false] at hmem
    rcases hmem with ⟨rfl, rfl⟩ | ⟨rfl, rfl⟩ | ⟨rfl, rfl⟩ <;> rfl
  have hcrc : tsbkOutcome s.tsbkCrcFix tsbk = crc := rfl
  rw [tsbkStage_eq Config.params next (dec := dec) hlen (by rw [hblk]; rfl) hcrc, hblk] at hexec
  by_cases hok : dec.1 = true
  · rw [if_pos hok] at hexec
    rw [if_neg (by simp [hok])]
    dsimp only at hexec
    split
    · next hfailed =>
      have hsame : crc.2 = tsbk := tsbkOutcome_same (hcrc.symm ▸ by simp [hfailed])
      rwa [if_pos hfailed, complete_setSlot, hsame] at hexec
    · next hfailed =>
      have hnid : nid.length = 64 := by
        have : v.buf.length = 260 := hlen
        simp [nid, this]
      have hlencrc : crc.2.length = 96 := (tsbkOutcome_length _ tsbk).trans (blockBits_length _)
      obtain ⟨ws, hws, hdispatch⟩ := tsbkDispatch_setSlot (k := k) (s := s) (w := v) (c := c)
        (rest := (blockBits blk).drop 96) next hnid hlencrc hfailed hstate
      rw [if_neg hfailed, hdispatch] at hexec
      refine ⟨ws, hws, ?_⟩
      cases next <;> exact hexec
  · rw [if_neg hok, complete_blockDeint Config.params hlen, hblk] at hexec
    rwa [if_pos (Bool.eq_false_of_not_eq_true hok)]

end Sys2Proof.Machine
end

section
/-! O40: a handler run in two states that agree on its slot, CTRL and DUID_MAP makes the same slot and appends
the same events (43_duid R272 to R300). Every operation a handler is made of keeps two such runs in step. -/

namespace Sys2Proof.Machine

open Config (Params)

/-! ## Two runs in step -/

/-- Two runs, from `s` to `t` and from `s'` to `t'`, that have made the same slot `k`, have appended the same
events and read the same CTRL and DUID_MAP. -/
structure InStep (k : SlotId) (s s' t t' : State) : Prop where
  /-- both runs changed only slot `k` and the events, and in the same way -/
  same : ∃ v ev, t = { s.setSlot k v with events := s.events ++ ev } ∧
    t' = { s'.setSlot k v with events := s'.events ++ ev }
  /-- what the runs read of CTRL -/
  ctrl : s'.ctrl = s.ctrl
  /-- what the runs read of DUID_MAP -/
  duidMap : s'.duidMap = s.duidMap

section
variable {k : SlotId} {s s' t t' : State}

theorem inStep_refl (hslot : s'.slot k = s.slot k) (hctrl : s'.ctrl = s.ctrl)
    (hmap : s'.duidMap = s.duidMap) : InStep k s s' s s' :=
  ⟨⟨s.slot k, [], by simp, by simp [← hslot]⟩, hctrl, hmap⟩

theorem InStep.slot_eq (h : InStep k s s' t t') : t'.slot k = t.slot k := by
  obtain ⟨⟨v, ev, rfl, rfl⟩, -, -⟩ := h
  cases k <;> rfl

theorem InStep.ctrl_eq (h : InStep k s s' t t') : t'.ctrl = t.ctrl := by
  obtain ⟨⟨v, ev, rfl, rfl⟩, hctrl, -⟩ := h
  exact hctrl

theorem InStep.duidMap_eq (h : InStep k s s' t t') : t'.duidMap = t.duidMap := by
  obtain ⟨⟨v, ev, rfl, rfl⟩, -, hmap⟩ := h
  exact hmap

/-- The second run's end, from where it started and what the first run made. -/
theorem InStep.second_run (h : InStep k s s' t t') :
    ∃ ev, t.events = s.events ++ ev ∧
      t' = { s'.setSlot k (t.slot k) with events := s'.events ++ ev } := by
  obtain ⟨⟨v, ev, rfl, rfl⟩, -, -⟩ := h
  cases k <;> exact ⟨ev, rfl, rfl⟩

/-! ## The operations (20_memory R86 to R89, 42_sync R262) -/

/-- An operation on the slot alone. -/
theorem inStep_update (f : Slot → Slot) (h : InStep k s s' t t') :
    InStep k s s' (t.setSlot k (f (t.slot k))) (t'.setSlot k (f (t'.slot k))) := by
  rw [h.slot_eq]
  obtain ⟨⟨v, ev, ht, ht'⟩, hctrl, hmap⟩ := h
  generalize f (t.slot k) = w
  subst ht ht'
  exact ⟨⟨w, ev, by cases k <;> rfl, by cases k <;> rfl⟩, hctrl, hmap⟩

theorem inStep_emit (e : Event) (h : InStep k s s' t t') : InStep k s s' (emit e t) (emit e t') := by
  obtain ⟨⟨v, ev, rfl, rfl⟩, hctrl, hmap⟩ := h
  refine ⟨⟨v, ev ++ eventWords e, ?_, ?_⟩, hctrl, hmap⟩ <;> simp [emit]

theorem inStep_complete (h : InStep k s s' t t') : InStep k s s' (complete k t) (complete k t') :=
  inStep_update (fun v => { v with complete := true }) h

theorem inStep_resize (c : Nat) (h : InStep k s s' t t') :
    InStep k s s' (resize k c t) (resize k c t') := inStep_update (·.resize c) h

theorem inStep_writeBuf (i : Nat) (c : List Bool) (h : InStep k s s' t t') :
    InStep k s s' (writeBuf k i c t) (writeBuf k i c t') := inStep_update (·.write i c) h

theorem inStep_enterState (c : StateCode) (h : InStep k s s' t t') :
    InStep k s s' (enterState k c t) (enterState k c t') :=
  inStep_update (fun v => { v with state := c }) h

/-- DISPATCH reads its slot and CTRL (42_sync R262). -/
theorem inStep_dispatch (crc : BitVec 2) (f : Bool) (h : InStep k s s' t t') :
    InStep k s s' (dispatch k crc f t) (dispatch k crc f t') := by
  unfold dispatch State.listenerEn
  rw [h.slot_eq, h.ctrl_eq]
  split
  · exact inStep_emit _ h
  · exact h

theorem inStep_dispatchRaw (f : Bool) (h : InStep k s s' t t') :
    InStep k s s' (dispatchRaw k f t) (dispatchRaw k f t') := inStep_complete (inStep_dispatch 0#2 f h)

theorem InStep.blockOf_eq (P : Params) (start : Nat) (h : InStep k s s' t t') :
    blockOf P k start t' = blockOf P k start t := by
  rw [blockOf, h.slot_eq, blockOf]

theorem inStep_blockDeint (P : Params) (start : Nat) (h : InStep k s s' t t') :
    InStep k s s' (blockDeint P k start t) (blockDeint P k start t') := by
  unfold blockDeint
  rw [h.blockOf_eq]
  exact inStep_writeBuf _ _ h

/-! ## The handlers (43_duid R272 to R300) -/

/-- NID reads DUID_MAP besides its slot (43_duid R272). -/
theorem inStep_nidContinue (h : InStep k s s' t t') :
    InStep k s s' (nidContinue k t) (nidContinue k t') := by
  have hentry : duidEntry k t' = duidEntry k t := by
    rw [duidEntry, h.slot_eq, h.duidMap_eq, duidEntry]
  unfold nidContinue
  rw [hentry]
  split
  · exact inStep_complete h
  · exact inStep_resize _ (inStep_enterState _ h)

theorem inStep_handleNid (h : InStep k s s' t t') :
    InStep k s s' (handleNid k t) (handleNid k t') := by
  unfold handleNid
  rw [h.slot_eq]
  dsimp only
  split
  · exact inStep_nidContinue (inStep_writeBuf 0 _ h)
  · exact inStep_complete h

/-- TSBK_CRC reads CTRL besides its slot (43_duid R291). -/
theorem inStep_tsbkCrc (h : InStep k s s' t t') :
    (tsbkCrc k t').1 = (tsbkCrc k t).1 ∧ InStep k s s' (tsbkCrc k t).2 (tsbkCrc k t').2 := by
  unfold tsbkCrc State.tsbkCrcFix
  rw [h.slot_eq, h.ctrl_eq]
  dsimp only
  split
  · dsimp only
    split
    · exact ⟨rfl, inStep_writeBuf 64 _ h⟩
    · exact ⟨rfl, h⟩
  · exact ⟨rfl, h⟩

theorem inStep_tsbkDispatch (next : Option StateCode) (crc : CrcOutcome) (h : InStep k s s' t t') :
    InStep k s s' (tsbkDispatch k next crc t) (tsbkDispatch k next crc t') := by
  have hdispatch := inStep_dispatch (recordCrc crc) true (inStep_resize 160 h)
  unfold tsbkDispatch
  dsimp only
  rw [hdispatch.slot_eq]
  split
  · exact inStep_complete hdispatch
  · split
    · exact inStep_complete hdispatch
    · exact inStep_enterState _ (inStep_resize 260 (inStep_resize 64 hdispatch))

theorem inStep_tsbkStage (P : Params) (next : Option StateCode) (h : InStep k s s' t t') :
    InStep k s s' (tsbkStage P k next t) (tsbkStage P k next t') := by
  unfold tsbkStage
  rw [h.blockOf_eq]
  dsimp only
  split
  · obtain ⟨hcrc, hstep⟩ := inStep_tsbkCrc (inStep_writeBuf 64
      (blockBits (P.trellis12 (blockOf P k 64 t)).2) (inStep_blockDeint P 64 h))
    rw [hcrc]
    split
    · exact inStep_complete hstep
    · exact inStep_tsbkDispatch next _ hstep
  · exact inStep_complete (inStep_blockDeint P 64 h)

/-- A block decoded, written back and truncated (43_duid R284). -/
theorem inStep_decoded (P : Params) (start n : Nat) (d : List Bool) (h : InStep k s s' t t') :
    InStep k s s' (resize k n (writeBuf k start d (blockDeint P k start t)))
      (resize k n (writeBuf k start d (blockDeint P k start t'))) :=
  inStep_resize n (inStep_writeBuf start d (inStep_blockDeint P start h))

theorem InStep.pduBtf_eq (h : InStep k s s' t t') : pduBtf k t' = pduBtf k t := by
  rw [pduBtf, h.slot_eq, pduBtf]

theorem InStep.pduFmt_eq (h : InStep k s s' t t') : pduFmt k t' = pduFmt k t := by
  rw [pduFmt, h.slot_eq, pduFmt]

theorem inStep_handlePdu0 (P : Params) (h : InStep k s s' t t') :
    InStep k s s' (handlePdu0 P k t) (handlePdu0 P k t') := by
  have hblock := inStep_decoded P 64 160 (blockBits (P.trellis12 (blockOf P k 64 t)).2) h
  unfold handlePdu0
  rw [h.blockOf_eq]
  dsimp only
  rw [hblock.pduBtf_eq, hblock.pduFmt_eq]
  split
  · split
    · exact inStep_dispatchRaw true hblock
    · exact inStep_resize _ (inStep_enterState _ hblock)
  · exact inStep_complete (inStep_blockDeint P 64 h)

theorem inStep_pduStage (P : Params) (start n : Nat) (next : StateCode) (h : InStep k s s' t t') :
    InStep k s s' (pduStage P k start n next t) (pduStage P k start n next t') := by
  have hblock :=
    inStep_decoded P start (start + 96) (blockBits (P.trellis12 (blockOf P k start t)).2) h
  unfold pduStage
  rw [h.blockOf_eq]
  dsimp only
  rw [hblock.pduBtf_eq]
  split
  · split
    · exact inStep_dispatchRaw true hblock
    · exact inStep_resize _ (inStep_enterState _ hblock)
  · exact inStep_complete (inStep_blockDeint P start h)

theorem inStep_handlePdu3 (P : Params) (h : InStep k s s' t t') :
    InStep k s s' (handlePdu3 P k t) (handlePdu3 P k t') := by
  unfold handlePdu3
  rw [h.blockOf_eq]
  exact inStep_dispatchRaw _ (inStep_decoded P 352 448 _ h)

theorem inStep_handlePduc (P : Params) (h : InStep k s s' t t') :
    InStep k s s' (handlePduc P k t) (handlePduc P k t') := by
  unfold handlePduc
  rw [h.slot_eq]
  generalize (t.slot k).cap - 196 = start
  have hblock :=
    inStep_decoded P start (start + 144) (blockBits (P.trellis34 (blockOf P k start t)).2) h
  dsimp only
  rw [h.blockOf_eq, hblock.pduBtf_eq]
  split
  · split
    · exact inStep_dispatchRaw true hblock
    · exact inStep_resize _ hblock
  · exact inStep_dispatchRaw false (inStep_resize _ (inStep_blockDeint P start h))

end

/-- The handler of any state code keeps the slot's flag and counter, and keeps two runs in step, whatever
state the slot is in. -/
theorem exec_handlerOf_inStep {k : SlotId} (c : StateCode) {s s' : State} (h : InStep k s s' s s') :
    ∃ t t', exec (handlerOf k c) s = .next t ∧ exec (handlerOf k c) s' = .next t' ∧
      keepsActiveCtr k s t ∧ InStep k s s' t t' := by
  have hraw : keepsActiveCtr k s (dispatchRaw k true s) ∧
      InStep k s s' (dispatchRaw k true s) (dispatchRaw k true s') :=
    ⟨keepsActiveCtr_dispatchRaw true ⟨rfl, rfl⟩, inStep_dispatchRaw true h⟩
  cases c with
  | nid => exact ⟨_, _, rfl, rfl, keepsActiveCtr_handleNid k s, inStep_handleNid h⟩
  | tsbk1 => exact ⟨_, _, rfl, rfl, keepsActiveCtr_tsbkStage _ k _ s, inStep_tsbkStage _ _ h⟩
  | tsbk2 => exact ⟨_, _, rfl, rfl, keepsActiveCtr_tsbkStage _ k _ s, inStep_tsbkStage _ _ h⟩
  | tsbk3 => exact ⟨_, _, rfl, rfl, keepsActiveCtr_tsbkStage _ k _ s, inStep_tsbkStage _ _ h⟩
  | pdu0 => exact ⟨_, _, rfl, rfl, keepsActiveCtr_handlePdu0 _ k s, inStep_handlePdu0 _ h⟩
  | pdu1 => exact ⟨_, _, rfl, rfl, keepsActiveCtr_pduStage _ k _ _ _ s, inStep_pduStage _ _ _ _ h⟩
  | pdu2 => exact ⟨_, _, rfl, rfl, keepsActiveCtr_pduStage _ k _ _ _ s, inStep_pduStage _ _ _ _ h⟩
  | pdu3 => exact ⟨_, _, rfl, rfl, keepsActiveCtr_handlePdu3 _ k s, inStep_handlePdu3 _ h⟩
  | pduc => exact ⟨_, _, rfl, rfl, keepsActiveCtr_handlePduc _ k s, inStep_handlePduc _ h⟩
  | hdu => exact ⟨_, _, rfl, rfl, hraw⟩
  | ldu1 => exact ⟨_, _, rfl, rfl, hraw⟩
  | ldu2 => exact ⟨_, _, rfl, rfl, hraw⟩
  | tdu => exact ⟨_, _, rfl, rfl, hraw⟩
  | tdulc => exact ⟨_, _, rfl, rfl, hraw⟩
  | unknown => exact ⟨_, _, rfl, rfl, hraw⟩

/-- Settles O40: what is read is what two runs in step agree on at their start. -/
theorem handlersTouchOnlyTheirSlot : Obligations.HandlersTouchOnlyTheirSlot := by
  intro k c s
  obtain ⟨t, -, ht, -, ⟨hactive, hctr⟩, -⟩ :=
    exec_handlerOf_inStep c (inStep_refl (k := k) (s := s) rfl rfl rfl)
  refine ⟨t, ht, touchesSlot_exec_handlerOf ht, hactive, hctr, fun s' hslot hctrl hmap => ?_⟩
  obtain ⟨u, t', hu, ht', -, hstep⟩ := exec_handlerOf_inStep c (inStep_refl hslot hctrl hmap)
  cases ht.symm.trans hu
  obtain ⟨ev, hev, rfl⟩ := hstep.second_run
  exact ⟨ev, hev, ht'⟩

end Sys2Proof.Machine
end

section
/-! O30: RS_CORE decodes exactly the words within its capability of a codeword (44_fec R332, R335 to R338). A
word and a codeword near it differ by the errors at the positions where they differ, so the decoder's theorems
about added errors (Laws/RsCore.lean) are theorems about distance. -/

namespace Sys2Proof.Machine

/-! ## Distance and added errors -/

/-- The positions where two words differ. -/
def diffPositions (r c : List Gf) : Finset Nat :=
  (Finset.range r.length).filter fun i => r.getD i 0#6 ≠ c.getD i 0#6

theorem mem_diffPositions (r c : List Gf) (i : Nat) :
    i ∈ diffPositions r c ↔ i < r.length ∧ r.getD i 0#6 ≠ c.getD i 0#6 := by
  rw [diffPositions, Finset.mem_filter, Finset.mem_range]

theorem card_diffPositions (r c : List Gf) : (diffPositions r c).card = distance 0#6 r c := rfl

theorem gfAdd_ne_zero {a b : Gf} (h : a ≠ b) : gfAdd a b ≠ 0#6 := fun hz => h (BitVec.xor_eq_zero_iff.1 hz)

theorem gfAdd_gfAdd_cancel (a b : Gf) : gfAdd a (gfAdd a b) = b := by
  unfold gfAdd
  rw [← BitVec.xor_assoc, BitVec.xor_self, BitVec.zero_xor]

/-- A word becomes any other of its length by adding their difference where they differ. -/
theorem addErrors_diffPositions {r c : List Gf} (h : r.length = c.length) :
    addErrors (diffPositions r c) (fun i => gfAdd (r.getD i 0#6) (c.getD i 0#6)) r = c := by
  refine List.ext_getElem ((addErrors_length _ _ _).trans h) fun i hi hc => ?_
  have hr : i < r.length := h ▸ hc
  rw [← List.getD_eq_getElem _ 0#6 hi, ← List.getD_eq_getElem _ 0#6 hc, addErrors_getD _ _ _ _ hr,
    gfAdd_gfAdd_cancel]
  split
  · rfl
  · rename_i hsame
    by_contra hne
    exact hsame ((mem_diffPositions r c i).2 ⟨hr, hne⟩)

theorem distance_addErrors_le (E : Finset Nat) (e : Nat → Gf) (r : List Gf) :
    distance 0#6 r (addErrors E e r) ≤ E.card := by
  rw [← card_diffPositions]
  refine Finset.card_le_card fun i hi => ?_
  obtain ⟨hlt, hne⟩ := (mem_diffPositions _ _ _).1 hi
  by_contra hE
  exact hne (by rw [addErrors_getD _ _ _ _ hlt, if_neg hE])

/-! ## The decoder -/

/-- What RS_CORE can answer: the word unchanged and irrecoverable, or the word with at most t values added
(44_fec R335). -/
theorem rsCore_outcome (r : List Gf) (t : Nat) : rsCore r t = ⟨false, r, 0⟩ ∨
    ∃ (E : Finset Nat) (e : Nat → Gf), E.card ≤ t ∧ rsCore r t = ⟨true, addErrors E e r, E.card⟩ := by
  unfold rsCore
  dsimp only
  split
  · exact .inr ⟨∅, fun _ => 0#6, Nat.zero_le _, by rw [addErrors_empty, Finset.card_empty]⟩
  · split
    · exact .inl rfl
    · rename_i hfound
      push Not at hfound
      obtain ⟨hcap, -, hroots⟩ := hfound
      generalize berlekampMassey (rsSyndromes r t) = v at hcap hroots ⊢
      have hcard : (rsRoots v.c).toFinset.card = v.l := by
        rw [List.toFinset_card_of_nodup (rsRoots_nodup _), hroots]
      refine .inr ⟨(rsRoots v.c).toFinset, forney (rsOmega (rsSyndromes r t) v.c) v.c, hcard.trans_le hcap, ?_⟩
      rw [hcard, addErrors]
      simp only [List.contains_iff_mem, List.mem_toFinset]

/-- A word within t symbols of a codeword: the syndromes are those of the errors (44_fec R338). -/
theorem rsCore_of_distance_le {r c : List Gf} {t : Nat} (hlen : r.length = 63) (hc : isRsCodeword t c)
    (hdist : distance 0#6 r c ≤ t) : rsCore r t = ⟨true, c, distance 0#6 r c⟩ := by
  obtain ⟨K, _, φ, h⟩ := exists_gfEmb
  obtain ⟨hclen, hzero⟩ := hc
  have hadd := addErrors_diffPositions (hlen.trans hclen.symm)
  have hE : ∀ i ∈ diffPositions r c, i < r.length := fun i hi => ((mem_diffPositions r c i).1 hi).1
  have hcore := rsCore_of_errors h r t (diffPositions r c) _ (fun i hi => hlen ▸ hE i hi)
    (fun i hi => gfAdd_ne_zero ((mem_diffPositions r c i).1 hi).2) hdist fun j h1 h2 => by
      have heval := polyEval_addErrors h _ (fun i => gfAdd (r.getD i 0#6) (c.getD i 0#6)) r hE (gfExp j)
      rw [hadd, hzero j h1 h2, h.zero] at heval
      rw [eq_neg_of_add_eq_zero_left heval.symm, h.neg]
  rw [hcore, hadd, card_diffPositions]

/-- A decoded word is a codeword, so the received word decodes to it by its distance (44_fec R338). -/
theorem rsCore_codeword {r : List Gf} {t : Nat} (hlen : r.length = 63) (hok : (rsCore r t).ok = true) :
    isRsCodeword t (rsCore r t).word ∧ (rsCore r t).nerr = distance 0#6 r (rsCore r t).word := by
  obtain ⟨K, _, φ, h⟩ := exists_gfEmb
  obtain ⟨hzero, E, e, -, hcard, hword⟩ := rsCore_ok h r t hlen hok
  have hc : isRsCodeword t (rsCore r t).word := ⟨(rsCore_length r t).trans hlen, hzero⟩
  have hdist : distance 0#6 r (rsCore r t).word ≤ t := hword ▸ (distance_addErrors_le E e r).trans hcard
  exact ⟨hc, congrArg RsResult.nerr (rsCore_of_distance_le hlen hc hdist)⟩

/-- Settles O30: a near word by its errors, a decoded word by its zero syndromes, and the rest by the two
outcomes of RS_CORE. -/
theorem rsCoreCorrectsAtMostItsCapability : Obligations.RsCoreCorrectsAtMostItsCapability := by
  refine ⟨fun r c t _ _ hlen hc hdist => rsCore_of_distance_le hlen hc hdist,
    fun r t _ _ hlen hok => rsCore_codeword hlen hok, fun r t => ?_⟩
  rcases rsCore_outcome r t with hfail | ⟨E, e, hcard, hdec⟩
  · rw [hfail]
    exact ⟨fun _ => ⟨rfl, rfl⟩, fun hok => absurd hok Bool.false_ne_true⟩
  · rw [hdec]
    exact ⟨fun hok => absurd hok.symm Bool.false_ne_true,
      fun _ => ⟨addErrors_length E e r, hcard, distance_addErrors_le E e r⟩⟩

end Sys2Proof.Machine
end

section
/-! O29: BCH_DECODE is the bounded-distance decoder of the BCH(63,16) code (44_fec R333, R334, R340, R341). Its
codewords are the binary words among those of RS(63, 41): the generator has the roots α^1 to α^22, and a binary
word with these roots has their conjugates too, 47 in all, as many as the generator's degree. -/

namespace Sys2Proof.Machine

open Polynomial

/-! ## Words of bits as words of symbols (44_fec R340) -/

/-- The symbol of a bit. -/
def symbolOfBit (b : Bool) : Gf := if b then 1#6 else 0#6

/-- The word BCH_DECODE hands to RS_CORE: the last bit is the coefficient of x^0 (44_fec R334). -/
def symbolsOfBits (v : List Bool) : List Gf := v.reverse.map symbolOfBit

@[simp] theorem symbolsOfBits_length (v : List Bool) : (symbolsOfBits v).length = v.length := by
  simp [symbolsOfBits]

theorem symbolOfBit_eq_one (b : Bool) : decide (symbolOfBit b = 1#6) = b := by cases b <;> decide

theorem symbolOfBit_decide {c : Gf} (h : c = 0#6 ∨ c = 1#6) : symbolOfBit (decide (c = 1#6)) = c := by
  rcases h with rfl | rfl <;> decide

theorem bitsOfSymbols_symbolsOfBits (v : List Bool) :
    (symbolsOfBits v).reverse.map (fun c => decide (c = 1#6)) = v := by
  simp [symbolsOfBits, Function.comp_def, symbolOfBit_eq_one]

theorem symbolsOfBits_bitsOfSymbols {w : List Gf} (h : ∀ c ∈ w, c = 0#6 ∨ c = 1#6) :
    symbolsOfBits (w.reverse.map fun c => decide (c = 1#6)) = w := by
  rw [symbolsOfBits, ← List.map_reverse, List.reverse_reverse, List.map_map]
  exact (List.map_congr_left fun c hc => symbolOfBit_decide (h c hc)).trans (List.map_id w)

theorem symbolsOfBits_binary (v : List Bool) : ∀ c ∈ symbolsOfBits v, c = 0#6 ∨ c = 1#6 := by
  intro c hc
  obtain ⟨b, -, rfl⟩ := List.mem_map.1 hc
  cases b
  · exact .inl rfl
  · exact .inr rfl

/-- Distance counted along the two words. -/
theorem distance_eq_count {α : Type} [DecidableEq α] (z : α) {a b : List α} (h : a.length = b.length) :
    distance z a b = (List.zipWith (fun x y => decide (x ≠ y)) a b).count true := by
  induction a generalizing b with
  | nil => simp [distance]
  | cons x a ih =>
    obtain ⟨y, b, rfl⟩ := List.exists_cons_of_length_eq_add_one h.symm
    rw [List.zipWith_cons_cons, List.count_cons, ← ih (Nat.succ.inj h), distance, List.length_cons,
      List.range_succ_eq_map, List.filter_cons, List.filter_map]
    by_cases hxy : x = y <;> simp [hxy, distance, Function.comp_def]

theorem distance_symbolsOfBits {v w : List Bool} (h : v.length = w.length) :
    distance 0#6 (symbolsOfBits v) (symbolsOfBits w) = distance false v w := by
  have hne : ∀ x y, decide (symbolOfBit x ≠ symbolOfBit y) = decide (x ≠ y) := by decide
  rw [distance_eq_count _ (by simpa using h), distance_eq_count _ h, symbolsOfBits, symbolsOfBits,
    List.zipWith_map]
  simp only [hne]
  rw [← List.reverse_zipWith h, List.count_reverse]

/-! ## The decoder in terms of RS_CORE -/

theorem bchDecode_eq (v : List Bool) : bchDecode v =
    if (rsCore (symbolsOfBits v) 11).ok &&
        (rsCore (symbolsOfBits v) 11).word.all (fun c => decide (c = 0#6) || decide (c = 1#6)) then
      ⟨true, (rsCore (symbolsOfBits v) 11).word.reverse.map (fun c => decide (c = 1#6)),
        (rsCore (symbolsOfBits v) 11).nerr⟩
    else ⟨false, v, 0⟩ := rfl

theorem bchDecode_of_rsCore {v c : List Bool} {n : Nat}
    (h : rsCore (symbolsOfBits v) 11 = ⟨true, symbolsOfBits c, n⟩) : bchDecode v = ⟨true, c, n⟩ := by
  have hbin : (symbolsOfBits c).all (fun c => decide (c = 0#6) || decide (c = 1#6)) = true :=
    List.all_eq_true.2 fun x hx => by simpa using symbolsOfBits_binary c x hx
  simp only [bchDecode_eq, h, hbin, Bool.and_self, if_true, bitsOfSymbols_symbolsOfBits]

/-- A word that BCH_DECODE passes is one that RS_CORE decodes to a binary word (44_fec R340). -/
theorem rsCore_of_bchDecode {v : List Bool} (h : (bchDecode v).ok = true) :
    rsCore (symbolsOfBits v) 11 = ⟨true, symbolsOfBits (bchDecode v).word, (bchDecode v).nerr⟩ := by
  revert h
  rw [bchDecode_eq]
  split
  · rename_i hpass
    intro _
    obtain ⟨hok, hbin⟩ := Bool.and_eq_true_iff.1 hpass
    have hbin : ∀ c ∈ (rsCore (symbolsOfBits v) 11).word, c = 0#6 ∨ c = 1#6 := fun c hc => by
      simpa using List.all_eq_true.1 hbin c hc
    rw [symbolsOfBits_bitsOfSymbols hbin, ← hok]
  · exact fun h => absurd h Bool.false_ne_true

/-! ## Binary polynomials -/

section

variable {K : Type} [Field K] {φ : Gf → K}

/-- The polynomial of the low 63 bits of a number; bit k is the coefficient of x^k (44_fec R333). -/
noncomputable def bitPoly (φ : Gf → K) (v : Nat) : K[X] := toPoly φ (symbolsOfBits (bitsOfNat 63 v))

theorem coeff_bitPoly (h : GfEmb φ) (v k : Nat) :
    (bitPoly φ v).coeff k = if k < 63 ∧ v.testBit k = true then 1 else 0 := by
  rw [bitPoly, coeff_toPoly h, polyCoeff]
  by_cases hk : k < 63
  · have hbit : (symbolsOfBits (bitsOfNat 63 v)).getD k 0#6 = symbolOfBit (v.testBit k) := by
      have hget := bitsOfNat_getD 63 v (63 - 1 - k) (by omega)
      rw [show 63 - 1 - (63 - 1 - k) = k by omega] at hget
      rw [← hget, symbolsOfBits, List.getD_eq_getElem _ _ (by simpa using hk),
        List.getD_eq_getElem _ _ (by simp; omega)]
      simp
    rw [hbit]
    cases v.testBit k <;> simp [hk, symbolOfBit, h.zero, h.one]
  · rw [List.getD_eq_default _ _ (by simpa using hk), h.zero, if_neg fun hc => hk hc.1]

theorem bitPoly_xor (h : GfEmb φ) (v w : Nat) : bitPoly φ (v ^^^ w) = bitPoly φ v + bitPoly φ w := by
  ext k
  rw [coeff_add, coeff_bitPoly h, coeff_bitPoly h, coeff_bitPoly h, Nat.testBit_xor]
  by_cases hk : k < 63
  · cases v.testBit k <;> cases w.testBit k <;> simp [hk, h.two 1]
  · simp [hk]

theorem testBit_eq_false_of_lt {v m k : Nat} (hv : v < 2 ^ m) (hk : m ≤ k) : v.testBit k = false :=
  Nat.testBit_lt_two_pow (hv.trans_le (Nat.pow_le_pow_right (by norm_num) hk))

theorem bitPoly_shiftLeft (h : GfEmb φ) {v n m : Nat} (hv : v < 2 ^ m) (hm : m + n ≤ 63) :
    bitPoly φ (v <<< n) = bitPoly φ v * X ^ n := by
  ext k
  rw [coeff_mul_X_pow', coeff_bitPoly h, coeff_bitPoly h, Nat.testBit_shiftLeft]
  by_cases hn : n ≤ k
  · by_cases hk : k < 63
    · simp [hn, hk, show k - n < 63 by omega]
    · simp [hk, testBit_eq_false_of_lt hv (show m ≤ k - n by omega)]
  · simp [hn]

/-- Squaring a value of a binary polynomial squares its argument. -/
theorem eval_sq_toPoly_binary (h : GfEmb φ) {p : List Gf} (hp : ∀ c ∈ p, c = 0#6 ∨ c = 1#6) (x : K) :
    (toPoly φ p).eval (x ^ 2) = (toPoly φ p).eval x ^ 2 := by
  induction p with
  | nil => simp [toPoly]
  | cons c p ih =>
    have ih := ih fun d hd => hp d (List.mem_cons_of_mem _ hd)
    have hc : φ c ^ 2 = φ c := by
      rcases hp c List.mem_cons_self with rfl | rfl
      · rw [h.zero]; ring
      · rw [h.one]; ring
    simp only [toPoly, eval_add, eval_C, eval_mul, eval_X, ih]
    linear_combination (-1 : K) * hc - h.two (φ c * (x * (toPoly φ p).eval x))

/-! ## The roots of the code (44_fec R333) -/

/-- v is 0 at α^1 to α^22. -/
def HasBchRoots (φ : Gf → K) (v : Nat) : Prop :=
  ∀ j, 1 ≤ j → j ≤ 22 → (bitPoly φ v).eval (φ (gfExp j)) = 0

theorem isRsCodeword_iff_hasBchRoots (h : GfEmb φ) (v : Nat) :
    isRsCodeword 11 (symbolsOfBits (bitsOfNat 63 v)) ↔ HasBchRoots φ v := by
  simp only [isRsCodeword, HasBchRoots, bitPoly, eval_toPoly h, h.eq_zero, symbolsOfBits_length, bitsOfNat_length,
    true_and]

theorem hasBchRoots_zero (h : GfEmb φ) : HasBchRoots φ 0 := by
  have hpoly : bitPoly φ 0 = 0 := by
    ext k
    rw [coeff_bitPoly h, Nat.zero_testBit, if_neg (by simp), coeff_zero]
  intro j _ _
  rw [hpoly, eval_zero]

theorem hasBchRoots_xor (h : GfEmb φ) {v w : Nat} (hv : HasBchRoots φ v) (hw : HasBchRoots φ w) :
    HasBchRoots φ (v ^^^ w) := fun j h1 h2 => by
  rw [bitPoly_xor h, eval_add, hv j h1 h2, hw j h1 h2, add_zero]

theorem hasBchRoots_bchGen (h : GfEmb φ) : HasBchRoots φ Config.bchGen := by
  have hroots : ∀ j : Fin 22, polyEval (symbolsOfBits (bitsOfNat 63 Config.bchGen)) (gfExp (j.val + 1)) = 0#6 := by
    decide +kernel
  intro j h1 h2
  have hj := hroots ⟨j - 1, by omega⟩
  rw [show j - 1 + 1 = j by omega] at hj
  rw [bitPoly, eval_toPoly h, hj, h.zero]

theorem hasBchRoots_bchGen_shiftLeft (h : GfEmb φ) {n : Nat} (hn : n ≤ 15) :
    HasBchRoots φ (Config.bchGen <<< n) := fun j h1 h2 => by
  rw [bitPoly_shiftLeft h (m := 48) (by decide) (by omega), eval_mul, hasBchRoots_bchGen h j h1 h2, zero_mul]

/-- The exponents of the roots of a binary word that has α^1 to α^22 among them: twice a root's exponent is
another's. -/
def conjugateExponents : Finset Nat :=
  (Finset.range 63).filter fun k => ∃ i ∈ Finset.range 6, ∃ j ∈ Finset.range 22, k = (j + 1) * 2 ^ i % 63

theorem card_conjugateExponents : conjugateExponents.card = 47 := by decide +kernel

theorem eval_bitPoly_conjugate (h : GfEmb φ) {v : Nat} (hv : HasBchRoots φ v) {k : Nat}
    (hk : k ∈ conjugateExponents) : (bitPoly φ v).eval (φ (gfExp k)) = 0 := by
  obtain ⟨-, i, -, j, hj, rfl⟩ := Finset.mem_filter.1 hk
  rw [gfExp_mod]
  clear hk
  induction i with
  | zero => rw [pow_zero, mul_one]; exact hv (j + 1) (by omega) (by have := Finset.mem_range.1 hj; omega)
  | succ i ih =>
    rw [pow_succ, ← mul_assoc, h.exp, pow_mul, ← h.exp, bitPoly,
      eval_sq_toPoly_binary h (symbolsOfBits_binary _), ← bitPoly, ih, zero_pow two_ne_zero]

/-- Below the generator's degree only the zero word has its roots. -/
theorem eq_zero_of_hasBchRoots (h : GfEmb φ) {v : Nat} (hlt : v < 2 ^ 47) (hv : HasBchRoots φ v) : v = 0 := by
  have hdeg : (bitPoly φ v).degree < conjugateExponents.card := by
    rw [card_conjugateExponents, degree_lt_iff_coeff_zero]
    intro k hk
    rw [coeff_bitPoly h, testBit_eq_false_of_lt hlt hk, if_neg (by simp)]
  have hzero : bitPoly φ v = 0 := by
    have hmem : ∀ i ∈ conjugateExponents, i < 63 := fun i hi => Finset.mem_range.1 (Finset.mem_filter.1 hi).1
    exact eq_zero_of_degree_lt_of_eval_index_eq_zero conjugateExponents (v := fun k => φ (gfExp k))
      (fun i hi j hj e => h.exp_inj i j (hmem i hi) (hmem j hj) e) hdeg
      fun k hk => eval_bitPoly_conjugate h hv hk
  refine Nat.eq_of_testBit_eq fun k => ?_
  rw [Nat.zero_testBit]
  by_cases hk : k < 63
  · have hcoeff := coeff_bitPoly h v k
    rw [hzero, coeff_zero] at hcoeff
    by_contra hbit
    rw [if_pos ⟨hk, Bool.eq_true_of_not_eq_false hbit⟩] at hcoeff
    exact zero_ne_one hcoeff
  · exact testBit_eq_false_of_lt hlt (by omega)

/-! ## The codewords (44_fec R333, R334) -/

theorem xor_lt_two_pow_of_testBit {a b m : Nat} (ha : a < 2 ^ (m + 1)) (hb : b < 2 ^ (m + 1))
    (htop : a.testBit m = b.testBit m) : a ^^^ b < 2 ^ m := by
  refine Nat.lt_pow_two_of_testBit _ fun k hk => ?_
  rw [Nat.testBit_xor]
  rcases hk.eq_or_lt with rfl | hlt
  · rw [htop, Bool.xor_self]
  · rw [testBit_eq_false_of_lt ha hlt, testBit_eq_false_of_lt hb hlt, Bool.xor_self]

theorem bchRemainder_lt (n : Nat) {v : Nat} (hv : v < 2 ^ (47 + n)) : bchRemainder n v < 2 ^ 47 := by
  induction n generalizing v with
  | zero => exact hv
  | succ n ih =>
    rw [bchRemainder]
    apply ih
    have hgen : Config.bchGen <<< n < 2 ^ (47 + n + 1) := by
      rw [show 47 + n + 1 = 48 + n by omega]
      exact Nat.shiftLeft_lt (by decide)
    have htop : (Config.bchGen <<< n).testBit (47 + n) = true := by
      rw [Nat.testBit_shiftLeft, show 47 + n - n = 47 by omega, decide_eq_true (by omega)]
      decide
    split
    · rename_i hbit
      exact xor_lt_two_pow_of_testBit hv hgen (hbit.trans htop.symm)
    · rename_i hbit
      have hlow := xor_lt_two_pow_of_testBit hv (Nat.two_pow_pos _)
        ((Bool.eq_false_of_not_eq_true hbit).trans (Nat.zero_testBit _).symm)
      rwa [Nat.xor_zero] at hlow

theorem xor_xor_xor_cancel (a v r : Nat) : a ^^^ ((v ^^^ a) ^^^ r) = v ^^^ r := by
  rw [← Nat.xor_assoc, Nat.xor_comm v, ← Nat.xor_assoc, Nat.xor_self, Nat.zero_xor]

/-- Reducing modulo the generator adds multiples of it. -/
theorem hasBchRoots_xor_bchRemainder (h : GfEmb φ) {n : Nat} (hn : n ≤ 16) (v : Nat) :
    HasBchRoots φ (v ^^^ bchRemainder n v) := by
  induction n generalizing v with
  | zero =>
    rw [bchRemainder, Nat.xor_self]
    exact hasBchRoots_zero h
  | succ n ih =>
    rw [bchRemainder]
    split
    · have hstep := hasBchRoots_xor h (hasBchRoots_bchGen_shiftLeft h (n := n) (by omega))
        (ih (by omega) (v ^^^ Config.bchGen <<< n))
      rwa [xor_xor_xor_cancel] at hstep
    · exact ih (by omega) v

theorem hasBchRoots_bchCodeword (h : GfEmb φ) (data : BitVec 16) : HasBchRoots φ (bchCodeword data) :=
  hasBchRoots_xor_bchRemainder h le_rfl _

/-- The top bits of a codeword are its data (44_fec R334). -/
theorem bchCodeword_testBit_high (data : BitVec 16) (k : Nat) :
    (bchCodeword data).testBit (47 + k) = data.toNat.testBit k := by
  have hrem : bchRemainder 16 (data.toNat <<< 47) < 2 ^ 47 := bchRemainder_lt 16 (Nat.shiftLeft_lt data.isLt)
  rw [bchCodeword, Nat.testBit_xor, testBit_eq_false_of_lt hrem (Nat.le_add_right 47 k), Nat.testBit_shiftLeft]
  simp

/-- A word with the roots of the code differs from the codeword of its top bits below the generator's degree,
where the code has no other word. -/
theorem exists_bchCodeword_of_hasBchRoots (h : GfEmb φ) {v : Nat} (hlt : v < 2 ^ 63) (hv : HasBchRoots φ v) :
    ∃ data : BitVec 16, v = bchCodeword data := by
  have hdata : v / 2 ^ 47 < 2 ^ 16 := by omega
  refine ⟨.ofNatLT (v / 2 ^ 47) hdata, ?_⟩
  have hlow : v ^^^ bchCodeword (.ofNatLT (v / 2 ^ 47) hdata) < 2 ^ 47 :=
    Nat.lt_pow_two_of_testBit _ fun k hk => by
      obtain ⟨i, rfl⟩ := Nat.exists_eq_add_of_le hk
      rw [Nat.testBit_xor, bchCodeword_testBit_high, BitVec.toNat_ofNatLT, Nat.testBit_div_two_pow,
        Nat.add_comm i, Bool.xor_self]
  have hzero := eq_zero_of_hasBchRoots h hlow (hasBchRoots_xor h hv (hasBchRoots_bchCodeword h _))
  exact Nat.xor_eq_zero_iff.1 hzero

end

/-! ## The code as a set of words (44_fec R333) -/

theorem bitsOfNat_natOfBits (v : List Bool) : bitsOfNat v.length (natOfBits v) = v := by
  refine List.ext_getElem (bitsOfNat_length _ _) fun i h1 h2 => ?_
  rw [← List.getD_eq_getElem _ false h1, ← List.getD_eq_getElem _ false h2, bitsOfNat_getD _ _ _ h2,
    natOfBits_testBit, decide_eq_true (by omega), Bool.true_and]
  congr 1
  omega

/-- The codewords of BCH(63,16) are the binary codewords of RS(63, 41) (44_fec R333). -/
theorem isRsCodeword_symbolsOfBits_iff {v : List Bool} (hlen : v.length = 63) :
    isRsCodeword 11 (symbolsOfBits v) ↔ ∃ data : BitVec 16, v = bitsOfNat 63 (bchCodeword data) := by
  obtain ⟨K, _, φ, h⟩ := exists_gfEmb
  constructor
  · intro hv
    have hbits := bitsOfNat_natOfBits v
    rw [hlen] at hbits
    rw [← hbits, isRsCodeword_iff_hasBchRoots h] at hv
    obtain ⟨data, hdata⟩ := exists_bchCodeword_of_hasBchRoots h (hlen ▸ natOfBits_lt v) hv
    exact ⟨data, by rw [← hdata, hbits]⟩
  · rintro ⟨data, rfl⟩
    exact (isRsCodeword_iff_hasBchRoots h _).2 (hasBchRoots_bchCodeword h data)

/-! ## The decoder (44_fec R340, R341) -/

theorem bchDecode_of_distance_le {v : List Bool} (data : BitVec 16) (hlen : v.length = 63)
    (hdist : distance false v (bitsOfNat 63 (bchCodeword data)) ≤ 11) :
    bchDecode v = ⟨true, bitsOfNat 63 (bchCodeword data), distance false v (bitsOfNat 63 (bchCodeword data))⟩ := by
  have hc := (isRsCodeword_symbolsOfBits_iff (bitsOfNat_length 63 _)).2 ⟨data, rfl⟩
  have hsym := distance_symbolsOfBits (hlen.trans (bitsOfNat_length 63 (bchCodeword data)).symm)
  refine bchDecode_of_rsCore ?_
  rw [← hsym] at hdist ⊢
  exact rsCore_of_distance_le ((symbolsOfBits_length v).trans hlen) hc hdist

theorem bchDecode_codeword {v : List Bool} (hlen : v.length = 63) (hok : (bchDecode v).ok = true) :
    (∃ data : BitVec 16, (bchDecode v).word = bitsOfNat 63 (bchCodeword data)) ∧
      (bchDecode v).nerr = distance false v (bchDecode v).word := by
  have hcore := rsCore_of_bchDecode hok
  obtain ⟨hc, hnerr⟩ := rsCore_codeword ((symbolsOfBits_length v).trans hlen) (congrArg RsResult.ok hcore)
  rw [hcore] at hc hnerr
  exact ⟨(isRsCodeword_symbolsOfBits_iff ((bchDecode_length v).trans hlen)).1 hc,
    hnerr.trans (distance_symbolsOfBits (bchDecode_length v).symm)⟩

theorem distance_self {α : Type} [DecidableEq α] (z : α) (a : List α) : distance z a a = 0 := by
  simp [distance]

/-- Settles O29: a near word and a passed one by RS_CORE, whose binary codewords are the code's. -/
theorem bchAcceptsEveryCodeword : Obligations.BchAcceptsEveryCodeword := by
  refine ⟨fun data => ?_, fun v data hlen hdist => bchDecode_of_distance_le data hlen hdist, fun v hlen => ?_⟩
  · have hself := distance_self false (bitsOfNat 63 (bchCodeword data))
    have hdec := bchDecode_of_distance_le data (bitsOfNat_length 63 _) (hself.trans_le (Nat.zero_le 11))
    rwa [hself] at hdec
  · refine ⟨fun hok => ?_, bchDecode_failed v⟩
    obtain ⟨hcode, hnerr⟩ := bchDecode_codeword hlen hok
    exact ⟨hcode, hnerr, bchDecode_nerr_le v⟩

end Sys2Proof.Machine
end

section
/-! O28: the deinterleaver and the interleaver undo each other, as functions and on the scratch buffer
(45_fec R385 to R387). On the buffer both read and write the same block, so two commands in a row write the
composition of the two permutations over the first one's result. -/

namespace Sys2Proof.Machine

theorem deint_intlv (P : Config.Params) (x : Block 196) : deint P (intlv P x) = x :=
  funext fun i => congrArg x (P.perm196.symm_apply_apply i)

theorem intlv_deint (P : Config.Params) (x : Block 196) : intlv P (deint P x) = x :=
  funext fun i => congrArg x (P.perm196.apply_symm_apply i)

/-! ## A block written over the front of the scratch buffer -/

/-- A write of a block at bit 0, said bit by bit. -/
theorem scrBit_scrWrite_blockBits {n : Nat} (hn : n ≤ 512) (scr : BitVec 512) (x : Block n) (i : Nat)
    (hi : i < 512) :
    scrBit (scrWrite scr 0 (blockBits x)) i = if h : i < n then x ⟨i, h⟩ else scrBit scr i := by
  rw [scrBit_scrWrite scr 0 _ (by simpa using hn) i hi]
  by_cases h : i < n <;> simp [h, blockBits]

theorem scrBlock_scrWrite_blockBits {n : Nat} (hn : n ≤ 512) (scr : BitVec 512) (x : Block n) :
    scrBlock (scrWrite scr 0 (blockBits x)) n = x := by
  funext i
  rw [scrBlock, scrBit_scrWrite_blockBits hn scr x i.val (i.isLt.trans_le hn), dif_pos i.isLt]

theorem scrWrite_scrBlock {n : Nat} (hn : n ≤ 512) (scr : BitVec 512) :
    scrWrite scr 0 (blockBits (scrBlock scr n)) = scr := by
  refine scr_ext _ _ fun i hi => ?_
  rw [scrBit_scrWrite_blockBits hn scr _ i hi]
  by_cases h : i < n <;> simp [h, scrBlock]

theorem scrWrite_scrWrite_blockBits {n : Nat} (hn : n ≤ 512) (scr : BitVec 512) (x y : Block n) :
    scrWrite (scrWrite scr 0 (blockBits x)) 0 (blockBits y) = scrWrite scr 0 (blockBits y) := by
  refine scr_ext _ _ fun i hi => ?_
  rw [scrBit_scrWrite_blockBits hn _ y i hi, scrBit_scrWrite_blockBits hn scr y i hi]
  by_cases h : i < n
  · simp only [dif_pos h]
  · simp only [dif_neg h, scrBit_scrWrite_blockBits hn scr x i hi]

/-- Rewriting the block by `f`, then by a `g` that undoes `f`, restores the buffer. -/
theorem scrWrite_undo {n : Nat} (hn : n ≤ 512) (f g : Block n → Block n) (hgf : ∀ x, g (f x) = x)
    (scr scr₁ scr₂ : BitVec 512) (h₁ : scr₁ = scrWrite scr 0 (blockBits (f (scrBlock scr n))))
    (h₂ : scr₂ = scrWrite scr₁ 0 (blockBits (g (scrBlock scr₁ n)))) : scr₂ = scr := by
  rw [h₂, h₁, scrBlock_scrWrite_blockBits hn, hgf, scrWrite_scrWrite_blockBits hn, scrWrite_scrBlock hn]

/-! ## The commands (46_host_commands R442, R443) -/

theorem scr_of_exec_deint {s t : State} (h : exec .deint s = .next t) :
    t.scr = scrWrite s.scr 0 (blockBits (deint Config.params (scrBlock s.scr 196))) := by
  cases h
  rfl

theorem scr_of_exec_intlv {s t : State} (h : exec .intlv s = .next t) :
    t.scr = scrWrite s.scr 0 (blockBits (intlv Config.params (scrBlock s.scr 196))) := by
  cases h
  rfl

/-- Settles O28: the permutation and its inverse cancel, and each command rewrites the same block. -/
theorem interleaverAndDeinterleaverAreInverse : Obligations.InterleaverAndDeinterleaverAreInverse := by
  refine ⟨fun P x => ⟨deint_intlv P x, intlv_deint P x⟩, fun s t u => ⟨fun ht hu => ?_, fun ht hu => ?_⟩⟩
  · exact scrWrite_undo (by norm_num) _ _ (deint_intlv Config.params) _ _ _ (scr_of_exec_intlv ht)
      (scr_of_exec_deint hu)
  · exact scrWrite_undo (by norm_num) _ _ (intlv_deint Config.params) _ _ _ (scr_of_exec_deint ht)
      (scr_of_exec_intlv hu)

end Sys2Proof.Machine
end

section
/-! The CRC register (45_fec R390, R391). One shift is linear over the exclusive or of registers, so a change of
the register, or a flipped bit, goes through the later shifts on its own. A range checks exactly when the register
run over the whole of it, check bits and all, ends in one fixed value. -/

namespace Sys2Proof.Machine

/-- The register before the complement (45_fec R390). -/
def crcReg (d : List Bool) : BitVec 16 := d.foldl crcShift Config.crcInit

/-- A shift that takes in a 0. -/
def crcClock (r : BitVec 16) : BitVec 16 := crcShift r false

theorem crc16_eq (d : List Bool) : crc16 d = crcReg d ^^^ 0xFFFF#16 := rfl

theorem crc16_xor_ones (d : List Bool) : crc16 d ^^^ 0xFFFF#16 = crcReg d := by
  rw [crc16_eq, BitVec.xor_assoc, BitVec.xor_self, BitVec.xor_zero]

theorem crcReg_concat (d : List Bool) (b : Bool) : crcReg (d ++ [b]) = crcShift (crcReg d) b := by
  simp [crcReg]

theorem crcReg_append (d c : List Bool) : crcReg (d ++ c) = c.foldl crcShift (crcReg d) :=
  List.foldl_append

/-! ## One shift -/

theorem crcShift_eq (r : BitVec 16) (b : Bool) :
    crcShift r b = (r <<< 1) ^^^ (if r.getLsbD 15 = b then 0#16 else Config.crcPoly) := by
  rw [crcShift, show r.msb = r.getLsbD 15 from BitVec.msb_eq_getLsbD_last r]
  cases r.getLsbD 15 <;> cases b <;> simp

theorem crcShift_xor (r x : BitVec 16) (b : Bool) : crcShift (r ^^^ x) b = crcShift r b ^^^ crcClock x := by
  have hgen : (if (r ^^^ x).getLsbD 15 = b then 0#16 else Config.crcPoly) =
      (if r.getLsbD 15 = b then 0#16 else Config.crcPoly) ^^^
        (if x.getLsbD 15 = false then 0#16 else Config.crcPoly) := by
    rw [BitVec.getLsbD_xor]
    cases r.getLsbD 15 <;> cases x.getLsbD 15 <;> cases b <;> simp
  rw [crcClock, crcShift_eq, crcShift_eq, crcShift_eq, hgen, BitVec.shiftLeft_xor_distrib]
  ac_rfl

theorem crcShift_not (r : BitVec 16) (b : Bool) : crcShift r (!b) = crcShift r b ^^^ Config.crcPoly := by
  simp only [crcShift_eq]
  cases r.getLsbD 15 <;> cases b <;> simp

/-- A shift that takes in the register's own top bit drops it. -/
theorem crcShift_topBit (r : BitVec 16) : crcShift r (r.getLsbD 15) = r <<< 1 := by
  simp [crcShift_eq]

/-- The generator's constant term brings the bit that was shifted out back at bit 0. -/
theorem getLsbD_zero_crcClock (r : BitVec 16) : (crcClock r).getLsbD 0 = r.getLsbD 15 := by
  rw [crcClock, crcShift_eq]
  cases r.getLsbD 15 <;> simp [Config.crcPoly]

theorem crcClock_injective : Function.Injective crcClock := by
  intro r x h
  have htop : r.getLsbD 15 = x.getLsbD 15 := by
    rw [← getLsbD_zero_crcClock, h, getLsbD_zero_crcClock]
  have hshift : r <<< 1 = x <<< 1 := by
    rw [crcClock, crcClock, crcShift_eq, crcShift_eq, htop] at h
    exact BitVec.xor_left_inj _ |>.1 h
  refine BitVec.eq_of_getLsbD_eq fun i hi => ?_
  by_cases hlast : i = 15
  · rw [hlast, htop]
  · have hbit := congrArg (BitVec.getLsbD · (i + 1)) hshift
    simpa only [BitVec.getLsbD_shiftLeft, show i + 1 < 16 by omega, show ¬ i + 1 < 1 by omega, decide_true,
      decide_false, Bool.not_false, Bool.true_and, Nat.add_sub_cancel] using hbit

theorem iterate_crcClock_zero (n : Nat) : crcClock^[n] 0#16 = 0#16 :=
  Function.iterate_fixed (by decide) n

/-! ## A run of shifts -/

theorem foldl_crcShift_xor (d : List Bool) (r x : BitVec 16) :
    d.foldl crcShift (r ^^^ x) = d.foldl crcShift r ^^^ crcClock^[d.length] x := by
  induction d generalizing r x with
  | nil => rfl
  | cons b d ih =>
    rw [List.foldl_cons, List.foldl_cons, crcShift_xor, ih, List.length_cons, Function.iterate_succ_apply]

/-- Taking in the `n` bits the register holds at its top empties it. -/
theorem foldl_crcShift_bitsOfNat (n v : Nat) (hn : n ≤ 16) :
    (bitsOfNat n v).foldl crcShift (BitVec.ofNat 16 v <<< (16 - n)) = 0#16 := by
  induction n with
  | zero => exact BitVec.shiftLeft_eq_zero (le_refl 16)
  | succ n ih =>
    have htop : (BitVec.ofNat 16 v <<< (16 - (n + 1))).getLsbD 15 = v.testBit n := by
      rw [BitVec.getLsbD_shiftLeft, show 15 - (16 - (n + 1)) = n by omega, BitVec.getLsbD_ofNat]
      simp [show n < 16 by omega]
    rw [bitsOfNat, List.foldl_cons, ← htop, crcShift_topBit, ← BitVec.shiftLeft_add,
      show 16 - (n + 1) + 1 = 16 - n by omega, ih (by omega)]

theorem foldl_crcShift_word (c : List Bool) (hc : c.length = 16) (r : BitVec 16) :
    c.foldl crcShift r = crcClock^[16] (r ^^^ BitVec.ofNat 16 (natOfBits c)) := by
  have hempty : c.foldl crcShift (BitVec.ofNat 16 (natOfBits c)) = 0#16 := by
    have hbits := bitsOfNat_natOfBits c
    rw [hc] at hbits
    have h := foldl_crcShift_bitsOfNat 16 (natOfBits c) (le_refl 16)
    rwa [hbits, BitVec.shiftLeft_zero] at h
  have h := foldl_crcShift_xor c (BitVec.ofNat 16 (natOfBits c)) (r ^^^ BitVec.ofNat 16 (natOfBits c))
  rwa [hempty, hc, BitVec.zero_xor, BitVec.xor_comm r, ← BitVec.xor_assoc, BitVec.xor_self,
    BitVec.zero_xor, BitVec.xor_comm _ r] at h

/-! ## The check (45_fec R391) -/

theorem crcCheck_append (d c : List Bool) (hc : c.length = 16) :
    crcCheck (d ++ c) = true ↔ (crc16 d).toNat = natOfBits c := by
  have hn : (d ++ c).length - 16 = d.length := by simp [hc]
  rw [crcCheck, hn, List.take_left, List.drop_left, decide_eq_true_iff]

/-- The value the register ends in on every range that checks. -/
def crcResidue : BitVec 16 := crcClock^[16] 0xFFFF#16

theorem crcCheck_append_iff_crcReg (d c : List Bool) (hc : c.length = 16) :
    crcCheck (d ++ c) = true ↔ crcReg (d ++ c) = crcResidue := by
  have hlt : natOfBits c < 2 ^ 16 := hc ▸ natOfBits_lt c
  rw [crcReg_append, foldl_crcShift_word c hc, crcResidue, (crcClock_injective.iterate 16).eq_iff,
    crcCheck_append d c hc]
  calc (crc16 d).toNat = natOfBits c
    _ ↔ crc16 d = BitVec.ofNat 16 (natOfBits c) := by
      rw [← BitVec.toNat_inj, BitVec.toNat_ofNat, Nat.mod_eq_of_lt hlt]
    _ ↔ crcReg d ^^^ BitVec.ofNat 16 (natOfBits c) = 0xFFFF#16 := by
      rw [crc16_eq, xor_eq_iff_left_eq, xor_eq_iff_left_eq, BitVec.xor_comm]

theorem crcCheck_iff_crcReg {b : List Bool} (hb : 16 ≤ b.length) :
    crcCheck b = true ↔ crcReg b = crcResidue := by
  have h := crcCheck_append_iff_crcReg (b.take (b.length - 16)) (b.drop (b.length - 16))
    (by rw [List.length_drop]; omega)
  rwa [List.take_append_drop] at h

end Sys2Proof.Machine
end

section
/-! O31, O32 and O33: CRC16 and CRC_CHECK, CRC_CORRECT, and the correction of a single flipped bit
(45_fec R390 to R393). A flipped bit adds to the register the generator shifted as often as bits follow, and these
values differ from each other in a range of at most 496 bits. -/

namespace Sys2Proof.Machine

/-- Settles O31: one shift is the stated one, and the 16 check bits are the string of their number. -/
theorem crcCheckAcceptsTheAppendedCrc : Obligations.CrcCheckAcceptsTheAppendedCrc := by
  refine ⟨rfl, fun d b => ?_, fun d c hc => ?_⟩
  · dsimp only
    rw [crc16_xor_ones, crc16_eq, crcReg_concat, crcShift_eq]
    rfl
  · rw [crcCheck_append d c hc]
    constructor
    · intro h
      rw [h, ← hc, bitsOfNat_natOfBits]
    · rintro rfl
      rw [natOfBits_bitsOfNat, Nat.mod_eq_of_lt (crc16 d).isLt]

/-! ## The search (45_fec R392) -/

/-- What CRC_CORRECT can answer, and when. -/
theorem crcCorrect_cases (b : List Bool) :
    (crcCheck b = true ∧ crcCorrect b = (.pass, b)) ∨
    (crcCheck b = false ∧ ∃ p, p < b.length ∧ crcCorrect b = (.corrected, flipBit b p) ∧
      crcCheck (flipBit b p) = true ∧ ∀ q, q < p → crcCheck (flipBit b q) = false) ∨
    (crcCheck b = false ∧ crcCorrect b = (.failed, b) ∧
      ∀ p, p < b.length → crcCheck (flipBit b p) = false) := by
  unfold crcCorrect
  by_cases hb : crcCheck b = true
  · exact .inl ⟨hb, if_pos hb⟩
  · rw [if_neg hb]
    have hb' : crcCheck b = false := Bool.eq_false_iff.2 hb
    cases hfind : (List.range b.length).find? (fun p => crcCheck (flipBit b p)) with
    | some p =>
      obtain ⟨hpass, hp, hfirst⟩ := List.find?_range_eq_some.1 hfind
      refine .inr (.inl ⟨hb', p, List.mem_range.1 hp, rfl, hpass, fun q hq => ?_⟩)
      simpa using hfirst q hq
    | none =>
      refine .inr (.inr ⟨hb', rfl, fun p hp => ?_⟩)
      simpa using List.find?_range_eq_none.1 hfind p hp

/-- Settles O32, one part for each answer of CRC_CORRECT. -/
theorem crcCorrectTriesOneFlipInOrder : Obligations.CrcCorrectTriesOneFlipInOrder := by
  intro b
  obtain ⟨hb, h⟩ | ⟨hb, p, hp, h, hpass, hfirst⟩ | ⟨hb, h, hnone⟩ := crcCorrect_cases b
  · simp [h, hb]
  · simp only [h]
    exact ⟨by simp [hb], nofun, fun _ => ⟨p, hp, rfl, hpass, hfirst⟩, nofun⟩
  · simp only [h]
    exact ⟨by simp [hb], nofun, nofun, fun _ => ⟨trivial, hnone⟩⟩

/-! ## A flipped bit (45_fec R393) -/

/-- What a flipped bit adds to the register when `n` bits follow it. -/
def crcFlipDelta (n : Nat) : BitVec 16 := crcClock^[n] Config.crcPoly

theorem foldl_crcShift_flipBit (b : List Bool) (p : Nat) (hp : p < b.length) (r : BitVec 16) :
    (flipBit b p).foldl crcShift r = b.foldl crcShift r ^^^ crcFlipDelta (b.length - 1 - p) := by
  induction b generalizing p r with
  | nil => simp at hp
  | cons x b ih =>
    cases p with
    | zero => exact (congrArg (b.foldl crcShift) (crcShift_not r x)).trans (foldl_crcShift_xor b _ _)
    | succ p =>
      have h := ih p (by simpa using hp) (crcShift r x)
      rwa [show b.length - 1 - p = (x :: b).length - 1 - (p + 1) by simp; omega] at h

theorem crcReg_flipBit {b : List Bool} {p : Nat} (hp : p < b.length) :
    crcReg (flipBit b p) = crcReg b ^^^ crcFlipDelta (b.length - 1 - p) :=
  foldl_crcShift_flipBit b p hp Config.crcInit

theorem crcFlipDelta_ne_zero (n : Nat) : crcFlipDelta n ≠ 0#16 := by
  intro h
  have hpoly := (crcClock_injective.iterate n) (h.trans (iterate_crcClock_zero n).symm)
  exact absurd hpoly (by decide)

/-- The generator does not come back within 495 shifts. The model's statement ends at 496 bits, so this much of
R393's distance is enough, and a run of the register shows it. -/
theorem crcPoly_not_mem_iterate : Config.crcPoly ∉ List.iterate crcClock (crcClock Config.crcPoly) 495 := by
  decide +kernel

theorem crcFlipDelta_ne_of_lt {i j : Nat} (hij : i < j) (hj : j < 496) : crcFlipDelta i ≠ crcFlipDelta j := by
  intro h
  have hback : crcClock^[j - i] Config.crcPoly = Config.crcPoly :=
    Function.iterate_cancel crcClock_injective h.symm
  refine crcPoly_not_mem_iterate (List.mem_iterate.2 ⟨j - i - 1, by omega, ?_⟩)
  rw [← Function.iterate_succ_apply, show (j - i - 1).succ = j - i by omega, hback]

theorem crcFlipDelta_inj {i j : Nat} (hi : i < 496) (hj : j < 496) (h : crcFlipDelta i = crcFlipDelta j) :
    i = j := by
  rcases Nat.lt_trichotomy i j with hlt | heq | hgt
  · exact absurd h (crcFlipDelta_ne_of_lt hlt hj)
  · exact heq
  · exact absurd h.symm (crcFlipDelta_ne_of_lt hgt hi)

theorem flipBit_flipBit (b : List Bool) (p : Nat) : flipBit (flipBit b p) p = b := by
  rw [flipBit, flipBit, List.modify_modify_eq, show ((!·) ∘ (!·) : Bool → Bool) = id from funext Bool.not_not,
    List.modify_id]

section
variable {b : List Bool} {p : Nat}

/-- A checking range with one flipped bit does not check. -/
theorem crcCheck_flipBit (hmin : 16 ≤ b.length) (hb : crcCheck b = true) (hp : p < b.length) :
    crcCheck (flipBit b p) = false := by
  refine Bool.eq_false_iff.2 fun hflip => crcFlipDelta_ne_zero (b.length - 1 - p) ?_
  rw [crcCheck_iff_crcReg hmin] at hb
  rwa [crcCheck_iff_crcReg (by simpa using hmin), crcReg_flipBit hp, hb, xor_left_eq_self_iff] at hflip

/-- A second flip makes it check only at the bit that was flipped. -/
theorem eq_of_crcCheck_flipBit_flipBit {q : Nat} (hmin : 16 ≤ b.length) (hmax : b.length ≤ 496)
    (hb : crcCheck b = true) (hp : p < b.length) (hq : q < b.length)
    (hpass : crcCheck (flipBit (flipBit b p) q) = true) : q = p := by
  rw [crcCheck_iff_crcReg hmin] at hb
  rw [crcCheck_iff_crcReg (by simpa using hmin), crcReg_flipBit (by simpa using hq), crcReg_flipBit hp, hb,
    flipBit_length, BitVec.xor_assoc, xor_left_eq_self_iff, xor_eq_zero_iff] at hpass
  have h := crcFlipDelta_inj (by omega) (by omega) hpass
  omega

end

/-- Settles O33: of CRC_CORRECT's three answers only the flip at `p` is left. -/
theorem singleFlippedBitIsCorrected : Obligations.SingleFlippedBitIsCorrected := by
  intro b p hmin hmax hb hp
  have hmin' : 16 ≤ b.length := by omega
  obtain ⟨hpass, _⟩ | ⟨_, q, hq, h, hpass, _⟩ | ⟨_, _, hnone⟩ := crcCorrect_cases (flipBit b p)
  · exact absurd hpass (by simp [crcCheck_flipBit hmin' hb hp])
  · rw [flipBit_length] at hq
    rw [h, eq_of_crcCheck_flipBit_flipBit hmin' hmax hb hp hq hpass, flipBit_flipBit]
  · have hback := hnone p (by simpa using hp)
    rw [flipBit_flipBit, hb] at hback
    exact absurd hback (by decide)

end Sys2Proof.Machine
end

section
/-! The words the host commands report in (10_state R41, 30_encoding R121 to R127): fields that do not overlap,
joined by an or, are the sum of their numbers. -/

namespace Sys2Proof.Machine

/-! ## Fields joined by an or -/

theorem ofNat_or_ofNat {w a b : Nat} (p : Nat) (ha : 2 ^ p ∣ a) (hb : b < 2 ^ p) :
    BitVec.ofNat w a ||| BitVec.ofNat w b = BitVec.ofNat w (a + b) := by
  obtain ⟨c, rfl⟩ := ha
  rw [Nat.two_pow_add_eq_or_of_lt hb, BitVec.ofNat_or]

theorem ofNat_shiftLeft (w a p : Nat) : BitVec.ofNat w a <<< p = BitVec.ofNat w (a * 2 ^ p) := by
  apply BitVec.eq_of_toNat_eq
  simp [Nat.shiftLeft_eq]

theorem zeroExtend_eq_ofNat {n : Nat} (w : Nat) (x : BitVec n) :
    x.zeroExtend w = BitVec.ofNat w x.toNat := (BitVec.ofNat_toNat w x).symm

/-- A number below a code, as an event's operand stands below the event's code (30_encoding R121). -/
theorem ofNat_or_zeroExtend {n a : Nat} (p : Nat) (x : BitVec n) (ha : 2 ^ p ∣ a) (hn : n ≤ p) :
    BitVec.ofNat 32 a ||| x.zeroExtend 32 = BitVec.ofNat 32 (a + x.toNat) := by
  rw [zeroExtend_eq_ofNat, ofNat_or_ofNat p ha (x.isLt.trans_le (Nat.pow_le_pow_right (by decide) hn))]

/-! ## Events (30_encoding R125, R127) -/

theorem eventWords_regVal (a : BitVec 8) (v : Word) :
    eventWords (.regVal a v) = [BitVec.ofNat 32 (0x04 * 2 ^ 24 + a.toNat), v] :=
  congrArg (· :: [v]) (ofNat_or_zeroExtend (a := 0x04 * 2 ^ 24) 24 a (by decide) (by decide))

theorem eventWords_scrVal (i : BitVec 4) (v : Word) :
    eventWords (.scrVal i v) = [BitVec.ofNat 32 (0x05 * 2 ^ 24 + i.toNat), v] :=
  congrArg (· :: [v]) (ofNat_or_zeroExtend (a := 0x05 * 2 ^ 24) 24 i (by decide) (by decide))

theorem eventWords_fecDone (r : Word) :
    eventWords (.fecDone r) = [BitVec.ofNat 32 (0x06 * 2 ^ 24 + r.toNat % 2 ^ 24)] := by
  have hlow : (r.extractLsb' 0 24).toNat = r.toNat % 2 ^ 24 := BitVec.extractLsb'_toNat ..
  rw [← hlow]
  exact congrArg ([·]) (ofNat_or_zeroExtend (a := 0x06 * 2 ^ 24) 24 _ (by decide) (by decide))

/-! ## FEC_RESULT (10_state R41) -/

theorem fecResultWord_eq (opc : BitVec 8) (ok : Bool) {nerr crcstat : Nat} (hn : nerr < 128)
    (hc : crcstat < 256) : fecResultWord opc ok nerr crcstat =
      BitVec.ofNat 32 (opc.toNat * 2 ^ 16 + crcstat * 2 ^ 8 + 2 * nerr + ok.toNat) := by
  have hok := ok.toNat_lt
  rw [fecResultWord, flagAt, zeroExtend_eq_ofNat]
  simp only [ofNat_shiftLeft]
  rw [ofNat_or_ofNat 16 (by omega) (by omega), ofNat_or_ofNat 8 (by omega) (by omega),
    ofNat_or_ofNat 1 (by omega) (by omega)]
  exact congrArg (BitVec.ofNat 32) (by omega)

/-- FEC_RESULT of a command that checks no CRC. -/
theorem fecResultWord_no_crc (opc : BitVec 8) (ok : Bool) {nerr : Nat} (hn : nerr < 128) :
    fecResultWord opc ok nerr 0 = BitVec.ofNat 32 (opc.toNat * 2 ^ 16 + 2 * nerr + ok.toNat) := by
  rw [fecResultWord_eq opc ok hn (by decide), Nat.zero_mul, Nat.add_zero]

end Sys2Proof.Machine
end

section
/-! O21 to O27: the commands on the scratch buffer (46_host_commands R435 to R444, 20_memory R82). Each is one
write of SCR, made or not made, and what the command reports; the write is then said bit by bit. -/

namespace Sys2Proof.Machine

/-! ## Scratch words (46_host_commands R435, R436) -/

/-- Settles O21: the write's range is the word IDX. -/
theorem scrwrSetsOneScratchWord : Obligations.ScrwrSetsOneScratchWord := by
  intro i v s
  refine ⟨scrWrite s.scr (32 * i.toNat) (bitsOfWord v), rfl, fun b hb => ?_⟩
  have hi := i.isLt
  have hword : 32 * i.toNat ≤ b ∧ b < 32 * i.toNat + 32 ↔ b / 32 = i.toNat := by omega
  rw [scrBit_scrWrite _ _ _ (by rw [bitsOfWord_length]; omega) b hb, bitsOfWord_length]
  simp only [hword]
  refine if_ctx_congr Iff.rfl (fun hb' => ?_) (fun _ => rfl)
  rw [show b - 32 * i.toNat = b % 32 by omega, bitsOfWord_getD v _ (Nat.mod_lt _ (by decide))]

theorem scrWord_getMsbD (scr : BitVec 512) (w : Nat) {j : Nat} (hj : j < 32) :
    (scrWord scr w).getMsbD j = scrBit scr (32 * w + j) := by
  have hpack : scrWord scr w = packWord (scrRead scr (32 * w) 32) := by
    rw [scrWord, packWord, scrRead_length, Nat.sub_self, Nat.pow_zero, Nat.mul_one]
  rw [hpack, packWord_getMsbD _ (scrRead_length ..).le j hj, List.getD_eq_getElem _ _ (by simpa using hj),
    scrRead_getElem]

/-- Settles O22: the value is the 32 bits read, as a word. -/
theorem scrrdReportsAScratchWord : Obligations.ScrrdReportsAScratchWord := by
  intro i s
  refine ⟨scrWord s.scr i.toNat, ?_, fun j hj => scrWord_getMsbD s.scr i.toNat hj⟩
  rw [← eventWords_scrVal]
  rfl

/-! ## A FEC command as one state update (46_host_commands R444) -/

/-- FEC_DONE after a write of the scratch buffer. -/
theorem fecDone_eq {opc : BitVec 8} {ok : Bool} {nerr crcstat : Nat} {f : Word} (s : State)
    (m : BitVec 512) (hf : fecResultWord opc ok nerr crcstat = f) :
    fecDone opc ok nerr crcstat { s with scr := m } = { s with
      scr := m, fecResult := f,
      events := s.events ++ [BitVec.ofNat 32 (0x06 * 2 ^ 24 + f.toNat % 2 ^ 24)] } := by
  subst hf
  rw [← eventWords_fecDone]
  rfl

/-- The same where FEC_RESULT fits into the event's 24 bits, which then show all of it (30_encoding R127). -/
theorem fecDone_eq_of_lt {opc : BitVec 8} {ok : Bool} {nerr crcstat n : Nat} (s : State)
    (m : BitVec 512) (hf : fecResultWord opc ok nerr crcstat = BitVec.ofNat 32 n) (hn : n < 2 ^ 24) :
    fecDone opc ok nerr crcstat { s with scr := m } = { s with
      scr := m, fecResult := BitVec.ofNat 32 n,
      events := s.events ++ [BitVec.ofNat 32 (0x06 * 2 ^ 24 + (BitVec.ofNat 32 n).toNat)] } := by
  have hlow : (BitVec.ofNat 32 n).toNat % 2 ^ 24 = (BitVec.ofNat 32 n).toNat := by
    rw [BitVec.toNat_ofNat]
    omega
  rw [fecDone_eq s m hf, hlow]

/-- A write made on a condition. -/
theorem memWrite_ite (c : Prop) [Decidable c] (b : Nat) (v : List Bool) (s : State) :
    (if c then memWrite b v s else s) =
      { s with scr := if c then scrWrite s.scr b v else s.scr } := by
  split <;> rfl

theorem scrBit_ite_scrWrite (c : Prop) [Decidable c] (scr : BitVec 512) {v : List Bool} {n : Nat}
    (hlen : v.length = n) (hn : n ≤ 512) {b : Nat} (hb : b < 512) :
    scrBit (if c then scrWrite scr 0 v else scr) b = if c ∧ b < n then v.getD b false else scrBit scr b := by
  subst hlen
  by_cases hc : c
  · simp [hc, scrBit_scrWrite scr 0 v (by simpa using hn) b hb]
  · simp [hc]

/-! ## BCH and RS (46_host_commands R437, R438, 44_fec R350, R352) -/

/-- Settles O23: the decoded word has 63 bits and at most 11 errors. -/
theorem bchCommandCorrectsScratch : Obligations.BchCommandCorrectsScratch := by
  intro s dec r
  have hnerr : dec.nerr ≤ 11 := bchDecode_nerr_le _
  have hlen : dec.word.length = 63 := by simp [dec]
  have hr : fecResultWord 0x20#8 dec.ok dec.nerr 0 = r := fecResultWord_no_crc _ _ (by omega)
  refine ⟨if dec.ok then scrWrite s.scr 0 dec.word else s.scr, ?_, hnerr,
    fun b hb => scrBit_ite_scrWrite _ s.scr hlen (by decide) hb⟩
  rw [← fecDone_eq s _ hr, ← memWrite_ite]
  rfl

theorem symbolBits_length (r : List Gf) : (symbolBits r).length = 6 * r.length := by
  simp [symbolBits, Nat.mul_comm]

theorem symbolBits_cons (c : Gf) (r : List Gf) : symbolBits (c :: r) = bitsOfNat 6 c.toNat ++ symbolBits r :=
  List.flatMap_cons

theorem bitsOfNat_getD_eq_getMsbD (c : Gf) {j : Nat} (hj : j < 6) :
    (bitsOfNat 6 c.toNat).getD j false = c.getMsbD j := by
  rw [bitsOfNat_getD 6 _ j hj]
  simp [BitVec.getMsbD, hj, BitVec.getLsbD]

/-- Bit b of a word of hexbits is bit b mod 6 of hexbit b div 6, counted from the top (44_fec R350). -/
theorem symbolBits_getD (r : List Gf) {b : Nat} (hb : b < 6 * r.length) :
    (symbolBits r).getD b false = (r.getD (b / 6) 0#6).getMsbD (b % 6) := by
  induction r generalizing b with
  | nil => exact absurd hb (Nat.not_lt_zero b)
  | cons c r ih =>
    rw [symbolBits_cons]
    rw [List.length_cons] at hb
    rcases Nat.lt_or_ge b 6 with hfirst | hlater
    · rw [List.getD_append _ _ _ _ (by simpa using hfirst), bitsOfNat_getD_eq_getMsbD c hfirst,
        Nat.div_eq_of_lt hfirst, Nat.mod_eq_of_lt hfirst, List.getD_cons_zero]
    · rw [List.getD_append_right _ _ _ _ (by simpa using hlater), bitsOfNat_length, ih (by omega),
        show b / 6 = (b - 6) / 6 + 1 by omega, show b % 6 = (b - 6) % 6 by omega, List.getD_cons_succ]

/-- Settles O24: the decoded word has 63 hexbits, and at most T errors. -/
theorem rsCommandCorrectsScratch : Obligations.RsCommandCorrectsScratch := by
  intro c s r dec f
  have hnerr : dec.nerr ≤ c.toNat := rsCore_nerr_le _ _
  have hc := c.isLt
  have hlen : dec.word.length = 63 := by
    rw [rsCore_length, List.length_map, List.length_range]
  have hf : fecResultWord 0x21#8 dec.ok dec.nerr 0 = f := fecResultWord_no_crc _ _ (by omega)
  refine ⟨if dec.ok then scrWrite s.scr 0 (symbolBits dec.word) else s.scr, ?_, by omega, fun b hb => ?_⟩
  · rw [← fecDone_eq s _ hf, ← memWrite_ite]
    rfl
  · rw [scrBit_ite_scrWrite _ s.scr (by rw [symbolBits_length, hlen]) (by decide) hb]
    exact if_ctx_congr Iff.rfl (fun hin => symbolBits_getD _ (by omega)) (fun _ => rfl)

/-! ## TR12 and TR34 (46_host_commands R439, R440) -/

/-- A block written whatever the outcome, and the outcome reported. -/
theorem fecDone_block {n : Nat} (hn : n ≤ 512) (opc : BitVec 8) (dec : Bool × Block n) (s : State) :
    let r := BitVec.ofNat 32 (opc.toNat * 2 ^ 16 + dec.1.toNat)
    ∃ m, fecDone opc dec.1 0 0 (memWrite 0 (blockBits dec.2) s) = { s with
        scr := m, fecResult := r, events := s.events ++ [BitVec.ofNat 32 (0x06 * 2 ^ 24 + r.toNat)] } ∧
      ∀ b, b < 512 → scrBit m b = if h : b < n then dec.2 ⟨b, h⟩ else scrBit s.scr b := by
  have hopc := opc.isLt
  have hok := dec.1.toNat_lt
  have hr : fecResultWord opc dec.1 0 0 = BitVec.ofNat 32 (opc.toNat * 2 ^ 16 + dec.1.toNat) := by
    rw [fecResultWord_no_crc opc dec.1 (by decide), Nat.mul_zero, Nat.add_zero]
  exact ⟨scrWrite s.scr 0 (blockBits dec.2), fecDone_eq_of_lt s _ hr (by omega),
    scrBit_scrWrite_blockBits hn s.scr dec.2⟩

/-- Settles O25: both commands write their decoder's block. -/
theorem trellisCommandsWriteTheirOutput : Obligations.TrellisCommandsWriteTheirOutput := by
  intro s blk
  refine ⟨?_, ?_⟩
  · obtain ⟨m, hstate, hbits⟩ := fecDone_block (by decide) 0x22#8 (Config.trellis12 blk) s
    exact ⟨m, congrArg Host.Outcome.next hstate, hbits⟩
  · obtain ⟨m, hstate, hbits⟩ := fecDone_block (by decide) 0x23#8 (Config.trellis34 blk) s
    exact ⟨m, congrArg Host.Outcome.next hstate, hbits⟩

/-! ## DEINT and INTLV (46_host_commands R442, R443, 45_fec R385, R386) -/

/-- A permuted block written, OK reported, said at the block's bits and past them. -/
theorem fecDone_permuted (opc : BitVec 8) (x : Block 196) (s : State) {f e : Word}
    (hf : BitVec.ofNat 32 (opc.toNat * 2 ^ 16 + 1) = f)
    (he : BitVec.ofNat 32 (0x06 * 2 ^ 24 + f.toNat) = e) :
    ∃ m, fecDone opc true 0 0 (memWrite 0 (blockBits x) s) =
        { s with scr := m, fecResult := f, events := s.events ++ [e] } ∧
      (∀ i : Fin 196, scrBit m i.val = x i) ∧
      ∀ b, 196 ≤ b → b < 512 → scrBit m b = scrBit s.scr b := by
  subst hf he
  obtain ⟨m, hstate, hbits⟩ := fecDone_block (by decide) opc (true, x) s
  refine ⟨m, hstate, fun i => ?_, fun b hout hb => ?_⟩
  · rw [hbits i.val (by omega), dif_pos i.isLt]
  · rw [hbits b hb, dif_neg (by omega)]

/-- Settles O27: each command writes the permuted block, whose bit PERM196(i) is, for INTLV, bit i. -/
theorem deintAndIntlvPermuteScratch : Obligations.DeintAndIntlvPermuteScratch := by
  intro s
  refine ⟨?_, ?_⟩
  · obtain ⟨m, hstate, hbits, hrest⟩ :=
      fecDone_permuted (f := 0x00250001#32) (e := 0x06250001#32) 0x25#8
        (deint Config.params (scrBlock s.scr 196)) s (by decide) (by decide)
    exact ⟨m, congrArg Host.Outcome.next hstate, hbits, hrest⟩
  · obtain ⟨m, hstate, hbits, hrest⟩ :=
      fecDone_permuted (f := 0x00260001#32) (e := 0x06260001#32) 0x26#8
        (intlv Config.params (scrBlock s.scr 196)) s (by decide) (by decide)
    refine ⟨m, congrArg Host.Outcome.next hstate, fun i => ?_, hrest⟩
    rw [hbits]
    exact congrArg (scrBlock s.scr 196) (Config.perm196.symm_apply_apply i)

/-! ## CRC (46_host_commands R441) -/

/-- What CRC finds: the plain check leaves the range as it is (45_fec R391, R392). -/
def crcResult (fix : Bool) (b : List Bool) : CrcOutcome × List Bool :=
  if fix then crcCorrect b else (crcPlain b, b)

theorem crcPlain_cases (b : List Bool) : crcPlain b = .pass ∨ crcPlain b = .failed := by
  unfold crcPlain
  split
  · exact .inl rfl
  · exact .inr rfl

/-- Only a flip makes the outcome "corrected", so one report serves both forms of the command. -/
theorem crcCommand_eq (nb : Nat) (fix : Bool) (s : State) :
    let res := crcResult fix (scrRead s.scr 0 nb)
    crcCommand nb fix s = fecDone 0x24#8 (crcOk res.1) (crcFlips res.1) (crcStat res.1)
      (if res.1 = .corrected then memWrite 0 res.2 s else s) := by
  cases fix with
  | true => rfl
  | false =>
    intro res
    have hres : res.1 = crcPlain (scrRead s.scr 0 nb) := rfl
    rw [hres, crcCommand, if_neg Bool.false_ne_true]
    rcases crcPlain_cases (scrRead s.scr 0 nb) with h | h <;> rw [h] <;> rfl

/-- CRCSTAT, NERR and OK of an outcome, as FEC_RESULT shows them (46_host_commands R441). -/
def crcReport : CrcOutcome → Nat
  | .pass => 0x101
  | .corrected => 0x203
  | .failed => 0x300

theorem fecResultWord_crc (o : CrcOutcome) : fecResultWord 0x24#8 (crcOk o) (crcFlips o) (crcStat o) =
    BitVec.ofNat 32 (0x24 * 2 ^ 16 + crcReport o) := by
  cases o <;> rfl

theorem crcReport_lt (o : CrcOutcome) : 0x24 * 2 ^ 16 + crcReport o < 2 ^ 24 := by
  cases o <;> decide

theorem crcResult_length (fix : Bool) (b : List Bool) : (crcResult fix b).2.length = b.length := by
  cases fix with
  | false => rfl
  | true =>
    rw [crcResult, if_pos rfl]
    obtain ⟨-, h⟩ | ⟨-, p, -, h, -⟩ | ⟨-, h, -⟩ := crcCorrect_cases b <;> simp [h]

/-- Settles O26: the three outcomes have the three reports, and only a corrected range is written. -/
theorem crcCommandChecksOrCorrects : Obligations.CrcCommandChecksOrCorrects := by
  intro nb fix s range res r
  have hres : res = crcResult fix range := rfl
  have hlen : res.2.length = nb.toNat := by rw [hres, crcResult_length, scrRead_length]
  have hnb := nb.isLt
  refine ⟨if res.1 = .corrected then scrWrite s.scr 0 res.2 else s.scr, ?_,
    fun b hb => scrBit_ite_scrWrite _ s.scr hlen (by omega) hb⟩
  have hexec : exec (.crc nb fix) s = .next (crcCommand nb.toNat fix s) := rfl
  rw [hexec, crcCommand_eq, ← hres, memWrite_ite]
  exact congrArg _ (fecDone_eq_of_lt s _ (fecResultWord_crc res.1) (crcReport_lt res.1))

end Sys2Proof.Machine
end

section
/-! O15, O18, O19: what RDREG reports, what WRREG stores, and what is then read back (46_host_commands R431,
R433, R434, 10_state R33 to R45). A register is read and written by its name; a stored field reads back as the
written word with a mask over it. -/

namespace Sys2Proof.Machine

/-! ## Fields of a written word -/

/-- A field back at its place is the word with a mask over the field. -/
theorem field_eq_and_mask (v : Word) (p n : Nat) :
    (v.extractLsb' p n).zeroExtend 32 <<< p = v &&& ((BitVec.allOnes n).setWidth 32 <<< p) := by
  refine BitVec.eq_of_getLsbD_eq fun i hi => ?_
  by_cases hp : i < p
  · simp [hp]
  · simp [hi, hp, show p + (i - p) = i by omega, Bool.and_comm]

theorem lowField_eq_and_mask (v : Word) (n : Nat) :
    (v.extractLsb' 0 n).zeroExtend 32 = v &&& (BitVec.allOnes n).setWidth 32 := by
  simpa using field_eq_and_mask v 0 n

theorem lowField_toNat (v : Word) (n : Nat) : (v.extractLsb' 0 n).toNat = v.toNat % 2 ^ n :=
  BitVec.extractLsb'_toNat ..

/-- A value FMAX stores, by its bits (10_state R39). -/
theorem fmaxLegal_iff (v : Word) :
    fmaxLegal v = true ↔ v.getLsbD 31 = false ∧ v.toNat / 2 ^ 23 % 256 ≠ 0xFF := by
  have hexp : (v.extractLsb' 23 8).toNat = v.toNat / 2 ^ 23 % 256 := by
    rw [BitVec.extractLsb'_toNat, Nat.shiftRight_eq_div_pow]
  rw [fmaxLegal, Bool.and_eq_true, Bool.not_eq_true', decide_eq_true_eq, ← hexp]
  exact and_congr (iff_of_eq (congrArg (· = false) (BitVec.msb_eq_getLsbD_last v))) BitVec.toNat_ne_iff_ne.symm

/-- A pattern below +∞'s is one FMAX stores. -/
theorem fmaxLegal_of_lt {v : Word} (h : v.toNat < 0x7F800000) : fmaxLegal v = true := by
  refine (fmaxLegal_iff v).2 ⟨?_, by omega⟩
  rw [BitVec.getLsbD, Nat.testBit_lt_two_pow (by omega)]

/-! ## DUID_MAP entries (10_state R45) -/

theorem duidToWord_eq (e : DuidEntry) :
    duidToWord e = BitVec.ofNat 32 (e.len.toNat * 2 ^ 16 + (targetNum e.target).toNat) := by
  rw [duidToWord, zeroExtend_eq_ofNat 32 e.len, ofNat_shiftLeft,
    ofNat_or_zeroExtend 16 _ (Nat.dvd_mul_left ..) (by decide)]

theorem targetNum_targetOfNum (c : BitVec 4) :
    targetNum (targetOfNum c) = if c.toNat ∈ [1, 2, 3, 4, 5, 6, 9, 14, 15] then c else 15#4 := by
  revert c
  decide

theorem target_duidOfWord (v : Word) : targetNum (duidOfWord v).target =
    if v.toNat % 16 ∈ [1, 2, 3, 4, 5, 6, 9, 14, 15] then v.extractLsb' 0 4 else 15#4 := by
  have hlow : (v.extractLsb' 0 4).toNat = v.toNat % 16 := lowField_toNat v 4
  rw [duidOfWord, targetNum_targetOfNum, hlow]

theorem duidToWord_duidOfWord (v : Word) : duidToWord (duidOfWord v) =
    if v.toNat % 16 ∈ [1, 2, 3, 4, 5, 6, 9, 14, 15] then v &&& 0x0FFF000F#32
    else (v &&& 0x0FFF0000#32) ||| 0x0000000F#32 := by
  have hlen : (duidOfWord v).len.zeroExtend 32 <<< 16 = v &&& 0x0FFF0000#32 := field_eq_and_mask v 16 12
  have htarget : (v.extractLsb' 0 4).zeroExtend 32 = v &&& 0x0000000F#32 := lowField_eq_and_mask v 4
  rw [duidToWord, hlen, target_duidOfWord]
  by_cases h : v.toNat % 16 ∈ [1, 2, 3, 4, 5, 6, 9, 14, 15]
  · rw [if_pos h, if_pos h, htarget, ← BitVec.and_or_distrib_left]
    rfl
  · rw [if_neg h, if_neg h]
    rfl

/-! ## Addresses (10_state R33) -/

/-- The address of a register. -/
def addrOfReg : RegName → BitVec 8
  | .ctrl => 0x00#8
  | .status => 0x01#8
  | .syncPatLo => 0x02#8
  | .syncPatHi => 0x03#8
  | .syncLen => 0x04#8
  | .statusInit => 0x05#8
  | .fmax => 0x06#8
  | .dropCnt => 0x07#8
  | .fecResult => 0x08#8
  | .duidMap c => 0x10#8 + c.zeroExtend 8
  | .costasPhase => 0x20#8
  | .costasFreq => 0x21#8
  | .gardnerOmega => 0x22#8
  | .gardnerMu => 0x23#8

theorem addrOfReg_of_regOfAddr {a : BitVec 8} {r : RegName} (h : regOfAddr a = some r) :
    addrOfReg r = a := by
  have hall : ∀ a : BitVec 8, ∀ r ∈ regOfAddr a, addrOfReg r = a := by decide +kernel
  exact hall a r h

theorem regOfAddr_duidMap (c : Fin 16) :
    regOfAddr (BitVec.ofNat 8 (0x10 + c.val)) = some (.duidMap (BitVec.ofFin c)) := by
  revert c
  decide

/-- The addresses 0x10 to 0x1F are those of the map's 16 entries. -/
theorem exists_duidMap_addr {a : BitVec 8} (h : 0x10 ≤ a.toNat ∧ a.toNat ≤ 0x1F) :
    ∃ c : Fin 16, a = BitVec.ofNat 8 (0x10 + c.val) := by
  refine ⟨⟨a.toNat - 0x10, by omega⟩, BitVec.eq_of_toNat_eq ?_⟩
  rw [BitVec.toNat_ofNat, Nat.add_sub_cancel' h.1, Nat.mod_eq_of_lt a.isLt]

theorem readAddr_of_reg {a : BitVec 8} {r : RegName} (h : regOfAddr a = some r) (s : State) :
    readAddr a s = readReg r s := by
  rw [readAddr, h]

theorem writeAddr_of_reg {a : BitVec 8} {r : RegName} (h : regOfAddr a = some r) (v : Word) (s : State) :
    writeAddr a v s = writeReg r v s := by
  rw [writeAddr, h]

/-! ## Reading (46_host_commands R434) -/

/-- Settles O15: the event is its words, and each address names its register. -/
theorem nopIsSilentAndRdregOnlyReports : Obligations.NopIsSilentAndRdregOnlyReports := by
  refine ⟨fun s => rfl, fun a s => ?_, fun s => ?_⟩
  · rw [← eventWords_regVal]
    rfl
  · refine ⟨zeroExtend_eq_ofNat 32 s.ctrl, rfl, rfl, zeroExtend_eq_ofNat 32 s.syncLen, rfl, rfl, rfl, rfl,
      rfl, rfl, rfl, rfl, fun c => ?_⟩
    rw [readAddr_of_reg (regOfAddr_duidMap c)]
    exact duidToWord_eq _

/-! ## Writing (46_host_commands R433) -/

theorem exec_wrreg_of_reg {a : BitVec 8} {r : RegName} (h : regOfAddr a = some r) {v : Word} {s t : State}
    (hw : writeReg r v s = t) : exec (.wrreg a v) s = .next t :=
  congrArg Host.Outcome.next ((writeAddr_of_reg h v s).trans hw)

theorem writeReg_syncLen (v : Word) (s : State) : writeReg .syncLen v s =
    if 1 ≤ v.toNat % 128 ∧ v.toNat % 128 ≤ 64 then { s with syncLen := BitVec.ofNat 7 v.toNat } else s := by
  rw [writeReg, lowField_toNat]
  rfl

theorem writeReg_statusInit (v : Word) (s : State) : writeReg .statusInit v s =
    if v.toNat % 64 ≤ 35 then { s with statusInit := Fin.ofNat 36 (v.toNat % 64) } else s := by
  have hlow : (v.extractLsb' 0 6).toNat = v.toNat % 64 := lowField_toNat v 6
  rw [writeReg]
  by_cases h : v.toNat % 64 ≤ 35
  · have hlt : (v.extractLsb' 0 6).toNat < 36 := by omega
    have hinit : (⟨(v.extractLsb' 0 6).toNat, hlt⟩ : Fin 36) = Fin.ofNat 36 (v.toNat % 64) :=
      Fin.ext (hlow.trans (Nat.mod_eq_of_lt (by omega)).symm)
    rw [dif_pos hlt, if_pos h, hinit]
  · rw [dif_neg (by omega), if_neg h]

theorem writeReg_fmax (v : Word) (s : State) : writeReg .fmax v s =
    if v.getLsbD 31 = false ∧ v.toNat / 2 ^ 23 % 256 ≠ 0xFF then { s with fmax := v } else s :=
  if_ctx_congr (fmaxLegal_iff v) (fun _ => rfl) (fun _ => rfl)

/-- Settles O18: each address names its register, and the conditional ones store by their lemmas. -/
theorem wrregStoresLegalFields : Obligations.WrregStoresLegalFields := by
  intro v s
  exact ⟨rfl, rfl, rfl, exec_wrreg_of_reg rfl (writeReg_syncLen v s),
    exec_wrreg_of_reg rfl (writeReg_statusInit v s), exec_wrreg_of_reg rfl (writeReg_fmax v s),
    fun c => ⟨duidOfWord v, exec_wrreg_of_reg (regOfAddr_duidMap c) rfl, rfl, target_duidOfWord v⟩⟩

/-! ## Reading back -/

/-- A conditional register's write stores something there, be it the old value. -/
theorem writeReg_conditional (v : Word) (s : State) :
    (∃ p, writeReg .syncLen v s = { s with syncLen := p }) ∧
    (∃ p, writeReg .statusInit v s = { s with statusInit := p }) ∧
    (∃ p, writeReg .fmax v s = { s with fmax := p }) := by
  rw [writeReg_syncLen, writeReg_statusInit, writeReg_fmax]
  refine ⟨?_, ?_, ?_⟩ <;>
    · split <;> exact ⟨_, rfl⟩

/-- A write of one register leaves what every other reads. -/
theorem readReg_writeReg_of_ne {q r : RegName} (h : q ≠ r) (v : Word) (s : State) :
    readReg q (writeReg r v s) = readReg q s := by
  obtain ⟨⟨_, hlen⟩, ⟨_, hinit⟩, ⟨_, hfmax⟩⟩ := writeReg_conditional v s
  cases r with
  | ctrl =>
    cases q with
    | ctrl => exact absurd rfl h
    | _ => rfl
  | syncPatLo =>
    cases q with
    | syncPatLo => exact absurd rfl h
    | _ => rfl
  | syncPatHi =>
    cases q with
    | syncPatHi => exact absurd rfl h
    | _ => rfl
  | syncLen =>
    rw [hlen]
    cases q with
    | syncLen => exact absurd rfl h
    | _ => rfl
  | statusInit =>
    rw [hinit]
    cases q with
    | statusInit => exact absurd rfl h
    | _ => rfl
  | fmax =>
    rw [hfmax]
    cases q with
    | fmax => exact absurd rfl h
    | _ => rfl
  | duidMap c =>
    cases q with
    | duidMap d =>
      have hne : c.toNat ≠ d.toNat := fun hcd => h (congrArg _ (BitVec.eq_of_toNat_eq hcd.symm))
      exact congrArg duidToWord (Vector.getElem_set_ne c.isLt d.isLt hne)
    | _ => rfl
  | status | dropCnt | fecResult | costasPhase | costasFreq | gardnerOmega | gardnerMu => rfl

theorem readAddr_writeAddr_of_ne {a b : BitVec 8} (h : b ≠ a) (v : Word) (s : State) :
    readAddr b (writeAddr a v s) = readAddr b s := by
  cases hb : regOfAddr b with
  | none => rw [readAddr, readAddr, hb]
  | some q =>
    cases ha : regOfAddr a with
    | none => rw [writeAddr, ha]
    | some r =>
      rw [writeAddr_of_reg ha, readAddr_of_reg hb, readAddr_of_reg hb, readReg_writeReg_of_ne]
      rintro rfl
      exact h ((addrOfReg_of_regOfAddr hb).symm.trans (addrOfReg_of_regOfAddr ha))

theorem readReg_writeReg_duidMap (c : BitVec 4) (v : Word) (s : State) :
    readReg (.duidMap c) (writeReg (.duidMap c) v s) = duidToWord (duidOfWord v) :=
  congrArg duidToWord (Vector.getElem_set_self c.isLt)

theorem readReg_writeReg_syncLen {v : Word} (h1 : 1 ≤ v.toNat % 128) (h64 : v.toNat % 128 ≤ 64)
    (s : State) : readReg .syncLen (writeReg .syncLen v s) = v &&& 0x0000007F#32 := by
  rw [writeReg_syncLen, if_pos ⟨h1, h64⟩]
  exact lowField_eq_and_mask v 7

theorem readReg_writeReg_statusInit {v : Word} (h : v.toNat % 64 ≤ 35) (s : State) :
    readReg .statusInit (writeReg .statusInit v s) = v &&& 0x0000003F#32 := by
  have hval : (Fin.ofNat 36 (v.toNat % 64)).val = (v.extractLsb' 0 6).toNat :=
    (Nat.mod_eq_of_lt (by omega)).trans (lowField_toNat v 6).symm
  have hmask : (v.extractLsb' 0 6).zeroExtend 32 = v &&& 0x0000003F#32 := lowField_eq_and_mask v 6
  rw [writeReg_statusInit, if_pos h, ← hmask, zeroExtend_eq_ofNat, ← hval]
  rfl

theorem readReg_writeReg_fmax {v : Word} (h : v.toNat < 0x7F800000) (s : State) :
    readReg .fmax (writeReg .fmax v s) = v := by
  rw [writeReg, if_pos (fmaxLegal_of_lt h)]
  rfl

/-- Settles O19: the address names the register, whose field reads back under its mask. -/
theorem registersReadBackWhatWasWritten : Obligations.RegistersReadBackWhatWasWritten := by
  intro a v s
  refine ⟨writeAddr a v s, rfl, fun b hb => readAddr_writeAddr_of_ne hb v s, fun h => ?_, fun h => ?_,
    fun h h1 h64 => ?_, fun h hle => ?_, fun h hlt => ?_, fun h => ?_⟩
  · obtain rfl : a = 0x00#8 := BitVec.eq_of_toNat_eq h
    exact lowField_eq_and_mask v 4
  · rcases h with h | h
    · obtain rfl : a = 0x02#8 := BitVec.eq_of_toNat_eq h
      rfl
    · obtain rfl : a = 0x03#8 := BitVec.eq_of_toNat_eq h
      rfl
  · obtain rfl : a = 0x04#8 := BitVec.eq_of_toNat_eq h
    exact readReg_writeReg_syncLen h1 h64 s
  · obtain rfl : a = 0x05#8 := BitVec.eq_of_toNat_eq h
    exact readReg_writeReg_statusInit hle s
  · obtain rfl : a = 0x06#8 := BitVec.eq_of_toNat_eq h
    exact readReg_writeReg_fmax hlt s
  · obtain ⟨c, rfl⟩ := exists_duidMap_addr h
    rw [writeAddr_of_reg (regOfAddr_duidMap c), readAddr_of_reg (regOfAddr_duidMap c),
      readReg_writeReg_duidMap]
    exact duidToWord_duidOfWord v

end Sys2Proof.Machine
end

section
/-! O5, O7: the step at the command cursor, when no slot is due (46_host_commands R430, 10_state R31,
70_reset R522). -/

namespace Sys2Proof.Machine

/-- Every instruction has a meaning and none stops the block (60_exceptions R476). -/
theorem exists_exec_eq_next (i : Instr) (s : State) : ∃ t, exec i s = .next t := by
  cases i <;> exact ⟨_, rfl⟩

theorem fetch_of_not_due {s : State} (h0 : slotDue s.slot0 = false) (h1 : slotDue s.slot1 = false) :
    fetch s = .command (decode (s.stream.drop s.cc)) := by
  simp [fetch, h0, h1]

/-- Settles O5: the command is what is fetched, and it does not move the cursor itself. -/
theorem stepRunsTheDecodedCommand : Obligations.StepRunsTheDecodedCommand := by
  intro s i n h0 h1 hdec
  obtain ⟨t, ht⟩ := exists_exec_eq_next i s
  obtain ⟨-, hcc, -⟩ := onlyWrregChangesConfiguration i s t ht
  refine ⟨t, ht, hcc, ?_⟩
  rw [step, fetch_of_not_due h0 h1, hdec, ← hcc]
  exact congrArg (afterExec (advance n)) ht

/-- A header whose payload has not all arrived: its OPC is assigned, for an unassigned one is one word long
(30_encoding R112). -/
theorem decode_incomplete {h : Word} {rest : List Word} (hlen : 1 + rest.length < headerLength h) :
    decode (h :: rest) = .incomplete := by
  cases hop : opcodeOfNum (headerOpc h) with
  | none =>
    rw [headerLength_unassigned hop] at hlen
    omega
  | some op =>
    rw [headerLength_of_opcodeOfNum hop] at hlen
    have hpayload : rest.length < payloadWords op := by omega
    simp [decode, hop, hpayload]

/-- Settles O7: whether all or some words are absent, the decoder finds no complete command. -/
theorem stepAwaitsAbsentWords : Obligations.StepAwaitsAbsentWords := by
  intro s h0 h1 habsent
  have hdec : decode (s.stream.drop s.cc) = .incomplete := by
    obtain hempty | ⟨h, rest, hwords, hlen⟩ := habsent
    · rw [hempty]
      rfl
    · rw [hwords]
      exact decode_incomplete hlen
  rw [step, fetch_of_not_due h0 h1, hdec]

end Sys2Proof.Machine
end

section
/-! O36, O50: the stream input commands DIBIT8 and SAMPLE, by what the dibit path and the synchronizer touch
(46_host_commands R445, R447). -/

namespace Sys2Proof.Machine

open Config (Params)

/-- Settles O36: the dibits are folded one by one. -/
theorem dibit8FeedsItsDibitsInOrder : Obligations.Dibit8FeedsItsDibitsInOrder := by
  intro ds s
  refine ⟨dibitsStep Config.params ds s, rfl, touchesDibitPath_dibitsStep _ ds s, ?_, ?_⟩
  · rintro rfl
    rfl
  · rintro d rest rfl
    exact ⟨dibitStep Config.params d s, rfl, rfl⟩

theorem sameFec_sampleStep (P : Params) (x : Cplx) (s : State) : sameFec s (sampleStep P x s) := by
  obtain ⟨ds, u, ⟨_, _, _, _, _, _, _, _, rfl⟩, ht⟩ := sampleStep_dibits P x s
  obtain ⟨_, _, _, _, _, _, _, _, hd⟩ := touchesDibitPath_dibitsStep P ds _
  rw [ht, hd]
  exact ⟨rfl, rfl⟩

/-- Only the per-sample part writes the delay line; a symbol reads it (40_synchronizer R155 to R157). -/
theorem sampleStep_delayLine (P : Params) (x : Cplx) (s : State) :
    (sampleStep P x s).wi = s.wi + 1 ∧ ∃ e, (sampleStep P x s).dl = s.dl.set s.wi.val e := by
  unfold sampleStep
  split
  · obtain ⟨-, -, -, -, -, hdl, hwi⟩ := sameSync_symbolStep P (sampleFront P x s)
    exact ⟨hwi, _, hdl⟩
  · exact ⟨rfl, _, rfl⟩

/-- Settles O50: SAMPLE is no WRREG, sets no fault of its own, and writes the delay line once. -/
theorem sampleKeepsConfigurationAndScratch : Obligations.SampleKeepsConfigurationAndScratch := by
  intro x y s
  obtain ⟨t, ht⟩ := exists_exec_eq_next (.sample x y) s
  obtain ⟨-, -, hconfig⟩ := onlyWrregChangesConfiguration _ s t ht
  have hfault := stickyFaultBitsStaySet.2 _ s t ht
  refine ⟨t, ht, hconfig (fun _ _ h => nomatch h), ?_⟩
  cases ht
  exact ⟨sameFec_sampleStep _ _ s, hfault, sampleStep_delayLine _ _ s⟩

end Sys2Proof.Machine
end

section
/-! O8, O38: taking the two faults, ILLEGAL_CMD at the command cursor and BUFFER_FULL at an assembler slot
(60_exceptions R470 to R473). -/

namespace Sys2Proof.Machine

open Config (Params)

/-! ## The FAULT event (30_encoding R124) -/

theorem eventWords_bufferFull (k : SlotId) :
    eventWords (.fault (.bufferFull k)) = [BitVec.ofNat 32 (0x03 * 2 ^ 24 + slotNum k * 2 ^ 8 + 1)] := by
  cases k <;> rfl

/-- The opcode stands between the event's code and the fault's, so the word is their sum. -/
theorem faultWord_illegalCmd (opc : BitVec 8) :
    faultWord (.illegalCmd opc) = BitVec.ofNat 32 (0x03 * 2 ^ 24 + opc.toNat * 2 ^ 16 + 2) := by
  have hopc := opc.isLt
  calc faultWord (.illegalCmd opc)
      = (BitVec.ofNat 32 (0x03 * 2 ^ 24) ||| BitVec.ofNat 32 2) ||| BitVec.ofNat 32 (opc.toNat * 2 ^ 16) := by
        rw [faultWord, zeroExtend_eq_ofNat, ofNat_shiftLeft]
        rfl
    _ = (BitVec.ofNat 32 (0x03 * 2 ^ 24) ||| BitVec.ofNat 32 (opc.toNat * 2 ^ 16)) ||| BitVec.ofNat 32 2 := by
        rw [BitVec.or_assoc, BitVec.or_comm (BitVec.ofNat 32 2), ← BitVec.or_assoc]
    _ = BitVec.ofNat 32 (0x03 * 2 ^ 24 + opc.toNat * 2 ^ 16 + 2) := by
        rw [ofNat_or_ofNat 24 (by decide) (by omega), ofNat_or_ofNat 16 (by omega) (by decide)]

/-! ## ILLEGAL_CMD (60_exceptions R473) -/

theorem skipIllegal_eq (opc : BitVec 8) (n : Nat) (s : State) :
    skipIllegal opc n s = { s with
      cc := s.cc + n
      faultIllegalCmd := true
      events := s.events ++ [BitVec.ofNat 32 (0x03 * 2 ^ 24 + opc.toNat * 2 ^ 16 + 2)] } := by
  rw [← faultWord_illegalCmd]
  rfl

/-- Settles O8: an illegal header decodes as one (O3), and such a command is skipped. -/
theorem illegalHeaderOnlyRaisesIllegalCmd : Obligations.IllegalHeaderOnlyRaisesIllegalCmd := by
  intro s h rest h0 h1 hwords hlen hillegal
  obtain ⟨-, hdecode⟩ := legalHeadersAreTheTableRows h rest hlen
  obtain ⟨why, hdec⟩ := hdecode hillegal
  rw [step, fetch_of_not_due h0 h1, hwords, hdec, ofNat_opcOf, opcOf_eq]
  exact congrArg Host.Outcome.next (skipIllegal_eq (headerOpc h) (headerLength h) s)

/-! ## BUFFER_FULL (60_exceptions R471, R472) -/

/-- The fault's action on a slot in the middle of a dibit: only the counter of what the slot held stays. -/
theorem raiseFault_bufferFull_setSlot (k : SlotId) (v : Slot) (s : State) :
    raiseFault (.bufferFull k) (s.setSlot k v) = { s.setSlot k ⟨false, false, .nid, [], 64, v.ctr⟩ with
      faultBufferFull := true
      faultSlot := k
      events := s.events ++ [BitVec.ofNat 32 (0x03 * 2 ^ 24 + slotNum k * 2 ^ 8 + 1)] } := by
  rw [← eventWords_bufferFull]
  cases k <;> rfl

/-- An active slot that faults does not go through the full check (42_sync R240). -/
theorem asmSlot_faulted (P : Params) {k : SlotId} {d : Dibit} {s t : State}
    (h : (s.slot k).active = true) (hr : asmReceive k d s = (t, false)) : asmSlot P k d s = t := by
  simp [asmSlot, h, hr]

/-- Settles O38: whichever bit of the dibit finds the buffer full, the reset leaves the same slot. -/
theorem appendPastCapacityRaisesBufferFull : Obligations.AppendPastCapacityRaisesBufferFull := by
  intro P k d s hactive hctr hfull
  obtain hfirst | hsecond := hfull
  · rw [asmSlot_faulted P hactive (asmReceive_full_first k d s hctr hfirst),
      raiseFault_bufferFull_setSlot]
  · rw [asmSlot_faulted P hactive (asmReceive_full_second k d s hctr hsecond),
      raiseFault_bufferFull_setSlot]

end Sys2Proof.Machine
end

section
/-! O9, O12, O14, O56: the reset states and the progress of the step (70_reset R500 to R502, R522). -/

namespace Sys2Proof.Machine

/-! ## The reset values (70_reset R500) -/

theorem toBits_zero : F32.zero.toBits = 0#32 := by decide +kernel

/-- The reset pattern of ω and μ is no NaN's, so it reads back (20_memory R83). -/
theorem toBits_omegaNom : (F32.ofBits Config.omegaNom).toBits = 0x41200000#32 :=
  F32.toBits_ofBits ((F32.ofBits_ne_nan_iff Config.omegaNom).2 (by decide))

/-- Every tap of the delay line is +0.0 at reset (10_state R53). -/
theorem get_reset_dl (i : Fin 32) : State.reset.dl.get i = Cplx.zero := by
  simp [State.reset, Vector.get_eq_getElem]

theorem slot_reset (k : SlotId) : State.reset.slot k = ⟨false, false, .nid, [], 64, 24⟩ := by
  cases k <;> rfl

/-- Settles O12: the registers hold their values as written, the loop state as its patterns read. -/
theorem hardResetHoldsItsValues : Obligations.HardResetHoldsItsValues := by
  refine ⟨rfl, rfl, rfl, rfl, rfl, rfl, rfl, rfl, rfl, rfl, rfl, rfl, rfl, toBits_zero, toBits_zero,
    toBits_omegaNom, toBits_omegaNom, toBits_zero, toBits_zero, fun i => ?_, rfl, rfl, rfl, rfl, rfl,
    fun k => ?_⟩
  · rw [get_reset_dl]
    exact ⟨toBits_zero, toBits_zero⟩
  · rw [slot_reset]
    exact ⟨rfl, rfl, rfl, rfl, rfl, rfl⟩

/-- Settles O14: SRESET is the soft reset, whose zeros are the pattern 0x00000000 of +0.0. -/
theorem sresetRestartsTheDatapath : Obligations.SresetRestartsTheDatapath := by
  intro s
  rw [ofBits_zero]
  rfl

/-! ## The invariants at reset (10_state R59) -/

/-- Idle slots hold the slot invariant, and every LEN of the reset map is even (10_state R46). -/
theorem slotsHold_reset : slotsHold True State.reset :=
  ⟨fun k => by cases k <;> exact slotHolds_idle 24, fun _ => by decide⟩

theorem regsLegal_reset : regsLegal State.reset = true :=
  (regsLegal_iff State.reset).2 ⟨by decide, by decide, by decide⟩

/-- Settles O56: the slots and the map by `slotsHold_reset`, the rest by its own invariant. -/
theorem hardResetStateIsSafe : Obligations.HardResetStateIsSafe := by
  obtain ⟨hslots, heven, hmap⟩ := (slotsHold_true_iff State.reset).1 slotsHold_reset
  refine ⟨?_, heven, hmap⟩
  rw [stateSafe, hslots, regsLegal_reset, syncSafe_reset]
  rfl

/-! ## The progress of the step (70_reset R522) -/

/-- No step halts the block: what is fetched has a meaning, is skipped, or is waited for. -/
theorem exists_step_eq_next (s : State) : ∃ t, step s = .next t := by
  unfold step
  split
  · next k i _ =>
    obtain ⟨u, hu⟩ := exists_exec_eq_next i s
    exact ⟨finishHandler k u, congrArg (afterExec (finishHandler k)) hu⟩
  · exact ⟨s, rfl⟩
  · next i n _ =>
    obtain ⟨u, hu⟩ := exists_exec_eq_next i s
    exact ⟨advance n u, congrArg (afterExec (advance n)) hu⟩
  · exact ⟨_, rfl⟩
  · exact ⟨s, rfl⟩

/-- From `s` to `t` the cursor does not move back, the host's words stay, and events are only appended
(10_state R31, 30_encoding R110, R120). -/
def goesForward (s t : State) : Prop :=
  s.cc ≤ t.cc ∧ t.stream = s.stream ∧ ∃ ev, t.events = s.events ++ ev

theorem goesForward_refl (s : State) : goesForward s s :=
  ⟨le_rfl, rfl, [], (List.append_nil _).symm⟩

theorem goesForward_trans {s t u : State} (h : goesForward s t) (h' : goesForward t u) :
    goesForward s u := by
  obtain ⟨hcc, hstream, ev, hev⟩ := h
  obtain ⟨hcc', hstream', ev', hev'⟩ := h'
  exact ⟨hcc.trans hcc', hstream'.trans hstream, ev ++ ev', by rw [hev', hev, List.append_assoc]⟩

/-- An instruction only appends to the event stream (30_encoding R120). -/
theorem events_exec {i : Instr} {s t : State} (h : exec i s = .next t) :
    ∃ ev, t.events = s.events ++ ev := by
  cases exec_effect h with
  | scratch ht =>
    obtain ⟨scr, fr, ev, rfl⟩ := ht
    exact ⟨ev, rfl⟩
  | register a v _ ht =>
    obtain ⟨c, lo, hi, sl, si, fm, dm, hw⟩ := writeAddr_frame a v s
    rw [ht, hw]
    exact ⟨[], (List.append_nil _).symm⟩
  | reset ht =>
    rw [ht]
    exact ⟨[], (List.append_nil _).symm⟩
  | dibits ds u hu ht =>
    obtain ⟨ph, f, o, m, p, dl, wi, ev, rfl⟩ := hu
    obtain ⟨bf, fs, dc, w, n, a, b, ev', hd⟩ := touchesDibitPath_dibitsStep Config.params ds _
    rw [ht, hd]
    exact ⟨ev ++ ev', List.append_assoc _ _ _⟩
  | handler k c _ ht =>
    obtain ⟨v, ev, rfl⟩ := ht
    exact ⟨ev, rfl⟩

/-- An instruction leaves the cursor where it is (O10). -/
theorem goesForward_exec {i : Instr} {s t : State} (h : exec i s = .next t) : goesForward s t := by
  obtain ⟨hstream, hcc, -⟩ := onlyWrregChangesConfiguration i s t h
  exact ⟨hcc.ge, hstream, events_exec h⟩

theorem goesForward_advance (n : Nat) (s : State) : goesForward s (advance n s) :=
  ⟨Nat.le_add_right s.cc n, rfl, [], (List.append_nil _).symm⟩

/-- The reset of a completed slot is silent (42_sync R231). -/
theorem goesForward_finishHandler (k : SlotId) (s : State) : goesForward s (finishHandler k s) := by
  unfold finishHandler
  split <;> exact goesForward_refl s

/-- ILLEGAL_CMD appends its event and moves the cursor past the command (60_exceptions R473). -/
theorem goesForward_skipIllegal (opc : BitVec 8) (n : Nat) (s : State) :
    goesForward s (skipIllegal opc n s) := by
  rw [skipIllegal_eq]
  exact ⟨Nat.le_add_right s.cc n, rfl, _, rfl⟩

theorem goesForward_step {s t : State} (h : step s = .next t) : goesForward s t := by
  cases step_effect h with
  | wait ht => exact ht ▸ goesForward_refl s
  | illegal opc n ht => exact ht ▸ goesForward_skipIllegal opc n s
  | command i n u _ hu ht =>
    exact ht ▸ goesForward_trans (goesForward_exec hu) (goesForward_advance n u)
  | handler k i u _ hu ht =>
    exact ht ▸ goesForward_trans (goesForward_exec hu) (goesForward_finishHandler k u)

/-- Settles O9: there is a next state, and every way of stepping goes forward. -/
theorem everyStepGoesOn : Obligations.EveryStepGoesOn := by
  intro s
  obtain ⟨t, ht⟩ := exists_step_eq_next s
  obtain ⟨hcc, hstream, ev, hev⟩ := goesForward_step ht
  exact ⟨t, ev, ht, hcc, hstream, hev⟩

end Sys2Proof.Machine
end
